-- ==== Sys2Proof/Word.lean ====
section
/-! DEFINITION. The words of the Plynril (R4): bit 0 is the least significant bit. -/

namespace Sys2Proof

abbrev W8 := BitVec 8
abbrev W16 := BitVec 16
abbrev W32 := BitVec 32
abbrev W64 := BitVec 64
abbrev W128 := BitVec 128

/-- One bit for each of the 96 lanes of a group, lane l in bit l (R37, R38). -/
abbrev LaneMask := BitVec 96

/-- A store keyed by numbers in its one canonical form: keys strictly rising and no zero value listed, so that equal
contents are equal data. A key that is not listed holds 0. -/
abbrev SMap (n : Nat) := List (Nat × BitVec n)

end Sys2Proof
end

