-- ==== Sys2Proof/Machine/Maps.lean ====
section
/-! DEFINITION. Reading and writing the keyed stores, the byte lists of memory, and little bit helpers. -/

namespace Sys2Proof.Machine

/-- The value at key k, 0 if it is not listed. -/
def SMap.get {n : Nat} (m : SMap n) (k : Nat) : BitVec n :=
  match m with
  | [] => 0#n
  | (k', v) :: rest => if k' = k then v else SMap.get rest k

/-- Drop key k. -/
def SMap.erase {n : Nat} (m : SMap n) (k : Nat) : SMap n :=
  m.filter fun c => c.1 != k

/-- Insert a value that is not 0 at its place. -/
def SMap.insert {n : Nat} (m : SMap n) (k : Nat) (v : BitVec n) : SMap n :=
  match m with
  | [] => [(k, v)]
  | (k', v') :: rest =>
    if k < k' then (k, v) :: (k', v') :: rest
    else if k = k' then (k, v) :: rest
    else (k', v') :: SMap.insert rest k v

/-- Write v at key k and keep the canonical form. -/
def SMap.set {n : Nat} (m : SMap n) (k : Nat) (v : BitVec n) : SMap n :=
  if v = 0#n then SMap.erase m k else SMap.insert m k v

/-- Keys strictly rising, all above lo (exclusive), and no 0 listed. -/
def SMap.wfFrom {n : Nat} : Option Nat → SMap n → Bool
  | _, [] => true
  | lo, (k, v) :: rest => (match lo with | none => true | some b => decide (b < k)) && v != 0#n && SMap.wfFrom (some k) rest

/-- The canonical form. -/
def SMap.wf {n : Nat} (m : SMap n) : Bool := SMap.wfFrom none m

/-- Write several keys, in order. -/
def SMap.setAll {n : Nat} (m : SMap n) (kvs : List (Nat × BitVec n)) : SMap n :=
  kvs.foldl (fun acc kv => SMap.set acc kv.1 kv.2) m

/-- A store of the values f 0, ..., f (k - 1). -/
def SMap.ofFn {n : Nat} (k : Nat) (f : Nat → BitVec n) : SMap n :=
  ((List.range k).map fun i => (i, f i)).filter fun c => c.2 != 0#n

/-- The values of n keys from key k on. -/
def SMap.dense {w : Nat} (m : SMap w) (k : Nat) : Nat → List (BitVec w)
  | 0 => []
  | n + 1 =>
    match m with
    | [] => 0#w :: SMap.dense [] (k + 1) n
    | (k', v) :: rest => if k' = k then v :: SMap.dense rest (k + 1) n else 0#w :: SMap.dense m (k + 1) n

/-- The lanes of a mask, ascending. -/
def lanesOf (m : LaneMask) : List Nat := (List.range 96).filter fun l => m.getLsbD l

/-- The mask of a list of lanes. -/
def maskOf (ls : List Nat) : LaneMask := ls.foldl (fun m l => m ||| (1#96 <<< l)) 0#96

/-- The mask of lanes 0 to n - 1. -/
def lowLanes (n : Nat) : LaneMask := BitVec.ofNat 96 (2 ^ n - 1)

/-- How many lanes a mask holds. -/
def countLanes (m : LaneMask) : Nat := (lanesOf m).length

/-- Bytes to a number, the first byte least significant (R5). -/
def leNat : List (BitVec 8) → Nat
  | [] => 0
  | b :: rest => b.toNat + 256 * leNat rest

/-- A number to k bytes, least significant first (R5). -/
def leBytes : Nat → Nat → List (BitVec 8)
  | 0, _ => []
  | k + 1, x => BitVec.ofNat 8 x :: leBytes k (x / 256)

/-- Bits [hi:lo] of a number. -/
def bitsOf (x hi lo : Nat) : Nat := x / 2 ^ lo % 2 ^ (hi + 1 - lo)

/-- SignExt(x, n) of R100, as an integer. -/
def signExt (x n : Nat) : Int := if x % 2 ^ n < 2 ^ (n - 1) then Int.ofNat (x % 2 ^ n) else Int.ofNat (x % 2 ^ n) - 2 ^ n

/-- An integer mod 2^n. -/
def modPow (x : Int) (n : Nat) : Nat := (x % (2 ^ n : Int)).toNat

/-- Replace the element at index i. -/
def setAt {α : Type} : List α → Nat → α → List α
  | [], _, _ => []
  | _ :: rest, 0, x => x :: rest
  | y :: rest, i + 1, x => y :: setAt rest i x

/-- Insertion into a list sorted by a key. -/
def insertBy {α : Type} (key : α → Nat) (x : α) : List α → List α
  | [] => [x]
  | y :: rest => if key x < key y then x :: y :: rest else y :: insertBy key x rest

/-- Stable sort by a key. -/
def sortBy {α : Type} (key : α → Nat) (xs : List α) : List α :=
  xs.foldl (fun acc x => insertBy key x acc) []

/-- The distinct elements, in order of first appearance. -/
def distinct {α : Type} [DecidableEq α] : List α → List α
  | [] => []
  | x :: rest => x :: (distinct rest).filter fun y => y ≠ x

/-- Cut a list into runs of at most k. -/
def chunksOf {α : Type} (k : Nat) : Nat → List α → List (List α)
  | 0, _ => []
  | _ + 1, [] => []
  | fuel + 1, xs => xs.take k :: chunksOf k fuel (xs.drop k)

end Sys2Proof.Machine
end

