-- ==== Sys2Proof/Machine/Float.lean ====
section
/-! DEFINITION. Floating formats, exact values and rounding (07 R193, R194, R200, R201): every result is formed exactly and
rounded once. -/

namespace Sys2Proof.Machine

/-- R193, Table 7-1: exponent and fraction widths; e4m3 marks FP8E4M3, which has no infinity and one NaN fraction. -/
structure Fmt where
  ebits : Nat
  mbits : Nat
  e4m3 : Bool
  deriving DecidableEq, Repr

def fp64 : Fmt := ⟨11, 52, false⟩
def fp32 : Fmt := ⟨8, 23, false⟩
def fp16 : Fmt := ⟨5, 10, false⟩
def bf16 : Fmt := ⟨8, 7, false⟩
def fp8e4m3 : Fmt := ⟨4, 3, true⟩
def fp8e5m2 : Fmt := ⟨5, 2, false⟩

def Fmt.bias (f : Fmt) : Nat := 2 ^ (f.ebits - 1) - 1
def Fmt.width (f : Fmt) : Nat := 1 + f.ebits + f.mbits
/-- Exponent of the smallest normal. -/
def Fmt.emin (f : Fmt) : Int := 1 - Int.ofNat f.bias
/-- Exponent of the largest finite value. -/
def Fmt.emax (f : Fmt) : Int := Int.ofNat (2 ^ f.ebits - (if f.e4m3 then 1 else 2)) - Int.ofNat f.bias
/-- Significand of the largest finite value. -/
def Fmt.maxSig (f : Fmt) : Nat := 2 ^ (f.mbits + 1) - (if f.e4m3 then 2 else 1)
def Fmt.signBit (f : Fmt) (neg : Bool) : Nat := if neg then 2 ^ (f.ebits + f.mbits) else 0

/-- R194, Table 7-1: the canonical NaN, positive and quiet. -/
def Fmt.canonNaN (f : Fmt) : Nat :=
  if f.e4m3 then 2 ^ (f.ebits + f.mbits) - 1 else (2 ^ f.ebits - 1) * 2 ^ f.mbits + 2 ^ (f.mbits - 1)

/-- The infinity pattern; FP8E4M3 has none and takes its NaN (R200). -/
def Fmt.infBits (f : Fmt) (neg : Bool) : Nat :=
  if f.e4m3 then f.canonNaN else f.signBit neg + (2 ^ f.ebits - 1) * 2 ^ f.mbits

/-- The pattern of the largest finite value. -/
def Fmt.maxBits (f : Fmt) (neg : Bool) : Nat :=
  f.signBit neg + (2 ^ f.ebits - (if f.e4m3 then 1 else 2)) * 2 ^ f.mbits + (f.maxSig - 2 ^ f.mbits)

/-- An exact value: a NaN, an infinity, or (-1)^neg * m * 2^e. -/
inductive FVal where
  | nan (signalling : Bool)
  | inf (neg : Bool)
  | fin (neg : Bool) (m : Nat) (e : Int)
  deriving DecidableEq, Repr

/-- The four rounding modes (Table 3-8). -/
inductive Rnd where
  | rne | rtz | rup | rdn
  deriving DecidableEq, Repr

/-- R205, Table 7-7: the sticky flags, as bits of GSTAT. -/
def fIDZ : W8 := 1#8
def fIOV : W8 := 2#8
def fFIN : W8 := 4#8
def fFUF : W8 := 8#8
def fFOF : W8 := 16#8
def fFNV : W8 := 32#8
def fQSAT : W8 := 64#8
def fQUNF : W8 := 128#8

/-- R193: the value of a pattern. -/
def FVal.decode (f : Fmt) (x : Nat) : FVal :=
  let M := x % 2 ^ f.mbits
  let E := x / 2 ^ f.mbits % 2 ^ f.ebits
  let neg := x / 2 ^ (f.ebits + f.mbits) % 2 == 1
  if E = 2 ^ f.ebits - 1 ∧ f.e4m3 = false then
    if M = 0 then .inf neg else .nan (decide (M < 2 ^ (f.mbits - 1)))
  else if E = 2 ^ f.ebits - 1 ∧ M = 2 ^ f.mbits - 1 then .nan false
  else if E = 0 then .fin neg M (1 - Int.ofNat f.bias - Int.ofNat f.mbits)
  else .fin neg (M + 2 ^ f.mbits) (Int.ofNat E - Int.ofNat f.bias - Int.ofNat f.mbits)

def FVal.isNaN : FVal → Bool
  | .nan _ => true
  | _ => false
def FVal.isSig : FVal → Bool
  | .nan b => b
  | _ => false
def FVal.isZero : FVal → Bool
  | .fin _ 0 _ => true
  | _ => false
def FVal.neg? : FVal → Bool
  | .nan _ => false
  | .inf n => n
  | .fin n _ _ => n
def FVal.negate : FVal → FVal
  | .nan b => .nan b
  | .inf n => .inf !n
  | .fin n m e => .fin (!n) m e

/-- An integer as an exact value; zero is +0. -/
def FVal.ofInt (i : Int) : FVal := .fin (decide (i < 0)) i.natAbs 0

/-- Round the magnitude m * 2^e to a multiple of 2^q: the multiple, and whether it is inexact. -/
def quantize (mode : Rnd) (neg : Bool) (m : Nat) (e q : Int) : Nat × Bool :=
  if q ≤ e then (m * 2 ^ (e - q).toNat, false)
  else
    let k := (q - e).toNat
    let n := m / 2 ^ k
    let r := m % 2 ^ k
    if r = 0 then (n, false)
    else
      let up := match mode with
        | .rne => decide (2 * r > 2 ^ k) || (decide (2 * r = 2 ^ k) && n % 2 == 1)
        | .rtz => false
        | .rup => !neg
        | .rdn => neg
      (if up then n + 1 else n, true)

/-- A rounded result: pattern, flags of R201, and whether it overflowed. -/
structure Rounded where
  bits : Nat
  flags : W8
  huge : Bool
  deriving DecidableEq, Repr

/-- Table 7-4: whether an overflow goes to infinity. -/
def overToInf (mode : Rnd) (neg : Bool) : Bool :=
  match mode with
  | .rne => true
  | .rtz => false
  | .rup => !neg
  | .rdn => neg

/-- The pattern of n * 2^q, n below or at 2^(mbits + 1). -/
def Fmt.pack (f : Fmt) (neg : Bool) (n : Nat) (q : Int) : Nat :=
  if n < 2 ^ f.mbits then f.signBit neg + n
  else
    let n' := if n = 2 ^ (f.mbits + 1) then 2 ^ f.mbits else n
    let q' := if n = 2 ^ (f.mbits + 1) then q + 1 else q
    f.signBit neg + (q' + Int.ofNat f.mbits + Int.ofNat f.bias).toNat * 2 ^ f.mbits + (n' - 2 ^ f.mbits)

/-- R200, R201: Round of a finite exact value. -/
def roundFin (f : Fmt) (mode : Rnd) (neg : Bool) (m : Nat) (e : Int) : Rounded :=
  if m = 0 then ⟨f.signBit neg, 0#8, false⟩
  else
    let E : Int := Int.ofNat (Nat.log2 m) + e
    let mb : Int := Int.ofNat f.mbits
    let u := (quantize mode neg m e (E - mb)).1
    let huge := decide (f.emax ≤ E) && decide (u * 2 ^ (E - f.emax).toNat > f.maxSig)
    let tiny := decide (E < f.emin) && !(decide (E = f.emin - 1) && decide (u = 2 ^ (f.mbits + 1)))
    if huge then
      ⟨if overToInf mode neg then f.infBits neg else f.maxBits neg, fFIN ||| fFOF, true⟩
    else
      let q := max (E - mb) (f.emin - mb)
      let r := quantize mode neg m e q
      ⟨f.pack neg r.1 q, if r.2 then (if tiny then fFIN ||| fFUF else fFIN) else 0#8, false⟩

/-- R194: a pattern as a computing instruction writes it: a NaN is the canonical one. -/
def Fmt.canon (f : Fmt) (x : Nat) : Nat :=
  match FVal.decode f x with
  | .nan _ => f.canonNaN
  | _ => x

/-- R200, R201 with R194: the pattern of an exact value (with the flags already raised) in a format; sat is R323's clamp. -/
def finish (f : Fmt) (mode : Rnd) (sat : Bool) (x : FVal × W8) : Nat × W8 :=
  match x.1 with
  | .nan _ => (f.canonNaN, x.2)
  | .inf n => (f.infBits n, x.2)
  | .fin n m e =>
    let r := roundFin f mode n m e
    (if sat && r.huge then f.maxBits n else r.bits, x.2 ||| r.flags)

/-- The NaN result of a computation: signalling operands raise FNV (R201). -/
def nanOf (ops : List FVal) : FVal × W8 := (.nan false, if ops.any FVal.isSig then fFNV else 0#8)

/-- A signed integer times 2^e, with the sign of an exact zero given (R200). -/
def signedVal (i e : Int) (zeroNeg : Bool) : FVal :=
  if i = 0 then .fin zeroNeg 0 0 else .fin (decide (i < 0)) i.natAbs e

/-- Exact sum of two finite values. -/
def finAdd (mode : Rnd) (n1 : Bool) (m1 : Nat) (e1 : Int) (n2 : Bool) (m2 : Nat) (e2 : Int) : FVal :=
  let e := min e1 e2
  let a : Int := Int.ofNat (m1 * 2 ^ (e1 - e).toNat)
  let b : Int := Int.ofNat (m2 * 2 ^ (e2 - e).toNat)
  let s := (if n1 then -a else a) + (if n2 then -b else b)
  let zneg := if m1 = 0 ∧ m2 = 0 ∧ n1 = n2 then n1 else mode == .rdn
  signedVal s e zneg

/-- a + b, exact (R200, R201). -/
def addEx (mode : Rnd) (a b : FVal) : FVal × W8 :=
  match a, b with
  | .nan _, _ => nanOf [a, b]
  | _, .nan _ => nanOf [a, b]
  | .inf x, .inf y => if x = y then (.inf x, 0#8) else (.nan false, fFNV)
  | .inf x, _ => (.inf x, 0#8)
  | _, .inf y => (.inf y, 0#8)
  | .fin n1 m1 e1, .fin n2 m2 e2 => (finAdd mode n1 m1 e1 n2 m2 e2, 0#8)

/-- a * b, exact. -/
def mulEx (a b : FVal) : FVal × W8 :=
  match a, b with
  | .nan _, _ => nanOf [a, b]
  | _, .nan _ => nanOf [a, b]
  | .inf x, .inf y => (.inf (x != y), 0#8)
  | .inf x, .fin n m _ => if m = 0 then (.nan false, fFNV) else (.inf (x != n), 0#8)
  | .fin n m _, .inf y => if m = 0 then (.nan false, fFNV) else (.inf (n != y), 0#8)
  | .fin n1 m1 e1, .fin n2 m2 e2 => (.fin (n1 != n2) (m1 * m2) (e1 + e2), 0#8)

/-- a * b + d with one rounding to come (R324): infinity times 0 raises FNV even when d is a quiet NaN. -/
def fmaEx (mode : Rnd) (a b d : FVal) : FVal × W8 :=
  if a.isNaN || b.isNaN then nanOf [a, b, d]
  else
    let p := mulEx a b
    let r := addEx mode p.1 d
    (r.1, p.2 ||| r.2)

/-- a / b, exact up to a sticky low bit (R326). -/
def divEx (a b : FVal) : FVal × W8 :=
  match a, b with
  | .nan _, _ => nanOf [a, b]
  | _, .nan _ => nanOf [a, b]
  | .inf _, .inf _ => (.nan false, fFNV)
  | .inf x, .fin n _ _ => (.inf (x != n), 0#8)
  | .fin n _ _, .inf y => (.fin (n != y) 0 0, 0#8)
  | .fin n1 m1 e1, .fin n2 m2 e2 =>
    if m2 = 0 then (if m1 = 0 then (.nan false, fFNV) else (.inf (n1 != n2), 0#8))
    else
      let k := 192 + Nat.log2 m2
      let num := m1 * 2 ^ k
      (.fin (n1 != n2) (2 * (num / m2) + (if num % m2 = 0 then 0 else 1)) (e1 - e2 - Int.ofNat k - 1), 0#8)

/-- Floor of the square root, bit by bit. -/
def isqrt (n : Nat) : Nat :=
  (List.range (Nat.log2 n / 2 + 1)).foldr (fun i r => if (r + 2 ^ i) ^ 2 ≤ n then r + 2 ^ i else r) 0

/-- The square root, exact up to a sticky low bit (R326). -/
def sqrtEx (a : FVal) : FVal × W8 :=
  match a with
  | .nan _ => nanOf [a]
  | .inf n => if n then (.nan false, fFNV) else (.inf false, 0#8)
  | .fin n m e =>
    if m = 0 then (.fin n 0 0, 0#8)
    else if n then (.nan false, fFNV)
    else
      let m' := if e % 2 = 0 then m * 2 ^ 300 else 2 * m * 2 ^ 300
      let e' := if e % 2 = 0 then e - 300 else e - 301
      let r := isqrt m'
      (.fin false (2 * r + (if r * r = m' then 0 else 1)) (e' / 2 - 1), 0#8)

/-- One over the square root (R326). -/
def rsqrtEx (a : FVal) : FVal × W8 :=
  match a with
  | .nan _ => nanOf [a]
  | .inf n => if n then (.nan false, fFNV) else (.fin false 0 0, 0#8)
  | .fin n m e =>
    if m = 0 then (.inf n, 0#8)
    else if n then (.nan false, fFNV)
    else
      let m' := if e % 2 = 0 then m else 2 * m
      let e' := if e % 2 = 0 then e else e - 1
      let N := 200 + Nat.log2 m'
      let r := isqrt (2 ^ (2 * N) / m')
      (.fin false (2 * r + (if r * r * m' = 2 ^ (2 * N) then 0 else 1)) (- (Int.ofNat N) - e' / 2 - 1), 0#8)

/-- Order of two finite magnitudes with sign: the exact difference a - b as an integer scaled by 2^min. -/
def finDiff (n1 : Bool) (m1 : Nat) (e1 : Int) (n2 : Bool) (m2 : Nat) (e2 : Int) : Int :=
  let e := min e1 e2
  let a : Int := Int.ofNat (m1 * 2 ^ (e1 - e).toNat)
  let b : Int := Int.ofNat (m2 * 2 ^ (e2 - e).toNat)
  (if n1 then -a else a) - (if n2 then -b else b)

/-- a < b for values that are not NaN; zeros compare equal. -/
def FVal.lt (a b : FVal) : Bool :=
  match a, b with
  | .inf true, .inf true => false
  | .inf true, _ => true
  | _, .inf true => false
  | .inf false, _ => false
  | _, .inf false => true
  | .fin n1 m1 e1, .fin n2 m2 e2 => decide (finDiff n1 m1 e1 n2 m2 e2 < 0)
  | _, _ => false

/-- a = b for values that are not NaN; zeros compare equal. -/
def FVal.eqv (a b : FVal) : Bool := !(a.lt b) && !(b.lt a)

/-- The Max rule of R249 (takeMax) and its mirror for MIN (R253, R325): a NaN gives the canonical NaN, a signalling NaN
raises FNV, +0 is greater than -0. -/
def maxEx (takeMax : Bool) (a b : FVal) : FVal × W8 :=
  if a.isNaN || b.isNaN then nanOf [a, b]
  else
    let less := a.lt b || (a.eqv b && a.neg? && !b.neg?)
    (if less == takeMax then b else a, 0#8)

end Sys2Proof.Machine
end

