-- ==== Sys2Proof/Machine/Convert.lean ====
section
/-! DEFINITION. Conversion between formats: integers, LNS6 and Convert of R202 (07 R195 to R203). -/

namespace Sys2Proof.Machine

/-- A number format of a register, a memory element or a code. -/
inductive NumTy where
  | flt (f : Fmt)
  | int (signed : Bool) (bits : Nat)
  | lns6
  deriving DecidableEq, Repr

/-- R195: largest and smallest integer of a format. -/
def maxInt (signed : Bool) (n : Nat) : Int := if signed then 2 ^ (n - 1) - 1 else 2 ^ n - 1
def minInt (signed : Bool) (n : Nat) : Int := if signed then -(2 ^ (n - 1)) else 0
/-- Sat(x, fmt) for an integer format. -/
def satInt (signed : Bool) (n : Nat) (x : Int) : Int := max (minInt signed n) (min (maxInt signed n) x)
/-- The integer a pattern of n bits stands for. -/
def toInt (signed : Bool) (n : Nat) (x : Nat) : Int := if signed then signExt x n else Int.ofNat (x % 2 ^ n)

/-- R197: significand of T[f], 12 bits with 11 fraction bits. -/
def lnsT (f : Nat) : Nat :=
  match f with
  | 0 => 0x800
  | 1 => 0x983
  | 2 => 0xB50
  | _ => 0xD74

/-- R197: the magnitude of L in units of 2^-15. -/
def lnsMag (L : Nat) : Nat := if L = 0 then 0 else lnsT (L % 4) * 2 ^ (L / 4)

/-- R197: the decoded value of an LNS6 code. -/
def lnsDecode (c : Nat) : FVal := .fin (c / 32 % 2 == 1) (lnsMag (c % 32)) (-15)

/-- R198: the product of two LNS6 codes, formed from the code sum. -/
def lnsMul (c1 c2 : Nat) : FVal :=
  let neg := (c1 / 32 % 2 == 1) != (c2 / 32 % 2 == 1)
  let L1 := c1 % 32
  let L2 := c2 % 32
  if L1 = 0 ∨ L2 = 0 then .fin neg 0 0
  else
    let Q : Int := Int.ofNat L1 - 16 + (Int.ofNat L2 - 16)
    .fin neg (lnsT (Q % 4).toNat) (Q / 4 - 11)

/-- Distance between m * 2^e and the magnitude of L, scaled alike for every L. -/
def lnsDist (m : Nat) (e : Int) (L : Nat) : Nat :=
  let b := min e (-15)
  ((Int.ofNat (m * 2 ^ (e - b).toNat)) - Int.ofNat (lnsMag L * 2 ^ (-15 - b).toNat)).natAbs

/-- R199: encoding into LNS6; always saturating. -/
def lnsEncode (x : FVal) : Nat × W8 :=
  match x with
  | .nan _ => (0, fFNV)
  | .inf n => ((if n then 32 else 0) + 31, fQSAT ||| fFIN)
  | .fin n m e =>
    let s := if n then 32 else 0
    if m = 0 then (s, 0#8)
    else if finDiff false m e false (lnsMag 31) (-15) > 0 then (s + 31, fQSAT ||| fFIN)
    else
      let best := (List.range 32).foldl (fun b L =>
        let dL := lnsDist m e L
        let db := lnsDist m e b
        if dL < db ∨ (dL = db ∧ L % 2 = 0) then L else b) 0
      let fl := if lnsDist m e best = 0 then 0#8 else fFIN
      (s + best, if best = 0 then fl ||| fQUNF else fl)

/-- The value of a pattern in a format. -/
def NumTy.decode (t : NumTy) (x : Nat) : FVal :=
  match t with
  | .flt f => FVal.decode f x
  | .int s n => FVal.ofInt (toInt s n x)
  | .lns6 => lnsDecode x

/-- R202: the quantised formats. -/
def NumTy.quantised : NumTy → Bool
  | .flt f => f == fp8e4m3 || f == fp8e5m2
  | .int _ n => decide (n ≤ 8)
  | .lns6 => true

def NumTy.isFlt : NumTy → Bool
  | .flt _ => true
  | _ => false

/-- R202: Clamp(dst), the flag a clamp or a wrap raises. -/
def NumTy.clampFlag (t : NumTy) : W8 :=
  if t.quantised then fQSAT else if t.isFlt then fFOF else fIOV

/-- RoundInt of R202: the integer, and whether it is inexact. -/
def roundInt (mode : Rnd) (neg : Bool) (m : Nat) (e : Int) : Int × Bool :=
  let r := quantize mode neg m e 0
  (if neg then - Int.ofNat r.1 else Int.ofNat r.1, r.2)

/-- Convert into a floating format (R202). -/
def convFlt (x : FVal) (f : Fmt) (mode : Rnd) (sat : Bool) : Nat × W8 :=
  let t := NumTy.flt f
  match x with
  | .nan sg => (f.canonNaN, if sg then fFNV else 0#8)
  | .inf n =>
    if sat then (f.maxBits n, t.clampFlag ||| fFIN)
    else if f.e4m3 then (f.canonNaN, fFNV)
    else (f.infBits n, 0#8)
  | .fin n m e =>
    let r := roundFin f mode n m e
    if r.huge && sat then (f.maxBits n, t.clampFlag ||| fFIN)
    else
      let z := r.bits % 2 ^ (f.ebits + f.mbits) == 0
      (r.bits, if m ≠ 0 ∧ z = true ∧ t.quantised = true then r.flags ||| fQUNF else r.flags)

/-- Convert into an integer format of n bits (R202). -/
def convInt (x : FVal) (signed : Bool) (n : Nat) (mode : Rnd) (sat : Bool) : Nat × W8 :=
  let t := NumTy.int signed n
  match x with
  | .nan _ => (0, fFNV)
  | .inf ng => (modPow (if ng then minInt signed n else maxInt signed n) n, fFNV)
  | .fin ng m e =>
    let k := roundInt mode ng m e
    let fl := if k.2 then fFIN else 0#8
    if k.1 > maxInt signed n ∨ k.1 < minInt signed n then
      (modPow (if sat then satInt signed n k.1 else k.1) n, fl ||| t.clampFlag)
    else (modPow k.1 n, if k.1 = 0 ∧ m ≠ 0 ∧ t.quantised = true then fl ||| fQUNF else fl)

/-- R202: Convert. -/
def convert (x : FVal) (dst : NumTy) (mode : Rnd) (sat : Bool) : Nat × W8 :=
  match dst with
  | .lns6 => lnsEncode x
  | .flt f => convFlt x f mode sat
  | .int s n => convInt x s n mode sat

/-- R216: the maximum of |v| as an exact value; any NaN makes it NaN, and only a signalling NaN raises FNV. -/
def maxAbs (xs : List FVal) : FVal × W8 :=
  let fl := if xs.any FVal.isSig then fFNV else 0#8
  if xs.any FVal.isNaN then (.nan false, fl)
  else
    let mag : FVal → FVal := fun v => if v.neg? then v.negate else v
    (xs.foldl (fun acc v => if acc.lt (mag v) then mag v else acc) (.fin false 0 0), fl)

/-- R216, R301: the maximum written as FP32. -/
def maxAbs32 (xs : List FVal) : Nat × W8 :=
  let r := maxAbs xs
  let c := convFlt r.1 fp32 .rne false
  (c.1, r.2 ||| c.2)

end Sys2Proof.Machine
end

