-- ==== Sys2Proof/Machine/Trans.lean ====
section
/-! DEFINITION. FEXP2, FLOG2 and FTRIG (R323, R327): correctly rounded. The exact value is a transcendental number; it is
computed here to 400 bits behind the binary point, and a sticky bit stands for the rest (DEDUCED, unsafe: log entry 8). -/

namespace Sys2Proof.Machine

/-- Bits behind the binary point. -/
def fxP : Nat := 400
def fxOne : Nat := 2 ^ fxP
def fxMul (a b : Nat) : Nat := a * b / fxOne

/-- Sum of z^(2k+1)/(2k+1) over k < n; alt subtracts every other term. z is fixed point. -/
def fxOddSeries (alt : Bool) (z : Nat) (n : Nat) : Int :=
  ((List.range n).foldl (fun (acc : Int × Nat) k =>
    let t : Int := Int.ofNat (acc.2 / (2 * k + 1))
    (if alt && k % 2 == 1 then acc.1 - t else acc.1 + t, fxMul acc.2 (fxMul z z))) (0, z)).1

/-- ln 2 = 2 artanh(1/3). -/
def fxLn2 : Nat := (2 * fxOddSeries false (fxOne / 3) 140).toNat
/-- pi = 16 arctan(1/5) - 4 arctan(1/239). -/
def fxPi : Nat := (16 * fxOddSeries true (fxOne / 5) 100 - 4 * fxOddSeries true (fxOne / 239) 40).toNat

/-- e^x for fixed point x below 1. -/
def fxExp (x : Nat) : Nat :=
  ((List.range 110).foldl (fun (acc : Nat × Nat) k =>
    let t := fxMul acc.2 x / (k + 1)
    (acc.1 + t, t)) (fxOne, fxOne)).1

/-- sin y for fixed point y up to pi/2. -/
def fxSin (y : Nat) : Nat :=
  ((List.range 70).foldl (fun (acc : Int × Nat) k =>
    let t := fxMul (fxMul acc.2 y) y / ((2 * k + 2) * (2 * k + 3))
    (if k % 2 == 0 then acc.1 - Int.ofNat t else acc.1 + Int.ofNat t, t)) (Int.ofNat y, y)).1.toNat

/-- 2^a (R327). -/
def exp2Ex (a : FVal) : FVal × W8 :=
  match a with
  | .nan _ => nanOf [a]
  | .inf n => if n then (.fin false 0 0, 0#8) else (.inf false, 0#8)
  | .fin n m e =>
    if e ≥ 0 ∨ m % 2 ^ (-e).toNat = 0 then
      let k : Nat := if e ≥ 20 ∧ m ≠ 0 then 20000 else if e ≥ 0 then min 20000 (m * 2 ^ e.toNat) else min 20000 (m / 2 ^ (-e).toNat)
      (.fin false 1 (if n then - Int.ofNat k else Int.ofNat k), 0#8)
    else
      let d := (-e).toNat
      let i := m / 2 ^ d
      let r := m % 2 ^ d
      let ip : Int := if n then - Int.ofNat (min i 20000) - 1 else Int.ofNat (min i 20000)
      let fr := (if n then 2 ^ d - r else r) * fxOne / 2 ^ d
      (.fin false (2 * fxExp (fxMul fr fxLn2) + 1) (ip - Int.ofNat fxP - 1), 0#8)

/-- log2 a (R327). -/
def log2Ex (a : FVal) : FVal × W8 :=
  match a with
  | .nan _ => nanOf [a]
  | .inf n => if n then (.nan false, fFNV) else (.inf false, 0#8)
  | .fin n m e =>
    if m = 0 then (.inf true, 0#8)
    else if n then (.nan false, fFNV)
    else
      let L := Nat.log2 m
      let k : Int := Int.ofNat L + e
      if m = 2 ^ L then (FVal.ofInt k, 0#8)
      else
        let z := (m - 2 ^ L) * fxOne / (m + 2 ^ L)
        let y := 2 * (fxOddSeries false z 140).toNat * fxOne / fxLn2
        let v : Int := k * Int.ofNat fxOne + Int.ofNat y
        (.fin (decide (v < 0)) (2 * v.natAbs + 1) (- Int.ofNat fxP - 1), 0#8)

/-- |sin(pi t)| and its sign for t = r / 2^d, 0 ≤ t < 2; none is an exact zero. -/
def sinPiCore (r d : Nat) : Option (Bool × Nat × Int) :=
  let one := 2 ^ d
  let neg := decide (one ≤ r)
  let t := r % one
  let t' := if 2 * t > one then one - t else t
  if t' = 0 then none
  else if 2 * t' = one then some (neg, 1, 0)
  else some (neg, 2 * fxSin (fxMul (t' * fxOne / one) fxPi) + 1, - Int.ofNat fxP - 1)

/-- sin(pi a) or, with cosine, cos(pi a) (R327). -/
def trigEx (cosine : Bool) (a : FVal) : FVal × W8 :=
  match a with
  | .nan _ => nanOf [a]
  | .inf _ => (.nan false, fFNV)
  | .fin n m e =>
    let d := (-e).toNat + 1
    let x := if e ≥ 1 then 0 else if e = 0 then m * 2 % 2 ^ (d + 1) else m * 2 % 2 ^ (d + 1)
    if cosine then
      match sinPiCore ((x + 2 ^ (d - 1)) % 2 ^ (d + 1)) d with
      | none => (.fin false 0 0, 0#8)
      | some (ng, v, ex) => (.fin ng v ex, 0#8)
    else
      match sinPiCore x d with
      | none => (.fin n 0 0, 0#8)
      | some (ng, v, ex) => (.fin (n != ng) v ex, 0#8)

end Sys2Proof.Machine
end

