-- ==== Sys2Proof/Syntax.lean ====
section
/-! DEFINITION. The instructions of programs, with their operand fields as the reference entries name them (03, 12, 13, 14),
and the steps of the part itself, with the parameters of one occurrence. One constructor of Instr for each row of the
opcode table. -/

namespace Sys2Proof

/-- R75: unguarded, or guarded by a predicate, possibly negated. -/
inductive Guard where
  | always
  | pred (i : BitVec 6) (neg : Bool)
  deriving DecidableEq, Repr

/-- A scalar-kind operand that is an s register or an immediate (R72). -/
inductive SOp where
  | s (i : BitVec 9)
  | imm (v : BitVec 9)
  deriving DecidableEq, Repr

/-- An s register, an immediate or a p register (SPOPC, R369). -/
inductive SPOp where
  | so (o : SOp)
  | p (i : BitVec 6)
  deriving DecidableEq, Repr

/-- The B operand of a lane-wise instruction: a vector name, or with F[6] = 1 a scalar-kind operand (Table 3-8). -/
inductive VB where
  | v (n : BitVec 11)
  | sc (o : SOp)
  deriving DecidableEq, Repr

/-- Table 3-8: the integer types. -/
inductive IntTy where
  | i32 | u32 | i64 | u64
  deriving DecidableEq, Repr

/-- Table 3-8: the floating types. -/
inductive FTy where
  | fp32 | fp64 | fp16 | bf16
  deriving DecidableEq, Repr

/-- Table 3-8: every arithmetic type. -/
inductive ATy where
  | int (t : IntTy)
  | flt (t : FTy)
  deriving DecidableEq, Repr

/-- Table 3-8: the rounding field. -/
inductive RndF where
  | rne | rtz | rup | rdn
  deriving DecidableEq, Repr

/-- R373, R394: integer conditions. -/
inductive Cmp where
  | eq | ne | lt | le | gt | ge
  deriving DecidableEq, Repr

/-- Table 12-8: conditions 0 to 5 of BRC. -/
inductive BrCmp where
  | eq | ne | lt | ge | ltu | geu
  deriving DecidableEq, Repr

structure SBin where
  ty : IntTy
  sat : Bool
  d : BitVec 9
  a : SOp
  b : SOp
  deriving DecidableEq, Repr

structure SCmpOp where
  ty : IntTy
  cond : Cmp
  d : BitVec 9
  a : SOp
  b : SOp
  deriving DecidableEq, Repr

structure SUn where
  ty : IntTy
  d : BitVec 9
  a : SOp
  deriving DecidableEq, Repr

structure SPopcOp where
  ty : IntTy
  d : BitVec 9
  a : SPOp
  deriving DecidableEq, Repr

/-- R372: the immediate of SLI, from B and A, or from the extension word. -/
inductive SliVal where
  | short (v : BitVec 22)
  | long (v : BitVec 64)
  deriving DecidableEq, Repr

structure SliOp where
  ty : IntTy
  d : BitVec 9
  v : SliVal
  deriving DecidableEq, Repr

structure SBfOp where
  ty : IntTy
  d : BitVec 9
  a : SOp
  b : BitVec 9
  deriving DecidableEq, Repr

/-- R315: a comparison of two values, or a test of an s or p register (conditions 6 and 7). -/
inductive BrcTest where
  | cmp (c : BrCmp) (w64 : Bool) (a b : SOp)
  | anyS (none : Bool) (w64 : Bool) (i : BitVec 9)
  | anyP (none : Bool) (i : BitVec 6)
  deriving DecidableEq, Repr

structure BrcOp where
  test : BrcTest
  off : BitVec 32
  deriving DecidableEq, Repr

structure BrvOp where
  off : BitVec 32
  join : BitVec 32
  deriving DecidableEq, Repr

structure JtabOp where
  a : BitVec 11
  ptr : BitVec 5
  join : BitVec 32
  deriving DecidableEq, Repr

structure CallOp where
  slide : BitVec 8
  off : BitVec 32
  deriving DecidableEq, Repr

structure CallIndOp where
  slide : BitVec 8
  a : BitVec 9
  deriving DecidableEq, Repr

structure LoopOp where
  a : BitVec 9
  off : BitVec 32
  deriving DecidableEq, Repr

structure PlogOp where
  tt : BitVec 4
  d : BitVec 6
  a : BitVec 6
  b : BitVec 6
  deriving DecidableEq, Repr

/-- Table 13-3. -/
inductive PmovOp where
  | pp (d a : BitVec 6)
  | ps (d : BitVec 6) (a : BitVec 9)
  | pi (d : BitVec 6) (v : Bool)
  | sp (d : BitVec 9) (a : BitVec 6)
  deriving DecidableEq, Repr

/-- Table 13-4. -/
inductive PredK where
  | any | all | cnt | first | last
  deriving DecidableEq, Repr

structure PredOp where
  op : PredK
  d : BitVec 9
  a : BitVec 6
  deriving DecidableEq, Repr

/-- R144: mode 0 reads a quad of scalars, mode 1 an offset. -/
inductive PderSrc where
  | quad (i : BitVec 9)
  | tail (o : SOp)
  deriving DecidableEq, Repr

structure PderOp where
  src : PderSrc
  fmt : Option (BitVec 6)
  d : BitVec 5
  a : BitVec 5
  deriving DecidableEq, Repr

structure PclassOp where
  cls : BitVec 2
  d : BitVec 5
  a : BitVec 5
  deriving DecidableEq, Repr

structure NarrowOp where
  scp : BitVec 3
  d : BitVec 5
  a : BitVec 5
  deriving DecidableEq, Repr

structure WidenOp where
  scp : BitVec 3
  cls : Option (BitVec 2)
  d : BitVec 5
  a : BitVec 5
  deriving DecidableEq, Repr

structure PqryOp where
  fld : BitVec 4
  d : BitVec 9
  a : BitVec 5
  deriving DecidableEq, Repr

structure AllocOp where
  fmt : BitVec 6
  d : BitVec 5
  a : BitVec 5
  b : SOp
  deriving DecidableEq, Repr

structure VBin where
  ty : IntTy
  sat : Bool
  d : BitVec 11
  a : BitVec 11
  b : VB
  deriving DecidableEq, Repr

structure VCmpOp where
  ty : IntTy
  cond : Cmp
  d : BitVec 6
  a : BitVec 11
  b : VB
  deriving DecidableEq, Repr

structure VUn where
  ty : IntTy
  sat : Bool
  d : BitVec 11
  a : BitVec 11
  deriving DecidableEq, Repr

structure VMovOp where
  ty : ATy
  d : BitVec 11
  a : BitVec 11
  deriving DecidableEq, Repr

structure VBcastOp where
  ty : ATy
  d : BitVec 11
  a : SOp
  deriving DecidableEq, Repr

/-- R396: the descriptor of VBFX, a vector name or an s register. -/
inductive VSrc where
  | v (n : BitVec 11)
  | s (i : BitVec 9)
  deriving DecidableEq, Repr

structure VBfxOp where
  ty : IntTy
  d : BitVec 11
  a : BitVec 11
  b : VSrc
  deriving DecidableEq, Repr

structure FBin where
  ty : FTy
  rnd : RndF
  sat : Bool
  d : BitVec 11
  a : BitVec 11
  b : VB
  deriving DecidableEq, Repr

/-- FMIN and FMAX: no rounding and no saturate bit (Table 12-9). -/
structure FPair where
  ty : FTy
  d : BitVec 11
  a : BitVec 11
  b : VB
  deriving DecidableEq, Repr

inductive SgnK where
  | copy | neg | xor
  deriving DecidableEq, Repr

structure FSgnOp where
  ty : FTy
  op : SgnK
  d : BitVec 11
  a : BitVec 11
  b : VB
  deriving DecidableEq, Repr

structure FUn where
  ty : FTy
  rnd : RndF
  sat : Bool
  d : BitVec 11
  a : BitVec 11
  deriving DecidableEq, Repr

structure FTrigOp where
  ty : FTy
  rnd : RndF
  cosine : Bool
  d : BitVec 11
  a : BitVec 11
  deriving DecidableEq, Repr

/-- Table 12-10. -/
inductive FCond where
  | eq | ne | lt | le | gt | ge | un | ord
  deriving DecidableEq, Repr

structure FCmpOp where
  ty : FTy
  cond : FCond
  d : BitVec 6
  a : BitVec 11
  b : VB
  deriving DecidableEq, Repr

structure FClassOp where
  ty : FTy
  d : BitVec 11
  a : BitVec 11
  deriving DecidableEq, Repr

structure CvtOp where
  dst : ATy
  src : ATy
  rnd : RndF
  sat : Bool
  d : BitVec 11
  a : BitVec 11
  deriving DecidableEq, Repr

/-- R320, R357: the quantised codes. -/
inductive QCode where
  | e4m3 | e5m2 | i8 | u8 | i4 | lns6
  deriving DecidableEq, Repr

structure QntOp where
  dst : QCode
  src : FTy
  rnd : RndF
  sat : Bool
  d : BitVec 11
  a : BitVec 11
  b : VB
  deriving DecidableEq, Repr

structure DqntOp where
  src : QCode
  d : BitVec 11
  a : BitVec 11
  b : VB
  deriving DecidableEq, Repr

/-- Table 12-2. -/
inductive AmaxOp where
  | lanes (ty : FTy) (d : BitVec 9) (a : BitVec 11)
  | row (d : BitVec 11) (z : BitVec 4)
  | tile (d : BitVec 9) (z : BitVec 4)
  deriving DecidableEq, Repr

structure VPermOp where
  ty : ATy
  d : BitVec 11
  a : BitVec 11
  b : VB
  deriving DecidableEq, Repr

structure VRotOp where
  ty : ATy
  shift : Bool
  d : BitVec 11
  a : BitVec 11
  b : SOp
  deriving DecidableEq, Repr

/-- R401: the operations of VRDC and VSCAN. -/
inductive RdcK where
  | add | min | max | and | or | xor
  deriving DecidableEq, Repr

structure VScanOp where
  ty : ATy
  op : RdcK
  rnd : RndF
  sat : Bool
  excl : Bool
  d : BitVec 11
  a : BitVec 11
  deriving DecidableEq, Repr

structure VRdcOp where
  ty : ATy
  op : RdcK
  rnd : RndF
  sat : Bool
  d : BitVec 9
  a : BitVec 11
  deriving DecidableEq, Repr

structure VConfOp where
  wide : Bool
  d : BitVec 6
  a : BitVec 11
  deriving DecidableEq, Repr

structure VElectOp where
  wide : Bool
  d : BitVec 11
  a : BitVec 11
  deriving DecidableEq, Repr

/-- Table 3-10: register-side formats. -/
inductive Rsf where
  | native | i32 | u32 | i64 | u64 | fp32 | fp64 | fp16 | bf16 | ptr
  deriving DecidableEq, Repr

/-- The data operand of LD and ST: F[10] = 0 gives a vector name, F[10] = 1 a scalar-kind operand (R82). -/
inductive MData where
  | v (n : BitVec 11)
  | s (i : BitVec 9)
  | a (i : BitVec 5)
  deriving DecidableEq, Repr

/-- The offset operand of LD, ST and ATOM (R82). -/
inductive MOff where
  | sc (o : SOp)
  | vec (n : BitVec 11)
  | stream (k : BitVec 2)
  deriving DecidableEq, Repr

structure MemOp where
  rsf : Rsf
  ptr : BitVec 5
  data : MData
  off : MOff
  ext : Option (BitVec 48)
  deriving DecidableEq, Repr

/-- Table 12-3. -/
inductive AtomK where
  | add | min | max | and | or | xor | xchg | cas
  deriving DecidableEq, Repr

structure AtomOp where
  rsf : Rsf
  ptr : BitVec 5
  off : MOff
  ext : BitVec 48
  op : AtomK
  wide : Bool
  vb : BitVec 7
  deriving DecidableEq, Repr

structure SgenOp where
  k : BitVec 2
  ptr : BitVec 5
  a : SOp
  deriving DecidableEq, Repr

structure XferOp where
  d : BitVec 5
  a : BitVec 5
  b : BitVec 9
  deriving DecidableEq, Repr

structure XchainOp where
  ch : BitVec 2
  a : BitVec 9
  deriving DecidableEq, Repr

structure WaitOp where
  cls : BitVec 2
  a : SOp
  deriving DecidableEq, Repr

structure BariOp where
  b : BitVec 4
  a : SOp
  deriving DecidableEq, Repr

structure BarwOp where
  b : BitVec 4
  arrive : Bool
  deriving DecidableEq, Repr

structure SyncwOp where
  d : BitVec 9
  a : BitVec 5
  b : SOp
  deriving DecidableEq, Repr

/-- Table 8-2: formats of the multiply family. -/
inductive MFmt where
  | bf16 | fp16 | e4m3 | e5m2 | i8 | u8 | i4 | lns6 | fp32 | fp64
  deriving DecidableEq, Repr

structure MmaOp where
  fmt : MFmt
  reuse : Bool
  clr : Bool
  zp : Option (BitVec 9)
  a : BitVec 11
  boff : BitVec 9
  ptr : BitVec 5
  z : BitVec 4
  deriving DecidableEq, Repr

structure MmasOp where
  fmt : MFmt
  reuse : Bool
  clr : Bool
  hdr : BitVec 9
  a : BitVec 11
  boff : BitVec 9
  ptr : BitVec 5
  z : BitVec 4
  deriving DecidableEq, Repr

structure MmabOp where
  fmt : MFmt
  n1 : BitVec 3
  stream : BitVec 2
  reuse : Bool
  clr : Bool
  win : SOp
  a : BitVec 11
  boff : BitVec 9
  ptr : BitVec 5
  z : BitVec 4
  deriving DecidableEq, Repr

inductive Grain where
  | g32 | g64 | g128
  deriving DecidableEq, Repr

structure ScaccOp where
  grain : Grain
  n1 : BitVec 2
  clr : Bool
  clrp : Bool
  a : BitVec 11
  boff : BitVec 9
  ptr : BitVec 5
  zp : BitVec 4
  z : BitVec 4
  deriving DecidableEq, Repr

structure SpxOp where
  clr : Bool
  xoff : BitVec 9
  ax : BitVec 5
  coff : BitVec 9
  ac : BitVec 5
  z : BitVec 4
  deriving DecidableEq, Repr

structure XformOp where
  ptr : BitVec 5
  b : SOp
  ext : Option (BitVec 32)
  deriving DecidableEq, Repr

/-- ZMOV between a tile and registers; cv is F[7:6]. -/
structure ZmovVOp where
  cv : BitVec 2
  amax : Option (BitVec 9)
  z : BitVec 4
  v : BitVec 11
  deriving DecidableEq, Repr

/-- ZMOV between a tile and memory. -/
structure ZmovMOp where
  amax : Option (BitVec 9)
  z : BitVec 4
  ptr : BitVec 5
  off : BitVec 9
  deriving DecidableEq, Repr

/-- Table 8-1: tile kinds. -/
inductive TileKind where
  | fp32 | int32 | fp64 | freq
  deriving DecidableEq, Repr

structure ZclrOp where
  kind : TileKind
  z : BitVec 4
  deriving DecidableEq, Repr

structure XsectOp where
  j : BitVec 2
  k : BitVec 2
  d : BitVec 11
  deriving DecidableEq, Repr

structure MjoinOp where
  d : BitVec 9
  a : BitVec 5
  b : SOp
  deriving DecidableEq, Repr

/-- MEET and MWAIT. -/
structure MeetOp where
  d : BitVec 11
  a : BitVec 5
  b : BitVec 9
  deriving DecidableEq, Repr

structure MqryOp where
  fld : BitVec 4
  d : BitVec 9
  a : BitVec 5
  deriving DecidableEq, Repr

/-- Table 9-1: types and operations of the reductions. -/
inductive RTy where
  | i32 | u32 | fp32 | fp64
  deriving DecidableEq, Repr
inductive RK where
  | sum | max | min
  deriving DecidableEq, Repr

structure RdcnOp where
  ty : RTy
  op : RK
  m1 : BitVec 4
  d : BitVec 11
  a : BitVec 9
  deriving DecidableEq, Repr

structure RdgetOp where
  ty : RTy
  op : RK
  m1 : BitVec 4
  d : BitVec 11
  a : BitVec 9
  b : BitVec 9
  deriving DecidableEq, Repr

structure RsampOp where
  d : BitVec 11
  a : BitVec 11
  b : SOp
  deriving DecidableEq, Repr

structure RngOp where
  d : BitVec 11
  a : BitVec 9
  b : BitVec 9
  deriving DecidableEq, Repr

structure ReordOp where
  p : BitVec 3
  d : BitVec 11
  a : BitVec 11
  deriving DecidableEq, Repr

structure LaunchOp where
  d : BitVec 9
  a : BitVec 5
  deriving DecidableEq, Repr

structure LwaitOp where
  d : BitVec 9
  a : SOp
  deriving DecidableEq, Repr

structure SvcOp where
  d : BitVec 9
  a : SOp
  deriving DecidableEq, Repr

inductive RdsrDest where
  | v (n : BitVec 11)
  | s (i : BitVec 9)
  deriving DecidableEq, Repr

structure RdsrOp where
  num : BitVec 8
  d : RdsrDest
  deriving DecidableEq, Repr

structure WrsrOp where
  num : BitVec 8
  a : BitVec 9
  deriving DecidableEq, Repr

/-! Parameters of the steps of the part itself. -/

/-- Table 5-9: the kind of a page. -/
inductive PageKind where
  | device | reservoir | host | hostnc
  deriving DecidableEq, Repr

/-- R152: a mapping of one page; sz is its size in bytes, a 64 KiB, 2 MiB or 1 GiB page. -/
structure Mapping where
  va : Nat
  pa : Nat
  sz : Nat
  kind : PageKind
  write : Bool
  exec : Bool
  replicable : Bool
  deriving DecidableEq, Repr

/-- R152: an on-demand range, with the attributes of the pages that firmware maps in it. -/
structure DemandRange where
  va : Nat
  sz : Nat
  kind : PageKind
  write : Bool
  exec : Bool
  replicable : Bool
  deriving DecidableEq, Repr

/-- R101: what firmware fixes when it creates an inlet. -/
structure InletSpec where
  n : Nat
  ringBase : Nat
  ringSize : Nat
  prio : Nat
  affinity : BitVec 4
  deriving DecidableEq, Repr

/-- What the host gives when a context is created (R105, R113, R162, R257, R278); a bench size that it does not name is
8 (R113). (PRESUMED, unsafe: log entry 32.) -/
structure CtxSpec where
  slot : Nat
  bench : Option Nat
  atomics : List Nat
  treeLimits : List Nat
  inlets : List InletSpec
  stackVa : Nat
  stackGroups : Nat
  faultLogVa : Nat
  faultLogPa : Nat
  eventVa : Nat
  eventPa : Nat
  deriving DecidableEq, Repr

/-- R23, R152: a request of the host to map, change or remove pages. -/
inductive MapReq where
  | map (m : Mapping)
  | unmap (va : Nat)
  | demand (r : DemandRange)
  deriving DecidableEq, Repr

/-- A host access through the CXL.mem window (R27). -/
inductive CxlReq where
  | read (pa len : Nat)
  | write (pa : Nat) (data : List (BitVec 8))
  deriving DecidableEq, Repr

/-- R18, R28, R31, R138: what the firmware finds and chooses at boot. expanders gives the bytes that each expander reports, 0 for none; packages gives the
package numbers of the pod with their distance in switch hops; blocks gives the block of core ids of each live die. -/
structure FirmwareReport where
  ports : BitVec 16
  expanders : List Nat
  number : BitVec 12
  packages : List (BitVec 12 × Nat)
  blocks : List Nat
  deriving DecidableEq, Repr

/-- Table 10-3: the stage where a soft error was corrected or found. The place in it is a number: the physical address of a memory or
of the data that a link carried, the group of a core, the word of an L1 or of a basin, the reduction of a router's buffer. -/
inductive ErrSite where
  | memory
  | core
  | l1 (core : Nat)
  | basin (die : Nat)
  | link
  | router
  deriving DecidableEq, Repr

/-- R261: a grid that is bound to a communicator, as every package names it: the slot of its context, the communicator, and its place
among the grids bound to that one. -/
structure BoundGrid where
  slot : Nat
  comm : Nat
  k : Nat
  deriving DecidableEq, Repr

/-- R188, R269: what writes at a home: an agent's store, of a die or of none, or a compare and swap of the host with the bytes that it
expects. -/
inductive HomeWriter where
  | store (src : Option Nat)
  | swap (expected : List (BitVec 8))
  deriving DecidableEq, Repr

/-- R386: a request stream of the host, and the lock that it names. -/
structure HostLock where
  stream : Nat
  lock : Nat
  deriving DecidableEq, Repr

/-- One instruction, or one step of the part. -/
inductive Instr where
  | nop (g : Guard)
  | unassignedOpcode (w : BitVec 64)
  | sadd (g : Guard) (o : SBin)
  | ssub (g : Guard) (o : SBin)
  | smul (g : Guard) (o : SBin)
  | smulh (g : Guard) (o : SBin)
  | sdiv (g : Guard) (la : BitVec 4) (o : SBin)
  | srem (g : Guard) (la : BitVec 4) (o : SBin)
  | sand (g : Guard) (o : SBin)
  | sor (g : Guard) (o : SBin)
  | sxor (g : Guard) (o : SBin)
  | sshl (g : Guard) (o : SBin)
  | sshr (g : Guard) (o : SBin)
  | ssra (g : Guard) (o : SBin)
  | smin (g : Guard) (o : SBin)
  | smax (g : Guard) (o : SBin)
  | scmp (g : Guard) (o : SCmpOp)
  | ssel (g : Guard) (o : SBin)
  | smov (g : Guard) (o : SUn)
  | sli (g : Guard) (o : SliOp)
  | sbfx (g : Guard) (o : SBfOp)
  | sbfi (g : Guard) (o : SBfOp)
  | spopc (g : Guard) (o : SPopcOp)
  | sclz (g : Guard) (o : SUn)
  | br (g : Guard) (off : BitVec 32)
  | brc (g : Guard) (o : BrcOp)
  | brv (g : Guard) (o : BrvOp)
  | join
  | jtab (g : Guard) (o : JtabOp)
  | call (g : Guard) (o : CallOp)
  | callInd (g : Guard) (o : CallIndOp)
  | ret (g : Guard)
  | exit (g : Guard)
  | loop (g : Guard) (o : LoopOp)
  | plog (g : Guard) (o : PlogOp)
  | pmov (g : Guard) (o : PmovOp)
  | pred (g : Guard) (o : PredOp)
  | pder (g : Guard) (o : PderOp)
  | pclass (g : Guard) (o : PclassOp)
  | narrow (g : Guard) (o : NarrowOp)
  | widen (g : Guard) (o : WidenOp)
  | pqry (g : Guard) (o : PqryOp)
  | alloc (g : Guard) (o : AllocOp)
  | vadd (g : Guard) (o : VBin)
  | vsub (g : Guard) (o : VBin)
  | vmul (g : Guard) (o : VBin)
  | vmulh (g : Guard) (o : VBin)
  | vmad (g : Guard) (o : VBin)
  | vdiv (g : Guard) (la : BitVec 4) (o : VBin)
  | vrem (g : Guard) (la : BitVec 4) (o : VBin)
  | vand (g : Guard) (o : VBin)
  | vor (g : Guard) (o : VBin)
  | vxor (g : Guard) (o : VBin)
  | vshl (g : Guard) (o : VBin)
  | vshr (g : Guard) (o : VBin)
  | vsra (g : Guard) (o : VBin)
  | vmin (g : Guard) (o : VBin)
  | vmax (g : Guard) (o : VBin)
  | vabs (g : Guard) (o : VUn)
  | vcmp (g : Guard) (o : VCmpOp)
  | vsel (g : Guard) (o : VBin)
  | vmov (g : Guard) (o : VMovOp)
  | vbcast (g : Guard) (o : VBcastOp)
  | vbfx (g : Guard) (o : VBfxOp)
  | vpopc (g : Guard) (o : VUn)
  | vclz (g : Guard) (o : VUn)
  | fadd (g : Guard) (o : FBin)
  | fsub (g : Guard) (o : FBin)
  | fmul (g : Guard) (o : FBin)
  | ffma (g : Guard) (o : FBin)
  | fmin (g : Guard) (o : FPair)
  | fmax (g : Guard) (o : FPair)
  | fsgn (g : Guard) (o : FSgnOp)
  | fdiv (g : Guard) (la : BitVec 4) (o : FBin)
  | fsqrt (g : Guard) (la : BitVec 4) (o : FUn)
  | frcp (g : Guard) (la : BitVec 4) (o : FUn)
  | frsq (g : Guard) (la : BitVec 4) (o : FUn)
  | fexp2 (g : Guard) (la : BitVec 4) (o : FUn)
  | flog2 (g : Guard) (la : BitVec 4) (o : FUn)
  | ftrig (g : Guard) (la : BitVec 4) (o : FTrigOp)
  | fcmp (g : Guard) (o : FCmpOp)
  | fclass (g : Guard) (o : FClassOp)
  | cvt (g : Guard) (o : CvtOp)
  | qnt (g : Guard) (o : QntOp)
  | dqnt (g : Guard) (o : DqntOp)
  | amax (g : Guard) (la : BitVec 4) (o : AmaxOp)
  | vperm (g : Guard) (la : BitVec 4) (o : VPermOp)
  | vrot (g : Guard) (o : VRotOp)
  | vscan (g : Guard) (la : BitVec 4) (o : VScanOp)
  | vrdc (g : Guard) (la : BitVec 4) (o : VRdcOp)
  | vconf (g : Guard) (o : VConfOp)
  | velect (g : Guard) (o : VElectOp)
  | ld (g : Guard) (la : BitVec 4) (o : MemOp)
  | st (g : Guard) (o : MemOp)
  | atom (g : Guard) (la : BitVec 4) (o : AtomOp)
  | sgen (g : Guard) (o : SgenOp)
  | xfer (g : Guard) (o : XferOp)
  | xchain (g : Guard) (o : XchainOp)
  | wait (g : Guard) (o : WaitOp)
  | bari (g : Guard) (o : BariOp)
  | bara (g : Guard) (b : BitVec 4)
  | barw (g : Guard) (o : BarwOp)
  | syncw (g : Guard) (o : SyncwOp)
  | mma (g : Guard) (o : MmaOp)
  | mmas (g : Guard) (o : MmasOp)
  | mmab (g : Guard) (o : MmabOp)
  | scacc (g : Guard) (o : ScaccOp)
  | zmovZ2v (g : Guard) (la : BitVec 4) (o : ZmovVOp)
  | zmovV2z (g : Guard) (la : BitVec 4) (o : ZmovVOp)
  | zmovZ2m (g : Guard) (la : BitVec 4) (o : ZmovMOp)
  | zmovM2z (g : Guard) (la : BitVec 4) (o : ZmovMOp)
  | zclr (g : Guard) (o : ZclrOp)
  | xsect (g : Guard) (la : BitVec 4) (o : XsectOp)
  | spx (g : Guard) (o : SpxOp)
  | xformFwd (g : Guard) (o : XformOp)
  | xformInv (g : Guard) (o : XformOp)
  | mjoin (g : Guard) (o : MjoinOp)
  | meet (g : Guard) (o : MeetOp)
  | mwait (g : Guard) (o : MeetOp)
  | mqry (g : Guard) (o : MqryOp)
  | rdcn (g : Guard) (o : RdcnOp)
  | rdget (g : Guard) (o : RdgetOp)
  | rsamp (o : RsampOp)
  | rng (g : Guard) (la : BitVec 4) (o : RngOp)
  | reord (g : Guard) (o : ReordOp)
  | launch (g : Guard) (o : LaunchOp)
  | lwait (g : Guard) (o : LwaitOp)
  | trap (g : Guard) (a : SOp)
  | svcProbe (g : Guard) (o : SvcOp)
  | svcLock (g : Guard) (o : SvcOp)
  | svcUnlock (g : Guard) (o : SvcOp)
  | svcTrylock (g : Guard) (o : SvcOp)
  | svcLog (g : Guard) (o : SvcOp)
  | rdsr (g : Guard) (o : RdsrOp)
  | wrsr (g : Guard) (o : WrsrOp)
  | yield (g : Guard) (d : BitVec 9)
  /-- A result of in-flight entry fid of group gid arrives. -/
  | longLatencyResult (gid fid : Nat)
  | issueGuard (core : Nat)
  /-- Firmware resolves outstanding page fault k; frame is the physical page it can give, if any. -/
  | pageFault (k : Nat) (frame : Option Nat)
  | replay (gid fid : Nat)
  /-- Pre-emption of the unit of grid that holds team t, for a cause of Table 4-3. -/
  | preEmptionRequest (grid t cause : Nat)
  | priorityPreemptTrigger (die : Nat)
  | preEmptionSave (grid t : Nat)
  /-- Restore of saved unit k on the given cores, one for each tarn slot of its teams; an empty list lets the distributor choose. -/
  | restore (k : Nat) (cores : List Nat)
  | tailWrite (inlet : Nat) (v : BitVec 32)
  | eventWordWrite (slot word : Nat) (v : BitVec 32)
  /-- A host write of another register: bar is 0 or 2. -/
  | registerWrite (bar off : Nat) (v : BitVec 64)
  | inletEntryTake (inlet : Nat)
  | dependenceRecheck
  /-- A die pulls its next unit on the given cores, one for each group; an empty list lets the distributor choose. -/
  | diePull (die : Nat) (cores : List Nat)
  | completionEvent (grid : Nat)
  | sluiceRelaunch (tid core : Nat)
  | resample (grid : Nat)
  | copyRecordCheck (cid : Nat)
  | copyRecordComplete (cid : Nat)
  | progressUpdate (cid : Nat)
  | streamRecordRead (gid k : Nat)
  | arrayTakeWork (cluster : Nat)
  | matrixOpComplete (gid opid : Nat)
  | transformStart (gid : Nat)
  /-- Contribution k of those under way reaches its home router. -/
  | mereContribution (k : Nat)
  | mereUnbind (k : Nat)
  | routerContribution (k : Nat)
  | reduceTimeout (k : Nat)
  | instanceFreeTimeout (k : Nat)
  /-- Every rank has fired the chunk. -/
  | collectiveStart (grid chunk : Nat)
  /-- A copy of one block of a rank's chunk arrives; route is whether a route to that rank remains. -/
  | wireBlockReceive (grid : BoundGrid) (chunk rank idx : Nat) (block : List (BitVec 8)) (route : Bool)
  | collectiveComplete (grid chunk : Nat)
  | collectiveFailTimeout (grid chunk : Nat)
  | refreshWindow (die bank : Nat)
  | linkSleep (die mem : Nat)
  | homeWrite (pa : Nat) (data : List (BitVec 8)) (key : Nat) (who : HomeWriter)
  | snoopAnswer (k : Nat)
  | linkWakeTimeout (k : Nat)
  | l1Eviction (core line : Nat)
  | basinEviction (die line : Nat)
  | heartbeat (die : Nat)
  | dieDeath (die : Nat)
  | scrub (mem : Nat)
  | correctedError (e : ErrSite) (place : Nat)
  | uncorrectableError (e : ErrSite) (place : Nat)
  | linkRetrain (port : Nat) (trains : Bool)
  | thermalThrottle
  | powerUp
  | computeDieReset (die : Nat)
  | bootGo (v : BitVec 32)
  | imageFetchComplete (image : Option (List (BitVec 8)))
  | imageVerifyComplete
  | firmwareStepsComplete (done : Nat) (fuse : Bool) (r : FirmwareReport)
  | attestationRequest
  | contextCreate (c : CtxSpec)
  | contextEnd (slot : Nat)
  | hostSuspend (slot : Nat)
  | contextSwitch (die slot : Nat)
  | mappingRequest (slot : Nat) (r : MapReq)
  | inletDestroy (n : Nat)
  | communicatorCreate (slot index ranks rank : Nat)
  | faultLogReadAdvance (slot : Nat) (count : BitVec 32)
  | inspectionRequest (slot image : Nat)
  | hostLockRequest (slot : Nat) (ask : HostLock) (take : Bool)
  | cxlMemAccess (r : CxlReq)
  | packageCopyRequest (slot : Nat) (record : List (BitVec 8))
  | powerLoss (whileCertifying : Bool)
  | throttleCauseClears
  | cxlCacheSnoop (pa : Nat) (invalidate : Bool)
  deriving DecidableEq, Repr

end Sys2Proof
end

