-- ==== Sys2Proof/WellFormed.lean ====
section
/-! DEFINITION. Which instructions the encoding admits (R71 to R77 and the entries of 12, 13 and 14): even names for 64-bit
operands, ranges of immediates and indexes, and the field values each entry accepts. -/

namespace Sys2Proof

/-- Whether a number is even when wide is asked for (R71, R72). -/
def evenIf (wide : Bool) {n : Nat} (x : BitVec n) : Bool := !wide || x.toNat % 2 == 0

def IntTy.wide : IntTy → Bool
  | .i64 | .u64 => true
  | _ => false
def IntTy.signed : IntTy → Bool
  | .i32 | .i64 => true
  | _ => false
def IntTy.bits (t : IntTy) : Nat := if t.wide then 64 else 32
def FTy.wide : FTy → Bool
  | .fp64 => true
  | _ => false
def ATy.wide : ATy → Bool
  | .int t => t.wide
  | .flt t => t.wide
def ATy.isFlt : ATy → Bool
  | .int _ => false
  | .flt _ => true

/-- R72: an s register of a 64-bit operand has an even index. -/
def SOp.okW (o : SOp) (wide : Bool) : Bool :=
  match o with
  | .s i => evenIf wide i
  | .imm _ => true

/-- An s register, or an immediate lo..hi (read as a signed number). -/
def SOp.okIn (o : SOp) (lo hi : Int) : Bool :=
  match o with
  | .s _ => true
  | .imm v => decide (lo ≤ v.toInt) && decide (v.toInt ≤ hi)

def pOk (i : BitVec 6) : Bool := decide (i.toNat < 48)

def SPOp.okW (o : SPOp) (wide : Bool) : Bool :=
  match o with
  | .so o => o.okW wide
  | .p i => pOk i

def VB.okW (b : VB) (wide : Bool) : Bool :=
  match b with
  | .v n => evenIf wide n
  | .sc o => o.okW wide

/-- R75. -/
def Guard.ok : Guard → Bool
  | .always => true
  | .pred i _ => pOk i

/-- A run of k names from n stays within v0 to v2047. -/
def runOk (n : BitVec 11) (k : Nat) : Bool := decide (n.toNat + k ≤ 2048)

def SBin.ok (o : SBin) (satOk shiftB : Bool) : Bool :=
  evenIf o.ty.wide o.d && o.a.okW o.ty.wide && o.b.okW (o.ty.wide && !shiftB) && (satOk || !o.sat)
def SCmpOp.ok (o : SCmpOp) : Bool := o.a.okW o.ty.wide && o.b.okW o.ty.wide
def SUn.ok (o : SUn) (wideD : Bool) : Bool := evenIf (o.ty.wide && wideD) o.d && o.a.okW o.ty.wide
def SPopcOp.ok (o : SPopcOp) : Bool := o.a.okW o.ty.wide
def SliOp.ok (o : SliOp) : Bool :=
  evenIf o.ty.wide o.d && (match o.v with | .short _ => true | .long v => o.ty.wide || decide (v.toNat < 2 ^ 32))
def SBfOp.ok (o : SBfOp) : Bool := evenIf o.ty.wide o.d && o.a.okW o.ty.wide
def BrcTest.ok : BrcTest → Bool
  | .cmp _ w a b => a.okW w && b.okW w
  | .anyS _ w i => evenIf w i
  | .anyP _ i => pOk i
def CallIndOp.ok (o : CallIndOp) : Bool := evenIf true o.a
def LoopOp.ok (o : LoopOp) : Bool := decide (16 ≤ o.a.toNat)
def PlogOp.ok (o : PlogOp) : Bool := pOk o.d && pOk o.a && pOk o.b
def PmovOp.ok : PmovOp → Bool
  | .pp d a => pOk d && pOk a
  | .ps d a => pOk d && decide (a.toNat ≤ 509)
  | .pi d _ => pOk d
  | .sp d a => decide (d.toNat ≤ 509) && pOk a
def PredOp.ok (o : PredOp) : Bool := pOk o.a

/-- Table 5-3: the format codes that are not reserved. -/
def fmtOk (f : BitVec 6) : Bool := decide (f.toNat ≤ 0x12) || f == 0x3F#6

def PderSrc.ok : PderSrc → Bool
  | .quad i => decide (i.toNat % 4 = 0)
  | .tail o => o.okIn 0 255
def PderOp.ok (o : PderOp) : Bool := o.src.ok && (match o.fmt with | none => true | some f => fmtOk f)
def PclassOp.ok (o : PclassOp) : Bool := o.cls != 3#2
def WidenOp.ok (o : WidenOp) : Bool := (match o.cls with | none => true | some c => c != 3#2)
def PqryOp.ok (o : PqryOp) : Bool := decide (o.fld.toNat ≤ 11)
def AllocOp.ok (o : AllocOp) : Bool := o.d != o.a && o.b.okIn 0 255 && fmtOk o.fmt

def VBin.ok (o : VBin) (satOk shiftB : Bool) : Bool :=
  evenIf o.ty.wide o.d && evenIf o.ty.wide o.a && o.b.okW (o.ty.wide && !shiftB) && (satOk || !o.sat)
def VCmpOp.ok (o : VCmpOp) : Bool := pOk o.d && evenIf o.ty.wide o.a && o.b.okW o.ty.wide
def VUn.ok (o : VUn) (wideD satOk signedOnly : Bool) : Bool :=
  evenIf (o.ty.wide && wideD) o.d && evenIf o.ty.wide o.a && (satOk || !o.sat) && (!signedOnly || o.ty.signed)
def VMovOp.ok (o : VMovOp) : Bool := evenIf o.ty.wide o.d && evenIf o.ty.wide o.a
def VBcastOp.ok (o : VBcastOp) : Bool := evenIf o.ty.wide o.d && o.a.okW o.ty.wide
def VBfxOp.ok (o : VBfxOp) : Bool := evenIf o.ty.wide o.d && evenIf o.ty.wide o.a

def FBin.ok (o : FBin) : Bool := evenIf o.ty.wide o.d && evenIf o.ty.wide o.a && o.b.okW o.ty.wide
def FPair.ok (o : FPair) : Bool := evenIf o.ty.wide o.d && evenIf o.ty.wide o.a && o.b.okW o.ty.wide
def FSgnOp.ok (o : FSgnOp) : Bool := evenIf o.ty.wide o.d && evenIf o.ty.wide o.a && o.b.okW o.ty.wide
def FUn.ok (o : FUn) (satOk wideOk : Bool) : Bool :=
  evenIf o.ty.wide o.d && evenIf o.ty.wide o.a && (satOk || !o.sat) && (wideOk || !o.ty.wide)
def FTrigOp.ok (o : FTrigOp) : Bool := !o.ty.wide
def FCmpOp.ok (o : FCmpOp) : Bool := pOk o.d && evenIf o.ty.wide o.a && o.b.okW o.ty.wide
def FClassOp.ok (o : FClassOp) : Bool := evenIf o.ty.wide o.a
def CvtOp.ok (o : CvtOp) : Bool := evenIf o.dst.wide o.d && evenIf o.src.wide o.a
/-- Codes held in one register: 8 for I4, 4 otherwise (R320, R357). -/
def QCode.count : QCode → Nat
  | .i4 => 8
  | _ => 4
def QntOp.ok (o : QntOp) : Bool := runOk o.a o.dst.count && !o.src.wide
def DqntOp.ok (o : DqntOp) : Bool := runOk o.d o.src.count
def AmaxOp.ok : AmaxOp → Bool
  | .lanes t _ a => evenIf t.wide a
  | _ => true
def VPermOp.ok (o : VPermOp) : Bool := evenIf o.ty.wide o.d && evenIf o.ty.wide o.a
def VRotOp.ok (o : VRotOp) : Bool := evenIf o.ty.wide o.d && evenIf o.ty.wide o.a
/-- R401: what the type and the operation allow. -/
def rdcOk (t : ATy) (op : RdcK) (rnd : RndF) (sat : Bool) : Bool :=
  (match op with | .and | .or | .xor => !t.isFlt | _ => true) &&
  (rnd == .rne || t.isFlt) && (!sat || (op == .add && !t.isFlt))
def VScanOp.ok (o : VScanOp) : Bool :=
  evenIf o.ty.wide o.d && evenIf o.ty.wide o.a && rdcOk o.ty o.op o.rnd o.sat
def VRdcOp.ok (o : VRdcOp) : Bool :=
  evenIf o.ty.wide o.d && evenIf o.ty.wide o.a && rdcOk o.ty o.op o.rnd o.sat
def VConfOp.ok (o : VConfOp) : Bool := pOk o.d && evenIf true o.d && evenIf o.wide o.a
def VElectOp.ok (o : VElectOp) : Bool := evenIf o.wide o.a

def Rsf.wide : Rsf → Bool
  | .i64 | .u64 | .fp64 => true
  | _ => false
def MData.ok (x : MData) (r : Rsf) : Bool :=
  match x with
  | .v n => evenIf r.wide n && r != .ptr
  | .s i => evenIf r.wide i && r != .ptr
  | .a _ => r == .ptr
def MData.uniform : MData → Bool
  | .v _ => false
  | _ => true
def MOff.ok (x : MOff) (uniform : Bool) : Bool :=
  match x with
  | .sc _ => true
  | _ => !uniform
def MemOp.ok (o : MemOp) : Bool := o.data.ok o.rsf && o.off.ok o.data.uniform
/-- R302: registers of one operand of an ATOM, as far as the wide bit and the register-side format fix it. -/
def AtomOp.unit (o : AtomOp) : Nat :=
  if o.wide then 4
  else match o.rsf with
    | .u64 | .i64 | .fp64 => 2
    | _ => 1
def AtomOp.ok (o : AtomOp) : Bool := o.rsf != .ptr && decide (o.vb.toNat % o.unit = 0)
def SgenOp.ok (o : SgenOp) : Bool := o.a.okIn 0 255
def XferOp.ok (o : XferOp) : Bool := decide (o.b.toNat % 8 = 0)
def XchainOp.ok (o : XchainOp) : Bool := evenIf true o.a
def WaitOp.ok (o : WaitOp) : Bool := o.a.okIn 0 255
def BariOp.ok (o : BariOp) : Bool := o.a.okIn 1 255
def SyncwOp.ok (o : SyncwOp) : Bool := o.b.okIn 0 255

/-- Table 8-2: registers of the A operand. -/
def MFmt.mmaRegs : MFmt → Nat
  | .lns6 => 32
  | _ => 16
/-- R231: registers of the A operand of MMAB. -/
def MFmt.mmabRegs : MFmt → Nat
  | .e4m3 | .e5m2 => 8
  | .fp32 => 32
  | _ => 16
def MFmt.isInt : MFmt → Bool
  | .i8 | .u8 | .i4 => true
  | _ => false
def MFmt.is64 : MFmt → Bool
  | .fp64 => true
  | _ => false
def MFmt.masOk : MFmt → Bool
  | .bf16 | .fp16 | .e4m3 | .e5m2 => true
  | _ => false
def MFmt.mabOk : MFmt → Bool
  | .bf16 | .fp16 | .e4m3 | .e5m2 | .fp32 | .fp64 => true
  | _ => false
def MmaOp.ok (o : MmaOp) : Bool :=
  runOk o.a o.fmt.mmaRegs && evenIf o.fmt.is64 o.a && (o.zp.isNone || o.fmt.isInt)
def MmasOp.ok (o : MmasOp) : Bool := runOk o.a 32 && evenIf true o.hdr && o.fmt.masOk
def MmabOp.ok (o : MmabOp) : Bool :=
  runOk o.a o.fmt.mmabRegs && evenIf o.fmt.is64 o.a && o.win.okIn 0 255 && o.fmt.mabOk && (o.fmt.is64 || decide (o.n1.toNat < 4))
def ScaccOp.ok (o : ScaccOp) : Bool := runOk o.a (o.n1.toNat + 1)
def XformOp.ok (o : XformOp) : Bool := o.b.okIn 0 255
/-- R424: the run of z2v is 64 names from an FP64 tile with a conversion, else 128; the tile is known only at issue. -/
def ZmovVOp.ok (o : ZmovVOp) (v2z : Bool) : Bool := runOk o.v (if o.cv = 0#2 || v2z then 128 else 64)
def XsectOp.ok (o : XsectOp) : Bool := runOk o.d 2 && o.j != o.k
def MjoinOp.ok (o : MjoinOp) : Bool := o.b.okIn 0 63
def quadOk (i : BitVec 9) : Bool := decide (i.toNat % 4 = 0)
def RTy.wide : RTy → Bool
  | .fp64 => true
  | _ => false
def rdOk (t : RTy) (m1 : BitVec 4) (d : BitVec 11) : Bool :=
  runOk d (m1.toNat + 1) && evenIf t.wide d && (!t.wide || m1.toNat % 2 == 1)
def RdcnOp.ok (o : RdcnOp) : Bool := rdOk o.ty o.m1 o.d && quadOk o.a
def RdgetOp.ok (o : RdgetOp) : Bool := rdOk o.ty o.m1 o.d && quadOk o.a && quadOk o.b
def RsampOp.ok (o : RsampOp) : Bool := o.b.okIn 1 255
def RngOp.ok (o : RngOp) : Bool := runOk o.d 4 && evenIf true o.a && quadOk o.b
def ReordOp.ok (o : ReordOp) : Bool :=
  decide (o.p.toNat ≤ 4) && (if o.p = 0#3 then o.d == 0#11 else runOk o.d o.p.toNat)
def LwaitOp.ok (o : LwaitOp) : Bool := o.a.okIn 0 255

/-- Table 13-5: the width of a lane special, of a group special. -/
def laneSpecial (n : Nat) : Option Bool :=
  if n = 0x02 ∨ n = 0x03 then some true else if n ≤ 0x04 then some false else none
def groupSpecial (n : Nat) : Option Bool :=
  if n = 0x10 then some true
  else if 0x11 ≤ n ∧ n ≤ 0x14 then some false
  else if 0x18 ≤ n ∧ n ≤ 0x1B then some false
  else if 0x20 ≤ n ∧ n ≤ 0x23 then some true
  else none
def RdsrOp.ok (o : RdsrOp) : Bool :=
  match o.d with
  | .v n => (match laneSpecial o.num.toNat with | some w => evenIf w n | none => false)
  | .s i => (match groupSpecial o.num.toNat with | some w => evenIf w i | none => false)
def WrsrOp.ok (o : WrsrOp) : Bool := decide (0x20 ≤ o.num.toNat) && decide (o.num.toNat ≤ 0x23) && evenIf true o.a

/-- The assigned major opcodes (R76, Table 3-3). -/
def opAssigned (op : Nat) : Bool :=
  decide (op ≤ 0x16) || (decide (0x20 ≤ op) && decide (op ≤ 0x28)) ||
  (decide (0x30 ≤ op) && decide (op ≤ 0x39) && op != 0x33) || (decide (0x40 ≤ op) && decide (op ≤ 0x56)) ||
  (decide (0x70 ≤ op) && decide (op ≤ 0x7F)) || (decide (0x90 ≤ op) && decide (op ≤ 0x99)) ||
  (decide (0xA0 ≤ op) && decide (op ≤ 0xA3)) || (decide (0xB0 ≤ op) && decide (op ≤ 0xB6)) ||
  (decide (0xC0 ≤ op) && decide (op ≤ 0xC8)) || (decide (0xD0 ≤ op) && decide (op ≤ 0xD5)) ||
  (decide (0xE0 ≤ op) && decide (op ≤ 0xE4)) || (decide (0xF0 ≤ op) && decide (op ≤ 0xF4))

/-- An instruction that the encoding admits. A step of the part has no encoding and no condition. -/
def Instr.wf : Instr → Bool
  | .nop g => g.ok
  | .unassignedOpcode w => !opAssigned (w.extractLsb' 0 8).toNat
  | .sadd g o | .ssub g o | .smul g o => g.ok && o.ok true false
  | .sshl g o => g.ok && o.ok true true
  | .sshr g o | .ssra g o => g.ok && o.ok false true
  | .smulh g o | .sand g o | .sor g o | .sxor g o | .smin g o | .smax g o | .ssel g o => g.ok && o.ok false false
  | .sdiv g _ o | .srem g _ o => g.ok && o.ok false false
  | .scmp g o => g.ok && o.ok
  | .smov g o => g.ok && o.ok true
  | .sclz g o => g.ok && o.ok false
  | .sli g o => g.ok && o.ok
  | .sbfx g o | .sbfi g o => g.ok && o.ok
  | .spopc g o => g.ok && o.ok
  | .br g _ => g.ok
  | .brc g o => g.ok && o.test.ok
  | .brv g _ => g.ok
  | .join => true
  | .jtab g _ => g.ok
  | .call g _ => g.ok
  | .callInd g o => g.ok && o.ok
  | .ret g => g.ok
  | .exit g => g.ok
  | .loop g o => g.ok && o.ok
  | .plog g o => g.ok && o.ok
  | .pmov g o => g.ok && o.ok
  | .pred g o => g.ok && o.ok
  | .pder g o => g.ok && o.ok
  | .pclass g o => g.ok && o.ok
  | .narrow g _ => g.ok
  | .widen g o => g.ok && o.ok
  | .pqry g o => g.ok && o.ok
  | .alloc g o => g.ok && o.ok
  | .vadd g o | .vsub g o | .vmul g o | .vmad g o => g.ok && o.ok true false
  | .vshl g o => g.ok && o.ok true true
  | .vshr g o | .vsra g o => g.ok && o.ok false true
  | .vmulh g o | .vand g o | .vor g o | .vxor g o | .vmin g o | .vmax g o | .vsel g o => g.ok && o.ok false false
  | .vdiv g _ o | .vrem g _ o => g.ok && o.ok false false
  | .vabs g o => g.ok && o.ok true true true
  | .vcmp g o => g.ok && o.ok
  | .vmov g o => g.ok && o.ok
  | .vbcast g o => g.ok && o.ok
  | .vbfx g o => g.ok && o.ok
  | .vpopc g o | .vclz g o => g.ok && o.ok false false false
  | .fadd g o | .fsub g o | .fmul g o | .ffma g o => g.ok && o.ok
  | .fmin g o | .fmax g o => g.ok && o.ok
  | .fsgn g o => g.ok && o.ok
  | .fdiv g _ o => g.ok && o.ok
  | .fsqrt g _ o | .frsq g _ o => g.ok && o.ok false true
  | .frcp g _ o => g.ok && o.ok true true
  | .fexp2 g _ o => g.ok && o.ok true false
  | .flog2 g _ o => g.ok && o.ok false false
  | .ftrig g _ o => g.ok && o.ok
  | .fcmp g o => g.ok && o.ok
  | .fclass g o => g.ok && o.ok
  | .cvt g o => g.ok && o.ok
  | .qnt g o => g.ok && o.ok
  | .dqnt g o => g.ok && o.ok
  | .amax g _ o => g.ok && o.ok
  | .vperm g _ o => g.ok && o.ok
  | .vrot g o => g.ok && o.ok
  | .vscan g _ o => g.ok && o.ok
  | .vrdc g _ o => g.ok && o.ok
  | .vconf g o => g.ok && o.ok
  | .velect g o => g.ok && o.ok
  | .ld g _ o | .st g o => g.ok && o.ok
  | .atom g _ o => g.ok && o.ok
  | .sgen g o => g.ok && o.ok
  | .xfer g o => g.ok && o.ok
  | .xchain g o => g.ok && o.ok
  | .wait g o => g.ok && o.ok
  | .bari g o => g.ok && o.ok
  | .bara g _ => g.ok
  | .barw g _ => g.ok
  | .syncw g o => g.ok && o.ok
  | .mma g o => g.ok && o.ok
  | .mmas g o => g.ok && o.ok
  | .mmab g o => g.ok && o.ok
  | .scacc g o => g.ok && o.ok
  | .zmovZ2v g _ o => g.ok && o.ok false
  | .zmovV2z g _ o => g.ok && o.ok true
  | .zmovZ2m g _ _ | .zmovM2z g _ _ => g.ok
  | .zclr g _ => g.ok
  | .xsect g _ o => g.ok && o.ok
  | .spx g _ => g.ok
  | .xformFwd g o | .xformInv g o => g.ok && o.ok
  | .mjoin g o => g.ok && o.ok
  | .meet g _ => g.ok
  | .mwait g o => g.ok && quadOk o.b
  | .mqry g o => g.ok && decide (o.fld.toNat ≤ 9)
  | .rdcn g o => g.ok && o.ok
  | .rdget g o => g.ok && o.ok
  | .rsamp o => o.ok
  | .rng g _ o => g.ok && o.ok
  | .reord g o => g.ok && o.ok
  | .launch g _ => g.ok
  | .lwait g o => g.ok && o.ok
  | .trap g _ => g.ok
  | .svcProbe g _ | .svcLock g _ | .svcUnlock g _ | .svcTrylock g _ | .svcLog g _ => g.ok
  | .rdsr g o => g.ok && o.ok
  | .wrsr g o => g.ok && o.ok
  | .yield g _ => g.ok
  | _ => true

/-- Whether a constructor is a step of the part itself, which no instruction word stands for. -/
def Instr.isStep : Instr → Bool
  | .longLatencyResult .. | .issueGuard .. | .pageFault .. | .replay .. | .preEmptionRequest .. | .priorityPreemptTrigger ..
  | .preEmptionSave .. | .restore .. | .tailWrite .. | .eventWordWrite .. | .registerWrite .. | .inletEntryTake ..
  | .dependenceRecheck | .diePull .. | .completionEvent .. | .sluiceRelaunch .. | .resample .. | .copyRecordCheck ..
  | .copyRecordComplete .. | .progressUpdate .. | .streamRecordRead .. | .arrayTakeWork .. | .matrixOpComplete ..
  | .transformStart .. | .mereContribution .. | .mereUnbind .. | .routerContribution .. | .reduceTimeout ..
  | .instanceFreeTimeout .. | .collectiveStart .. | .wireBlockReceive .. | .collectiveComplete .. | .collectiveFailTimeout ..
  | .refreshWindow .. | .linkSleep .. | .homeWrite .. | .snoopAnswer .. | .linkWakeTimeout .. | .l1Eviction ..
  | .basinEviction .. | .heartbeat .. | .dieDeath .. | .scrub .. | .correctedError .. | .uncorrectableError ..
  | .linkRetrain .. | .thermalThrottle | .powerUp | .computeDieReset .. | .bootGo .. | .imageFetchComplete ..
  | .imageVerifyComplete | .firmwareStepsComplete .. | .attestationRequest | .contextCreate .. | .contextEnd ..
  | .hostSuspend .. | .contextSwitch .. | .mappingRequest .. | .inletDestroy .. | .communicatorCreate ..
  | .faultLogReadAdvance .. | .inspectionRequest .. | .hostLockRequest .. | .cxlMemAccess .. | .packageCopyRequest ..
  | .powerLoss .. | .throttleCauseClears | .cxlCacheSnoop .. => true
  | _ => false

end Sys2Proof
end

