-- ==== Sys2Proof/Machine/Flags.lean ====
section
/-! DEFINITION. Integer and floating results with the flags they raise (R207, R208, R322 to R329, R370 to R373, R393,
Tables 7-7, 7-8, 12-9 and 13-6). A result is a number below 2^w. -/

namespace Sys2Proof

open Machine

/-- The value of a pattern under an integer type. -/
def IntTy.val (t : IntTy) (x : Nat) : Int := toInt t.signed t.bits x

def Cmp.holds (c : Cmp) (a b : Int) : Bool :=
  match c with
  | .eq => decide (a = b) | .ne => decide (a ≠ b) | .lt => decide (a < b)
  | .le => decide (a ≤ b) | .gt => decide (b < a) | .ge => decide (b ≤ a)

def BrCmp.holds (c : BrCmp) (w a b : Nat) : Bool :=
  match c with
  | .eq => a == b | .ne => a != b
  | .lt => decide (signExt a w < signExt b w) | .ge => decide (signExt b w ≤ signExt a w)
  | .ltu => decide (a < b) | .geu => decide (b ≤ a)

def FTy.fmt : FTy → Fmt
  | .fp32 => Machine.fp32 | .fp64 => Machine.fp64 | .fp16 => Machine.fp16 | .bf16 => Machine.bf16

def RndF.rnd : RndF → Rnd
  | .rne => .rne | .rtz => .rtz | .rup => .rup | .rdn => .rdn

/-- The value of a pattern; FP16 and BF16 take bits [15:0] (R322). -/
def FTy.val (t : FTy) (x : Nat) : FVal := FVal.decode t.fmt (x % 2 ^ t.fmt.width)

/-- R73: an immediate as a pattern of the type. -/
def FTy.ofInt (t : FTy) (i : Int) : Nat := (finish t.fmt .rne false (FVal.ofInt i, 0#8)).1

/-- The arithmetic type as a conversion type. -/
def IntTy.num (t : IntTy) : NumTy := .int t.signed t.bits

def FTy.num (t : FTy) : NumTy := .flt t.fmt

def ATy.num : ATy → NumTy
  | .int t => t.num
  | .flt t => t.num

end Sys2Proof

namespace Sys2Proof.Machine

/-- A result and its flags. -/
abbrev Val := Nat × W8


/-- R207: reduce mod 2^w, or clamp and raise IOV. -/
def intResult (t : IntTy) (sat : Bool) (x : Int) : Val :=
  if sat then
    let y := satInt t.signed t.bits x
    (modPow y t.bits, if y = x then 0#8 else fIOV)
  else (modPow x t.bits, 0#8)

/-- R208, Table 7-8: quotient and remainder. -/
def intDiv (t : IntTy) (x y : Nat) : Val :=
  let a := t.val x
  let b := t.val y
  if b = 0 then
    (modPow (if t.signed then (if a < 0 then minInt true t.bits else maxInt true t.bits) else maxInt false t.bits) t.bits, fIDZ)
  else if t.signed ∧ a = minInt true t.bits ∧ b = -1 then (modPow a t.bits, fIOV)
  else (modPow (Int.tdiv a b) t.bits, 0#8)
def intRem (t : IntTy) (x y : Nat) : Val :=
  let a := t.val x
  let b := t.val y
  if b = 0 then (x % 2 ^ t.bits, fIDZ)
  else if t.signed ∧ a = minInt true t.bits ∧ b = -1 then (0, fIOV)
  else (modPow (Int.tmod a b) t.bits, 0#8)

def intAdd (t : IntTy) (sat : Bool) (x y : Nat) : Val := intResult t sat (t.val x + t.val y)
def intSub (t : IntTy) (sat : Bool) (x y : Nat) : Val := intResult t sat (t.val x - t.val y)
def intMul (t : IntTy) (sat : Bool) (x y : Nat) : Val := intResult t sat (t.val x * t.val y)
def intMulh (t : IntTy) (x y : Nat) : Val := (modPow (t.val x * t.val y / 2 ^ t.bits) t.bits, 0#8)
def intMad (t : IntTy) (sat : Bool) (x y d : Nat) : Val := intResult t sat (t.val x * t.val y + t.val d)
/-- The shift amount b is read as an unsigned 32-bit number. With the saturate bit a shift by w or more clamps every non-zero
value (R370), so the power is taken at w at most. -/
def intShl (t : IntTy) (sat : Bool) (x b : Nat) : Val :=
  if sat then intResult t true (t.val x * 2 ^ min b (t.bits + 1))
  else (if t.bits ≤ b then 0 else x * 2 ^ b % 2 ^ t.bits, 0#8)
def intShr (t : IntTy) (x b : Nat) : Val := (if t.bits ≤ b then 0 else x / 2 ^ b, 0#8)
def intSra (t : IntTy) (x b : Nat) : Val := (modPow (signExt x t.bits / 2 ^ min b t.bits) t.bits, 0#8)
def intMin (t : IntTy) (x y : Nat) : Val := (if t.val x ≤ t.val y then x else y, 0#8)
def intMax (t : IntTy) (x y : Nat) : Val := (if t.val y ≤ t.val x then x else y, 0#8)
def intAnd (x y : Nat) : Val := (x &&& y, 0#8)
def intOr (x y : Nat) : Val := (x ||| y, 0#8)
def intXor (x y : Nat) : Val := (x ^^^ y, 0#8)
def intSel (d x y : Nat) : Val := (if d = 0 then y else x, 0#8)
def intAbs (t : IntTy) (sat : Bool) (x : Nat) : Val := intResult t sat (Int.ofNat (t.val x).natAbs)
def popCount (x n : Nat) : Nat := ((List.range n).filter fun i => x.testBit i).length
def leadZeros (x n : Nat) : Nat := ((List.range n).takeWhile fun i => !x.testBit (n - 1 - i)).length


/-- R371: position and length of a field. -/
def fieldPos (w d : Nat) : Nat := d % 64 % w
def fieldLen (w d : Nat) : Nat := d / 256 % 64 % w + 1
def fieldExtract (t : IntTy) (a d : Nat) : Nat :=
  let len := fieldLen t.bits d
  let f := a / 2 ^ fieldPos t.bits d % 2 ^ len
  if t.signed then modPow (signExt f len) t.bits else f
def fieldInsert (t : IntTy) (old a d : Nat) : Nat :=
  let pos := fieldPos t.bits d
  let m := (2 ^ fieldLen t.bits d - 1) * 2 ^ pos % 2 ^ t.bits
  (old &&& (2 ^ t.bits - 1 - m)) ||| (a * 2 ^ pos % 2 ^ t.bits &&& m)

/-! Floating types. -/


def fltFinish (t : FTy) (r : RndF) (sat : Bool) (x : FVal × W8) : Val := finish t.fmt r.rnd sat x
def fltAdd (t : FTy) (r : RndF) (sat : Bool) (a b : Nat) : Val := fltFinish t r sat (addEx r.rnd (t.val a) (t.val b))
/-- a - b: the negated operand keeps a NaN a NaN. -/
def fltSub (t : FTy) (r : RndF) (sat : Bool) (a b : Nat) : Val :=
  fltFinish t r sat (addEx r.rnd (t.val a) (t.val b).negate)
def fltMul (t : FTy) (r : RndF) (sat : Bool) (a b : Nat) : Val := fltFinish t r sat (mulEx (t.val a) (t.val b))
def fltFma (t : FTy) (r : RndF) (sat : Bool) (a b d : Nat) : Val :=
  fltFinish t r sat (fmaEx r.rnd (t.val a) (t.val b) (t.val d))
def fltDiv (t : FTy) (r : RndF) (sat : Bool) (a b : Nat) : Val := fltFinish t r sat (divEx (t.val a) (t.val b))
def fltRcp (t : FTy) (r : RndF) (sat : Bool) (a : Nat) : Val := fltFinish t r sat (divEx (FVal.ofInt 1) (t.val a))
def fltSqrt (t : FTy) (r : RndF) (a : Nat) : Val := fltFinish t r false (sqrtEx (t.val a))
def fltRsq (t : FTy) (r : RndF) (a : Nat) : Val := fltFinish t r false (rsqrtEx (t.val a))
def fltExp2 (t : FTy) (r : RndF) (sat : Bool) (a : Nat) : Val := fltFinish t r sat (exp2Ex (t.val a))
def fltLog2 (t : FTy) (r : RndF) (a : Nat) : Val := fltFinish t r false (log2Ex (t.val a))
def fltTrig (t : FTy) (r : RndF) (cosine : Bool) (a : Nat) : Val := fltFinish t r false (trigEx cosine (t.val a))
def fltMax (t : FTy) (takeMax : Bool) (a b : Nat) : Val := fltFinish t .rne false (maxEx takeMax (t.val a) (t.val b))

/-- R325: a with a sign taken from b; a NaN gives the canonical NaN. -/
def fltSgn (t : FTy) (k : SgnK) (a b : Nat) : Val :=
  let w := t.fmt.width
  let x := a % 2 ^ w
  let sa := x.testBit (w - 1)
  let sb := (b % 2 ^ w).testBit (w - 1)
  let s := match k with
    | .copy => sb
    | .neg => !sb
    | .xor => sa != sb
  if (t.val a).isNaN then (t.fmt.canonNaN, 0#8) else (x % 2 ^ (w - 1) + (if s then 2 ^ (w - 1) else 0), 0#8)

/-- R328, Table 12-10. -/
def fltCmp (t : FTy) (c : FCond) (a b : Nat) : Bool × W8 :=
  let x := t.val a
  let y := t.val b
  let un := x.isNaN || y.isNaN
  let sig := x.isSig || y.isSig
  let r := match c with
    | .eq => !un && x.eqv y
    | .ne => un || !x.eqv y
    | .lt => !un && x.lt y
    | .le => !un && !y.lt x
    | .gt => !un && y.lt x
    | .ge => !un && !x.lt y
    | .un => un
    | .ord => !un
  let inv := match c with
    | .lt | .le | .gt | .ge => un
    | _ => sig
  (r, if inv then fFNV else 0#8)

/-- R329. -/
def fltClass (t : FTy) (a : Nat) : Nat :=
  let x := a % 2 ^ t.fmt.width
  let e := x / 2 ^ t.fmt.mbits % 2 ^ t.fmt.ebits
  match t.val a with
  | .nan true => 1
  | .nan false => 2
  | .inf true => 4
  | .inf false => 512
  | .fin neg m _ =>
    if m = 0 then (if neg then 32 else 64)
    else if e = 0 then (if neg then 16 else 128)
    else if neg then 8 else 256


end Sys2Proof.Machine
end

