-- ==== Sys2Proof/Config.lean ====
section
/-! DEFINITION. What an implementation fixes (SKU figures) and the free values, which the spec leaves open. A free value is
an opaque constant without a body: nothing can be proved of the value it takes. -/

namespace Sys2Proof

/-- R1: a part number is Plynril followed by the count of live compute dies. -/
inductive Sku where
  | p8 | p6 | p4 | p2 | p1
  deriving DecidableEq, Repr

namespace Config

/-- R1: the count N of live compute dies. -/
def dieCount : Sku → Nat
  | .p8 => 8 | .p6 => 6 | .p4 => 4 | .p2 => 2 | .p1 => 1

/-- R16, Table 1-2: home set of a die, as a mask of M0 to M3. -/
def homeSet : Sku → Nat → BitVec 4
  | .p8, d => 1#4 <<< (d / 2)
  | .p6, d => if d < 2 then 1#4 else if d < 4 then 2#4 else if d = 4 then 4#4 else 8#4
  | .p4, d => 1#4 <<< d
  | .p2, d => if d = 0 then 3#4 else 12#4
  | .p1, _ => 15#4

/-- R15: the buddy of a die; the Plynril 1 has none. -/
def buddy : Sku → Nat → Option Nat
  | .p1, _ => none
  | _, d => some (if d % 2 = 0 then d + 1 else d - 1)

/-- R157: the memory domain of a die, the lowest memory die of its home set. -/
def memDomain (k : Sku) (d : Nat) : Nat :=
  ((List.range 4).find? fun m => (homeSet k d).getLsbD m).getD 0

/-- FREE VALUE (R163, R25): what a byte reads as that nothing has written since power-up, or that was written under
another key. DESIGN CHOICE, safe: log entry 4. -/
opaque unwrittenByte (key pa : Nat) : BitVec 8
/-- FREE VALUE: the seal key and the AES-XTS-256 key pair of the n-th context, from the entropy of the control die (R34). DESIGN
CHOICE, safe: log entry 61. -/
opaque sealKey (n : Nat) : BitVec 64
opaque aesPair (n : Nat) : BitVec 512
/-- FREE VALUE: the ML-DSA-65 key pair of the n-th boot, public key and secret key (R33). DESIGN CHOICE, safe: log entry 61. -/
opaque attestPublic (n : Nat) : BitVec 15616
opaque attestSecret (n : Nat) : BitVec 32256
/-- FREE VALUE: an XMSS signature after its 4-byte leaf index, by private seed, leaf and message (R32); the standard that
defines it lies outside the spec. DESIGN CHOICE, safe: log entry 61. -/
opaque xmssSignature (seed : BitVec 256) (leaf : Nat) (message : BitVec 15616) : BitVec 21504
/-- FREE VALUE: the set of a basin that a line belongs to, before it is taken mod 2^21 (R21 gives the ways, not the index).
DESIGN CHOICE, safe: log entry 13. -/
opaque basinSet (line : Nat) : Nat
/-- FREE VALUE: cycles that pass on a core at the n-th issue (R125). DESIGN CHOICE, safe: log entry 6. -/
opaque cyclesTaken (n : Nat) : Nat
/-- FREE VALUE: the refresh phase of a memory die at the n-th reading, before it is taken mod 9,600 (R160). DESIGN CHOICE, safe: log entry 6. -/
opaque phaseReading (n die : Nat) : Nat
/-- FREE VALUE: whether the XMSS signature of an image verifies under the key of the boot ROM (R30). The standard that
defines it lies outside the spec. DESIGN CHOICE, safe: log entry 7. -/
opaque xmssVerifies (image : List (BitVec 8)) : Bool
/-- FREE VALUE: result word elem of the n-th round of a mere whose descriptor or work area was written while bound; words from
4,096 on are its mask, counts and flags (R243). (DESIGN CHOICE, safe: log entry 12.) -/
opaque undefinedRound (n elem : Nat) : BitVec 64

/-- FREE VALUE: a word of the A operand that a multiply takes from the reuse latch beyond the run that the latch was read from
(R229 states none). (DESIGN CHOICE, safe: log entry 12.) -/
opaque latchWord (n key : Nat) : BitVec 32

end Config

end Sys2Proof
end

