-- ==== Sys2Proof/Machine/State.lean ====
section
/-! DEFINITION. The state of the part, layer by layer: boot and package registers, one group of lanes, teams and grids,
contexts, the memory system, the engines and routers, and the model's own bookkeeping. INVENTORY.md lists every field with
the rule that names it and its reset value. -/

namespace Sys2Proof.Machine

/-! ## Boot and package registers (01) -/

/-- Table 1-9. -/
inductive BootSt where
  | waitImage | fetch | verify | rejected | firmware | ready | failed
  deriving DecidableEq, Repr

/-- Table 10-5: a fault record. -/
structure FaultRec where
  seq : W32
  kind : Nat
  cause : Nat
  slot : Nat
  source : Nat
  pc : W64
  mask : LaneMask
  aux : W32
  addr : W64
  team : W32
  group : Nat
  event : W64
  gen : W32
  image : W32
  deriving DecidableEq, Repr

/-- R11: the privilege modes of a management core. -/
inductive HartMode where
  | machine | supervisor | user
  deriving DecidableEq, Repr

/-- R11: a management core (RV64GC): integer and floating registers by number, and the control and status registers of its
privileged architecture by their 12-bit number, fcsr among them and satp, whose mode field selects Sv48; reserved is the address that a
load-reserved of the A extension holds. No step of the part reads it: it runs firmware, whose actions are steps of their own.
(PRESUMED, unsafe: log entry 62.) -/
structure Hart where
  mode : HartMode
  pc : W64
  x : SMap 64
  f : SMap 64
  csr : SMap 64
  reserved : Option W64
  deriving DecidableEq, Repr

/-- R137, Table 5-6: an entry of the scope table: the cores that one instance spans on its die (0 for all), the live dies and the
packages that it takes in, whether the agents of the control die belong to it, and whether the host does. -/
structure ScopeEntry where
  span : Nat
  dies : List Nat
  control : Bool
  packages : List (BitVec 12)
  host : Bool
  deriving DecidableEq, Repr

/-- R32: the device identity key: its OID, the public key (root and public seed) and the private seed. -/
structure IdentityKey where
  oid : W32
  publicKey : BitVec 512
  seed : BitVec 256
  deriving DecidableEq, Repr

/-- R33: the attestation key of this boot, the leaf that certified it, and the 2,692-byte signature. -/
structure Attest where
  leaf : Nat
  publicKey : BitVec 15616
  secretKey : BitVec 32256
  signature : List W8
  deriving DecidableEq, Repr

/-- R11, R12, R28 to R36, R280, R286: the control die: boot registers, fuses, keys, scope table, management cores, clocks and
logs. lostLinks numbers the links beside the ports that have been removed (R277). expanders gives the bytes of each memory die's
expander (R18); memReset holds the memory dies in reset (R29); antiReplay is the anti-replay state of each memory die's encryption
engine (R31), to which the spec gives no width. (PRESUMED, unsafe: log entry 62.) -/
structure Boot where
  sku : Sku
  st : BootSt
  reason : W8
  ctl : W32
  imgAddr : W64
  imgLen : W32
  image : List W8
  leaf : Nat
  secver : W32
  identity : IdentityKey
  attest : Option Attest
  mhz : Nat
  held : Bool
  expanders : List Nat
  ports : BitVec 16
  lostLinks : List Nat
  number : BitVec 12
  scopes : List ScopeEntry
  trees : Bool
  memReset : Bool
  antiReplay : List W64
  harts : List Hart
  memInit : Bool
  now : Nat
  lineage : BitVec 48
  pevLog : List FaultRec
  pevCount : W32
  deriving DecidableEq, Repr

/-! ## A group (02, 03, 08) -/

/-- R40: a strand. -/
structure Strand where
  pc : W64
  members : LaneMask
  active : LaneMask
  join : Option W64
  deriving DecidableEq, Repr

/-- R40, R116, R311: a program-counter slot. waits is its waiting count, and age the number of cycles of its core that have passed since it became
ready with its present instruction. barWait is the number of phases that had completed when a
BARW without an arrival reached its barrier, lockWait is the operand of an SVC that has not issued and the lock for which it
waits (R386), and park is the
page fault before which the slot is parked with its next instruction not issued (R89). -/
structure Slot where
  strand : Option Strand
  arrived : Bool
  barWait : Option Nat
  lockWait : Option (SOp × Nat)
  waits : Nat
  age : Nat
  park : Option Nat
  deriving DecidableEq, Repr

/-- Table 2-2: an entry of the eddy stack. -/
inductive Eddy where
  | strand (pc : W64) (join : Option W64) (members : LaneMask) (fromJtab : Bool)
  | join (addr : W64) (outer : Option W64) (pending parked : LaneMask)
  deriving DecidableEq, Repr

/-- A register that can be pending (R83). A vector name is absolute, the window base included. -/
inductive Reg where
  | v (n : Nat)
  | s (i : Nat)
  | p (i : Nat)
  | a (i : Nat)
  deriving DecidableEq, Repr

/-- Register writes that an in-flight instruction owes, and its flags (R87, R206). -/
structure Writes where
  vw : List (Nat × Nat × W32)
  sw : List (Nat × W32)
  aw : List (Nat × W128)
  flags : W8
  deriving DecidableEq, Repr

/-- Where a load puts its value: an absolute vector name, a scalar, or a pointer register. -/
inductive Dst where
  | v (n : Nat)
  | s (i : Nat)
  | a (i : Nat)
  deriving DecidableEq, Repr

/-- Table 13-7: a stream record. -/
structure StreamRec where
  e0 : Int
  counts : List Nat
  strides : List Int
  ind : Bool
  scale : Int
  q : W128
  deriving DecidableEq, Repr

/-- R379: what an access does with the entries of an indirect stream once it has read them. -/
inductive Access where
  | load (rsf : Rsf) (dst : Dst)
  | store (rsf : Rsf) (uniform : Bool)
  | atom (op : AtomK) (bytes : Nat) (rsf : Rsf) (dst : Nat)
  deriving DecidableEq, Repr

/-- What an in-flight entry still has to do. Lane lists hold (lane, address), and the data captured at issue (R156). Of a load,
all lists every lane that a pre-emption owes again and lanes those still owed; an ATOM whose lanes are empty has been performed. xsect
holds the positions of its streams at issue, those behind its walk once it has walked, and whether a pre-emption keeps
what it has read. moved is what a ZMOV has moved and its
registers have not taken. gather holds lanes whose entries of an indirect stream are not read yet, as (lane, entry), with the operands
of each as (lane, first, second), and of an ST the other lanes with their addresses (R383). -/
inductive Pend where
  | ready (w : Writes)
  | load (ptr : W128) (rsf : Rsf) (dst : Dst) (all lanes : List (Nat × Nat)) (done : Writes)
  | store (ptr : W128) (uniform : Bool) (lanes : List (Nat × Nat × List W8))
  | atom (ptr : W128) (op : AtomK) (bytes : Nat) (rsf : Rsf) (dst : Nat) (lanes : List (Nat × Nat × Nat × Nat)) (done : Writes)
  | zmov (opid : Nat)
  | moved (w : Writes)
  | xsect (j k : Nat) (dst : Nat) (start : Nat × Nat) (ends : Option (Nat × Nat)) (kept : Bool)
  | gather (ptr : W128) (q : StreamRec) (add : Int) (acc : Access) (lanes : List (Nat × Nat)) (data : List (Nat × Nat × Nat))
      (wrote : List (Nat × Nat))
  deriving DecidableEq, Repr

/-- R83 to R92: an entry of the in-flight list; stream is the stream that its addresses come from (R408, R420). -/
structure Flight where
  fid : Nat
  slot : Nat
  pc : W64
  window : Nat
  dests : List Reg
  owed : LaneMask
  active : LaneMask
  pend : Pend
  held : Option Writes
  parked : Option Nat
  acquire : Bool
  stream : Option Nat
  deriving DecidableEq, Repr

/-- Table 8-1, R220: an accumulator tile. Word w of row i has key 128 i + w. -/
structure Tile where
  kind : TileKind
  kcount : Nat
  data : SMap 32
  deriving DecidableEq, Repr

/-- R229: the A-operand reuse latch, when held; regs is the length of the run that it was read from. -/
structure Latch where
  a : Nat
  fmt : MFmt
  regs : Nat
  data : SMap 32
  deriving DecidableEq, Repr

/-- R217, R240: an operation in a matrix queue, with the operands captured at issue. array is the array of the cluster that runs
it, once it has started. -/
structure MxOp where
  id : Nat
  slot : Nat
  pc : W64
  active : LaneMask
  op : Instr
  aData : SMap 32
  scal : List W32
  ptrs : List W128
  status : Nat
  started : Bool
  array : Nat
  fid : Option Nat
  deriving DecidableEq, Repr

/-- R376: an SGEN whose record has not been read. -/
structure StreamReq where
  ptr : W128
  addr : Nat
  slot : Nat
  pc : W64
  active : LaneMask
  deriving DecidableEq, Repr

/-- R377: a stream of the address generator. -/
structure Stream where
  body : Option StreamRec
  req : Option StreamReq
  everSet : Bool
  pos : Nat
  deriving DecidableEq, Repr

/-- The state of a group (R37 to R45, R92, R93, Table 3-12, Table 4-4). v has key 96 n + l for absolute name n and lane l, and
depth is the call depth, whose frames lie in the STACK region (R318). seen gives, for each class of WAIT, the widest scope of an operation
of the group that has completed (R178). resident is false while the group is saved (R119). (DESIGN CHOICE, unsafe: log entry 11.) -/
structure Group where
  gid : Nat
  grid : Nat
  tid : Nat
  idx : Nat
  core : Nat
  resident : Bool
  launched : LaneMask
  live : LaneMask
  v : SMap 32
  s : SMap 32
  p : SMap 96
  a : SMap 128
  wbase : Nat
  depth : Nat
  slot0 : Slot
  slot1 : Slot
  eddy : List Eddy
  lineage : SMap 64
  parent : SMap 64
  pslot : SMap 32
  tlane : SMap 32
  flight : List Flight
  cntCopy : Nat
  cntMx : Nat
  cntStream : Nat
  cntColl : Nat
  seen : List Nat
  latch : Option Latch
  tiles : List Tile
  mq : List MxOp
  streams : List Stream
  interval : Nat
  retired : Bool
  deriving DecidableEq, Repr

/-! ## Teams and grids (02, 04) -/

/-- R308: a named barrier; arrivals names the groups whose arrivals the current phase has counted, once for each, and dones counts the
phases that arrivals have completed (the model's own fields). -/
structure Barrier where
  init : Bool
  expect : Nat
  count : Nat
  phase : W16
  latest : List (Nat × W16)
  arrivals : List Nat
  dones : Nat
  deriving DecidableEq, Repr

/-- R63, R365: a deposit in the sluice. -/
structure Deposit where
  key : W16
  lane : Nat
  lineage : W64
  parent : W64
  pslot : W32
  payload : List W32
  deriving DecidableEq, Repr

/-- R335, R341: a child launched by a team. -/
structure Kid where
  grid : Nat
  status : Option W32
  deriving DecidableEq, Repr

structure Team where
  tid : Nat
  grid : Nat
  t : Nat
  cores : List Nat
  tarn : SMap 8
  bars : List Barrier
  sluice : List Deposit
  runs : List (List Deposit)
  relaunched : Nat
  kids : List Kid
  resident : Bool
  done : Bool
  deriving DecidableEq, Repr

/-- Table 2-6. -/
structure LaunchRec where
  entry : Nat
  x : Nat
  y : Nat
  z : Nat
  groups : Nat
  lastLanes : Nat
  window : Nat
  tiles : Nat
  cls : Nat
  prio : Nat
  affinity : Nat
  race : Nat
  flags : Nat
  tarn : Nat
  gang : Nat
  done : Nat
  dep : Nat
  depVal : Nat
  depth : Nat
  rtClass : Nat
  args : List W128
  sargs : List W32
  coll : Nat
  chunk : Nat
  resTile : Nat
  thresh : Nat
  key : Nat
  popCap : Nat
  portV : Nat
  portS : Nat
  reorder : Nat
  childLimit : Nat
  deriving DecidableEq, Repr

/-- R290: a lane that has arrived at RSAMP. -/
structure Arrival where
  gid : Nat
  slot : Nat
  lane : Nat
  pslot : Nat
  weight : W32
  target : W32
  resume : W64
  vd : Nat
  deriving DecidableEq, Repr

/-- R295: the lanes of one group of a team that RSAMP forms. -/
structure Seed where
  lanes : List (W64 × W64 × W32 × W32)
  vd : Nat
  vregs : List (SMap 32)
  pregs : List (SMap 1)
  sregs : List W32
  resume : W64
  deriving DecidableEq, Repr

/-- Where a grid stands: its dependence is unmet, it is admitted, it has ended, or its completion event is written too. -/
inductive GridSt where
  | waiting | admitted | ended | reported
  deriving DecidableEq, Repr

/-- A grid that the distributor has read. bad lists the offsets of the record's fields that fail, and checked says that the
whole record has been validated. bound numbers the grids bound to one communicator in admission order (R261), nextTeam is the
number that a team formed by RSAMP takes (R295), and charged counts, by unit, the pre-emptions for priority (R118). -/
structure Grid where
  id : Nat
  ctx : Nat
  launch : LaunchRec
  depth : Nat
  parent : Option (Nat × Nat × Nat)
  inlet : Option Nat
  prio : Nat
  affinity : Nat
  order : Nat
  st : GridSt
  nextUnit : Nat
  seeds : List (Nat × List Seed)
  teamsLeft : Nat
  kidsLive : Nat
  cause : Option (Nat × W64)
  collBad : Option Nat
  serial : Nat
  popSize : Nat
  round : Nat
  arrivals : List Arrival
  chunksLeft : Nat
  bad : List Nat
  checked : Bool
  bound : Option Nat
  nextTeam : Nat
  charged : List (Nat × Nat)
  deriving DecidableEq, Repr

/-- R51: the gang barrier of class 1. -/
structure GangBar where
  grid : Nat
  gang : Nat
  bar : Barrier
  deriving DecidableEq, Repr

/-- R117 to R121: a unit that has been asked to halt, and once saved is set a unit whose image is held. yielder is the group
whose YIELD gave way, its slot, and the scalar that it writes. -/
structure SavedUnit where
  id : Nat
  grid : Nat
  unit : Nat
  cause : Nat
  yielder : Option (Nat × Nat × Nat)
  saved : Bool
  deriving DecidableEq, Repr

/-! ## Contexts and inlets (04, 05, 10, 13) -/

/-- R386: who holds or waits for a lock; the host's request streams are told apart by number. -/
inductive Holder where
  | group (grid t idx : Nat)
  | host (stream : Nat)
  deriving DecidableEq, Repr

structure Lock where
  n : Nat
  holder : Option Holder
  queue : List Holder
  deriving DecidableEq, Repr

/-- R157: a replica of a page in a memory domain. -/
structure Replica where
  va : Nat
  sz : Nat
  dom : Nat
  pa : Nat
  deriving DecidableEq, Repr

/-- R281: a kept image, with the group's team for the barriers and sync words that engine work still reaches. -/
structure Image where
  index : Nat
  seq : W32
  group : Group
  team : Option Team
  deriving DecidableEq, Repr

structure Ctx where
  slot : Nat
  id : Nat
  sealKey : W64
  aesPair : BitVec 512
  keysErased : Bool
  bench : Nat
  atomics : List Nat
  treeLimits : List Nat
  maps : List Mapping
  demand : List DemandRange
  replicas : List Replica
  stackVa : Nat
  stackGroups : Nat
  stackUse : List (Nat × Nat)
  logVa : Nat
  logPa : Nat
  logWr : W32
  logRd : W32
  logDrop : W32
  logRecs : List FaultRec
  images : List Image
  nextImage : Nat
  sealFails : Nat
  locks : List Lock
  eventVa : Nat
  eventPa : Nat
  suspended : Bool
  ended : Bool
  deriving DecidableEq, Repr

/-- R101 to R104. -/
structure Inlet where
  n : Nat
  ctx : Nat
  base : Nat
  size : Nat
  prio : Nat
  affinity : BitVec 4
  tail : W32
  head : W32
  isOpen : Bool
  blocked : Bool
  stopped : Bool
  deriving DecidableEq, Repr

/-! ## Dies and memory (01, 05, 10) -/

structure Die where
  num : Nat
  block : Nat
  alive : Bool
  inReset : Bool
  lastBeat : Nat
  ctx : Option Nat
  deriving DecidableEq, Repr

/-- R21, R268 to R271: one word of an L1 (own is the core id) or of a basin (own is the die number). -/
structure CWord where
  own : Nat
  ctx : Nat
  wa : Nat
  val : W32
  dirty : Bool
  ro : Bool
  mirror : Bool
  poison : Bool
  deriving DecidableEq, Repr

/-- R270, R273, R280: a snoop that a die has not answered: contiguous words of one line. gid is the group or other operation whose
write waits for it, src the die that the write came from, and entry the sequence number of the record of its LINK_WAKE_TIMEOUT. -/
structure Snoop where
  k : Nat
  die : Nat
  src : Option Nat
  words : List Nat
  tries : Nat
  awake : Bool
  relayed : Bool
  gid : Option Nat
  entry : Option W32
  deriving DecidableEq, Repr

/-- R189: the race detector's shadow of one 32-byte sector; space TARN is named by its team. -/
structure Shadow where
  grid : Nat
  tarn : Option Nat
  sector : Nat
  team : Nat
  group : Nat
  interval : Nat
  pub : Option Nat
  deriving DecidableEq, Repr

/-- R155: who waits for a page. -/
inductive PfOwner where
  | slot (gid slot : Nat) (owed : LaneMask)
  | flight (gid fid : Nat)
  | engine (gid : Nat)
  | part
  deriving DecidableEq, Repr

structure PFault where
  k : Nat
  ctx : Nat
  va : Nat
  write : Bool
  domain : Nat
  owner : PfOwner
  done : Bool
  deriving DecidableEq, Repr

/-- R157: a frame of n bytes that was copied from another: what the copy did not move reads under the key as it read there. -/
structure Origin where
  key : Nat
  dst : Nat
  src : Nat
  n : Nat
  deriving DecidableEq, Repr

/-- R61, R278, R269: a write of the control die that waits until some snoops are answered: bytes, or, where there are none, the addition
of 1 to a u32. (DESIGN CHOICE, safe: log entry 5.) -/
structure Later where
  waits : List Nat
  key : Nat
  pa : Nat
  bytes : Option (List W8)
  deriving DecidableEq, Repr

/-- Home memory, the caches, the snoops and the translations under way; asleep holds the links, by compute die and memory die, that
sleep (R273), later the control die's writes that wait, oldest first, and zeros the lines, by key and number, that read 0 under the key
where nothing was written: those of the event array of a new context (R105), until a write under another key (R25). acquired gives, by
group, the narrowest scope of an acquire whose words no release has carried further since (R168, R172).
(DEDUCED, unsafe: log entry 101.) -/
structure Mem where
  home : List Host.Cell
  keys : List (Nat × Nat)
  origins : List Origin
  zeros : List (Nat × Nat)
  poison : List Nat
  l1 : List CWord
  basin : List CWord
  snoops : List Snoop
  asleep : List (Nat × Nat)
  shadows : List Shadow
  faults : List PFault
  later : List Later
  acquired : List (Nat × Nat)
  deriving DecidableEq, Repr

/-! ## Engines and routers (09, 14) -/

/-- Table 14-4. -/
structure CopyRec where
  src : W128
  dst : W128
  geo : Nat
  sig : Nat
  mcast : Bool
  own : Bool
  link : Nat
  w : Nat
  bar : Nat
  base : Nat
  h : Nat
  sstride : Nat
  dstride : Nat
  x38 : Nat
  resv : Bool
  deriving DecidableEq, Repr

/-- A copy operation of a channel: an XFER, or a chain at one of its records. moved counts the bytes of the walk before which every
byte has moved. stack is the virtual address of the issuing group's STACK region; und is the undelivered mask of a multicast whose grid
has ended; told is the progress last written to the record; halted is the cause, auxiliary word and address with which it stops once
its progress is written (R412); closed says that the fields after the data are written, and then, with its link word, that OWN is clear
(R413). -/
structure CopyOp where
  cid : Nat
  gid : Nat
  ctx : Nat
  tid : Nat
  core : Nat
  ch : Nat
  chain : Bool
  slot : Nat
  pc : W64
  active : LaneMask
  addr : Nat
  body : Option CopyRec
  moved : Nat
  ending : Bool
  stack : Nat
  und : Option Nat
  told : Option Nat
  halted : Option (Nat × Nat × Nat)
  closed : Option (Option Nat)
  deriving DecidableEq, Repr

/-- R159: a record of the package copy engine that waits for a page or for acknowledgements; moved counts bytes. -/
structure HostCopy where
  id : Nat
  slot : Nat
  ctx : Nat
  record : List W8
  moved : Nat
  deriving DecidableEq, Repr

/-- R247: an open round and its on-time payloads, by member. -/
structure Round where
  tag : W16
  pays : List (Nat × List W64)
  deriving DecidableEq, Repr

/-- R250: a round that has closed. -/
structure Closed where
  tag : W16
  vals : List W64
  mask : W64
  ontime : Nat
  folds : Nat
  flags : W8
  deriving DecidableEq, Repr

/-- R249: a fold accumulator; the weight is in units of 2^-255. -/
structure Fold where
  member : Nat
  acc : List W64
  weight : Nat
  flags : W8
  deriving DecidableEq, Repr

structure Mere where
  ctx : Nat
  base : Nat
  die : Option Nat
  n : Nat
  k : Nat
  op : Nat
  rule : Nat
  fp64 : Bool
  m : Nat
  work : Nat
  lags : List Nat
  joined : List (Nat × Nat)
  flagged : List Nat
  tag : W16
  folded : W32
  discarded : W32
  rejected : W32
  rounds : List Round
  folds : List Fold
  closed : List Closed
  tainted : Bool
  deriving DecidableEq, Repr

/-- R242: a contribution under way to its router. -/
inductive Contrib where
  | meet (base : Nat) (member : Nat) (tag : W16) (pay : List W64)
  | reduce (tree : Nat) (die : Option Nat) (tag : W16) (leaf : Nat) (pmask : W64) (ty : RTy) (op : RK) (m : Nat) (pay : List W64)
  deriving DecidableEq, Repr

structure Sent where
  id : Nat
  ctx : Nat
  gid : Nat
  core : Nat
  slot : Nat
  pc : W64
  active : LaneMask
  what : Contrib
  deriving DecidableEq, Repr

/-- R255 to R258: a reduction that has come into being at its root; die is the tree instance of a die tree, and waiters the groups,
with their slots, whose RDGET waits for it. -/
structure Reduct where
  id : Nat
  ctx : Nat
  tree : Nat
  die : Option Nat
  tag : W16
  pmask : W64
  ty : RTy
  op : RK
  m : Nat
  got : List (Nat × List W64)
  result : Option (List W64 × W8)
  timedOut : Bool
  taken : W64
  waiters : List (Nat × Nat)
  deriving DecidableEq, Repr

/-- R260, R261: a communicator, the rank of this package in it, and how many bound grids have been admitted. -/
structure Comm where
  ctx : Nat
  index : Nat
  ranks : Nat
  rank : Nat
  bound : Nat
  deriving DecidableEq, Repr

/-- R261, R265: how far a chunk is; lost is one that never fires because a team of it was lost. -/
inductive ChunkSt where
  | fired | started | doneOk | failed | lost
  deriving DecidableEq, Repr

/-- R261 to R265: a chunk of a bound collective: its own values as they were read when the collective started, its blocks that held
poison, the blocks that have come from other ranks, with key 2^32 rank + block, and the successive bad copies of a block. -/
structure Chunk where
  grid : Nat
  chunk : Nat
  st : ChunkSt
  own : List W64
  poison : List Nat
  got : List (Nat × List W64)
  bad : List (Nat × Nat)
  deriving DecidableEq, Repr

/-- What a request of the host got back; an inspection request gets an image. op names the operation whose writes the reply waits
for: it is given once none of their snoops is outstanding (R269). -/
structure Reply where
  code : Nat
  data : List W8
  image : Option Image
  op : Option Nat
  deriving DecidableEq, Repr

/-- Everything outside the groups and the memory; served gives the group that each array of a cluster served last (R218), and
events holds the words of the event arrays of slots that no live context has, with key 4096 slot + word (R105). -/
structure Sys where
  dies : List Die
  memCycles : List W64
  ctxs : List Ctx
  inlets : List Inlet
  grids : List Grid
  teams : List Team
  gangs : List GangBar
  saved : List SavedUnit
  copies : List CopyOp
  hostCopies : List HostCopy
  meres : List Mere
  sent : List Sent
  reducts : List Reduct
  comms : List Comm
  chunks : List Chunk
  replies : List Reply
  events : SMap 32
  admitted : Nat
  served : List (Nat × Nat)
  deriving DecidableEq, Repr

/-- The model's own bookkeeping (DESIGN CHOICE, safe: log entries 1 and 5): the steps of the part that the environment has chosen, the slots it has
chosen to issue, the strand that issues now, the counter of the free values, and the next identity. denies says which of the
completions of HOSTNC atomics to come are Unsupported Requests (R162); where it ends, none is. -/
structure Run where
  agenda : List Instr
  picks : List (Nat × Nat)
  cur : Option (Nat × Nat)
  free : Nat
  nextId : Nat
  turn : Nat
  denies : List Bool
  deriving DecidableEq, Repr

/-- The state of the part. idle holds the idle counts of each core, of the five engine classes, and placed what has issued in a core's
present cycle: group, slot and the place of its class, 5 for none (R116). -/
structure State where
  boot : Boot
  sys : Sys
  mem : Mem
  groups : List Group
  cycles : List (Nat × W64)
  idle : List (Nat × List Nat)
  placed : List (Nat × List (Nat × Nat × Nat))
  run : Run
  deriving DecidableEq, Repr

/-- Why the model stops. -/
inductive Fault where
  /-- Raised by the meaning of an instruction of programs when no strand issues (run.cur is none or names no strand). No run of
  the part does this. Safe: the model stops where the hardware has no behaviour. -/
  | noIssuer
  deriving DecidableEq, Repr

/-- Why the model has no meaning. -/
inductive Refusal where
  /-- Raised by the dispatch for an instruction that has no meaning yet. Safe: the model stops. -/
  | notModelled (mnemonic : String)
  deriving DecidableEq, Repr

/-- What a meaning answers. -/
abbrev Out := Host.Outcome State Fault Refusal

def Slot.empty : Slot := ⟨none, false, none, none, 0, 0, none⟩
def Barrier.fresh : Barrier := ⟨false, 0, 0, 0, [], [], 0⟩
def Stream.fresh : Stream := ⟨none, none, false, 0⟩
def Tile.fresh : Tile := ⟨.fp32, 0, []⟩
def Writes.none : Writes := ⟨[], [], [], 0⟩

/-- R11: a management core at reset: machine mode, translation off. (PRESUMED, unsafe: log entry 62.) -/
def Hart.reset : Hart := ⟨.machine, 0, [], [], [], none⟩

/-- The dies of a SKU; before an image is accepted they are held in reset (R29). The block of core ids of a die (R138) is
set at boot. (DEDUCED, unsafe: log entry 20.) -/
def freshDies (k : Sku) : List Die :=
  (List.range (Config.dieCount k)).map fun d => ⟨d, d, true, true, 0, none⟩

/-- Power-up of the control die (R29). (DESIGN CHOICE, unsafe: log entries 2 and 3.) -/
def State.reset : State where
  boot := {
    sku := .p8, st := .waitImage, reason := 0, ctl := 0, imgAddr := 0, imgLen := 0, image := [], leaf := 0, secver := 0
    identity := ⟨0x11, 0, 0⟩, attest := none, mhz := 2000, held := false, expanders := [0, 0, 0, 0], ports := 0, lostLinks := [], number := 0
    scopes := [], memReset := true, antiReplay := [0, 0, 0, 0], harts := List.replicate 8 Hart.reset
    trees := false, memInit := false, now := 0, lineage := 0, pevLog := [], pevCount := 0 }
  sys := {
    dies := freshDies .p8, memCycles := [0, 0, 0, 0], ctxs := [], inlets := [], grids := [], teams := []
    gangs := [], saved := [], copies := [], hostCopies := [], meres := [], sent := [], reducts := [], comms := [], chunks := [], replies := []
    events := [], admitted := 0, served := [] }
  mem := {
    home := [], keys := [], origins := [], zeros := [], poison := [], l1 := [], basin := [], snoops := [], asleep := [], shadows := [], faults := [], later := [], acquired := [] }
  groups := []
  cycles := []
  idle := []
  placed := []
  run := { agenda := [], picks := [], cur := none, free := 0, nextId := 1, turn := 0, denies := [] }

end Sys2Proof.Machine
end

