-- ==== Sys2Proof/Machine/Regs.lean ====
section
/-! DEFINITION. Reading and writing the registers of a group (R37 to R40, R71 to R74, R93, R205, Table 3-12). -/

namespace Sys2Proof.Machine

/-- Key of lane l of absolute vector name n. -/
def vkey (n l : Nat) : Nat := 96 * n + l

def Group.slot (g : Group) (k : Nat) : Slot := if k = 0 then g.slot0 else g.slot1
def Group.setSlot (g : Group) (k : Nat) (x : Slot) : Group := if k = 0 then { g with slot0 := x } else { g with slot1 := x }
def Strand.none : Strand := ⟨0, 0, 0, .none⟩
/-- The strand of slot k; an empty slot has no members. -/
def Group.strand (g : Group) (k : Nat) : Strand := (g.slot k).strand.getD Strand.none
def Group.setStrand (g : Group) (k : Nat) (t : Option Strand) : Group := g.setSlot k { g.slot k with strand := t }
def Group.active (g : Group) (k : Nat) : LaneMask := (g.strand k).active
def Group.pc (g : Group) (k : Nat) : W64 := (g.strand k).pc

/-- R93: the logical register that name n denotes. -/
def Group.absV (g : Group) (n : BitVec 11) : Nat := g.wbase + n.toNat
def Group.vAt (g : Group) (n l : Nat) : W32 := SMap.get g.v (vkey n l)
def Group.setVAt (g : Group) (n l : Nat) (x : W32) : Group := { g with v := SMap.set g.v (vkey n l) x }
/-- Name n of lane l. -/
def Group.getV (g : Group) (n : BitVec 11) (l : Nat) : W32 := g.vAt (g.absV n) l

/-- The register or pair of a w-bit vector operand, as a number (R71). -/
def Group.vnum (g : Group) (n : BitVec 11) (wide : Bool) (l : Nat) : Nat :=
  if wide then (g.vAt (g.absV n) l).toNat + 2 ^ 32 * (g.vAt (g.absV n + 1) l).toNat else (g.vAt (g.absV n) l).toNat
/-- The words that a w-bit result puts into name n of lane l (R71). -/
def vwords (n : Nat) (wide : Bool) (l : Nat) (x : Nat) : List (Nat × Nat × W32) :=
  if wide then [(n, l, BitVec.ofNat 32 x), (n + 1, l, BitVec.ofNat 32 (x / 2 ^ 32))] else [(n, l, BitVec.ofNat 32 x)]

def Group.writeV (g : Group) (ws : List (Nat × Nat × W32)) : Group :=
  { g with v := SMap.setAll g.v (ws.map fun w => (vkey w.1 w.2.1, w.2.2)) }

def maskWord (m : LaneMask) (i : Nat) : W32 := m.extractLsb' (32 * i) 32

/-- R38, R74, R205: scalar i as slot k reads it. -/
def Group.getS (g : Group) (k i : Nat) : W32 :=
  if i < 3 then maskWord (g.active k) i
  else if 12 ≤ i ∧ i < 16 then 0
  else SMap.get g.s i

/-- R38: write word i of the active mask, in the members of the strand. -/
def Strand.setExec (t : Strand) (i : Nat) (x : W32) : Strand :=
  let field : LaneMask := (0xFFFFFFFF#96) <<< (32 * i)
  { t with active := (t.active &&& ~~~field) ||| ((x.setWidth 96 <<< (32 * i)) &&& t.members) }

/-- R38, R74, R205: write scalar i from slot k. -/
def Group.setS (g : Group) (k i : Nat) (x : W32) : Group :=
  if i < 3 then
    match (g.slot k).strand with
    | some t => g.setStrand k (some (t.setExec i x))
    | none => g
  else if i = 3 then { g with s := SMap.set g.s 3 (x &&& 0xFF#32) }
  else if i < 16 then g
  else { g with s := SMap.set g.s i x }

def Group.snum (g : Group) (k : Nat) (i : BitVec 9) (wide : Bool) : Nat :=
  if wide then (g.getS k i.toNat).toNat + 2 ^ 32 * (g.getS k (i.toNat + 1)).toNat else (g.getS k i.toNat).toNat
def swords (i : Nat) (wide : Bool) (x : Nat) : List (Nat × W32) :=
  if wide then [(i, BitVec.ofNat 32 x), (i + 1, BitVec.ofNat 32 (x / 2 ^ 32))] else [(i, BitVec.ofNat 32 x)]
def Group.writeS (g : Group) (k : Nat) (ws : List (Nat × W32)) : Group := ws.foldl (fun h w => h.setS k w.1 w.2) g

/-- R206: flags are ORed into s3. -/
def Group.orFlags (g : Group) (f : W8) : Group := { g with s := SMap.set g.s 3 (SMap.get g.s 3 ||| f.setWidth 32) }

def Group.getP (g : Group) (i : BitVec 6) : LaneMask := SMap.get g.p i.toNat
def Group.setP (g : Group) (i : Nat) (m : LaneMask) : Group := { g with p := SMap.set g.p i m }
/-- New bits in the lanes of sel; the others keep theirs. -/
def Group.setPIn (g : Group) (i : Nat) (sel bits : LaneMask) : Group :=
  g.setP i ((SMap.get g.p i &&& ~~~sel) ||| (bits &&& sel))

def Group.getA (g : Group) (i : BitVec 5) : W128 := SMap.get g.a i.toNat
def Group.setA (g : Group) (i : BitVec 5) (x : W128) : Group := { g with a := SMap.set g.a i.toNat x }

/-- R72, R73: a scalar-kind operand of width 32 or 64, as an unsigned number. -/
def Group.sop (g : Group) (k : Nat) (o : SOp) (wide : Bool) : Nat :=
  match o with
  | .s i => g.snum k i wide
  | .imm v => modPow v.toInt (if wide then 64 else 32)

/-- R100: the bit of lane l of a guard. -/
def Group.guardMask (g : Group) (x : Guard) : LaneMask :=
  match x with
  | .always => ~~~0#96
  | .pred i neg => if neg then ~~~(g.getP i) else g.getP i
/-- R75: the lanes that a lane-wise instruction selects. -/
def Group.select (g : Group) (k : Nat) (x : Guard) : LaneMask := g.active k &&& g.guardMask x
/-- R75: whether a group-wise instruction executes. -/
def Group.executes (g : Group) (k : Nat) (x : Guard) : Bool :=
  match x with
  | .always => true
  | .pred _ _ => g.select k x != 0#96

/-! Groups of the state. -/

def State.group? (s : State) (gid : Nat) : Option Group := s.groups.find? fun g => g.gid == gid
def State.setGroup (s : State) (g : Group) : State :=
  { s with groups := s.groups.map fun h => if h.gid = g.gid then g else h }
def State.updGroup (s : State) (gid : Nat) (f : Group → Group) : State :=
  { s with groups := s.groups.map fun h => if h.gid = gid then f h else h }
def State.team? (s : State) (tid : Nat) : Option Team := s.sys.teams.find? fun t => t.tid == tid
def State.updTeam (s : State) (tid : Nat) (f : Team → Team) : State :=
  { s with sys := { s.sys with teams := s.sys.teams.map fun t => if t.tid = tid then f t else t } }
def State.grid? (s : State) (id : Nat) : Option Grid := s.sys.grids.find? fun x => x.id == id
def State.updGrid (s : State) (id : Nat) (f : Grid → Grid) : State :=
  { s with sys := { s.sys with grids := s.sys.grids.map fun x => if x.id = id then f x else x } }
def State.ctx? (s : State) (id : Nat) : Option Ctx := s.sys.ctxs.find? fun x => x.id == id
def State.ctxAt? (s : State) (slot : Nat) : Option Ctx := s.sys.ctxs.find? fun x => x.slot == slot && !x.ended
def State.updCtx (s : State) (id : Nat) (f : Ctx → Ctx) : State :=
  { s with sys := { s.sys with ctxs := s.sys.ctxs.map fun x => if x.id = id then f x else x } }
def State.inlet? (s : State) (n : Nat) : Option Inlet := s.sys.inlets.find? fun x => x.n == n
def State.updInlet (s : State) (n : Nat) (f : Inlet → Inlet) : State :=
  { s with sys := { s.sys with inlets := s.sys.inlets.map fun x => if x.n = n then f x else x } }
def State.die? (s : State) (num : Nat) : Option Die := s.sys.dies.find? fun d => d.num == num
def State.updDie (s : State) (num : Nat) (f : Die → Die) : State :=
  { s with sys := { s.sys with dies := s.sys.dies.map fun d => if d.num = num then f d else d } }
/-- A fresh identity. -/
def State.fresh (s : State) : Nat × State := (s.run.nextId, { s with run := { s.run with nextId := s.run.nextId + 1 } })
/-- A fresh number for a free value. -/
def State.freshFree (s : State) : Nat × State := (s.run.free, { s with run := { s.run with free := s.run.free + 1 } })

/-- The context of a group. -/
def State.ctxOf (s : State) (g : Group) : Option Ctx := (s.grid? g.grid).bind fun x => s.ctx? x.ctx
/-- R138: the die that holds a core. -/
def State.dieOfCore (s : State) (core : Nat) : Option Die := s.sys.dies.find? fun d => d.block == core / 128
def State.dieNum (s : State) (core : Nat) : Nat := ((s.dieOfCore core).map (·.num)).getD 0

end Sys2Proof.Machine
end

