-- ==== Sys2Proof/Machine/Ptr.lean ====
section
/-! DEFINITION. The pointer word, formats, scopes, domains, the Rill function and seals (R127 to R142, R282). -/

namespace Sys2Proof.Machine

def rotl32 (x n : Nat) : Nat := (x * 2 ^ n + x / 2 ^ (32 - n)) % 2 ^ 32

def rillRA : List Nat := [7, 19, 11, 25, 3, 21, 14, 9, 27, 5, 18, 12]
def rillRB : List Nat := [22, 4, 16, 10, 28, 13, 6, 23, 9, 17, 26, 2]
def rillKC : Nat := 0x5A3C71E5

/-- R282: one round, with the word rotation and after rounds 3, 7 and 11 the key additions. -/
def rillRound (k0 k1 : Nat) (x : Nat × Nat × Nat × Nat) (r : Nat) : Nat × Nat × Nat × Nat :=
  let (x0, x1, x2, x3) := x
  let y0 := (x0 + x3) % 2 ^ 32
  let y1 := x1 ^^^ rotl32 y0 (rillRA.getD r 1)
  let y2 := (x2 + y1) % 2 ^ 32
  let y3 := x3 ^^^ rotl32 y2 (rillRB.getD r 1)
  if r % 4 = 3 then ((y1 + k1) % 2 ^ 32, y2, (y3 + k0 + (r + 1) / 4 * rillKC) % 2 ^ 32, y0)
  else (y1, y2, y3, y0)

/-- R282. -/
def rill (k0 k1 x0 x1 x2 x3 : Nat) : Nat × Nat × Nat × Nat :=
  (List.range 12).foldl (rillRound k0 k1)
    (x0 ^^^ k0, x1 ^^^ k1, x2 ^^^ ((k0 + rillKC) % 2 ^ 32), x3 ^^^ ((k1 + rillKC) % 2 ^ 32))

/-- Table 5-1. -/
structure Ptr where
  sealv : Nat
  domain : Nat
  ceiling : Nat
  scope : Nat
  cls : Nat
  space : Nat
  fmt : Nat
  count : Nat
  base : Nat
  deriving DecidableEq, Repr

def Ptr.ofBits (x : W128) : Ptr where
  sealv := (x.extractLsb' 116 12).toNat
  domain := (x.extractLsb' 105 11).toNat
  ceiling := (x.extractLsb' 102 3).toNat
  scope := (x.extractLsb' 99 3).toNat
  cls := (x.extractLsb' 97 2).toNat
  space := (x.extractLsb' 94 3).toNat
  fmt := (x.extractLsb' 88 6).toNat
  count := (x.extractLsb' 52 36).toNat
  base := (x.extractLsb' 0 52).toNat

/-- Table 5-1. An empty range at the very end of the space has base 2^52, which the field cannot hold: it is kept mod 2^52 (R144, R149;
DESIGN CHOICE, unsafe: log entry 70). -/
def Ptr.bits (p : Ptr) : W128 :=
  BitVec.ofNat 12 p.sealv ++ BitVec.ofNat 11 p.domain ++ BitVec.ofNat 3 p.ceiling ++ BitVec.ofNat 3 p.scope ++
  BitVec.ofNat 2 p.cls ++ BitVec.ofNat 3 p.space ++ BitVec.ofNat 6 p.fmt ++ BitVec.ofNat 36 p.count ++ BitVec.ofNat 52 p.base

/-! Spaces and classes (Tables 5-4 and 5-1). -/
def spGlobal : Nat := 0
def spTarn : Nat := 1
def spReservoir : Nat := 2
def spHost : Nat := 3
def spHostNc : Nat := 4
def spStack : Nat := 5
def clPrivate : Nat := 0
def clShared : Nat := 1
def clSync : Nat := 2

/-! Table 5-3. -/
def fmtU8 : Nat := 0x00
def fmtU32 : Nat := 0x04
def fmtI32 : Nat := 0x05
def fmtU64 : Nat := 0x06
def fmtI64 : Nat := 0x07
def fmtBf16 : Nat := 0x09
def fmtFp32 : Nat := 0x0A
def fmtFp64 : Nat := 0x0B
def fmtLns6 : Nat := 0x0E
def fmtI4 : Nat := 0x0F
def fmtPtr : Nat := 0x10
def fmtCbf16 : Nat := 0x11
def fmtCfp32 : Nat := 0x12
def fmtBytes : Nat := 0x3F
def sizeOf (f : Nat) : Nat :=
  match f with
  | 0x00 | 0x01 | 0x0C | 0x0D | 0x3F => 1
  | 0x02 | 0x03 | 0x08 | 0x09 => 2
  | 0x04 | 0x05 | 0x0A | 0x0F | 0x11 => 4
  | 0x06 | 0x07 | 0x0B | 0x12 => 8
  | 0x0E => 3
  | 0x10 => 16
  | _ => 1
def alignOf (f : Nat) : Nat := if f = fmtLns6 then 1 else sizeOf f
def fmtReserved (f : Nat) : Bool := decide (0x12 < f) && f != fmtBytes

/-- R141: the block is bits [115:0], zero-extended. -/
def sealOf (key : W64) (x : W128) : Nat :=
  let b := x.toNat % 2 ^ 116
  (rill (key.toNat % 2 ^ 32) (key.toNat / 2 ^ 32) (b % 2 ^ 32) (b / 2 ^ 32 % 2 ^ 32) (b / 2 ^ 64 % 2 ^ 32) (b / 2 ^ 96)).1 % 2 ^ 12

def Ptr.sealed (p : Ptr) (key : W64) : W128 :=
  let x := { p with sealv := 0 }.bits
  x ||| (BitVec.ofNat 128 (sealOf key x) <<< 116)

/-- R142: the seal check. -/
def sealOk (key : W64) (x : W128) : Bool := (x.extractLsb' 116 12).toNat == sealOf key x

/-- Table 5-2. -/
def Ptr.valid (p : Ptr) : Bool :=
  !fmtReserved p.fmt && decide (p.space ≤ 5) && decide (p.cls ≤ 2) && decide (p.scope ≤ p.ceiling) &&
  decide (p.base + p.count * sizeOf p.fmt ≤ 2 ^ 52) && decide (p.count < 2 ^ 36) &&
  (!(decide (3 ≤ p.scope) && p.space != spTarn) || p.domain == 0) &&
  (p.space != spReservoir || p.cls == clShared) &&
  (p.space != spHost || decide (3 ≤ p.scope)) &&
  (p.space != spHostNc || (p.scope == 7 && p.ceiling == 7)) &&
  (p.space != spTarn || decide (p.ceiling ≤ 3)) &&
  (p.space != spStack || (p.scope == 0 && p.ceiling == 0 && p.cls != clShared))

/-- R58: the null pointer, before its domain and seal. -/
def Ptr.null : Ptr := ⟨0, 0, 0, 0, clPrivate, spGlobal, fmtU8, 0, 0⟩

/-- R138, R133: the domain a scope and a space give at a placement. -/
def domainOf (space scope core teamIdx : Nat) : Nat :=
  if space = spTarn then teamIdx
  else if scope = 0 then core
  else if scope = 1 then core / 8
  else if scope = 2 then core / 128
  else 0

def Ptr.rebind (p : Ptr) (core teamIdx : Nat) (key : W64) : W128 :=
  { p with domain := domainOf p.space p.scope core teamIdx }.sealed key

/-- R58: an argument as it is minted for a group; all zero mints the null pointer. -/
def mintArg (x : W128) (core teamIdx : Nat) (key : W64) : W128 :=
  if x = 0#128 then Ptr.null.rebind core teamIdx key else (Ptr.ofBits x).rebind core teamIdx key

/-- R145. -/
def classPermitted (from_ to_ : Nat) : Bool :=
  from_ == to_ || (from_ == clPrivate && (to_ == clSync || to_ == clShared)) || (from_ == clSync && to_ == clShared)

/-- The gang size, with 0 read as 1 (R50). -/
def LaunchRec.gangSize (l : LaunchRec) : Nat := if l.gang = 0 then 1 else l.gang

/-- R133: the team's index within its gang. -/
def State.teamIdx (s : State) (g : Group) : Nat :=
  match s.team? g.tid, s.grid? g.grid with
  | some t, some x => t.t % x.launch.gangSize
  | _, _ => 0

/-- The seal key of the context of a group. -/
def State.sealKey (s : State) (g : Group) : W64 := ((s.ctxOf g).map (·.sealKey)).getD 0

/-- R139, R133: whether the domain check of a pointer fails for group g. -/
def State.domainBad (s : State) (g : Group) (p : Ptr) : Bool :=
  match s.grid? g.grid with
  | none => true
  | some x =>
    if p.space = spTarn then
      decide (x.launch.gangSize ≤ p.domain) || (x.launch.cls != 1 && p.domain != s.teamIdx g)
    else decide (p.scope < 3) && p.domain != domainOf p.space p.scope g.core 0

/-- R133: the team whose tarn a TARN pointer reaches. -/
def State.tarnTeam (s : State) (g : Group) (p : Ptr) : Nat :=
  match s.team? g.tid, s.grid? g.grid with
  | some t, some x =>
    let n := t.t / x.launch.gangSize * x.launch.gangSize + p.domain
    ((s.sys.teams.find? fun u => u.grid == g.grid && u.t == n).map (·.tid)).getD g.tid
  | _, _ => g.tid

end Sys2Proof.Machine
end

