-- ==== Sys2Proof/Machine/Memory.lean ====
section
/-! DEFINITION. The memory system: home memory and its keys, the L1s and basins, mirroring and snoops, translation, and
accesses of bytes through a space (R21 to R25, R131 to R136, R146, R147, R152 to R157, R267 to R273). An L1 holds every word put
into it until a rule removes it, and a basin what its 16 ways hold (DESIGN CHOICE, safe: log entry 13). -/

namespace Sys2Proof.Machine

/-! ## Home memory -/

def kvGet {α : Type} : List (Nat × α) → Nat → Option α
  | [], _ => none
  | (k', v) :: rest, k => if k' = k then some v else kvGet rest k
/-- Insert or replace, keys strictly rising. -/
def kvSet {α : Type} : List (Nat × α) → Nat → α → List (Nat × α)
  | [], k, v => [(k, v)]
  | (k', v') :: rest, k, v =>
    if k < k' then (k, v) :: (k', v') :: rest
    else if k = k' then (k, v) :: rest
    else (k', v') :: kvSet rest k v
/-- The canonical form of home memory: addresses strictly rising. -/
def kvWf {α : Type} : Option Nat → List (Nat × α) → Bool
  | _, [] => true
  | lo, (k, _) :: rest => (match lo with | none => true | some b => decide (b < k)) && kvWf (some k) rest

/-- R22: whether an address is one of a memory die; else it is the host's. -/
def devicePa (pa : Nat) : Bool := decide (pa < 2 ^ 51)
/-- R22: the two host windows name the same host memory, through PA[49:0]. (DEDUCED, unsafe: log entry 18.) -/
def cellOf (pa : Nat) : Nat := if devicePa pa then pa else 2 ^ 51 + pa % 2 ^ 50
/-- The word of home memory that a word address names. -/
def cellWord (wa : Nat) : Nat := cellOf (4 * wa) / 4
/-- R157: the address whose unwritten byte a byte of a copied frame shows. -/
def originOf (key : Nat) : List Origin → Nat → Nat
  | [], pa => pa
  | o :: rest, pa =>
    if o.key = key ∧ o.dst ≤ pa ∧ pa < o.dst + o.n then originOf key rest (o.src + (pa - o.dst)) else originOf key rest pa
/-- R105: whether a byte reads 0 under a key where nothing was written. -/
def Mem.zeroed (m : Mem) (key pa : Nat) : Bool :=
  m.zeros.contains (key, pa / 128)
/-- Whether a listed byte is what an unlisted one would read as: a 0 in a range that reads 0 under the key of its line. -/
def Mem.idleCell (m : Mem) (c : Nat × W8) : Bool :=
  devicePa c.1 && c.2 == 0#8 && (kvGet m.keys (c.1 / 128)).any fun key => m.zeroed key c.1
/-- The form of the memory that every operation keeps: the bytes that are listed and the keys of the lines, in rising order, and no byte
that is what an unlisted one reads as. -/
def Mem.wf (m : Mem) : Bool := kvWf none m.home && kvWf none m.keys && m.home.all fun c => !m.idleCell c
/-- R163, R25: what a byte reads as under a key when nothing was written under it. -/
def Mem.blank (m : Mem) (key pa : Nat) : W8 :=
  if m.zeroed key pa then 0#8 else Config.unwrittenByte key (originOf key m.origins pa)
/-- R163, R25: the byte as a reader under key sees it. -/
def Mem.byte (m : Mem) (key pa : Nat) : W8 :=
  if devicePa pa then
    match kvGet m.keys (pa / 128) with
    | some k => if k = key then (kvGet m.home pa).getD (m.blank key pa) else m.blank key pa
    | none => m.blank key pa
  else (kvGet m.home (cellOf pa)).getD (Config.unwrittenByte 0 (cellOf pa))
/-- R25: a line takes the key of its writer; what it held under another key is lost to every reader. -/
def Mem.claimLine (m : Mem) (key pa : Nat) : Mem :=
  if devicePa pa ∧ kvGet m.keys (pa / 128) ≠ some key then
    { m with
      home := m.home.filter (fun c => c.1 / 128 != pa / 128), keys := kvSet m.keys (pa / 128) key
      zeros := m.zeros.filter fun z => z.1 == key || z.2 != pa / 128 }
  else m
/-- A byte is written; a 0 where an unlisted byte reads 0 is not listed. -/
def Mem.setByte (m : Mem) (key pa : Nat) (b : W8) : Mem :=
  let m := m.claimLine key pa
  { m with home := if devicePa pa && m.zeroed key pa && b == 0#8 then m.home.filter fun c => c.1 != pa else kvSet m.home (cellOf pa) b }
/-- R105: n lines read 0 under a key from now on. -/
def Mem.zero (m : Mem) (key line n : Nat) : Mem :=
  let here (l : Nat) : Bool := decide (line ≤ l) && decide (l < line + n)
  { m with
    home := m.home.filter fun c => !here (c.1 / 128)
    keys := m.keys.filter fun k => !here k.1
    zeros := ((List.range n).map fun i => (key, line + i)) ++ m.zeros.filter fun z => !here z.2 }
def Mem.bytes (m : Mem) (key pa n : Nat) : List W8 := (List.range n).map fun i => m.byte key (pa + i)
def Mem.setBytes (m : Mem) (key pa : Nat) (bs : List W8) : Mem :=
  (bs.zipIdx).foldl (fun acc b => acc.setByte key (pa + b.2) b.1) m
def Mem.word (m : Mem) (key wa : Nat) : W32 := BitVec.ofNat 32 (leNat (m.bytes key (4 * wa) 4))

/-- The bytes of new that mask selects, over old. -/
def mergeWord (mask : BitVec 4) (new old : W32) : W32 :=
  let f := (List.range 4).foldl (fun acc i => if mask.getLsbD i then acc ||| ((0xFF#32) <<< (8 * i)) else acc) 0#32
  (new &&& f) ||| (old &&& ~~~f)
def Mem.setWord (m : Mem) (key wa : Nat) (mask : BitVec 4) (v : W32) : Mem :=
  let m := (List.range 4).foldl (fun acc i =>
    if mask.getLsbD i then acc.setByte key (4 * wa + i) (v.extractLsb' (8 * i) 8) else acc) m
  if mask = 15#4 then { m with poison := m.poison.filter (· != cellWord wa) } else m
/-- R277: a word that comes home from a cache; one that is poisoned stays so. -/
def Mem.putWord (m : Mem) (key wa : Nat) (v : W32) (bad : Bool) : Mem :=
  let m := m.setWord key wa 15#4 v
  if bad then { m with poison := m.poison ++ [cellWord wa] } else m

/-- R34: the AES-XTS-256 key pair of a context as one number. -/
def Ctx.aesKey (c : Ctx) : Nat := c.aesPair.toNat

/-! ## Caches -/

/-- The agent of an access: its core, its die, its context and the key of that context. -/
structure Who where
  core : Nat
  die : Nat
  ctx : Nat
  key : Nat
  deriving DecidableEq, Repr

/-- Table 10-1. -/
inductive ReqTy where
  | owned
  | through (scope : Nat)
  | selfinv
  | uncached
  deriving DecidableEq, Repr

def CWord.isAt (c : CWord) (own ctx wa : Nat) : Bool := c.own == own && c.ctx == ctx && c.wa == wa && !c.mirror
def cFind (cs : List CWord) (own ctx wa : Nat) : Option CWord := cs.find? fun c => c.isAt own ctx wa
def cDrop (cs : List CWord) (own ctx wa : Nat) : List CWord := cs.filter fun c => !c.isAt own ctx wa
def cPut (cs : List CWord) (x : CWord) : List CWord := cDrop cs x.own x.ctx x.wa ++ [x]
def hostWa (wa : Nat) : Bool := !devicePa (4 * wa)
def memDieOf (wa : Nat) : Nat := 4 * wa / 2 ^ 49 % 4

/-- R269: the dies, other than the writer's, whose presence bit for the line of a word is set: their basins hold a word of it. -/
def State.present (s : State) (src : Option Nat) (wa : Nat) : List Die :=
  s.sys.dies.filter fun d => some d.num != src && s.mem.basin.any fun c => c.own == d.num && c.wa / 32 == wa / 32

/-- R269, R271: a die discards a word, and its mirror copy with it. -/
def Mem.invalidate (m : Mem) (die wa : Nat) : Mem :=
  { m with basin := m.basin.filter fun c => !(c.own == die && c.wa == wa) }

/-- R269, R273: after a write at a home, every other basin that holds a word of the line is sent a snoop, which waits for the
die's answer. A snoop owed to a dead die counts as answered (R275). -/
def State.snoopOthers (s : State) (src : Option Nat) (wa : Nat) (gid : Option Nat) : State :=
  (s.present src wa).foldl (fun s d =>
    if !d.alive || d.inReset then { s with mem := s.mem.invalidate d.num wa }
    else
      let (k, s) := s.fresh
      { s with mem := { s.mem with snoops := s.mem.snoops ++
        [⟨k, d.num, src, [wa], 0, !s.mem.asleep.contains (d.num, memDieOf wa), false, gid, none⟩] } }) s

/-- R270: whether a snoop goes on to name the next word of another's span. -/
def Snoop.joins (a b : Snoop) : Bool :=
  a.die == b.die && a.gid == b.gid && a.src == b.src &&
  (match a.words.getLast?, b.words with
   | some x, [y] => x / 32 == y / 32 && (y == x || y == x + 1)
   | _, _ => false)
/-- R270: put a snoop to those of its access, which come in the order of their words: contiguous words of one line are one request. -/
def addSnoop : List Snoop → Snoop → List Snoop
  | [], b => [b]
  | a :: rest, b =>
    if a.joins b then { a with words := if a.words.getLast? = b.words.head? then a.words else a.words ++ b.words } :: rest
    else a :: addSnoop rest b
/-- R270: the snoops of one access, those from identity k0 on, become one request for each line and span. -/
def State.mergeSnoops (s : State) (k0 : Nat) : State :=
  let new := (sortBy (fun n => n.words.headD 0) (s.mem.snoops.filter fun n => decide (k0 ≤ n.k))).foldl addSnoop []
  if new.isEmpty then s
  else { s with mem := { s.mem with snoops := (s.mem.snoops.filter fun n => decide (n.k < k0)) ++ new } }

/-- R273: traffic between a compute die and the home of a word wakes their link. -/
def State.wake (s : State) (die : Nat) (wa : Nat) : State :=
  if s.mem.asleep.isEmpty || hostWa wa then s
  else { s with mem := { s.mem with asleep := s.mem.asleep.filter fun x => x != (die, memDieOf wa) } }

/-- A write that reaches a home. -/
def State.homeWrite (s : State) (src : Option Nat) (key wa : Nat) (mask : BitVec 4) (v : W32) (gid : Option Nat) : State :=
  let s := ({ s with mem := s.mem.setWord key wa mask v } : State)
  if hostWa wa then s else (src.elim s fun d => s.wake d wa).snoopOthers src wa gid

/-- R161: the host's home agent takes the dirty words of a HOST word out of the other L1s. -/
def State.hostFlush (s : State) (wa core : Nat) : State :=
  s.mem.l1.foldl (fun s c =>
    if c.wa = wa ∧ c.own ≠ core ∧ c.dirty then
      { s with mem := { s.mem.putWord 0 wa c.val c.poison with l1 := cPut s.mem.l1 { c with dirty := false } } } else s) s
def State.hostInvalidate (s : State) (wa core : Nat) : State :=
  { s with mem := { s.mem with l1 := s.mem.l1.filter fun c => !(c.wa == wa && c.own != core) } }

/-- No core: every L1 is another's. -/
def noCore : Nat := 2 ^ 20
/-- R161: the host's home agent takes a word of host memory out of every L1, before an access that goes to the host's memory. -/
def State.hostTake (s : State) (wa : Nat) (write : Bool) : State :=
  let s := s.hostFlush (cellWord wa) noCore
  if write then s.hostInvalidate (cellWord wa) noCore else s

def State.poisoned (s : State) (wa : Nat) : Bool := s.mem.poison.contains (cellWord wa)
/-- R277: a dirty word that goes home from the caches of a die. -/
def State.homePut (s : State) (src : Option Nat) (key wa : Nat) (v : W32) (poison : Bool) (gid : Option Nat) : State :=
  let s := ({ s with mem := s.mem.putWord key wa v poison } : State)
  if hostWa wa then s else (src.elim s fun d => s.wake d wa).snoopOthers src wa gid

/-- The word at its home as a fresh cache word. -/
def State.homeWord (s : State) (w : Who) (own wa : Nat) (ro : Bool) : CWord :=
  ⟨own, w.ctx, wa, s.mem.word w.key wa, false, ro, false, s.poisoned wa⟩

/-- R21: the sets of a basin: 4 GiB of 16 ways of 128 bytes. -/
def basinSets : Nat := 2 ^ 21
def basinWays : Nat := 16
def sameSet (wa wb : Nat) : Bool := Config.basinSet (wa / 32) % basinSets == Config.basinSet (wb / 32) % basinSets

/-- R271: whether a word lies in the basin of a die: its own, or a mirror copy of its buddy's. -/
def State.inBasin (s : State) (die : Nat) (c : CWord) : Bool :=
  if c.mirror then Config.buddy s.boot.sku c.own == some die else c.own == die

/-- R21, R271: the ways of a die's basin in the set of a word: the tags of the lines that it holds, its buddy's mirror lines among
them. -/
def State.waysOf (s : State) (die wa : Nat) : List (Bool × Nat × Nat) :=
  distinct ((s.mem.basin.filter fun c => s.inBasin die c && sameSet c.wa wa).map fun c =>
      (c.mirror, c.ctx, c.wa / 32))
/-- R21: whether a die's basin has the line of a word, or a way for it. -/
def State.basinRoom (s : State) (die ctx wa : Nat) (mirror : Bool) : Bool :=
  decide (s.mem.basin.length < basinWays) ||
  (s.mem.basin.any fun c => c.mirror == mirror && c.ctx == ctx && c.wa / 32 == wa / 32 && s.inBasin die c) ||
  decide ((s.waysOf die wa).length < basinWays)

/-- R21: a clean word that has come from its home enters its basin. Where its set has no way left, the line that came is the one that leaves. (DESIGN CHOICE,
safe: log entry 13.) -/
def State.basinFill (s : State) (c : CWord) : State :=
  let s := s.wake c.own c.wa
  if s.basinRoom c.own c.ctx c.wa false then { s with mem := { s.mem with basin := cPut s.mem.basin c } } else s

/-- R271: a word that its owner has written home stands clean in its basin, and the buddy drops the copy. -/
def State.basinClean (s : State) (c : CWord) : State :=
  ({ s with mem := { s.mem with basin := s.mem.basin.filter fun x => !(x.mirror && x.own == c.own && x.ctx == c.ctx && x.wa == c.wa) } } :
    State).basinFill { c with dirty := false, mirror := false }

/-- R269: the word in the die's basin, filled from the home if it is missing. -/
def State.basinWord (s : State) (w : Who) (wa : Nat) (ro : Bool) : State × CWord :=
  match cFind s.mem.basin w.die w.ctx wa with
  | some c => (s, c)
  | none =>
    let c := s.homeWord w w.die wa ro
    (s.basinFill c, c)
def State.fillL1 (s : State) (w : Who) (c : CWord) (ro : Bool) : State :=
  { s with mem := { s.mem with l1 := cPut s.mem.l1 { c with own := w.core, dirty := false, ro := ro, mirror := false } } }

/-- R267, Table 10-1, Reads: the word, and whether it is poisoned. A THROUGH read takes an L1 copy only while it is dirty (DEDUCED, unsafe: log
entry 14). -/
def State.readWord (s : State) (w : Who) (t : ReqTy) (wa : Nat) : State × W32 × Bool :=
  let hit := cFind s.mem.l1 w.core w.ctx wa
  match t with
  | .uncached => let s := s.hostTake wa false; (s, s.mem.word w.key wa, s.poisoned wa)
  | .through sc =>
    match hit.filter (·.dirty) with
    | some c => (s, c.val, c.poison)
    | none =>
      if hostWa wa then
        let s := s.hostFlush wa w.core
        let c := s.homeWord w w.core wa false
        (s.fillL1 w c false, c.val, c.poison)
      else if sc ≤ 2 then
        let (s, c) := s.basinWord w wa false
        (s.fillL1 w c false, c.val, c.poison)
      else
        match (cFind s.mem.basin w.die w.ctx wa).filter (·.dirty) with
        | some c => (s.fillL1 w c false, c.val, c.poison)
        | none =>
          let c := s.homeWord w w.die wa false
          ((s.basinFill c).fillL1 w c false, c.val, c.poison)
  | _ =>
    match hit with
    | some c => (s, c.val, c.poison)
    | none =>
      let ro := t == .selfinv
      if hostWa wa then
        let s := s.hostFlush wa w.core
        let c := s.homeWord w w.core wa ro
        (s.fillL1 w c ro, c.val, c.poison)
      else
        let (s, c) := s.basinWord w wa ro
        (s.fillL1 w c ro, c.val, c.poison)

/-- The live buddy of a die (R15, R272). -/
def State.liveBuddy (s : State) (die : Nat) : Option Nat :=
  (Config.buddy s.boot.sku die).filter fun b => s.sys.dies.any fun d => d.num == b && d.alive && !d.inReset

/-- R271: a basin word leaves for its home if it is dirty; the buddy drops its mirror copy. -/
def State.basinToHome (s : State) (key : Nat) (c : CWord) (keep : Bool) (gid : Option Nat) : State :=
  let rest := s.mem.basin.filter fun x => !(x.own == c.own && x.ctx == c.ctx && x.wa == c.wa)
  let s := { s with mem := { s.mem with basin := if keep then rest ++ [{ c with dirty := false, mirror := false }] else rest } }
  if c.dirty then s.homePut (some c.own) key c.wa c.val c.poison gid else s

/-- R271: the mirror lines of a die's words in its buddy's set of a word. -/
def State.mirrorLines (s : State) (die wa : Nat) : List (Nat × Nat) :=
  distinct ((s.mem.basin.filter fun c => c.mirror && c.own == die && sameSet c.wa wa).map fun c => (c.ctx, c.wa / 32))
/-- R271: at most 4 of the 16 ways hold mirror lines; the owner writes the words of its oldest one home to free a way. -/
def State.mirrorRoom (s : State) (die ctx wa : Nat) (gid : Option Nat) : State :=
  if decide ((s.mem.basin.filter (·.mirror)).length < 4) || (s.mirrorLines die wa).contains (ctx, wa / 32) then s
  else if (s.mirrorLines die wa).length < 4 then s
  else
    match s.mirrorLines die wa with
    | [] => s
    | (x, line) :: _ =>
      (s.mem.basin.filter fun c => c.own == die && c.ctx == x && c.wa / 32 == line && c.dirty && !c.mirror).foldl
        (fun s c => s.basinToHome (((s.ctx? c.ctx).map Ctx.aesKey).getD 0) c true gid) s

/-- R267, R271, R272: the basin takes a word written at scope 1 or 2; at scope 2 it is mirrored, or, without a live buddy,
written through to its home. A word for which a set has no way left goes home at once. -/
def State.basinTake (s : State) (w : Who) (scope wa : Nat) (v : W32) (poison : Bool) (gid : Option Nat) : State :=
  let c : CWord := ⟨w.die, w.ctx, wa, v, true, false, false, poison⟩
  let through (s : State) : State :=
    (s.homePut (some w.die) w.key wa v poison gid).basinClean c
  if !s.basinRoom w.die w.ctx wa false then through s
  else if scope ≠ 2 then { s with mem := { s.mem with basin := cPut s.mem.basin c } }
  else
    match s.liveBuddy w.die with
    | some b =>
      let s := s.mirrorRoom w.die w.ctx wa gid
      if s.basinRoom b w.ctx wa true then
        let others := s.mem.basin.filter fun x => !(x.own == w.die && x.ctx == w.ctx && x.wa == wa)
        { s with mem := { s.mem with basin := others ++ [c, { c with mirror := true }] } }
      else through s
    | none => through s

/-- An L1 or basin copy takes the bytes of a write that was performed further out. -/
def cMerge (cs : List CWord) (own ctx wa : Nat) (mask : BitVec 4) (v : W32) : List CWord :=
  match cFind cs own ctx wa with
  | some c => cPut cs { c with val := mergeWord mask v c.val, dirty := c.dirty && mask != 15#4, poison := c.poison && mask != 15#4 }
  | none => if mask = 15#4 then cPut cs ⟨own, ctx, wa, v, false, false, false, false⟩ else cs
/-- R271: the mirror copy of a word that its owner writes through to the home: it goes with a whole word, and takes the bytes of a
part. -/
def mirrorMerge (cs : List CWord) (own ctx wa : Nat) (mask : BitVec 4) (v : W32) : List CWord :=
  cs.filterMap fun c =>
    if c.mirror && c.own == own && c.ctx == ctx && c.wa == wa then
      (if mask = 15#4 then none else some { c with val := mergeWord mask v c.val })
    else some c
/-- A word written at its home enters the writer's basin clean, where the set has a way for it. -/
def State.basinMerge (s : State) (w : Who) (wa : Nat) (mask : BitVec 4) (v : W32) : State :=
  let s := { s with mem := { s.mem with basin := mirrorMerge s.mem.basin w.die w.ctx wa mask v } }
  if s.basinRoom w.die w.ctx wa false then { s with mem := { s.mem with basin := cMerge s.mem.basin w.die w.ctx wa mask v } } else s

/-- R267, R176, Table 10-1, Writes. -/
def State.writeWord (s : State) (w : Who) (t : ReqTy) (wa : Nat) (mask : BitVec 4) (v : W32) (gid : Option Nat) : State :=
  match t with
  | .uncached => (s.hostTake wa true).homeWrite none w.key wa mask v gid
  | .through sc =>
    if hostWa wa then
      let s := (s.hostFlush wa w.core).hostInvalidate wa w.core
      let s := s.homeWrite none w.key wa mask v gid
      { s with mem := { s.mem with l1 := cMerge s.mem.l1 w.core w.ctx wa mask v } }
    else if sc ≤ 2 then
      let (s, old, bad) := if mask = 15#4 then (s, 0#32, false) else
        let (s, c) := s.basinWord w wa false
        (s, c.val, c.poison)
      let s := s.basinTake w sc wa (mergeWord mask v old) bad gid
      { s with mem := { s.mem with l1 := cMerge s.mem.l1 w.core w.ctx wa mask v } }
    else
      let s := (s.homeWrite (some w.die) w.key wa mask v gid).basinMerge w wa mask v
      { s with mem := { s.mem with l1 := cMerge s.mem.l1 w.core w.ctx wa mask v } }
  | _ =>
    let s := if hostWa wa then (s.hostFlush wa w.core).hostInvalidate wa w.core else s
    let (s, old, bad) := if mask = 15#4 then (s, 0#32, false) else s.readWord w .owned wa
    { s with mem := { s.mem with
      l1 := cPut s.mem.l1 ⟨w.core, w.ctx, wa, mergeWord mask v old, true, false, false, bad⟩ } }

/-- R268: dirty words of an evicted L1 word go to the basin, or to the host's memory. -/
def State.evictL1 (s : State) (w : Who) (c : CWord) : State :=
  let s := { s with mem := { s.mem with l1 := cDrop s.mem.l1 c.own c.ctx c.wa } }
  if !c.dirty then s
  else if hostWa c.wa then s.homePut none 0 c.wa c.val c.poison none
  else s.basinTake w 1 c.wa c.val c.poison none

/-- Whether a word of a cache is a dirty one of an agent's context at a core, or in the basin of a die. -/
def CWord.leaves (c : CWord) (own ctx : Nat) : Bool := c.own == own && c.ctx == ctx && c.dirty && !c.mirror
/-- R146, R268: the dirty words of the die's basin that sel names go to their homes. -/
def State.basinHome (s : State) (w : Who) (sel : Nat → Bool) (gid : Option Nat) : State :=
  (s.mem.basin.filter fun c => c.leaves w.die w.ctx && sel c.wa).foldl (fun s c => s.basinToHome w.key c true gid) s
/-- R146: WriteBack of the dirty words that sel names, to the home of scope ns. -/
def State.writeBack (s : State) (w : Who) (ns : Nat) (sel : Nat → Bool) (gid : Option Nat) : State :=
  let s := if ns < 3 then s else s.basinHome w sel gid
  if ns = 0 then s else
    (s.mem.l1.filter fun c => c.own == w.core && c.ctx == w.ctx && c.dirty && sel c.wa).foldl (fun s c =>
      let s := { s with mem := { s.mem with l1 := cPut s.mem.l1 { c with dirty := false } } }
      if hostWa c.wa then s.homePut none 0 c.wa c.val c.poison gid
      else if ns < 3 then s.basinTake w ns c.wa c.val c.poison gid
      else (s.homePut (some w.die) w.key c.wa c.val c.poison gid).basinClean { c with own := w.die }) s

/-- R147, R268: discard the clean words that sel names, in the L1 and, when asked, in the basin. -/
def State.discardClean (s : State) (w : Who) (basinToo : Bool) (sel : Nat → Bool) : State :=
  { s with mem := { s.mem with
    l1 := s.mem.l1.filter fun c => !(c.own == w.core && c.ctx == w.ctx && !c.dirty && sel c.wa)
    basin := if basinToo then
      s.mem.basin.filter fun c => !(c.own == w.die && c.ctx == w.ctx && !c.dirty && !c.mirror && sel c.wa)
      else s.mem.basin } }

/-! ## What a release carries -/

/-- Table 5-6: how far out the home of a scope is: the L1, the basin, or the home memory die. -/
def homeLevel (scope : Nat) : Nat := if scope = 0 then 0 else if scope < 3 then 1 else 2
/-- R168, R172: an acquire of a group at a scope: the words that it synchronises with lie no further out than the home of that scope. -/
def State.sawAt (s : State) (gid scope : Nat) : State :=
  { s with mem := { s.mem with acquired := kvSet s.mem.acquired gid (min scope ((kvGet s.mem.acquired gid).getD scope)) } }
/-- R168, R171, R172: whether a release at a scope has words to carry: the group has acquired at a scope whose home lies nearer, and
dirty words of its context are on the way. -/
def State.carries (s : State) (w : Who) (gid scope : Nat) : Bool :=
  (kvGet s.mem.acquired gid).any fun a => decide (homeLevel a < homeLevel scope) &&
    ((a == 0 && s.mem.l1.any fun c => c.leaves w.core w.ctx) || (decide (3 ≤ scope) && s.mem.basin.any fun c => c.leaves w.die w.ctx))
/-- R168, R171, R172: what a group's acquires synchronise with is performed at the scope of its release, since happens-before is
transitive: the dirty words go to the home of that scope. (DEDUCED, unsafe: log entry 101.) -/
def State.carry (s : State) (w : Who) (gid scope : Nat) (op : Option Nat) : State :=
  let k0 := s.run.nextId
  let s := if (kvGet s.mem.acquired gid) = some 0 then s.writeBack w scope (fun _ => true) op else s.basinHome w (fun _ => true) op
  { s with mem := { s.mem with
    acquired := if scope < 3 then kvSet s.mem.acquired gid 1 else s.mem.acquired.filter fun x => x.1 != gid } }.mergeSnoops k0

/-! ## Translation -/

/-- The outcome of an access: done, a missing translation at a virtual address, or an ACCESS reason of Table 10-6 with the virtual
address that met it. -/
inductive Acc (α : Type) where
  | ok (x : α)
  | miss (va : Nat) (write : Bool)
  | bad (va reason : Nat)
  deriving DecidableEq, Repr

/-- Table 1-5, R18: whether a physical address is backed; an expander backs what it reports, at most 1 TiB. -/
def backed (expanders : List Nat) (pa : Nat) : Bool :=
  if !devicePa pa then true
  else
    let off := pa % 2 ^ 49
    decide (off < 0x10000000000) || (decide (0x10000000000 ≤ off) && decide (off < 0x10300000000)) ||
    (decide (0x20000000000 ≤ off) && decide (off < 0x30000000000) &&
      decide (off < 0x20000000000 + expanders.getD (pa / 2 ^ 49 % 4) 0))

def PageKind.space : PageKind → Nat
  | .device => spGlobal | .reservoir => spReservoir | .host => spHost | .hostnc => spHostNc

def Ctx.mapOf (c : Ctx) (va : Nat) : Option Mapping := c.maps.find? fun m => decide (m.va ≤ va) && decide (va < m.va + m.sz)
def Ctx.inDemand (c : Ctx) (va : Nat) : Option DemandRange :=
  c.demand.find? fun r => decide (r.va ≤ va) && decide (va < r.va + r.sz)
/-- R96: the size of the STACK range. -/
def Ctx.inStack (c : Ctx) (va : Nat) : Bool := decide (c.stackVa ≤ va) && decide (va < c.stackVa + c.stackGroups * 2 ^ 25)

/-- R157: the copies of a page, as memory domain and physical address. -/
def Ctx.copiesOf (c : Ctx) (m : Mapping) : List (Nat × Nat) :=
  (m.pa / 2 ^ 49 % 4, m.pa) :: ((c.replicas.filter fun r => r.va == m.va).map fun r => (r.dom, r.pa))

/-- R152, R157, Table 10-6: translate an address of a space for an access from a memory domain. (DEDUCED, unsafe: log entry 23.) -/
def State.xlate (s : State) (c : Ctx) (dom space va : Nat) (write : Bool) : Acc Nat :=
  if space ≠ spStack ∧ c.inStack va then .bad va 4
  else
    match c.mapOf va with
    | none => .miss va write
    | some m =>
      if PageKind.space m.kind ≠ (if space = spStack then spGlobal else space) then .bad va 4
      else if write ∧ !m.write then .bad va 2
      else
        let pa? : Option Nat :=
          if m.replicable then
            let cs := c.copiesOf m
            if write ∧ 1 < cs.length then none else (cs.find? fun x => x.1 == dom).map (·.2)
          else some m.pa
        match pa? with
        | none => .miss va write
        | some p => let pa := p + (va - m.va); if backed s.boot.expanders pa then .ok pa else .bad va 1

/-- R69, R152, R445: translate a fetch. -/
def State.xlateFetch (s : State) (c : Ctx) (dom va : Nat) : Acc Nat :=
  match c.mapOf va with
  | none => .miss va false
  | some m => if !m.exec then .bad va 3 else s.xlate c dom spGlobal va false

/-- The virtual addresses that a physical address has in a context. -/
def Ctx.vasOf (c : Ctx) (pa : Nat) : List Nat :=
  (c.maps.flatMap fun m =>
    (c.copiesOf m).filterMap fun x => if x.2 ≤ pa ∧ pa < x.2 + m.sz then some (m.va + (pa - x.2)) else none)

/-! ## Accesses through a space -/

/-- A port: the agent, its context, the space, the request type, the team whose tarn a TARN access reaches, and the virtual
address of the group's STACK region. -/
structure Port where
  who : Who
  dom : Nat
  ctx : Ctx
  space : Nat
  ty : ReqTy
  tid : Nat
  stack : Nat
  deriving DecidableEq, Repr

/-- Table 10-1: the type follows from the pointer alone. -/
def Ptr.reqTy (p : Ptr) : ReqTy :=
  if p.space = spHostNc then .uncached
  else if p.cls = clShared ∨ p.space = spReservoir then .selfinv
  else if p.space = spStack then .owned
  else if p.cls = clSync ∧ 1 ≤ p.scope then .through p.scope
  else .owned

def Ctx.stackBase (c : Ctx) (gid : Nat) : Nat := c.stackVa + (((c.stackUse.find? fun u => u.1 == gid).map (·.2)).getD 0) * 2 ^ 25

def emptyCtx : Ctx :=
  ⟨0, 0, 0, 0, true, 0, [], [], [], [], [], 0, 0, [], 0, 0, 0, 0, 0, [], [], 1, 0, [], 0, 0, false, true⟩

/-- The agent that a group at a core is. -/
def State.whoOf (s : State) (c : Ctx) (core : Nat) : Who := ⟨core, s.dieNum core, c.id, c.aesKey⟩

def State.portAt (s : State) (g : Group) (core space : Nat) (ty : ReqTy) (tid : Nat) : Port :=
  let c := (s.ctxOf g).getD emptyCtx
  ⟨s.whoOf c core, Config.memDomain s.boot.sku (s.dieNum core), c, space, ty, tid, c.stackBase g.gid⟩

/-- The port of an access of group g through pointer p. -/
def State.port (s : State) (g : Group) (p : Ptr) : Port := s.portAt g g.core p.space p.reqTy (s.tarnTeam g p)

/-- R153: the frame shadow of an a register: the frame of its pointer's base, and the bytes from there to the end of the page; none while
the translation is missing. The model stores the translation once, in the mappings, and this is the view of it beside the register.
(DEDUCED, unsafe: log entry 63.) -/
def State.frameShadow (s : State) (g : Group) (i : BitVec 5) : Option (Nat × Nat) :=
  let p := Ptr.ofBits (g.getA i)
  let q := s.port g p
  let va := if p.space = spStack then q.stack + p.base else p.base
  match s.xlate q.ctx q.dom p.space va false, q.ctx.mapOf va with
  | .ok pa, some m => some (pa, m.va + m.sz - va)
  | _, _ => none

/-- Cut n bytes at address a into pieces inside one word. -/
def pieces : Nat → Nat → Nat → List (Nat × Nat)
  | 0, _, _ => []
  | fuel + 1, a, n => if n = 0 then [] else
      let k := min n (4 - a % 4)
      (a, k) :: pieces fuel (a + k) (n - k)

/-- The virtual address of an address of the port's space (R23, R132). -/
def Port.va (p : Port) (a : Nat) : Nat := if p.space = spStack then p.stack + a else a

/-- Translate every piece; the first failure decides. -/
def Port.plan (s : State) (p : Port) (write : Bool) : List (Nat × Nat) → Acc (List (Nat × Nat))
  | [] => .ok []
  | (a, k) :: rest =>
    match s.xlate p.ctx p.dom p.space (p.va a) write with
    | .miss va w => .miss va w
    | .bad va r => .bad va r
    | .ok pa =>
      match Port.plan s p write rest with
      | .ok xs => .ok ((pa, k) :: xs)
      | e => e

def wordBytes (v : W32) (off k : Nat) : List W8 := (List.range k).map fun i => v.extractLsb' (8 * (off + i)) 8

/-- The bytes of the pieces, and at which byte of them the first poisoned one lies. All pieces of an access are read in one step, so
that no other agent's write comes between two words; R176 would admit it. (DESIGN CHOICE, unsafe: log entry 64.) -/
def readPlan (w : Who) (ty : ReqTy) : List (Nat × Nat) → State → State × List W8 × Option Nat
  | [], s => (s, [], none)
  | (pa, k) :: rest, s =>
    let (s, v, bad) := s.readWord w ty (pa / 4)
    let (s, bs, bad') := readPlan w ty rest s
    (s, wordBytes v (pa % 4) k ++ bs, if bad then some 0 else bad'.map (· + k))

/-- Read n bytes at address a of the port's space. -/
def Port.read (p : Port) (s : State) (a n : Nat) : State × Acc (List W8) :=
  if p.space = spTarn then
    let t := ((s.team? p.tid).map (·.tarn)).getD []
    (s, .ok ((List.range n).map fun i => SMap.get t (a + i)))
  else
    match Port.plan s p false (pieces n a n) with
    | .miss va w => (s, .miss va w)
    | .bad va r => (s, .bad va r)
    | .ok xs =>
      let (s, bs, bad) := readPlan p.who p.ty xs s
      (s, match bad with
        | some i => .bad (p.va (a + i)) 6
        | none => .ok bs)

def pieceMask (off k : Nat) : BitVec 4 := (BitVec.ofNat 4 (2 ^ k - 1)) <<< off
def pieceWord (off : Nat) (bs : List W8) : W32 := BitVec.ofNat 32 (leNat bs * 2 ^ (8 * off))

/-- Write the pieces of an access, all in one step (R176; DESIGN CHOICE, unsafe: log entry 64). -/
def writePlan (w : Who) (ty : ReqTy) (gid : Option Nat) : List (Nat × Nat) → List W8 → State → State
  | [], _, s => s
  | (pa, k) :: rest, bs, s =>
    let s := s.writeWord w ty (pa / 4) (pieceMask (pa % 4) k) (pieceWord (pa % 4) (bs.take k)) gid
    writePlan w ty gid rest (bs.drop k) s

/-- Write bytes at address a of the port's space. A missing translation of any byte writes none (DEDUCED, unsafe: log entry 15). -/
def Port.write (p : Port) (s : State) (a : Nat) (bs : List W8) (gid : Option Nat) : State × Acc Unit :=
  if p.space = spTarn then
    (s.updTeam p.tid fun t => { t with tarn := SMap.setAll t.tarn (bs.zipIdx.map fun b => (a + b.2, b.1)) }, .ok ())
  else
    match Port.plan s p true (pieces bs.length a bs.length) with
    | .miss va w => (s, .miss va w)
    | .bad va r => (s, .bad va r)
    | .ok xs => (writePlan p.who p.ty gid xs bs s, .ok ())

/-- The agent that a cached word's owner is. -/
def State.cacheWho (s : State) (core die ctx : Nat) : Who := ⟨core, die, ctx, ((s.ctx? ctx).map (·.aesKey)).getD 0⟩
/-- R26, R270: the words that sel names leave the L1s of a die; what is dirty goes on as in an eviction. -/
def State.clearL1 (s : State) (d : Die) (sel : CWord → Bool) : State :=
  ((s.mem.l1.filter fun c => c.own / 128 == d.block && sel c).foldl
    (fun s c => s.evictL1 (s.cacheWho c.own d.num c.ctx) c) s).mergeSnoops s.run.nextId

/-! ## Accesses of the control die, at the homes -/

/-- Read bytes of a context at their homes (R62, R445). -/
def State.homeRead (s : State) (c : Ctx) (va n : Nat) : Acc (List W8) :=
  let one (a : Nat) : Acc W8 :=
    match c.mapOf a with
    | none => .miss a false
    | some m =>
      let pa := m.pa + (a - m.va)
      if !backed s.boot.expanders pa then .bad a 1
      else if s.poisoned (pa / 4) then .bad a 6 else .ok (s.mem.byte c.aesKey pa)
  (List.range n).foldr (fun i acc =>
    match one (va + i) with
    | .ok b => (match acc with | .ok bs => .ok (b :: bs) | e => e)
    | .miss v w => .miss v w
    | .bad v r => .bad v r) (.ok [])

/-- Write bytes at their homes, at package scope or wider, as one access (R269, R270). -/
def State.homeWriteBytes (s : State) (key pa : Nat) (bs : List W8) (src : Option Nat) (gid : Option Nat) : State :=
  ((pieces bs.length pa bs.length).foldl (fun (acc : State × List W8) x =>
    let (s, rest) := acc
    let s := if hostWa (x.1 / 4) then s.hostTake (x.1 / 4) true else s
    (s.homeWrite src key (x.1 / 4) (pieceMask (x.1 % 4) x.2) (pieceWord (x.1 % 4) (rest.take x.2)) gid, rest.drop x.2))
    (s, bs) |>.1).mergeSnoops s.run.nextId

/-- A write of the control die that waited is performed. -/
def Later.perform (w : Later) (s : State) : State :=
  match w.bytes with
  | some bs => s.homeWriteBytes w.key w.pa bs none none
  | none =>
    let s := if hostWa (w.pa / 4) then s.hostTake (w.pa / 4) false else s
    s.homeWriteBytes w.key w.pa (leBytes 4 (leNat (s.mem.bytes w.key w.pa 4) + 1)) none none
/-- R61, R269, R278: the writes that waited are performed in their order, up to the first that still waits for a snoop. -/
def State.runLater : List Later → State → State
  | [], s => { s with mem := { s.mem with later := [] } }
  | w :: rest, s =>
    if s.mem.snoops.any fun n => w.waits.contains n.k then { s with mem := { s.mem with later := w :: rest } }
    else State.runLater rest (w.perform s)
def State.settleLater (s : State) : State := State.runLater s.mem.later s
/-- R61, R278: a write of the control die that follows the acknowledgement of one whose snoops have identities from k0 on. -/
def State.writeAfter (s : State) (k0 key pa : Nat) (bytes : Option (List W8)) : State :=
  let w : Later := ⟨(s.mem.snoops.filter fun n => decide (k0 ≤ n.k)).map (·.k), key, pa, bytes⟩
  { s with mem := { s.mem with later := s.mem.later ++ [w] } }.settleLater

/-! ## Read duplication -/

/-- R157: the words of a physical range leave every cache. -/
def State.dropRange (s : State) (pa n : Nat) : State :=
  let inside (wa : Nat) : Bool := decide (pa ≤ 4 * wa) && decide (4 * wa < pa + n)
  { s with mem := { s.mem with
    basin := s.mem.basin.filter fun c => !inside c.wa
    l1 := s.mem.l1.filter fun c => !inside c.wa } }

/-- R157: a page keeps the one copy at a frame; the others are freed, and what the caches hold of them goes. -/
def State.keepCopy (s : State) (c : Ctx) (m : Mapping) (pa : Nat) : State :=
  let s := ((c.copiesOf m).filter fun x => x.2 != pa).foldl (fun s x => s.dropRange x.2 m.sz) s
  s.updCtx c.id fun c => { c with
    maps := c.maps.map fun (x : Mapping) => if x.va = m.va then { x with pa := pa } else x
    replicas := c.replicas.filter fun r => r.va != m.va }

/-- R157: before a write at the homes a page of several copies collapses to one. A write of the control die, which has no memory
domain, keeps the first copy. (DEDUCED, unsafe: log entry 25.) -/
def State.oneCopy (s : State) (c : Ctx) (m : Mapping) (pa : Nat) : State :=
  if (c.copiesOf m).length ≤ 1 then s else s.keepCopy c m pa

/-! ## What watches the writes -/

def State.ctxOfGrid (s : State) (id : Nat) : Nat := ((s.grid? id).map (·.ctx)).getD 0
/-- R189: a write of another agent clears the shadows of its sectors. -/
def State.clearShadows (s : State) (ctx : Nat) (tarn : Option Nat) (addr n : Nat) : State :=
  { s with mem := { s.mem with shadows := s.mem.shadows.filter fun x =>
      !(s.ctxOfGrid x.grid == ctx && x.tarn == tarn && decide (addr / 32 ≤ x.sector) && decide (x.sector ≤ (addr + n - 1) / 32)) } }

/-- R243: bytes of a mere's descriptor and of its work area. -/
def Mere.owns (m : Mere) (addr n : Nat) : Bool :=
  (decide (m.base < addr + n) && decide (addr < m.base + 256)) ||
  (decide (m.work < addr + n) && decide (addr < m.work + (8 * m.n + 8) * m.m * 384))
/-- The virtual addresses that name the byte at a virtual address. -/
def Ctx.aliases (c : Ctx) (va : Nat) : List Nat :=
  match c.mapOf va with
  | some m => c.vasOf (m.pa + (va - m.va))
  | none => [va]
/-- A byte range as the parts of it in each unit of 64 KiB, the smallest page, with their bytes. -/
def pageSpans (a n : Nat) : List (Nat × Nat) :=
  if n = 0 then []
  else
    (List.range ((a + n - 1) / 0x10000 + 1 - a / 0x10000)).map fun i =>
      let lo := max a ((a / 0x10000 + i) * 0x10000)
      (lo, min (a + n) ((a / 0x10000 + i + 1) * 0x10000) - lo)
/-- The virtual ranges that name the bytes of a physical range. -/
def Ctx.vaSpans (c : Ctx) (pa n : Nat) : List (Nat × Nat) := (pageSpans pa n).flatMap fun x => (c.vasOf x.1).map fun va => (va, x.2)
/-- R243: a write of n bytes to the descriptor or the work area of a bound mere, by whatever name of its frames, leaves its later rounds
undefined. -/
def State.taintMeres (s : State) (ctx n : Nat) (vas : List Nat) : State :=
  let c := (s.ctx? ctx).getD emptyCtx
  { s with sys := { s.sys with meres := s.sys.meres.map fun (m : Mere) =>
    if m.ctx = ctx ∧ (vas.any fun a => (pageSpans a n).any fun x => (c.aliases x.1).any fun b => m.owns b x.2) = true then { m with tainted := true } else m } }

/-- R189, R243: a write to n bytes of a context by an agent that is no group of it. -/
def State.outsideWrite (s : State) (c : Ctx) (va n : Nat) : State :=
  (s.taintMeres c.id n [va]).clearShadows c.id none va n

/-- A store at a home by its physical address, by the host, the package copy engine or the event array: a page of several copies
keeps the one that is written. -/
def State.homeStore (s : State) (c : Ctx) (pa : Nat) (bs : List W8) (op : Option Nat) : State :=
  let s := (c.maps.findSome? fun m => ((c.copiesOf m).find? fun x => decide (x.2 ≤ pa) && decide (pa < x.2 + m.sz)).map fun x => (m, x.2)).elim
    s fun y => s.oneCopy c y.1 y.2
  (c.vaSpans pa bs.length).foldl (fun s x => s.outsideWrite c x.1 x.2) (s.homeWriteBytes c.aesKey pa bs none op)

/-- A write of the control die to an address of a context, which leaves the meres as they are. -/
def State.partPut (s : State) (c : Ctx) (va : Nat) (bs : List W8) (op : Option Nat) : State × Acc Unit :=
  match c.mapOf va with
  | none => (s, .miss va true)
  | some m =>
    if !m.write then (s, .bad va 2)
    else
      let pa := m.pa + (va - m.va)
      if backed s.boot.expanders pa then
        (((s.oneCopy c m m.pa).homeWriteBytes c.aesKey pa bs none op).clearShadows c.id none va bs.length, .ok ())
      else (s, .bad va 1)

/-- A write of the control die to an address of a context (R189, R243). -/
def State.partWrite (s : State) (c : Ctx) (va : Nat) (bs : List W8) (op : Option Nat) : State × Acc Unit :=
  match s.partPut c va bs op with
  | (s, .ok _) => (s.taintMeres c.id bs.length [va], .ok ())
  | r => r

/-- The words of a byte range of a context, as a test on word addresses. -/
def Ctx.covers (c : Ctx) (va len wa : Nat) : Bool :=
  (List.range 4).any fun i => (c.vasOf (4 * wa + i)).any fun a => decide (va ≤ a) && decide (a < va + len)

end Sys2Proof.Machine
end

