-- ==== Sys2Proof/Machine/Operands.lean ====
section
/-! DEFINITION. Operand forms: the length of an instruction, the registers that it reads and writes (for R83 to R87), which
instructions wait for every pending register (R86), and which reach memory (R90, R166, R169). -/

namespace Sys2Proof

/-- Table 8-2: K. -/
def MFmt.k : MFmt → Nat
  | .bf16 | .fp16 => 32
  | .e4m3 | .e5m2 | .i8 | .u8 => 64
  | .i4 | .lns6 => 128
  | .fp32 => 16
  | .fp64 => 8
/-- Table 8-2: the kind of the tile. -/
def MFmt.kind : MFmt → TileKind
  | .i8 | .u8 | .i4 => .int32
  | .fp64 => .fp64
  | _ => .fp32
/-- The block size of MMAB (R231). -/
def MFmt.bs : MFmt → Nat
  | .fp64 => 8
  | _ => 32
/-- Table 8-3: elements of a grain. -/
def Grain.num : Grain → Nat
  | .g32 => 32
  | .g64 => 64
  | .g128 => 128

end Sys2Proof

namespace Sys2Proof.Machine

/-- R69: bytes of the instruction. -/
def lenOf (i : Instr) : Nat :=
  match i with
  | .br .. | .brc .. | .brv .. | .jtab .. | .call .. | .callInd .. | .loop .. | .atom .. | .mma .. | .mmas .. | .mmab ..
  | .scacc .. | .spx .. | .zmovZ2m .. | .zmovM2z .. => 16
  | .sli _ o => (match o.v with | .short _ => 8 | .long _ => 16)
  | .ld _ _ o | .st _ o => if o.ext.isSome then 16 else 8
  | .xformFwd _ o | .xformInv _ o => if o.ext.isSome then 16 else 8
  | _ => 8

def vr (g : Group) (n : BitVec 11) (k : Nat) : List Reg := (List.range k).map fun j => .v (g.absV n + j)
def vw (g : Group) (n : BitVec 11) (wide : Bool) : List Reg := vr g n (if wide then 2 else 1)
def sr (i : BitVec 9) (k : Nat) : List Reg := (List.range k).map fun j => .s (i.toNat + j)
def sw (i : BitVec 9) (wide : Bool) : List Reg := sr i (if wide then 2 else 1)
def so (o : SOp) (wide : Bool) : List Reg :=
  match o with
  | .s i => sw i wide
  | .imm _ => []
def vb (g : Group) (b : VB) (wide : Bool) : List Reg :=
  match b with
  | .v n => vw g n wide
  | .sc o => so o wide
def ar (i : BitVec 5) : List Reg := [.a i.toNat]

/-- R204: whether a data operand is a pair, from the register-side format and, under NATIVE, the memory format. -/
def dataWide (rsf : Rsf) (fmt : Nat) : Bool :=
  rsf.wide || (rsf == .native && sizeOf fmt == 8) || (rsf == .fp32 && (fmt == fmtCbf16 || fmt == fmtCfp32))
def dataRegs (g : Group) (o : MemOp) : List Reg :=
  let w := dataWide o.rsf (Ptr.ofBits (g.getA o.ptr)).fmt
  match o.data with
  | .v n => vw g n w
  | .s i => sw i w
  | .a i => ar i
def offRegs (g : Group) (o : MOff) : List Reg :=
  match o with
  | .sc x => so x false
  | .vec n => vw g n false
  | .stream _ => []
/-- R303: bytes of an ATOM's operand. -/
def atomBytes (rsf : Rsf) (wide : Bool) (fmt : Nat) : Nat :=
  if wide then 16
  else match rsf with
    | .u64 | .i64 | .fp64 => 8
    | .native => if sizeOf fmt = 8 then 8 else 4
    | _ => 4
def atomRegs (g : Group) (o : AtomOp) : List Reg :=
  let n := atomBytes o.rsf o.wide (Ptr.ofBits (g.getA o.ptr)).fmt / 4
  vr g (o.vb.setWidth 11) (if o.op = .cas then 2 * n else n)
def atomDests (g : Group) (o : AtomOp) : List Reg :=
  vr g (o.vb.setWidth 11) (atomBytes o.rsf o.wide (Ptr.ofBits (g.getA o.ptr)).fmt / 4)
/-- R221: how one queued operation changes the kind and the k-count of tile z; an m2z gives no kind before it has read its header. -/
def tileEffect (z : Nat) (i : Instr) (t : Option TileKind × Nat) : Option TileKind × Nat :=
  let grow (clr : Bool) (kd : TileKind) (n : Nat) : Option TileKind × Nat := (some kd, min ((if clr then 0 else t.2) + n) 65535)
  match i with
  | .mma _ o => if o.z.toNat = z then grow o.clr o.fmt.kind o.fmt.k else t
  | .mmas _ o => if o.z.toNat = z then grow o.clr o.fmt.kind (2 * o.fmt.k) else t
  | .mmab _ o => if o.z.toNat = z then grow o.clr o.fmt.kind o.fmt.bs else t
  | .scacc _ o =>
    if o.z.toNat = z then grow o.clr .fp32 ((o.n1.toNat + 1) * o.grain.num)
    else if o.clrp ∧ o.zp.toNat ≤ z ∧ z ≤ o.zp.toNat + o.n1.toNat then (t.1, 0) else t
  | .spx _ o => if o.z.toNat = z then grow o.clr .freq 0 else t
  | .zclr _ o => if o.z.toNat = z then (some o.kind, 0) else t
  | .zmovV2z _ _ o => if o.z.toNat = z then (if o.cv = 0#2 then t.1 else some .fp32, 0) else t
  | .zmovM2z _ _ o => if o.z.toNat = z then (none, 0) else t
  | _ => t

/-- R221: whether a queued m2z on tile z has not read its header. -/
def Group.headerOwed (g : Group) (z : Nat) : Bool :=
  g.mq.any fun o => match o.op with
    | .zmovM2z _ _ x => x.z.toNat == z
    | _ => false
/-- R221: the kind and the k-count that tile z will have when every queued operation has completed; no kind until every queued m2z on
the tile has read its header, whatever stands behind it. -/
def Group.tileAfter (g : Group) (z : Nat) : Option TileKind × Nat :=
  let t := g.tiles.getD z Tile.fresh
  let x := g.mq.foldl (fun x o => tileEffect z o.op x) (some t.kind, t.kcount)
  if g.headerOwed z then (none, x.2) else x

/-- The names of a z2v run: R424. -/
def zRun (cv : BitVec 2) (k : TileKind) : Nat := if cv ≠ 0#2 ∧ k = .fp64 then 64 else 128
def amaxReg (x : Option (BitVec 9)) : List Reg :=
  match x with
  | none => []
  | some i => sw i false
/-- The registers of the A operand of a multiply; none when the latch holds it (R229). -/
def mxA (g : Group) (a : BitVec 11) (k : Nat) : List Reg := if g.latch.isSome then [] else vr g a k

/-- The registers an instruction reads and writes, names absolute. A MEET and an MWAIT name as many registers as a mere can
have. -/
def regsOf (g : Group) (i : Instr) : List Reg × List Reg :=
  match i with
  | .sadd _ o | .ssub _ o | .smul _ o | .smulh _ o | .sand _ o | .sor _ o | .sxor _ o | .smin _ o | .smax _ o
  | .sdiv _ _ o | .srem _ _ o => (so o.a o.ty.wide ++ so o.b o.ty.wide, sw o.d o.ty.wide)
  | .sshl _ o | .sshr _ o | .ssra _ o => (so o.a o.ty.wide ++ so o.b false, sw o.d o.ty.wide)
  | .ssel _ o => (so o.a o.ty.wide ++ so o.b o.ty.wide ++ sw o.d o.ty.wide, sw o.d o.ty.wide)
  | .scmp _ o => (so o.a o.ty.wide ++ so o.b o.ty.wide, sw o.d false)
  | .smov _ o => (so o.a o.ty.wide, sw o.d o.ty.wide)
  | .sclz _ o => (so o.a o.ty.wide, sw o.d false)
  | .sli _ o => ([], sw o.d o.ty.wide)
  | .sbfx _ o => (so o.a o.ty.wide ++ sw o.b false, sw o.d o.ty.wide)
  | .sbfi _ o => (so o.a o.ty.wide ++ sw o.b false ++ sw o.d o.ty.wide, sw o.d o.ty.wide)
  | .spopc _ o => ((match o.a with | .so x => so x o.ty.wide | .p _ => []), sw o.d false)
  | .brc _ o =>
    ((match o.test with
      | .cmp _ w a b => so a w ++ so b w
      | .anyS _ w x => sw x w
      | .anyP _ _ => []), [])
  | .jtab _ o => (vw g o.a false ++ ar o.ptr, [])
  | .callInd _ o => (sw o.a true, [])
  | .loop _ o => (sw o.a false, sw o.a false)
  | .pmov _ o =>
    (match o with
     | .ps _ a => (sr a 3, [])
     | .sp d _ => ([], sr d 3)
     | _ => ([], []))
  | .pred _ o => ([], sw o.d false)
  | .pder _ o => (ar o.a ++ (match o.src with | .quad x => sr x 4 | .tail x => so x false), ar o.d)
  | .pclass _ o => (ar o.a, ar o.d)
  | .narrow _ o => (ar o.a, ar o.d)
  | .widen _ o => (ar o.a, ar o.d)
  | .pqry _ o => (ar o.a, sw o.d false)
  | .alloc _ o => (ar o.a ++ so o.b false, ar o.d ++ ar o.a)
  | .vadd _ o | .vsub _ o | .vmul _ o | .vmulh _ o | .vand _ o | .vor _ o | .vxor _ o | .vmin _ o | .vmax _ o
  | .vdiv _ _ o | .vrem _ _ o => (vw g o.a o.ty.wide ++ vb g o.b o.ty.wide, vw g o.d o.ty.wide)
  | .vmad _ o | .vsel _ o => (vw g o.a o.ty.wide ++ vb g o.b o.ty.wide ++ vw g o.d o.ty.wide, vw g o.d o.ty.wide)
  | .vshl _ o | .vshr _ o | .vsra _ o => (vw g o.a o.ty.wide ++ vb g o.b false, vw g o.d o.ty.wide)
  | .vabs _ o => (vw g o.a o.ty.wide, vw g o.d o.ty.wide)
  | .vpopc _ o | .vclz _ o => (vw g o.a o.ty.wide, vw g o.d false)
  | .vcmp _ o => (vw g o.a o.ty.wide ++ vb g o.b o.ty.wide, [])
  | .vmov _ o => (vw g o.a o.ty.wide, vw g o.d o.ty.wide)
  | .vbcast _ o => (so o.a o.ty.wide, vw g o.d o.ty.wide)
  | .vbfx _ o => (vw g o.a o.ty.wide ++ (match o.b with | .v n => vw g n false | .s x => sw x false), vw g o.d o.ty.wide)
  | .fadd _ o | .fsub _ o | .fmul _ o | .fdiv _ _ o => (vw g o.a o.ty.wide ++ vb g o.b o.ty.wide, vw g o.d o.ty.wide)
  | .ffma _ o => (vw g o.a o.ty.wide ++ vb g o.b o.ty.wide ++ vw g o.d o.ty.wide, vw g o.d o.ty.wide)
  | .fmin _ o | .fmax _ o => (vw g o.a o.ty.wide ++ vb g o.b o.ty.wide, vw g o.d o.ty.wide)
  | .fsgn _ o => (vw g o.a o.ty.wide ++ vb g o.b o.ty.wide, vw g o.d o.ty.wide)
  | .fsqrt _ _ o | .frcp _ _ o | .frsq _ _ o | .fexp2 _ _ o | .flog2 _ _ o => (vw g o.a o.ty.wide, vw g o.d o.ty.wide)
  | .ftrig _ _ o => (vw g o.a o.ty.wide, vw g o.d o.ty.wide)
  | .fcmp _ o => (vw g o.a o.ty.wide ++ vb g o.b o.ty.wide, [])
  | .fclass _ o => (vw g o.a o.ty.wide, vw g o.d false)
  | .cvt _ o => (vw g o.a o.src.wide, vw g o.d o.dst.wide)
  | .qnt _ o => (vr g o.a o.dst.count ++ vb g o.b false, vw g o.d false)
  | .dqnt _ o => (vw g o.a false ++ vb g o.b false, vr g o.d o.src.count)
  | .amax _ _ o =>
    (match o with
     | .lanes t d a => (vw g a t.wide, sw d false)
     | .row d _ => ([], vw g d false)
     | .tile d _ => ([], sw d false))
  | .vperm _ _ o => (vw g o.a o.ty.wide ++ vb g o.b false, vw g o.d o.ty.wide)
  | .vrot _ o => (vw g o.a o.ty.wide ++ so o.b false, vw g o.d o.ty.wide)
  | .vscan _ _ o => (vw g o.a o.ty.wide, vw g o.d o.ty.wide)
  | .vrdc _ _ o => (vw g o.a o.ty.wide, sw o.d o.ty.wide)
  | .vconf _ o => (vw g o.a o.wide, [])
  | .velect _ o => (vw g o.a o.wide, vw g o.d false)
  | .ld _ _ o => (ar o.ptr ++ offRegs g o.off, dataRegs g o)
  | .st _ o => (ar o.ptr ++ offRegs g o.off ++ dataRegs g o, [])
  | .atom _ _ o => (ar o.ptr ++ offRegs g o.off ++ atomRegs g o, atomDests g o)
  | .sgen _ o => (ar o.ptr ++ so o.a false, [])
  | .xfer _ o => (ar o.d ++ ar o.a ++ sr o.b 8, [])
  | .xchain _ o => (sw o.a true, [])
  | .wait _ o => (so o.a false, [])
  | .bari _ o => (so o.a false, [])
  | .syncw _ o => (sw o.d false ++ ar o.a ++ so o.b false, sw o.d false)
  | .mma _ o => (mxA g o.a o.fmt.mmaRegs ++ sw o.boff false ++ ar o.ptr ++ amaxReg o.zp, [])
  | .mmas _ o => (mxA g o.a 32 ++ sw o.boff false ++ ar o.ptr ++ sw o.hdr true, [])
  | .mmab _ o => (mxA g o.a o.fmt.mmabRegs ++ sw o.boff false ++ ar o.ptr ++ so o.win false, [])
  | .scacc _ o => (vr g o.a (o.n1.toNat + 1) ++ sw o.boff false ++ ar o.ptr, [])
  | .spx _ o => (sw o.xoff false ++ sw o.coff false ++ ar o.ax ++ ar o.ac, [])
  | .zmovZ2v _ _ o => ([], vr g o.v (zRun o.cv ((g.tileAfter o.z.toNat).1.getD .fp32)) ++ amaxReg o.amax)
  | .zmovV2z _ _ o => (vr g o.v 128, amaxReg o.amax)
  | .zmovZ2m _ _ o | .zmovM2z _ _ o => (ar o.ptr ++ sw o.off false, amaxReg o.amax)
  | .xsect _ _ o => ([], vr g o.d 2)
  | .xformFwd _ o | .xformInv _ o => (ar o.ptr ++ so o.b false, [])
  | .mjoin _ o => (ar o.a ++ so o.b false, sw o.d false)
  | .meet _ o => (vr g o.d 16 ++ ar o.a ++ sw o.b false, [])
  | .mwait _ o => (ar o.a ++ sw o.b false, vr g o.d 16 ++ sr o.b 4)
  | .mqry _ o => (ar o.a, sw o.d false)
  | .rdcn _ o => (vr g o.d (o.m1.toNat + 1) ++ sr o.a 4, [])
  | .rdget _ o => (sr o.a 4, vr g o.d (o.m1.toNat + 1) ++ sr o.b 4)
  | .rsamp o => (vw g o.a false ++ so o.b false, vw g o.d false)
  | .rng _ _ o => (sw o.a true ++ sr o.b 4, vr g o.d 4)
  | .reord _ o => (vw g o.a false ++ vr g o.d o.p.toNat, [])
  | .launch _ o => (ar o.a, sw o.d false)
  | .lwait _ o => (so o.a false, sw o.d false)
  | .trap _ a => (so a false, [])
  | .svcProbe _ o | .svcLock _ o | .svcUnlock _ o | .svcTrylock _ o | .svcLog _ o => (so o.a false, sw o.d false)
  | .rdsr _ o =>
    (match o.d with
     | .v n => ([], vw g n ((laneSpecial o.num.toNat).getD false))
     | .s x => ([], sw x ((groupSpecial o.num.toNat).getD false)))
  | .wrsr _ o => (sw o.a true, [])
  | .yield _ d => ([], sw d false)
  | _ => ([], [])

/-- R86, with RDGET (R360) and WIDEN (R406): not issued while a register of the slot is pending. -/
def waitsForPending (i : Instr) : Bool :=
  match i with
  | .brv .. | .join | .jtab .. | .call .. | .callInd .. | .ret .. | .exit .. | .loop .. | .wait .. | .bara .. | .barw ..
  | .syncw .. | .mwait .. | .lwait .. | .yield .. | .svcProbe .. | .svcLock .. | .svcUnlock .. | .svcTrylock ..
  | .svcLog .. | .trap .. | .reord .. | .rsamp .. | .rdget .. | .widen .. => true
  | _ => false

/-- R146, R169: the group's memory instructions. -/
def isMemory (i : Instr) : Bool :=
  match i with
  | .ld .. | .st .. | .atom .. | .sgen .. | .xfer .. | .xchain .. | .widen .. | .narrow .. => true
  | _ => false
def isLdStAtom (i : Instr) : Bool :=
  match i with
  | .ld .. | .st .. | .atom .. => true
  | _ => false

end Sys2Proof.Machine
end

