-- ==== Sys2Proof/Machine/Ops.lean ====
section
/-! DEFINITION. The shared operations of the meanings: results in flight (R83 to R92), taking a trap, which ends the grid
(R60, R278 to R281, R444), and the frame of every instruction of programs: stalls, guard, effect, advance (R75, R78, R84 to R86,
R90, R146, R169). There is no return from a trap; the one return is the replay of R89. -/

namespace Sys2Proof.Machine

/-! ## Guards -/

/-- The guard of an instruction of programs. -/
def guardOf (i : Instr) : Guard :=
  match i with
  | .nop g | .sadd g _ | .ssub g _ | .smul g _ | .smulh g _ | .sdiv g _ _ | .srem g _ _ | .sand g _ | .sor g _ | .sxor g _
  | .sshl g _ | .sshr g _ | .ssra g _ | .smin g _ | .smax g _ | .scmp g _ | .ssel g _ | .smov g _ | .sli g _ | .sbfx g _
  | .sbfi g _ | .spopc g _ | .sclz g _ | .br g _ | .brc g _ | .brv g _ | .jtab g _ | .call g _ | .callInd g _ | .ret g
  | .exit g | .loop g _ | .plog g _ | .pmov g _ | .pred g _ | .pder g _ | .pclass g _ | .narrow g _ | .widen g _ | .pqry g _
  | .alloc g _ | .vadd g _ | .vsub g _ | .vmul g _ | .vmulh g _ | .vmad g _ | .vdiv g _ _ | .vrem g _ _ | .vand g _ | .vor g _
  | .vxor g _ | .vshl g _ | .vshr g _ | .vsra g _ | .vmin g _ | .vmax g _ | .vabs g _ | .vcmp g _ | .vsel g _ | .vmov g _
  | .vbcast g _ | .vbfx g _ | .vpopc g _ | .vclz g _ | .fadd g _ | .fsub g _ | .fmul g _ | .ffma g _ | .fmin g _ | .fmax g _
  | .fsgn g _ | .fdiv g _ _ | .fsqrt g _ _ | .frcp g _ _ | .frsq g _ _ | .fexp2 g _ _ | .flog2 g _ _ | .ftrig g _ _
  | .fcmp g _ | .fclass g _ | .cvt g _ | .qnt g _ | .dqnt g _ | .amax g _ _ | .vperm g _ _ | .vrot g _ | .vscan g _ _
  | .vrdc g _ _ | .vconf g _ | .velect g _ | .ld g _ _ | .st g _ | .atom g _ _ | .sgen g _ | .xfer g _ | .xchain g _ | .wait g _
  | .bari g _ | .bara g _ | .barw g _ | .syncw g _ | .mma g _ | .mmas g _ | .mmab g _ | .scacc g _ | .zmovZ2v g _ _
  | .zmovV2z g _ _ | .zmovZ2m g _ _ | .zmovM2z g _ _ | .zclr g _ | .xsect g _ _ | .spx g _ | .xformFwd g _ | .xformInv g _
  | .mjoin g _ | .meet g _ | .mwait g _ | .mqry g _ | .rdcn g _ | .rdget g _ | .rng g _ _ | .reord g _ | .launch g _
  | .lwait g _ | .trap g _ | .svcProbe g _ | .svcLock g _ | .svcUnlock g _ | .svcTrylock g _ | .svcLog g _ | .rdsr g _
  | .wrsr g _ | .yield g _ => g
  | _ => .always

/-- Tables 12-1, 13-1, 14-1: instructions that act on the lanes their guard selects. -/
def laneWise (i : Instr) : Bool :=
  match i with
  | .brv .. | .jtab .. | .exit .. | .plog .. | .vadd .. | .vsub .. | .vmul .. | .vmulh .. | .vmad .. | .vdiv .. | .vrem ..
  | .vand .. | .vor .. | .vxor .. | .vshl .. | .vshr .. | .vsra .. | .vmin .. | .vmax .. | .vabs .. | .vcmp .. | .vsel ..
  | .vmov .. | .vbcast .. | .vbfx .. | .vpopc .. | .vclz .. | .fadd .. | .fsub .. | .fmul .. | .ffma .. | .fmin .. | .fmax ..
  | .fsgn .. | .fdiv .. | .fsqrt .. | .frcp .. | .frsq .. | .fexp2 .. | .flog2 .. | .ftrig .. | .fcmp .. | .fclass .. | .cvt ..
  | .qnt .. | .dqnt .. | .vperm .. | .vrot .. | .vscan .. | .vrdc .. | .vconf .. | .velect .. | .atom .. | .xsect .. | .rng ..
  | .reord .. => true
  | .ld _ _ o | .st _ o => !o.data.uniform
  | .pmov _ o => (match o with | .sp _ _ => false | _ => true)
  | .amax _ _ o => (match o with | .tile _ _ => false | _ => true)
  | .rdsr _ o => (match o.d with | .v _ => true | .s _ => false)
  | _ => false

/-- R75: whether the guard lets the instruction act. -/
def Group.acts (g : Group) (k : Nat) (i : Instr) : Bool :=
  if laneWise i then g.select k (guardOf i) != 0#96 else g.executes k (guardOf i)

/-! ## Results in flight -/

/-- R74: s4 to s15 are never pending. -/
def pendable : Reg → Bool
  | .s i => decide (i < 4) || decide (16 ≤ i)
  | _ => true

/-- R87: results are written to the destinations that still await them, and the flags are raised. -/
def Group.applyWrites (g : Group) (k : Nat) (dests : List Reg) (w : Writes) : Group :=
  let g := g.writeV (w.vw.filter fun x => dests.contains (.v x.1))
  let g := g.writeS k (w.sw.filter fun x => dests.contains (.s x.1))
  let g := { g with a := SMap.setAll g.a (w.aw.filter fun x => dests.contains (.a x.1)) }
  g.orFlags w.flags

def Group.flightOf (g : Group) (fid : Nat) : Option Flight := g.flight.find? fun f => f.fid == fid
def Group.dropFlight (g : Group) (fid : Nat) : Group := { g with flight := g.flight.filter fun f => f.fid != fid }
def Group.putFlight (g : Group) (f : Flight) : Group :=
  { g with flight := g.flight.map fun x => if x.fid = f.fid then f else x }

/-- The results of lanes that have come while others are still owed (R87, R89). -/
def Pend.partDone : Pend → Writes
  | .load _ _ _ _ _ w => w
  | .atom _ _ _ _ _ (_ :: _) w => w
  | _ => Writes.none
def Pend.dropDone : Pend → Pend
  | .load p r d all lanes _ => .load p r d all lanes Writes.none
  | .atom p o n r d (x :: xs) _ => .atom p o n r d (x :: xs) Writes.none
  | p => p

def Group.setStream (g : Group) (k : Nat) (t : Stream) : Group := { g with streams := setAt g.streams k t }
/-- R233: the streams of an XSECT advance with the writing of its results; a consumer inside its window may have gone on (R379). -/
def Group.moveStreams (g : Group) (f : Flight) : Group :=
  let past (g : Group) (k q : Nat) : Group :=
    let t := g.streams.getD k Stream.fresh
    g.setStream k { t with pos := max t.pos q }
  match f.pend with
  | .xsect j k _ _ (some e) _ => past (past g j e.1) k e.2
  | _ => g
/-- The results of an entry are written, and it leaves the in-flight list. -/
def Group.writeFlight (g : Group) (f : Flight) (w : Writes) : Group := ((g.applyWrites f.slot f.dests w).moveStreams f).dropFlight f.fid

/-- WINDOW_CLOSE_WRITE (R87): the window closes, and a held result is written; so are the results of the lanes that have come while
others are owed. -/
def Group.closeFlight (g : Group) (f : Flight) : Group :=
  match f.held with
  | some w => g.writeFlight f w
  | none => (if f.pend.partDone = Writes.none then g else g.applyWrites f.slot f.dests f.pend.partDone).putFlight
      { f with window := 0, pend := f.pend.dropDone }

/-- R86: every open window of the slot closes. -/
def Group.closeWindows (g : Group) (k : Nat) : Group :=
  (g.flight.filter fun f => f.slot == k && decide (0 < f.window)).foldl Group.closeFlight g

/-- R84: one more instruction of slot k has issued. -/
def Group.tick (g : Group) (k : Nat) : Group :=
  (g.flight.filter fun f => f.slot == k && decide (0 < f.window)).foldl
    (fun h f => if f.window = 1 then h.closeFlight f else h.putFlight { f with window := f.window - 1 }) g

/-- R87: the whole result of an entry has arrived. -/
def Group.arrive (g : Group) (f : Flight) (w : Writes) : Group :=
  if f.window = 0 then g.writeFlight f w else g.putFlight { f with held := some w, acquire := false }

/-- A long-latency instruction enters the in-flight list; its window counts from the next instruction. -/
def Group.launchFlight (g : Group) (fid k : Nat) (pc : W64) (la : BitVec 4) (dests : List Reg) (lanes : LaneMask) (p : Pend)
    (acquire : Bool) : Group :=
  { g with flight := g.flight ++
    [⟨fid, k, pc, la.toNat + 1, dests.filter pendable, lanes, g.active k, p, none, none, acquire, none⟩] }

/-- R84, R85: an operand is pending and not inside the window of its own slot. (DEDUCED, safe: log entry 22.) -/
def Group.stalls (g : Group) (k : Nat) (i : Instr) : Bool :=
  let rw := regsOf g i
  g.flight.any fun f =>
    (f.slot != k || f.window == 0) && f.dests.any fun r => rw.1.contains r || rw.2.contains r

/-- R84: a write inside the window discards the pending results of its registers in every lane. old are the entries that were in
flight when the instruction issued. -/
def Group.claim (g : Group) (k : Nat) (ws : List Reg) (old : List Nat) : Group :=
  { g with flight := g.flight.map fun f =>
    if f.slot = k ∧ 0 < f.window ∧ old.contains f.fid then { f with dests := f.dests.filter fun r => !ws.contains r } else f }

/-- Releases that are no accesses to words of their own (Table 6-1). -/
def isRelease (i : Instr) : Bool :=
  match i with
  | .bara .. | .meet .. | .rdcn .. | .launch .. | .widen .. | .xfer .. | .xchain .. => true
  | .barw _ o => o.arrive
  | _ => false

/-- R129: bytes that an access moves. -/
def widthOf (f : Nat) (r : Rsf) : Nat :=
  if f = fmtBytes then
    match r with
    | .native => 1
    | .fp16 | .bf16 => 2
    | .i32 | .u32 | .fp32 => 4
    | .i64 | .u64 | .fp64 => 8
    | .ptr => 16
  else sizeOf f
/-- What an entry has not performed: its pointer, the bytes of an element, and the addresses. -/
def Flight.work (f : Flight) : Option (Ptr × Nat × List Nat) :=
  match f.pend with
  | .load b r _ _ lanes _ =>
    if f.held.isSome || lanes.isEmpty then none else some (Ptr.ofBits b, widthOf (Ptr.ofBits b).fmt r, lanes.map (·.2))
  | .store b _ lanes => if lanes.isEmpty then none else some (Ptr.ofBits b, ((lanes.head?).map (·.2.2.length)).getD 0, lanes.map (·.2.1))
  | .atom b _ n _ _ lanes _ => if lanes.isEmpty then none else some (Ptr.ofBits b, n, lanes.map (·.2.1))
  | .gather b .. => some (Ptr.ofBits b, 0, [])
  | _ => none
/-- Whether an entry may have a write that has not been performed. -/
def Flight.owesWrite (f : Flight) : Bool :=
  match f.pend with
  | .store .. | .gather .. => true
  | .atom _ _ _ _ _ lanes _ => !lanes.isEmpty
  | _ => false
def Flight.isStore (f : Flight) : Bool :=
  match f.pend with
  | .store .. => true
  | .gather _ _ _ (.store ..) .. => true
  | _ => false
/-- R378: the pointer Q of an indirect stream. -/
def Group.queue? (g : Group) (k : Nat) : Option Ptr :=
  ((g.streams.getD k Stream.fresh).body.filter (·.ind)).map fun r => Ptr.ofBits r.q
/-- R379: the pointers Q that an entry has still to read through. -/
def Group.unread (g : Group) (f : Flight) : List Ptr :=
  match f.pend with
  | .gather _ q _ _ _ _ _ => [Ptr.ofBits q.q]
  | .xsect j k _ _ none _ => (g.queue? j).toList ++ (g.queue? k).toList
  | _ => []
/-- Whether an entry has an access that has not been performed. -/
def Group.owes (g : Group) (f : Flight) : Bool := f.work.isSome || !(g.unread f).isEmpty
/-- R187, R379: whether an entry has a SYNC access that has not been performed. -/
def Group.syncOf (g : Group) (f : Flight) : Bool := (f.work.any fun w => w.1.cls == clSync) || (g.unread f).any fun q => q.cls == clSync

/-- Whether a queued operation is a ZMOV between a tile and memory, and its pointer and first address. -/
def MxOp.move (o : MxOp) : Option (Ptr × Nat) :=
  match o.op with
  | .zmovZ2m .. | .zmovM2z .. =>
    let q := Ptr.ofBits (o.ptrs.getD 0 0#128)
    some (q, q.base + (o.scal.getD 0 0#32).toNat)
  | _ => none
def MxOp.syncMove (o : MxOp) : Bool := o.move.any fun m => m.1.cls == clSync
/-- R379: whether a queued MMAB has still to read a Q through a SYNC pointer. -/
def Group.syncQueue (g : Group) (o : MxOp) : Bool :=
  match o.op with
  | .mmab _ x => (g.queue? x.stream.toNat).any fun q => q.cls == clSync
  | _ => false
/-- R168, R182, R187: whether a SYNC access of the group has not been performed. -/
def Group.owesSync (g : Group) : Bool := g.flight.any g.syncOf || g.mq.any fun o => o.syncMove || g.syncQueue o
/-- R169: whether an acquire of the group has not read its value in every lane. -/
def Group.acquiring (g : Group) : Bool := (g.flight.any fun f => f.acquire) || g.mq.any g.syncQueue
/-- The pointer register of an LD, ST or ATOM. -/
def accessPtr (i : Instr) : Option (BitVec 5) :=
  match i with
  | .ld _ _ o | .st _ o => some o.ptr
  | .atom _ _ o => some o.ptr
  | _ => none
/-- R168, R170: whether a SYNC access would pass a queued ZMOV through a SYNC pointer. -/
def Group.passesMove (g : Group) (i : Instr) : Bool :=
  (accessPtr i).any fun a => (Ptr.ofBits (g.getA a)).cls == clSync && g.mq.any MxOp.syncMove

/-- R94: the names of an instruction that lie beyond the resident window. -/
def State.farNames (s : State) (g : Group) (i : Instr) : List Nat :=
  let w := ((s.grid? g.grid).map (·.launch.window)).getD 2048
  ((regsOf g i).1 ++ (regsOf g i).2).filterMap fun r =>
    match r with
    | .v n => if g.wbase + w ≤ n then some n else none
    | _ => none
/-- R94 to R96: the first unmapped page that the spill or fill of some names touches. -/
def State.spillMiss (s : State) (g : Group) (names : List Nat) : Option Nat :=
  (s.ctxOf g).bind fun c =>
    ((names.flatMap fun n => [0x20000 + 384 * n, 0x20000 + 384 * n + 383]).map (c.stackBase g.gid + ·)).find? fun va =>
      (c.mapOf va).isNone

/-- R146, R168, R273: whether a home has not acknowledged a write of the group, or an eviction of its die. -/
def State.groupUnacked (s : State) (g : Group) : Bool :=
  s.mem.snoops.any fun n => n.gid == some g.gid || (n.gid == none && n.src == some (s.dieNum g.core))

/-- Table 6-1: the scope at which an instruction of slot k is a release; a chain, whose records each have their own, counts at the widest. -/
def State.releaseScope (s : State) (g : Group) (k : Nat) (i : Instr) : Option Nat :=
  let bar (b : BitVec 4) : Nat := if b = 15#4 ∧ (s.grid? g.grid).any (fun x => x.launch.cls == 1) then 3 else 2
  let sync (a : BitVec 5) : Option Nat := ((some (Ptr.ofBits (g.getA a))).filter fun p => p.cls == clSync).map Ptr.scope
  match i with
  | .st _ o => sync o.ptr
  | .atom _ _ o => sync o.ptr
  | .widen _ o => some o.scp.toNat
  | .bara _ b => some (bar b)
  | .barw _ o => if o.arrive && !(g.slot k).arrived then some (bar o.b) else none
  | .meet _ o => some (Ptr.ofBits (g.getA o.a)).scope
  | .rdcn _ o => some (if 4 ≤ (g.getS k o.a.toNat).toNat / 2 ^ 22 % 8 then 2 else 3)
  | .launch .. => some 3
  | .xfer _ o => some (max (Ptr.ofBits (g.getA o.a)).scope (Ptr.ofBits (g.getA o.d)).scope)
  | .xchain .. => some 7
  | _ => none
/-- R168, R172: whether a group has words to carry to a scope, and the carrying of them, awaited by op. -/
def State.groupCarries (s : State) (g : Group) (n : Nat) : Bool := s.carries (s.whoOf ((s.ctxOf g).getD emptyCtx) g.core) g.gid n
def State.carryFor (s : State) (g : Group) (n op : Nat) : State :=
  s.carry (s.whoOf ((s.ctxOf g).getD emptyCtx) g.core) g.gid n (some op)
/-- R168, R172: the scope at which slot k's release must first carry what the group has acquired. -/
def State.carryScope (s : State) (g : Group) (k : Nat) (i : Instr) : Option Nat :=
  if (g.slot k).park.isSome || !g.acts k i then none
  else (s.releaseScope g k i).filter (s.groupCarries g)

/-- Whether slot k cannot issue i yet, apart from the entry's own conditions: parked (R89), a pending register (R84 to R86), a
parked ST (R90), an acquire that has not read (R168, R169), a SYNC access that has not been performed before a release (R168, R187), a
write of the group, or an eviction of its die, that a home has not acknowledged (R146, R168, R273), a name whose spill page is not
mapped (R94), or a release that has words to carry (R168, R172). (DEDUCED, safe: log entry 31.) -/
def State.holds (s : State) (g : Group) (k : Nat) (i : Instr) : Bool :=
  (g.slot k).park.isSome || g.stalls k i ||
  (waitsForPending i && g.flight.any fun f => f.slot == k && !f.dests.isEmpty) ||
  (isLdStAtom i && g.flight.any fun f => f.slot == k && f.isStore) ||
  (isMemory i && g.acquiring) ||
  (isRelease i && (g.owesSync || g.acquiring)) || g.passesMove i ||
  (g.acts k i && (s.spillMiss g (s.farNames g i)).isSome) ||
  ((isMemory i || isRelease i) && s.groupUnacked g) || (s.carryScope g k i).isSome

/-- R94, R96: what an instruction that cannot issue does: one that acts touches the pages of its spilled names. -/
def State.touchSpill (s : State) (g : Group) (k : Nat) (i : Instr) : Option Nat :=
  if (g.slot k).park.isSome || !g.acts k i then none else s.spillMiss g (s.farNames g i)

/-- The instruction counts as issued: windows tick, the slot's waits end, the program counter moves. -/
def Group.advance (g : Group) (k : Nat) (pc : W64) : Group :=
  let g := g.tick k
  let x := g.slot k
  g.setSlot k { x with
    strand := x.strand.map fun t => { t with pc := pc }, arrived := false, barWait := none, lockWait := none, waits := 0 }

/-- The same when the effect has placed the strands itself. -/
def Group.settle (g : Group) (k : Nat) : Group :=
  let g := g.tick k
  g.setSlot k { g.slot k with arrived := false, barWait := none, lockWait := none, waits := 0 }

def nextPc (pc : W64) (i : Instr) : W64 := pc + BitVec.ofNat 64 (lenOf i)

/-! ## Acquires and releases -/

/-- R168, R268: an acquire; one of scope 1 or wider discards the context's clean words in the core's L1. With the writes acknowledged at their homes
the litmus tests of R192 have no outcome that it forbids, and not all that it allows. (DEDUCED, unsafe: log entry 72.) -/
def State.acquire (s : State) (g : Group) (scope : Nat) : State :=
  let s := s.sawAt g.gid scope
  if scope = 0 then s
  else s.discardClean (s.whoOf ((s.ctxOf g).getD emptyCtx) g.core) false fun _ => true

/-- R189: a release raises the interval number. -/
def Group.released (g : Group) : Group := { g with interval := g.interval + 1 }

/-! ## Traps -/

/-! Table 3-7. -/
def cIllegal : Nat := 0x01
def cSeal : Nat := 0x03
def cBounds : Nat := 0x04
def cClass : Nat := 0x05
def cDomain : Nat := 0x06
def cCeiling : Nat := 0x07
def cFormat : Nat := 0x08
def cAccess : Nat := 0x0A
def cAtomic : Nat := 0x0B
def cMisaligned : Nat := 0x0C
def cJtab : Nat := 0x0D
def cEddy : Nat := 0x0E
def cWindow : Nat := 0x0F
def cMatrix : Nat := 0x10
def cMeeting : Nat := 0x11
def cReduce : Nat := 0x12
def cDepth : Nat := 0x13
def cResample : Nat := 0x14
def cRace : Nat := 0x15
def cSoftware : Nat := 0x16
def cReservoir : Nat := 0x17
def cMulticast : Nat := 0x18
def cPopCap : Nat := 0x19
def cDieLost : Nat := 0x1A
def cLinkWake : Nat := 0x1B

/-- What a trap reports (R79, R444, Table 10-5). -/
structure Trap where
  cause : Nat
  aux : Nat
  mask : LaneMask
  addr : Nat
  source : Nat
  slot : Nat
  pc : W64
  deriving DecidableEq, Repr

/-- A trap at issue of the instruction of slot k (R444). -/
def Group.trapAt (g : Group) (k : Nat) (cause aux : Nat) (mask : LaneMask) (addr : Nat) : Trap :=
  ⟨cause, aux, mask, addr, 0, k, g.pc k⟩
/-- R79. -/
def Group.illegal (g : Group) (k reason : Nat) : Trap := g.trapAt k cIllegal reason (g.active k) 0

/-- Table 10-5. -/
def FaultRec.bytes (r : FaultRec) : List W8 :=
  leBytes 4 r.seq.toNat ++ leBytes 1 r.kind ++ leBytes 1 r.cause ++ leBytes 1 r.slot ++ leBytes 1 r.source ++
  leBytes 8 r.pc.toNat ++ leBytes 12 r.mask.toNat ++ leBytes 4 r.aux.toNat ++ leBytes 8 r.addr.toNat ++
  leBytes 4 r.team.toNat ++ leBytes 2 r.group ++ leBytes 2 0 ++ leBytes 8 r.event.toNat ++ leBytes 4 r.gen.toNat ++
  leBytes 4 r.image.toNat

/-- R278: the record is written at its place, and once its home has acknowledged it (R269), the counts in the header. -/
def State.putLog (s : State) (c : Ctx) (r : FaultRec) : State :=
  let k0 := s.run.nextId
  let s := s.homeWriteBytes c.aesKey (c.logPa + 64 + 64 * (r.seq.toNat % 4095)) r.bytes none none
  (s.writeAfter k0 c.aesKey c.logPa (some (leBytes 4 c.logWr.toNat))).writeAfter k0 c.aesKey (c.logPa + 8)
    (some (leBytes 4 c.logDrop.toNat))

/-- A record is written, with the log of its context as it then stands. -/
def State.storeRecord (s : State) (c : Ctx) (r : FaultRec) : State × Option W32 := ((s.updCtx c.id fun _ => c).putLog c r, some r.seq)
/-- A record is dropped, and the count of the dropped ones is written. -/
def State.dropRecord (s : State) (c : Ctx) : State × Option W32 :=
  ((s.updCtx c.id fun _ => c).writeAfter s.run.nextId c.aesKey (c.logPa + 8) (some (leBytes 4 c.logDrop.toNat)), none)

/-- R278: log a record; the answer is its sequence number, or none when it was dropped. -/
def State.logRecord (s : State) (ctx : Nat) (r : FaultRec) : State × Option W32 :=
  match s.ctx? ctx with
  | none => (s, none)
  | some c =>
    if (c.logWr - c.logRd).toNat < 4095 then
      let r := { r with seq := c.logWr }
      s.storeRecord { c with logWr := c.logWr + 1, logRecs := c.logRecs ++ [r] } r
    else
      match (if r.kind = 1 ∨ r.kind = 2 then none else c.logRecs.find? fun x => x.kind == 1 || x.kind == 2) with
      | some old =>
        let r := { r with seq := old.seq }
        s.storeRecord { c with logDrop := c.logDrop + 1, logRecs := c.logRecs.map fun x => if x.seq = old.seq then r else x } r
      | none => s.dropRecord { c with logDrop := c.logDrop + 1 }

/-- R280: the package event log. -/
def State.packageRecord (s : State) (r : FaultRec) : State :=
  let r := { r with seq := s.boot.pevCount }
  let keep := s.boot.pevLog.filter fun x => x.seq.toNat % 512 != r.seq.toNat % 512
  { s with boot := { s.boot with pevLog := keep ++ [r], pevCount := s.boot.pevCount + 1 } }

/-- The record of a trap of group g (R279). -/
def State.recordOf (s : State) (g : Group) (kind image : Nat) (t : Trap) : FaultRec :=
  let x := s.grid? g.grid
  { seq := 0, kind := kind, cause := t.cause, slot := t.slot, source := t.source, pc := t.pc, mask := t.mask
    aux := BitVec.ofNat 32 t.aux, addr := BitVec.ofNat 64 t.addr
    team := BitVec.ofNat 32 (((s.team? g.tid).map (·.t)).getD 0), group := g.idx
    event := BitVec.ofNat 64 ((x.map (·.launch.done)).getD 0), gen := SMap.get g.s 9, image := BitVec.ofNat 32 image }

/-- Whether a load's lanes that have been read are read again after a halt: its window is open, and it is not kept (Flight.keep). -/
def Flight.rereads (f : Flight) : Bool :=
  match f.pend with
  | .load _ _ _ all lanes _ => decide (0 < f.window) && !all.isEmpty && (f.held.isSome || all != lanes)
  | _ => false
/-- R92, R166, R169: a load or XSECT keeps what it has read, because a later access of its group has been performed that another
value would contradict. (DEDUCED, unsafe: log entry 74.) -/
def Flight.keep (f : Flight) : Flight :=
  match f.pend with
  | .load p r d _ lanes w => { f with pend := .load p r d [] lanes w }
  | .xsect j k d a (some e) _ => { f with pend := .xsect j k d a (some e) true }
  | _ => f
/-- R167, R379: whether an entry reads through a SYNC pointer. -/
def Group.syncRead (g : Group) (f : Flight) : Bool :=
  match f.pend with
  | .load p .. => (Ptr.ofBits p).cls == clSync
  | .xsect j k .. => ((g.queue? j).toList ++ (g.queue? k).toList).any fun q => q.cls == clSync
  | _ => false
/-- R168, R169: what acquires of the group have read stays, once a later access or a release has been performed. -/
def Group.keepAcquired (g : Group) : Group :=
  { g with flight := g.flight.map fun f => if g.syncRead f then f.keep else f }
/-- Instructions whose own reads of memory are performed at their issue, and releases. -/
def performsNow (i : Instr) : Bool :=
  match i with
  | .jtab .. | .syncw .. => true
  | _ => isRelease i

/-- What stays of earlier reads once an instruction has issued. -/
def Group.noted (g : Group) (i : Instr) : Group := if performsNow i then g.keepAcquired else g

/-- R92, R119: a group halts: results that complete inside the core are written; held results of LD, XSECT and ZMOV are dropped and
their lanes are owed again. What a ZMOV has moved at its place in the tile's order is moved again to its registers (DEDUCED, unsafe:
log entry 73). -/
def Group.halt (g : Group) : Group :=
  g.flight.foldl (fun h f =>
    match f.pend with
    | .ready w => if f.window = 0 then (h.applyWrites f.slot f.dests w).dropFlight f.fid else h
    | .load p r d all _ _ =>
      if f.rereads then h.putFlight { f with held := none, parked := none, acquire := (Ptr.ofBits p).cls == clSync, pend := .load p r d all all Writes.none }
      else h.putFlight { f with parked := none }
    | .zmov _ | .moved _ => h.putFlight { f with held := none }
    | .xsect j k d a _ kept => if kept then h else h.putFlight { f with held := none, acquire := g.syncRead f, pend := .xsect j k d a none false }
    | .gather .. => h.putFlight { f with parked := none }
    | _ => h) g

/-- R119: the dirty words of a context at some cores and their dies go to their homes; op is the save whose snoops they are. -/
def State.writeBackAll (s : State) (ctx : Nat) (cores : List Nat) (op : Nat) : State :=
  match s.ctx? ctx with
  | none => s
  | some c => (cores.foldl (fun s core => s.writeBack (s.whoOf c core) 3 (fun _ => true) (some op)) s).mergeSnoops s.run.nextId

/-- The grids that id is or that descend from it (R55, R60). -/
def State.family (s : State) (id : Nat) : List Nat :=
  (List.range 11).foldl (fun ids _ =>
    ids ++ (s.sys.grids.filterMap fun x =>
      match x.parent with
      | some (p, _, _) => if ids.contains p && !ids.contains x.id then some x.id else none
      | none => none)) [id]

/-- R386: the locks of holders that sel names are released, and the next waiter of each lock keeps its place. -/
def Ctx.releaseLocks (c : Ctx) (sel : Holder → Bool) : Ctx :=
  { c with locks := c.locks.map fun l =>
    { l with holder := l.holder.filter (fun h => !sel h), queue := l.queue.filter fun h => !sel h } }

def Holder.inGrid (h : Holder) (id : Nat) : Bool :=
  match h with
  | .group grid _ _ => grid == id
  | .host _ => false

def PfOwner.gid? (o : PfOwner) : Option Nat :=
  match o with
  | .slot g _ _ | .flight g _ | .engine g => some g
  | .part => none

/-- R411: the targets of a multicast that have retired, as bits of the mask. -/
def State.undelivered (s : State) (c : CopyOp) : Nat :=
  match c.body with
  | none => 0
  | some r =>
    match c.und with
    | some m => m
    | none => (List.range 32).foldl (fun m i =>
        if r.x38.testBit i ∧ (s.groups.any fun g => g.tid == c.tid && g.idx == r.base + i && g.retired) then m + 2 ^ i else m) 0

/-- R281: what stays of a group whose grid has ended: the matrix and transform operations that have started. -/
def Group.remains (g : Group) : Option Group :=
  match g.mq.filter fun o => o.started with
  | [] => none
  | ops => some { g with
      resident := false, live := 0#96, slot0 := Slot.empty, slot1 := Slot.empty, eddy := [], flight := [], mq := ops, retired := true }

/-- R61: the writes of groups that go are awaited in the name of their grid. -/
def State.snoopOwner (s : State) (gone : List Nat) (gid : Option Nat) : Option Nat :=
  match gid with
  | none => none
  | some n => if gone.contains n then (s.group? n).map (·.grid) else gid

/-- R60, R281: the grids stop at an instruction boundary. Started engine work goes on to its boundary; the first cause stays. (DEDUCED, unsafe: log entry 24.) -/
def State.stopGrids (s : State) (ids : List Nat) (cause : Nat) (pc : W64) : State :=
  let gone := (s.groups.filter fun g => ids.contains g.grid).map (·.gid)
  { s with
    groups := s.groups.filterMap fun (g : Group) => if ids.contains g.grid then g.remains else some g
    mem := { s.mem with
      faults := s.mem.faults.filter fun f => !(f.owner.gid?.any fun g => gone.contains g)
      snoops := s.mem.snoops.map fun n => { n with gid := s.snoopOwner gone n.gid }
      acquired := s.mem.acquired.filter fun x => !gone.contains x.1 }
    sys := { s.sys with
      teams := s.sys.teams.map fun (t : Team) =>
        if ids.contains t.grid then { t with done := true, resident := false, sluice := [], runs := [] } else t
      gangs := s.sys.gangs.filter fun x => !ids.contains x.grid
      saved := s.sys.saved.filter fun u => !ids.contains u.grid
      copies := s.sys.copies.map fun (c : CopyOp) => if gone.contains c.gid then { c with ending := true, und := some (s.undelivered c) } else c
      ctxs := s.sys.ctxs.map fun (c : Ctx) => { c.releaseLocks (fun h => ids.any h.inGrid) with
        stackUse := c.stackUse.filter fun u => !gone.contains u.1 }
      grids := s.sys.grids.map fun (x : Grid) =>
        if ids.contains x.id ∧ x.st ≠ .reported then
          { x with st := .ended, cause := x.cause.orElse fun _ => some (cause, pc)
                   teamsLeft := 0, seeds := [], arrivals := [], chunksLeft := 0 }
        else x } }

/-- R119: the cores that the resident teams of a grid which sel names occupy. -/
def State.teamCores (s : State) (id : Nat) (sel : Team → Bool) : List Nat :=
  distinct ((s.sys.teams.filter fun t => t.grid == id && sel t).flatMap (·.cores))

/-- R46: the teams of a grid as launched. -/
def LaunchRec.teamCount (l : LaunchRec) : Nat := l.x * l.y * l.z
/-- The unit that a team belongs to. -/
def Grid.unitOf (x : Grid) (t : Nat) : Nat := if t < x.launch.teamCount then t / x.launch.gangSize else t
/-- R117: pre-emption acts on whole teams, and for launch class 1 on the whole gang: the halting unit of a team, by its number. -/
def Grid.haltUnit (x : Grid) (t : Nat) : Nat := if x.launch.cls = 1 then x.unitOf t else t
def State.teamInUnit (x : Grid) (u : Nat) (t : Team) : Bool := t.grid == x.id && x.haltUnit t.t == u
/-- R119: whether a unit, which has perhaps been asked to halt, has not been saved: it is still resident. -/
def State.standing (s : State) (x : Grid) (t : Team) : Bool :=
  t.resident || s.sys.saved.any fun v => v.grid == x.id && !v.saved && State.teamInUnit x v.unit t && !t.done
/-- R119, R281: the save of every unit of a grid that is still resident. -/
def State.saveGrid (s : State) (id : Nat) : State :=
  match s.grid? id with
  | none => s
  | some x =>
    let here := (s.sys.teams.filter fun t => t.grid == id && s.standing x t).map (·.tid)
    let s := { s with groups := s.groups.map fun (g : Group) => if g.grid = id ∧ here.contains g.tid then g.halt else g }
    s.writeBackAll x.ctx (s.teamCores id fun t => here.contains t.tid) id

/-- R21, R25: what the caches hold of a context that ends is discarded; a dirty word of host memory, which no key guards, goes to the
host. -/
def State.discardCtx (s : State) (ctx : Nat) : State :=
  let s := (s.mem.l1.filter fun w => w.ctx == ctx && w.dirty && hostWa w.wa).foldl (fun s w => s.homePut none 0 w.wa w.val w.poison none) s
  { s with mem := { s.mem with l1 := s.mem.l1.filter fun w => w.ctx != ctx, basin := s.mem.basin.filter fun w => w.ctx != ctx } }
/-- The context ends: its grids end with a cause, its inlets stop, its keys are erased and its lines are discarded (R21, R142). No unit
is saved but those of the grid that trapped (R281), whose end is a context's. That a record which waits for its dependence is a live grid is
the model's choice. (DESIGN CHOICE, unsafe: log entry 95.) -/
def State.endBySeals (s : State) (ctx : Nat) : State :=
  let ids := (s.sys.grids.filter fun x => x.ctx == ctx && x.st != .reported).map (·.id)
  let s := s.stopGrids ids cSeal 0
  let s := { s with sys := { s.sys with inlets := s.sys.inlets.map fun (n : Inlet) => if n.ctx = ctx then { n with stopped := true } else n } }
  let s := s.discardCtx ctx
  s.updCtx ctx fun c => { c with sealKey := 0, aesPair := 0, keysErased := true, ended := true }

/-- R142: a seal failure counts. -/
def State.sealFailure (s : State) (ctx : Nat) : State :=
  let s := s.updCtx ctx fun c => { c with sealFails := c.sealFails + 1 }
  if (s.ctx? ctx).any fun c => c.sealFails == 16 then s.endBySeals ctx else s

/-- R281, R51: a team as its image keeps it, with the gang barrier at its place. -/
def State.keptTeam (s : State) (g : Group) : Option Team :=
  (s.team? g.tid).map fun t =>
    let n := ((s.grid? g.grid).map (·.launch.gangSize)).getD 1
    match s.sys.gangs.find? fun x => x.grid == g.grid && x.gang == t.t / n with
    | some b => { t with bars := setAt t.bars 15 b.bar }
    | none => t

/-- R279, R281: the record of a trap of a group, and the image that is kept with it. -/
def State.keepTrap (s : State) (ctx gid : Nat) (t : Trap) : State :=
  match s.group? gid with
  | none => s
  | some g =>
    let img := ((s.ctx? ctx).map (·.nextImage)).getD 0
    match s.logRecord ctx (s.recordOf g 0 img t) with
    | (s, some seq) =>
      s.updCtx ctx fun c => { c with images := c.images ++ [⟨img, seq, g, s.keptTeam g⟩], nextImage := c.nextImage + 1 }
    | (s, none) => s

/-- R60, R258: the other groups of a grid that detect the same time-out of a reduction before they are stopped, with their traps. -/
def State.alsoTimedOut (s : State) (gid : Nat) (t : Trap) : List (Nat × Trap) :=
  match s.group? gid, s.sys.reducts.find? fun r => r.timedOut && r.waiters.contains (gid, t.slot) with
  | some g, some r => if t.cause ≠ cReduce then [] else r.waiters.filterMap fun w =>
      (s.group? w.1).bind fun h =>
        if h.gid ≠ gid ∧ h.grid = g.grid ∧ h.resident ∧ (h.slot w.2).strand.isSome then
          some (h.gid, { t with slot := w.2, mask := h.active w.2, pc := h.pc w.2 }) else none
  | _, _ => []

/-- TAKING A TRAP (R60, R278 to R281): the units of the grid and of its descendants are saved, the image of the trapping group is kept,
the record is written, and they end. That the other groups stop in this very step, so that only a shared time-out is detected by
several, is the model's choice. (DESIGN CHOICE, unsafe: log entry 77.) A group that no longer exists takes none. -/
def State.takeTrap (s : State) (gid : Nat) (t : Trap) : State :=
  match s.group? gid with
  | none => s
  | some g =>
    match s.grid? g.grid with
    | none => s
    | some x =>
      let s := (s.family x.id).foldl State.saveGrid s
      let s := ((gid, t) :: s.alsoTimedOut gid t).foldl (fun s y => s.keepTrap x.ctx y.1 y.2) s
      let s := s.stopGrids (s.family x.id) t.cause t.pc
      if t.cause = cSeal then s.sealFailure x.ctx else s

/-- R191, R385: a record of kind 1 that stops nothing; the answer says whether it was written. -/
def State.logEvent (s : State) (g : Group) (t : Trap) : State × Bool :=
  match s.grid? g.grid with
  | none => (s, false)
  | some x => let r := s.logRecord x.ctx (s.recordOf g 1 0 t); (r.1, r.2.isSome)

/-! ## Page faults -/

/-- R155: a page fault is raised to the firmware. -/
def State.raisePage (s : State) (ctx va : Nat) (write : Bool) (dom : Nat) (o : PfOwner) : State × Nat :=
  let (k, s) := s.fresh
  ({ s with mem := { s.mem with faults := s.mem.faults ++ [⟨k, ctx, va, write, dom, o, false⟩] } }, k)

/-- The slot parks before its next instruction until the fault is resolved (R69, R89). -/
def State.parkSlot (s : State) (g : Group) (k va : Nat) (write : Bool) (owed : LaneMask) : State :=
  let c := (s.ctxOf g).getD emptyCtx
  let (s, f) := s.raisePage c.id va write (Config.memDomain s.boot.sku (s.dieNum g.core)) (.slot g.gid k owed)
  s.updGroup g.gid fun g => g.setSlot k { g.slot k with park := some f }

/-! ## The frame of an instruction of programs -/

/-- What an effect answers: complete and go on, complete and go to an address, complete with the strands already placed, not
ready, or a trap over the state that the completed lanes left. -/
inductive Res where
  | done (s : State)
  | jump (s : State) (pc : W64)
  | placed (s : State)
  | stall (s : State)
  | trap (s : State) (t : Trap)

/-- What the frame does with the answer of the effect; fin is what an issue does to the group besides (R84). -/
def Res.out (r : Res) (gid k : Nat) (next : W64) (fin : Group → Group) : Out :=
  match r with
  | .done s => .next (s.updGroup gid fun g => (fin g).advance k next)
  | .jump s pc => .next (s.updGroup gid fun g => (fin g).advance k pc)
  | .placed s => .next (s.updGroup gid fun g => (fin g).settle k)
  | .stall s => .next s
  | .trap s t => .next (s.takeTrap gid t)

/-- The frame of every instruction of programs: the strand that issues, its stalls, its guard, then its effect on the slot, the
group, the selected lanes and the state. -/
def issue (i : Instr) (s : State) (body : Nat → Group → LaneMask → State → Res) : Out :=
  match s.run.cur with
  | none => .fault .noIssuer
  | some (gid, k) =>
    match s.group? gid with
    | none => .fault .noIssuer
    | some g0 =>
      match (g0.slot k).strand with
      | none => .fault .noIssuer
      | some t =>
        let g := if waitsForPending i then g0.closeWindows k else g0
        if s.holds g k i then
          .next (match s.touchSpill g k i with
            | some va => (s.setGroup g).parkSlot g k va true (if laneWise i then g.select k (guardOf i) else g.active k)
            | none =>
              match s.carryScope g k i with
              | some n => (s.setGroup g).carryFor g n gid
              | none => s.setGroup g)
        else if g.acts k i then
          (body k g (g.select k (guardOf i)) (s.setGroup g)).out gid k (nextPc t.pc i)
            fun h => (h.noted i).claim k (regsOf g i).2 (g.flight.map (·.fid))
        else (Res.done (s.setGroup g)).out gid k (nextPc t.pc i) id

/-- An effect on the group alone. -/
def onGroup (f : Nat → LaneMask → Group → Group) (k : Nat) (g : Group) (sel : LaneMask) (s : State) : Res :=
  .done (s.setGroup (f k sel g))

/-- A long-latency effect that the core computes: its writes arrive later (R83, R92). With no destination nothing is owed. -/
def inCore (la : BitVec 4) (i : Instr) (f : Nat → LaneMask → Group → Writes) (k : Nat) (g : Group) (sel : LaneMask) (s : State) :
    Res :=
  let (fid, s) := s.fresh
  .done (s.setGroup (g.launchFlight fid k (g.pc k) la (regsOf g i).2 sel (.ready (f k sel g)) false))

end Sys2Proof.Machine
end

