-- ==== Sys2Proof/Machine/Lifecycle.lean ====
section
/-! DEFINITION. The life of strands, groups and teams: splits, the eddy stack, exits (R41 to R45), the start of a group (R58, R59,
R64, R288, R295), its retirement, the sluice (R63, R64), and what a team's end sets off (R55, R261). -/

namespace Sys2Proof.Machine

/-! ## Strands and the eddy stack -/

def isStrandEntry : Eddy → Bool
  | .strand .. => true
  | .join .. => false

/-- The lanes of a strand entry become a strand, every lane active. -/
def eddyStrand : Eddy → Option Strand
  | .strand pc j m _ => some ⟨pc, m, m, j⟩
  | .join .. => none

/-- Remove the last entry that satisfies p. -/
def takeLast {α : Type} (p : α → Bool) (xs : List α) : Option (α × List α) :=
  match xs.reverse.find? p with
  | none => none
  | some x =>
    let i := xs.length - 1 - (xs.reverse.takeWhile fun y => !p y).length
    some (x, xs.eraseIdx i)

/-- R44: an empty slot takes the most recently pushed strand entry. -/
def Group.takeWork (g : Group) (k : Nat) : Group :=
  if (g.slot k).strand.isSome then g
  else
    match takeLast isStrandEntry g.eddy with
    | none => g
    | some (e, rest) => ({ g with eddy := rest }).setSlot k { Slot.empty with strand := eddyStrand e }

/-- R42, R439: the depth of the eddy stack after a split that makes n strands beside the first. -/
def Group.splitDepth (g : Group) (k n : Nat) : Nat :=
  g.eddy.length + 1 + (if (g.slot (1 - k)).strand.isNone then n - 1 else n)

/-- R42: the issuing slot keeps the first strand, the second takes the other slot if it is empty, the rest are pushed so that the
lowest is the most recent. None when the depth limit does not allow it. -/
def Group.split (g : Group) (k : Nat) (j : W64) (fromJtab : Bool) (limit : Nat) (first : Strand) (others : List Strand) :
    Option Group :=
  let t := g.strand k
  let free := (g.slot (1 - k)).strand.isNone
  let pushed := if free then others.drop 1 else others
  if limit < g.splitDepth k others.length then none
  else
    let entries := (pushed.map fun (x : Strand) => Eddy.strand x.pc (some j) x.members fromJtab).reverse
    let g := { g with eddy := g.eddy ++ [Eddy.join j t.join t.members 0#96] ++ entries }
    let g := g.setStrand k (some { first with join := some j })
    match free, others with
    | true, x :: _ => some (g.setSlot (1 - k) { Slot.empty with strand := some { x with join := some j } })
    | _, _ => some g

/-- R43: JOIN parks the members of a strand in the most recent record of its address. -/
def Group.park (g : Group) (k : Nat) : Group :=
  let t := g.strand k
  let here (e : Eddy) : Bool :=
    match e with
    | .join a _ pending _ => a == t.pc && t.members &&& pending == t.members
    | .strand .. => false
  let g1 := g.setSlot k Slot.empty
  match takeLast here g.eddy with
  | some (Eddy.join a o pending parked, rest) =>
    let parked := parked ||| t.members
    if parked = pending then
      if pending = 0#96 then ({ g1 with eddy := rest }).takeWork k
      else ({ g1 with eddy := rest }).setSlot k { Slot.empty with strand := some ⟨a + 8, pending, pending, o⟩ }
    else
      let i := g.eddy.length - 1 - (g.eddy.reverse.takeWhile fun y => !here y).length
      ({ g1 with eddy := setAt g.eddy i (.join a o pending parked) }).takeWork k
  | _ => g1.takeWork k

/-- R45: place a strand that a completed record forms. That its entry has kind 0 where it is pushed is the model's choice: Table 2-2
has kinds for BRV and JTAB only. (DESIGN CHOICE, unsafe: log entry 65.) -/
def Group.placeFormed (g : Group) (x : Strand) : Group :=
  if g.slot0.strand.isNone then g.setSlot 0 { Slot.empty with strand := some x }
  else if g.slot1.strand.isNone then g.setSlot 1 { Slot.empty with strand := some x }
  else { g with eddy := g.eddy ++ [.strand x.pc x.join x.members false] }

def dropPending (xs : LaneMask) : Eddy → Eddy
  | .join a o pending parked => .join a o (pending &&& ~~~xs) (parked &&& ~~~xs)
  | e => e
def complete? : Eddy → Bool
  | .join _ _ pending parked => pending == parked
  | .strand .. => false

/-- R45: the lanes of xs, members of the strand of slot k, leave it and every join record. -/
def Group.leave (g : Group) (k : Nat) (xs : LaneMask) : Group :=
  let t := g.strand k
  let rest := t.members &&& ~~~xs
  let g := g.setStrand k (if rest = 0#96 then none else some { t with members := rest, active := t.active &&& ~~~xs })
  let es := g.eddy.map (dropPending xs)
  let g := { g with eddy := es.filter fun e => !complete? e }
  let formed := (es.filter complete?).reverse.filterMap fun e =>
    match e with
    | .join a o pending _ => if pending = 0#96 then none else some (⟨a + 8, pending, pending, o⟩ : Strand)
    | .strand .. => none
  let g := formed.foldl Group.placeFormed g
  (g.takeWork k).takeWork (1 - k)

/-! ## Start of a group -/

/-- R46: lanes of a team. -/
def LaunchRec.teamLanes (l : LaunchRec) : Nat := (l.groups - 1) * 96 + l.lastLanes
/-- R288. -/
def LaunchRec.popZero (l : LaunchRec) : Nat := l.teamCount * l.teamLanes
/-- R53, R295. -/
def LaunchRec.coords (l : LaunchRec) (t : Nat) : Nat × Nat × Nat := (t % l.x, t / l.x % l.y, t / (l.x * l.y))

/-- R96: the lowest STACK region that no group holds. -/
def Ctx.freeStack (c : Ctx) : Nat :=
  ((List.range c.stackGroups).find? fun i => !c.stackUse.any fun u => u.2 == i).getD c.stackGroups

/-- Table 2-8: the scalars of a new group. -/
def startScalars (x : Grid) (t idx lanes core : Nat) (live : LaneMask) : SMap 32 :=
  let l := x.launch
  let (cx, cy, cz) := l.coords t
  let base : List (Nat × Nat) :=
    [(4, cx), (5, cy), (6, cz), (7, idx), (8, lanes), (10, core), (11, x.depth)]
  let args := (List.range 16).map fun i => (16 + i, l.sargs.getD i 0#32)
  SMap.setAll [] ((List.range 3).map (fun i => (i, maskWord live i)) ++ base.map (fun p => (p.1, BitVec.ofNat 32 p.2)) ++ args)

/-- Table 2-8, R58: the pointers of a new group. -/
def startPointers (x : Grid) (core teamIdx : Nat) (key : W64) : SMap 128 :=
  SMap.ofFn 32 fun i => mintArg (if i < 16 then x.launch.args.getD i 0#128 else 0#128) core teamIdx key

/-- GROUP_START (R59): a group with one strand at an address. -/
def freshGroup (x : Grid) (key : W64) (gid tid t idx core lanes : Nat) (live : LaneMask) (entry : W64) : Group where
  gid := gid
  grid := x.id
  tid := tid
  idx := idx
  core := core
  resident := true
  launched := live
  live := live
  v := []
  s := startScalars x t idx lanes core live
  p := []
  a := startPointers x core (t % x.launch.gangSize) key
  wbase := 0
  depth := 0
  slot0 := { Slot.empty with strand := some ⟨entry, live, live, none⟩ }
  slot1 := Slot.empty
  eddy := []
  lineage := []
  parent := []
  pslot := []
  tlane := SMap.ofFn 96 fun l => BitVec.ofNat 32 (96 * idx + l)
  flight := []
  cntCopy := 0
  cntMx := 0
  cntStream := 0
  cntColl := 0
  seen := [0, 0, 0, 0]
  latch := none
  tiles := List.replicate x.launch.tiles Tile.fresh
  mq := []
  streams := [Stream.fresh, Stream.fresh, Stream.fresh, Stream.fresh]
  interval := 0
  retired := false

/-- R288: the specials of a launched lane. -/
def Group.launchSpecials (g : Group) (x : Grid) (t : Nat) : Group :=
  let q (l : Nat) : Nat := t * x.launch.teamLanes + 96 * g.idx + l
  let ls := lanesOf g.launched
  { g with
    lineage := SMap.setAll [] (ls.map fun l => (l, BitVec.ofNat 64 ((x.serial + q l) % 2 ^ 48)))
    pslot := SMap.setAll [] (ls.map fun l => (l, BitVec.ofNat 32 (q l))) }

/-- R184, R286: the group becomes resident: it takes a STACK region and its start is an acquire. -/
def State.addGroup (s : State) (x : Grid) (g : Group) : State :=
  let s := s.updCtx x.ctx fun c => { c with stackUse := c.stackUse ++ [(g.gid, c.freeStack)] }
  let s := { s with groups := s.groups ++ [g] }
  s.acquire g 7

/-! ## Retirement -/

/-- R310, R51: a phase completes when the arrivals reach the count. -/
def Barrier.settle (b : Barrier) : Barrier :=
  if b.init ∧ 0 < b.expect ∧ b.expect ≤ b.count then { b with phase := b.phase + 1, count := 0, arrivals := [], dones := b.dones + 1 } else b
/-- R51: a group that retires leaves the count of the gang barrier, with the arrivals that it made in the current phase. -/
def Barrier.leave (b : Barrier) (gid : Nat) : Barrier :=
  { b with expect := b.expect - 1, count := b.count - b.arrivals.count gid, arrivals := b.arrivals.filter (· != gid) }.settle

/-- R261: the chunk value of team t. -/
def LaunchRec.chunkOf (l : LaunchRec) (t : Nat) : Nat :=
  let (x, y, z) := l.coords t
  match l.chunk % 16 with
  | 0 => t
  | 1 => x
  | 2 => y
  | _ => z
/-- R260. -/
def LaunchRec.chunkCount (l : LaunchRec) : Nat :=
  match l.chunk % 16 with
  | 0 => l.teamCount
  | 1 => l.x
  | 2 => l.y
  | _ => l.z
def LaunchRec.collBound (l : LaunchRec) : Bool := l.flags.testBit 0
def LaunchRec.popn (l : LaunchRec) : Bool := l.flags.testBit 1
def LaunchRec.redtrap (l : LaunchRec) : Bool := l.flags.testBit 2
def State.ranks (s : State) (x : Grid) : Nat :=
  ((s.sys.comms.find? fun c => c.ctx == x.ctx && c.index == x.launch.coll / 2 ^ 16).map (·.ranks)).getD 1

/-- R260: the result pointer of a bound grid. -/
def Grid.resPtr (x : Grid) : Ptr := Ptr.ofBits (x.launch.args.getD x.launch.resTile 0#128)
/-- R261: the elements of a chunk, and the byte address of chunk c. -/
def Grid.chunkLen (x : Grid) : Nat := x.resPtr.count / x.launch.chunkCount
def Grid.chunkAddr (x : Grid) (c : Nat) : Nat := x.resPtr.base + c * x.chunkLen * sizeOf x.resPtr.fmt

/-- R261: the dirty words of a context in a range go to their homes, from every core and die; op is the grid whose snoops they are. -/
def State.flushVa (s : State) (c : Ctx) (va len op : Nat) : State :=
  let k0 := s.run.nextId
  let cores := distinct ((s.mem.l1.filter fun w => w.ctx == c.id && w.dirty).map (·.own))
  let s := cores.foldl (fun s core => s.writeBack (s.whoOf c core) 3 (c.covers va len) (some op)) s
  (s.sys.dies.foldl (fun s d => s.writeBack ⟨128 * d.block, d.num, c.id, c.aesKey⟩ 3 (c.covers va len) (some op)) s).mergeSnoops k0

def State.chunk? (s : State) (grid c : Nat) : Option Chunk := s.sys.chunks.find? fun x => x.grid == grid && x.chunk == c
def State.updChunk (s : State) (grid c : Nat) (f : Chunk → Chunk) : State :=
  { s with sys := { s.sys with chunks := s.sys.chunks.map fun x => if x.grid = grid ∧ x.chunk = c then f x else x } }

/-- R262, R265: the collective of a chunk has ended. -/
def State.endChunk (s : State) (x : Grid) (c : Nat) (good : Bool) : State :=
  if x.st ≠ .admitted then
    { s with sys := { s.sys with chunks := s.sys.chunks.filter fun k => !(k.grid == x.id && k.chunk == c) } }
  else
    (s.updChunk x.id c fun k => { k with st := if good then .doneOk else .failed }).updGrid x.id fun x => { x with
      chunksLeft := x.chunksLeft - 1
      collBad := if good then x.collBad else some (match x.collBad with | some n => min n c | none => c) }

/-- R261: whether an ST, ATOM or ZMOV of a group of the teams of a chunk has not been performed. -/
def State.chunkOwed (s : State) (x : Grid) (chunk : Nat) : Bool :=
  s.groups.any fun g => g.grid == x.id && (s.team? g.tid).any (fun t => x.launch.chunkOf t.t == chunk) &&
    (g.flight.any Flight.owesWrite || g.mq.any fun o => o.move.isSome)

/-- R261, R263: with one rank a chunk that has fired completes, its result equal to its input, once every write of its teams has been
performed; what the part reads then stands at the home. -/
def State.soleChunk (s : State) (x : Grid) (c : Nat) : State :=
  if s.chunkOwed x c then s
  else
    let s := match s.ctx? x.ctx with
      | some k => s.flushVa k (x.chunkAddr c) (x.chunkLen * sizeOf x.resPtr.fmt) x.id
      | none => s
    s.endChunk x c true

/-- CHUNK_FIRE (R261, R263). -/
def State.fireChunk (s : State) (x : Grid) (c : Nat) : State :=
  let s := { s with sys := { s.sys with chunks := s.sys.chunks ++ [⟨x.id, c, .fired, [], [], [], []⟩] } }
  if s.ranks x = 1 then s.soleChunk x c else s

/-- A team ends (R55): its grid counts it, and the chunk whose last team it is fires. -/
def State.teamDone (s : State) (tid : Nat) : State :=
  match s.team? tid with
  | none => s
  | some t =>
    let s := s.updTeam tid fun t => { t with done := true, resident := false }
    let s := s.updGrid t.grid fun x => { x with teamsLeft := x.teamsLeft - 1 }
    match s.grid? t.grid with
    | none => s
    | some x =>
      if x.launch.collBound ∧ t.t < x.launch.teamCount then
        let c := x.launch.chunkOf t.t
        let mine := s.sys.teams.filter fun u => u.grid == x.id && u.done && decide (u.t < x.launch.teamCount) &&
          x.launch.chunkOf u.t == c
        if mine.length * x.launch.chunkCount = x.launch.teamCount then s.fireChunk x c else s
      else s

/-- R63: the deposits in the order of release, cut into runs of 96. -/
def sluiceRuns (ds : List Deposit) : List (List Deposit) :=
  let sorted := sortBy (fun d => d.key.toNat * 2 ^ 20 + d.lane) ds
  let keys := distinct (sorted.map (·.key))
  keys.flatMap fun k => chunksOf 96 (ds.length + 1) (sorted.filter fun d => d.key == k)

/-- SLUICE_RELEASE (R63, R64): a team none of whose lanes is live releases its deposits, or ends. -/
def State.teamCheck (s : State) (tid : Nat) : State :=
  match s.team? tid with
  | none => s
  | some t =>
    if t.done || (s.groups.any fun g => g.tid == tid && !g.retired) || !t.runs.isEmpty then s
    else if t.sluice.isEmpty then s.teamDone tid
    else s.updTeam tid fun t => { t with runs := sluiceRuns t.sluice, sluice := [] }

/-- R45, R51, R55, R386: every launched lane of the group has exited. The arrivals of a group that the sluice relaunched stay counted.
(DESIGN CHOICE, unsafe: log entry 79.) -/
def State.retireGroup (s : State) (gid : Nat) : State :=
  match s.group? gid with
  | none => s
  | some g =>
    let s := s.setGroup { g with retired := true, live := 0#96, slot0 := Slot.empty, slot1 := Slot.empty, eddy := [] }
    let t := ((s.team? g.tid).map (·.t)).getD 0
    match s.grid? g.grid with
    | none => s
    | some x =>
      let s := { s with sys := { s.sys with gangs := s.sys.gangs.map fun (b : GangBar) =>
        if b.grid = x.id ∧ b.gang = t / x.launch.gangSize ∧ x.launch.cls = 1 ∧ g.idx < x.launch.groups then
          { b with bar := b.bar.leave gid } else b } }
      let s := s.updCtx x.ctx fun c => { c.releaseLocks (fun h => h == .group x.id t g.idx) with
        stackUse := c.stackUse.filter fun u => u.1 != gid }
      s.teamCheck g.tid

/-- The lanes of xs exit from slot k (R39, R45); the group retires when none is left. -/
def State.exitLanes (s : State) (g : Group) (k : Nat) (xs : LaneMask) : State :=
  let g := { g.leave k xs with live := g.live &&& ~~~xs }
  let s := s.setGroup g
  if g.live = 0#96 then s.retireGroup g.gid else s

end Sys2Proof.Machine
end

