-- ==== Sys2Proof/Machine/Access.lean ====
section
/-! DEFINITION. Element accesses through pointers: formats and conversions (R129, R130, R203, R204, Table 7-6), element
addresses and their checks (R132, R134, R150, R151), streams (R378, R379), the race detector (R189 to R191), and the performing
of loads, stores and atomics lane by lane (R304, R337, R383, R89, R90). -/

namespace Sys2Proof.Machine

/-! ## Formats -/

/-- The number format of a memory format. -/
def memTy (f : Nat) : NumTy :=
  match f with
  | 0x00 => .int false 8
  | 0x01 => .int true 8
  | 0x02 => .int false 16
  | 0x03 => .int true 16
  | 0x04 => .int false 32
  | 0x05 => .int true 32
  | 0x06 => .int false 64
  | 0x07 => .int true 64
  | 0x08 => .flt fp16
  | 0x09 => .flt bf16
  | 0x0A => .flt fp32
  | 0x0B => .flt fp64
  | 0x0C => .flt fp8e4m3
  | 0x0D => .flt fp8e5m2
  | _ => .int false 32

/-- The number format of a register-side format. -/
def rsfTy (r : Rsf) : NumTy :=
  match r with
  | .i32 => .int true 32
  | .u32 => .int false 32
  | .i64 => .int true 64
  | .u64 => .int false 64
  | .fp32 => .flt fp32
  | .fp64 => .flt fp64
  | .fp16 => .flt fp16
  | .bf16 => .flt bf16
  | _ => .int false 32

/-- Table 7-6. -/
def pairOk (f : Nat) (r : Rsf) : Bool :=
  if f = fmtBytes then true
  else if f = fmtPtr then r == .ptr
  else if f = fmtLns6 ∨ f = fmtI4 then r == .native
  else if f = fmtCbf16 ∨ f = fmtCfp32 then r == .native || r == .fp32
  else if f ≤ 0x07 then r != .ptr && r != .fp16 && r != .bf16
  else if f ≤ 0x0D then r == .native || r == .fp16 || r == .bf16 || r == .fp32 || r == .fp64
  else false

/-- Elements that an access moves (R150). -/
def elemsOf (f : Nat) (r : Rsf) : Nat := if f = fmtBytes then widthOf f r else 1
def accessAlign (f : Nat) (r : Rsf) : Nat := if f = fmtBytes then widthOf f r else alignOf f

def NumTy.satMem (t : NumTy) : Bool :=
  match t with
  | .flt f => f == fp8e4m3 || f == fp8e5m2
  | _ => true

/-- Convert one value between formats as an LD or ST does (R203). -/
def memConvert (src dst : NumTy) (x : Nat) : Val := convert (src.decode x) dst .rne dst.satMem

/-- Whether an access moves bits raw. -/
def rawMove (f : Nat) (r : Rsf) : Bool := f == fmtBytes || f == fmtPtr || r == .native

/-- R203, R204: the register value of memory bytes, as a number over one register or a pair. -/
def loadVal (f : Nat) (r : Rsf) (bs : List W8) : Val :=
  let x := leNat bs
  if rawMove f r then (x, 0#8)
  else if f = fmtCbf16 ∨ f = fmtCfp32 then
    let w := if f = fmtCbf16 then 16 else 32
    let t : NumTy := if f = fmtCbf16 then .flt bf16 else .flt fp32
    let re := memConvert t (.flt fp32) (x % 2 ^ w)
    let im := memConvert t (.flt fp32) (x / 2 ^ w)
    (re.1 + 2 ^ 32 * im.1, re.2 ||| im.2)
  else memConvert (memTy f) (rsfTy r) x

/-- R203, R204: the memory value of a register value. -/
def storeVal (f : Nat) (r : Rsf) (x : Nat) : Val :=
  if rawMove f r then (x, 0#8)
  else if f = fmtCbf16 ∨ f = fmtCfp32 then
    let w := if f = fmtCbf16 then 16 else 32
    let t : NumTy := if f = fmtCbf16 then .flt bf16 else .flt fp32
    let re := memConvert (.flt fp32) t (x % 2 ^ 32)
    let im := memConvert (.flt fp32) t (x / 2 ^ 32 % 2 ^ 32)
    (re.1 + 2 ^ w * im.1, re.2 ||| im.2)
  else
    let x := match r with
      | .fp16 | .bf16 => x % 2 ^ 16
      | _ => x
    memConvert (rsfTy r) (memTy f) x

/-- The writes of a loaded value. -/
def dstWrites (d : Dst) (wide : Bool) (l : Nat) (x : Nat) : Writes :=
  match d with
  | .v n => ⟨vwords n wide l x, [], [], 0#8⟩
  | .s i => ⟨[], swords i wide x, [], 0#8⟩
  | .a i => ⟨[], [], [(i, BitVec.ofNat 128 x)], 0#8⟩
def Writes.join (a b : Writes) : Writes := ⟨a.vw ++ b.vw, a.sw ++ b.sw, a.aw ++ b.aw, a.flags ||| b.flags⟩

/-! ## Element addresses -/

/-- A lane with its byte address. -/
abbrev LaneAddr := Nat × Nat

/-- The lanes of an access sorted by the checks of R150: those that pass, those out of bounds, those misaligned; and by the reads of
an indirect stream (R379): those that met ACCESS, as lane, address and reason, and those whose entry lies on a missing page, as lane,
entry and address. -/
structure Sorted where
  ok : List LaneAddr
  out : List LaneAddr
  mis : List LaneAddr
  bad : List (Nat × Nat × Nat)
  late : List (Nat × Nat × Nat)

/-- R132: bytes of the TARN space that a pointer reaches. -/
def State.tarnBytes (s : State) (g : Group) (p : Ptr) : Nat :=
  match s.team? (s.tarnTeam g p), s.grid? g.grid with
  | some t, some x => t.cores.length * x.launch.tarn
  | _, _ => 0

/-- R132, R134: whether n bytes at an address lie outside the space. -/
def State.outside (s : State) (g : Group) (p : Ptr) (addr n : Nat) : Bool :=
  if p.space = spTarn then decide (s.tarnBytes g p < addr + n)
  else if p.space = spStack then decide (addr < 0x1000000) || decide (0x2000000 < addr + n)
  else false

/-- The byte address of element e (R150), as the record shows it. -/
def Ptr.elemAddr (p : Ptr) (e : Int) : Nat := modPow (Int.ofNat p.base + e * Int.ofNat (sizeOf p.fmt)) 64

/-- R161, R306: an atomic through a HOST pointer goes to the host's home agent, whatever its class. -/
def Ptr.atomTy (p : Ptr) : ReqTy := if p.space = spHost then .through p.scope else p.reqTy

/-- R150, R151: sort lanes with their element indices; none is an exhausted stream (R379). -/
def State.sortLanes (s : State) (g : Group) (p : Ptr) (w n align : Nat) (xs : List (Nat × Option Int)) : Sorted :=
  xs.foldr (fun x acc =>
    match x.2 with
    | none => { acc with out := (x.1, 0) :: acc.out }
    | some e =>
      let a := p.elemAddr e
      if e < 0 ∨ Int.ofNat p.count ≤ e + Int.ofNat w - 1 then { acc with out := (x.1, a) :: acc.out }
      else if s.outside g p a n then { acc with out := (x.1, a) :: acc.out }
      else if a % align ≠ 0 then { acc with mis := (x.1, a) :: acc.mis }
      else { acc with ok := (x.1, a) :: acc.ok }) ⟨[], [], [], [], []⟩

/-! ## Streams -/

/-- R378: the length of a stream; without a record it is 0 (R377). -/
def StreamRec.len (r : StreamRec) : Nat := r.counts.foldl (· * ·) 1
def Stream.len (t : Stream) : Nat := (t.body.map StreamRec.len).getD 0
/-- R378: the direct index j of entry q. -/
def StreamRec.direct (r : StreamRec) (q : Nat) : Int :=
  let c (i : Nat) : Nat := r.counts.getD i 1
  let d (i : Nat) : Int := r.strides.getD i 0
  r.e0 + Int.ofNat (q % c 0) * d 0 + Int.ofNat (q / c 0 % c 1) * d 1 + Int.ofNat (q / (c 0 * c 1) % c 2) * d 2 +
    Int.ofNat (q / (c 0 * c 1 * c 2)) * d 3

/-- R378: whether a stream is indirect. -/
def Stream.ind (t : Stream) : Bool := t.body.any fun r => r.ind
/-- R378, R379: the address of the element of Q that entry q reads, if there is one. -/
def Stream.entryAddr (t : Stream) (q : Nat) : Option Nat :=
  t.body.bind fun r =>
    let p := Ptr.ofBits r.q
    if r.ind ∧ q < r.len ∧ 0 ≤ r.direct q ∧ r.direct q < Int.ofNat p.count then some (p.elemAddr (r.direct q)) else none

/-- Entry q of a stream: an index, the end, an index outside Q or misaligned with its address, or what the read of Q met. -/
inductive Entry where
  | idx (e : Int)
  | exhausted
  | out (addr : Nat)
  | mis (addr : Nat)
  | miss (va : Nat)
  | bad (va reason : Nat)
  deriving DecidableEq, Repr

/-- R378, R379: read entry q for a group, through Q if the stream is indirect. -/
def State.streamEntry (s : State) (g : Group) (t : Stream) (q : Nat) : State × Entry :=
  match t.body with
  | none => (s, .exhausted)
  | some r =>
    if r.len ≤ q then (s, .exhausted)
    else
      let j := r.direct q
      if !r.ind then (s, .idx j)
      else
        let p := Ptr.ofBits r.q
        let a := p.elemAddr j
        if j < 0 ∨ Int.ofNat p.count ≤ j ∨ s.outside g p a 4 = true then (s, .out a)
        else if a % 4 ≠ 0 then (s, .mis a)
        else
          match (s.port g p).read s a 4 with
          | (s, .ok bs) => (s, .idx (toInt (p.fmt == fmtI32) 32 (leNat bs) * r.scale))
          | (s, .miss va _) => (s, .miss va)
          | (s, .bad va reason) => (s, .bad va reason)

/-- Whether a consumer of stream k may take entries: its record has been read, and no MMAB or XSECT that reads it is unfinished
(R377, R379, R408, R420). -/
def Group.streamReady (g : Group) (k : Nat) : Bool :=
  ((g.streams.getD k Stream.fresh).req).isNone &&
  !(g.mq.any fun o => match o.op with | .mmab _ x => x.stream.toNat == k | _ => false) &&
  !(g.flight.any fun f => match f.pend with | .xsect a b _ _ e _ => (a == k || b == k) && e.isNone | _ => false)

/-- R376: whether no issued MMAB or XSECT that reads stream k is unfinished; an XSECT is finished when its results are written. -/
def Group.streamFree (g : Group) (k : Nat) : Bool :=
  g.streamReady k && !(g.flight.any fun f => match f.pend with | .xsect a b .. => a == k || b == k | _ => false)
/-- R408, R420: whether no issued consumer of stream k is unfinished either, an LD, ST or ATOM through it among them. -/
def Group.streamIdle (g : Group) (k : Nat) : Bool := g.streamFree k && !(g.flight.any fun f => f.stream == some k)
/-- R233, R379: the entry that the next consumer of stream k takes: behind those of an XSECT whose results wait for its window. (DEDUCED,
safe: log entry 39.) -/
def Group.streamPos (g : Group) (k : Nat) : Nat :=
  g.flight.foldl (fun q f => match f.pend with
    | .xsect a b _ _ (some e) _ => if a = k then max q e.1 else if b = k then max q e.2 else q
    | _ => q) (g.streams.getD k Stream.fresh).pos

/-- What taking entries for lanes gives: indices, none for an exhausted stream, and lanes as Sorted has them. -/
structure Taken where
  idx : List (Nat × Option Int)
  out : List LaneAddr
  mis : List LaneAddr
  bad : List (Nat × Nat × Nat)
  late : List (Nat × Nat × Nat)
  deriving DecidableEq, Repr

/-- R379: one entry for each lane, given with its entry number. -/
def State.takeEntries (s : State) (g : Group) (t : Stream) : List (Nat × Nat) → State × Taken
  | [] => (s, ⟨[], [], [], [], []⟩)
  | (l, q) :: rest =>
    let (s, e) := s.streamEntry g t q
    let (s, x) := s.takeEntries g t rest
    (s, match e with
      | .idx i => { x with idx := (l, some i) :: x.idx }
      | .exhausted => { x with idx := (l, none) :: x.idx }
      | .out a => { x with out := (l, a) :: x.out }
      | .mis a => { x with mis := (l, a) :: x.mis }
      | .bad va r => { x with bad := (l, va, r) :: x.bad }
      | .miss va => { x with late := (l, q, va) :: x.late })

/-- R150, R151: the lanes of an access with the entries that they took. -/
def State.sortTaken (s : State) (g : Group) (p : Ptr) (w n align : Nat) (add : Int) (y : Taken) : Sorted :=
  let x := s.sortLanes g p w n align (y.idx.map fun z => (z.1, z.2.map fun e => e + add))
  { x with out := sortBy (·.1) (x.out ++ y.out), mis := sortBy (·.1) (x.mis ++ y.mis), bad := y.bad, late := y.late }

/-! ## The race detector -/

/-- R165: whether two cores share an instance of a scope. -/
def sameInst (scope c1 c2 : Nat) : Bool :=
  if scope = 0 then c1 == c2 else if scope = 1 then c1 / 8 == c2 / 8 else if scope = 2 then c1 / 128 == c2 / 128 else true

def State.raceMode (s : State) (g : Group) : Nat := ((s.grid? g.grid).map (·.launch.race)).getD 0
/-- The tarn that a TARN sector lies in. -/
def State.tarnOf (s : State) (g : Group) (p : Ptr) : Option Nat := if p.space = spTarn then some (s.tarnTeam g p) else none
/-- Whether a shadow stands for a sector of group g's context. -/
def State.shadowAt (s : State) (g : Group) (tarn : Option Nat) (sector : Nat) (x : Shadow) : Bool :=
  x.sector == sector && x.tarn == tarn && s.ctxOfGrid x.grid == s.ctxOfGrid g.grid

/-- R190: whether an access conflicts with a shadow; the answer names the writer. -/
def State.conflicts (s : State) (g : Group) (p : Ptr) (addr n : Nat) : Option Shadow :=
  let tarn := s.tarnOf g p
  let me := ((s.team? g.tid).map (·.t)).getD 0
  (s.mem.shadows.filter fun x =>
    decide (addr / 32 ≤ x.sector) && decide (x.sector ≤ (addr + n - 1) / 32) && s.shadowAt g tarn x.sector x &&
    x.grid == g.grid && !(x.team == me && x.group == g.idx)).find? fun x =>
      let w := s.groups.find? fun h => h.grid == x.grid && h.idx == x.group &&
        (((s.team? h.tid).map (·.t)).getD 0) == x.team
      let core := (w.map (·.core)).getD g.core
      match x.pub with
      | none => true
      | some sc =>
        let free := p.cls == clSync && sameInst sc core g.core && sameInst p.scope core g.core
        !free && ((w.any fun h => h.interval == x.interval) || !sameInst sc core g.core)

/-- R189: which accesses the detector watches. -/
def Ptr.watched (p : Ptr) : Bool := p.space == spGlobal || p.space == spTarn

/-- R190, R191: the trap that the detector raises for an access of lanes, by an instruction of slot k at pc with active mask act. -/
def State.raceTrap (s : State) (g : Group) (k : Nat) (pc : W64) (act : LaneMask) (p : Ptr) (n : Nat) (lanes : List LaneAddr)
    (uniform : Bool) : Option Trap :=
  if s.raceMode g = 0 || !p.watched then none
  else
    match lanes.filter fun x => (s.conflicts g p x.2 n).isSome with
    | [] => none
    | x :: rest =>
      let w := s.conflicts g p x.2 n
      let aux := ((w.map (·.group)).getD 0) % 2 ^ 16 + ((w.map (·.team)).getD 0) % 2 ^ 16 * 2 ^ 16
      some ⟨cRace, aux, if uniform then act else maskOf ((x :: rest).map (·.1)), x.2, 0, k, pc⟩

/-- R190, R191: the record of a race in mode 1, and the trap of one in mode 2. -/
def State.detect (s : State) (g : Group) (k : Nat) (pc : W64) (act : LaneMask) (p : Ptr) (n : Nat) (lanes : List LaneAddr)
    (uniform : Bool) : State × Option Trap :=
  match s.raceTrap g k pc act p n lanes uniform with
  | none => (s, none)
  | some t => if s.raceMode g = 1 then ((s.logEvent g t).1, none) else (s, some t)

/-- R189: the writes of a group update the shadows; another grid's writes clear them. -/
def State.noteWrites (s : State) (g : Group) (p : Ptr) (n : Nat) (addrs : List Nat) : State :=
  let s := s.taintMeres (s.ctxOfGrid g.grid) n (if p.space = spTarn then [] else addrs.map (s.port g p).va)
  if !p.watched || s.mem.shadows.isEmpty && s.raceMode g == 0 then s
  else
    let tarn := s.tarnOf g p
    addrs.foldl (fun s a =>
      let s := s.clearShadows (s.ctxOfGrid g.grid) tarn a n
      if s.raceMode g = 0 then s
      else
        let pub := if p.cls = clSync then some p.scope else none
        let me := ((s.team? g.tid).map (·.t)).getD 0
        let new := (List.range ((a + n - 1) / 32 + 1 - a / 32)).map fun i =>
          (⟨g.grid, tarn, a / 32 + i, me, g.idx, g.interval, pub⟩ : Shadow)
        { s with mem := { s.mem with shadows := s.mem.shadows ++ new } }) s

/-- R189: WIDEN publishes the sectors of its range that the group wrote last. -/
def State.publish (s : State) (g : Group) (p : Ptr) (ns : Nat) : State :=
  let tarn := s.tarnOf g p
  let me := ((s.team? g.tid).map (·.t)).getD 0
  let stop := p.base + p.count * sizeOf p.fmt
  { s with mem := { s.mem with shadows := s.mem.shadows.map fun x =>
    if x.grid = g.grid ∧ x.tarn = tarn ∧ x.team = me ∧ x.group = g.idx ∧ p.base < 32 * x.sector + 32 ∧ 32 * x.sector < stop
    then { x with pub := some ns } else x } }

/-! ## Performing accesses -/

/-- Read n bytes for each lane; what met ACCESS comes with the lane, its virtual address and the reason (Table 10-5). -/
def loadLanes (p : Port) (n : Nat) : List LaneAddr → State → State × List (Nat × List W8) × List (Nat × Nat × Nat) × List (Nat × Nat × Nat)
  | [], s => (s, [], [], [])
  | (l, a) :: rest, s =>
    match p.read s a n with
    | (s, .ok bs) => let (s, g, m, b) := loadLanes p n rest s; (s, (l, bs) :: g, m, b)
    | (s, .miss va _) => let (s, g, m, b) := loadLanes p n rest s; (s, g, (l, a, va) :: m, b)
    | (s, .bad _ r) => let (s, g, m, b) := loadLanes p n rest s; (s, g, m, (l, p.va a, r) :: b)

/-- Write the bytes of each lane, in ascending lane order (R383), all in one step (R176; DESIGN CHOICE, unsafe: log entry 64). -/
def storeLanes (p : Port) (gid : Nat) :
    List (Nat × Nat × List W8) → State → State × List ((Nat × Nat × List W8) × Nat) × List (Nat × Nat × Nat)
  | [], s => (s, [], [])
  | (l, a, bs) :: rest, s =>
    match p.write s a bs (some gid) with
    | (s, .ok _) => storeLanes p gid rest s
    | (s, .miss va _) => let (s, m, b) := storeLanes p gid rest s; (s, ((l, a, bs), va) :: m, b)
    | (s, .bad _ r) => let (s, m, b) := storeLanes p gid rest s; (s, m, (l, p.va a, r) :: b)

/-- R304: the new value of an ATOM; the flags of its floating operations. -/
def atomNew (op : AtomK) (f n : Nat) (old x v : Nat) : Val :=
  let fl := f == 0x0A || f == 0x0B
  let t : FTy := if f = 0x0B then .fp64 else .fp32
  let sgn := f == 0x05 || f == 0x07
  let lt := decide (toInt sgn (8 * n) x < toInt sgn (8 * n) old)
  match op with
  | .add => if fl then fltAdd t .rne false old x else ((old + x) % 2 ^ (8 * n), 0#8)
  | .min => if fl then fltMax t false old x else (if lt then x else old, 0#8)
  | .max => if fl then fltMax t true old x else (if lt then old else x, 0#8)
  | .and => (old &&& x, 0#8)
  | .or => (old ||| x, 0#8)
  | .xor => (old ^^^ x, 0#8)
  | .xchg => (x, 0#8)
  | .cas => (if old = x then v else old, 0#8)

/-- The registers of a returned ATOM operand. -/
def atomWrites (dst n l x : Nat) : List (Nat × Nat × W32) :=
  (List.range (n / 4)).map fun i => (dst + i, l, BitVec.ofNat 32 (x / 2 ^ (32 * i)))

/-- R162: whether the next completion of a HOSTNC atomic is an Unsupported Request. (DESIGN CHOICE, safe: log entry 1.) -/
def State.denied (s : State) : State × Bool :=
  match s.run.denies with
  | [] => (s, false)
  | b :: rest => ({ s with run := { s.run with denies := rest } }, b)

/-- R203: a value of an ATOM on its way between the register-side and the memory format. -/
def atomConvert (src dst : NumTy) (r : Rsf) (x : Nat) : Val := if r == .fp32 || r == .fp64 then memConvert src dst x else (x, 0#8)

/-- R304, R305: the lanes of an ATOM one after another: the returned values, and what the others met; reason 0 stands
for an Unsupported Request (R162). A lane converts its operands, and raises the flags of that, as it is performed (R206). -/
def atomLanes (p : Port) (gid : Nat) (op : AtomK) (f n : Nat) (rsf : Rsf) (dst : Nat) :
    List (Nat × Nat × Nat × Nat) → State → State × Writes × List ((Nat × Nat × Nat × Nat) × Nat) × List (Nat × Nat × Nat)
  | [], s => (s, Writes.none, [], [])
  | (l, a, x, v) :: rest, s =>
    match Port.plan s p true (if p.space = spTarn then [] else pieces n a n) with
    | .miss va _ => let (s, w, m, b) := atomLanes p gid op f n rsf dst rest s; (s, w, ((l, a, x, v), va) :: m, b)
    | .bad _ r => let (s, w, m, b) := atomLanes p gid op f n rsf dst rest s; (s, w, m, (l, p.va a, r) :: b)
    | .ok _ =>
      let (s, no) := if p.space = spHostNc then s.denied else (s, false)
      if no then let (s, w, m, b) := atomLanes p gid op f n rsf dst rest s; (s, w, m, (l, p.va a, 0) :: b)
      else
      match p.read s a n with
      | (s, .ok bs) =>
        let old := leNat bs
        let x := atomConvert (rsfTy rsf) (memTy f) rsf x
        let v := atomConvert (rsfTy rsf) (memTy f) rsf v
        let new := atomNew op f n old x.1 v.1
        let (s, _) := p.write s a (leBytes n new.1) (some gid)
        let back := atomConvert (memTy f) (rsfTy rsf) rsf old
        let (s, w, m, b) := atomLanes p gid op f n rsf dst rest s
        (s, (⟨atomWrites dst n l back.1, [], [], x.2 ||| v.2 ||| new.2 ||| back.2⟩ : Writes).join w, m, b)
      | (s, .miss va _) => let (s, w, m, b) := atomLanes p gid op f n rsf dst rest s; (s, w, ((l, a, x, v), va) :: m, b)
      | (s, .bad _ r) => let (s, w, m, b) := atomLanes p gid op f n rsf dst rest s; (s, w, m, (l, p.va a, r) :: b)

/-- R151, R162: the trap of lanes that met ACCESS, named by the lowest of them, or of those whose atomic was not supported. -/
def accessTrap (f : Flight) (uniform : Bool) (bads : List (Nat × Nat × Nat)) : Option Trap :=
  let t (c : Nat) (xs : List (Nat × Nat × Nat)) : Option Trap :=
    match sortBy (·.1) xs with
    | [] => none
    | (_, a, r) :: _ => some ⟨c, r, if uniform then f.active else maskOf (xs.map (·.1)), a, 0, f.slot, f.pc⟩
  (t cAccess (bads.filter fun b => b.2.2 != 0)).orElse fun _ => t cAtomic (bads.filter fun b => b.2.2 == 0)

/-- Park an entry on the page of its lowest unfinished lane (R89). -/
def State.parkFlight (s : State) (g : Group) (f : Flight) (va : Nat) (write : Bool) (p : Pend) (owed : LaneMask) : State :=
  let c := (s.ctxOf g).getD emptyCtx
  let (s, k) := s.raisePage c.id va write (Config.memDomain s.boot.sku (s.dieNum g.core)) (.flight g.gid f.fid)
  s.updGroup g.gid fun g => g.putFlight { f with parked := some k, pend := p, owed := owed }

/-- An entry that is no longer outstanding. -/
def State.endFlight (s : State) (gid fid : Nat) : State := s.updGroup gid fun g => g.dropFlight fid

/-! ## Program order -/

/-- R166: what a byte of an access is, whatever the pointer that names it: a byte of a tarn, of a physical word, or of a page that
is not mapped. -/
def State.wordKey (s : State) (g : Group) (p : Ptr) (a : Nat) : Nat × Nat × Nat :=
  if p.space = spTarn then (0, s.tarnTeam g p, a / 4)
  else
    let c := (s.ctxOf g).getD emptyCtx
    let va := if p.space = spStack then c.stackBase g.gid + a else a
    match c.mapOf va with
    | some m => (1, 0, cellWord ((m.pa + (va - m.va)) / 4))
    | none => (2, 0, va / 4)
/-- The words of accesses of n bytes. -/
def State.wordKeys (s : State) (g : Group) (p : Ptr) (n : Nat) (addrs : List Nat) : List (Nat × Nat × Nat) :=
  addrs.flatMap fun a => (List.range ((a + n - 1) / 4 + 1 - a / 4)).map fun i => s.wordKey g p (4 * (a / 4 + i))

/-- Whether two lists of words have one in common. -/
def wordsMeet (xs ys : List (Nat × Nat × Nat)) : Bool := xs.any ys.contains
/-- Whether an entry that has not been performed touches a word of an access; one whose stream entries are not read may touch any. -/
def State.touches (s : State) (g : Group) (f : Flight) (p : Ptr) (n : Nat) (addrs : List Nat) : Bool :=
  !(g.unread f).isEmpty || f.work.any fun w => wordsMeet (s.wordKeys g w.1 w.2.1 w.2.2) (s.wordKeys g p n addrs)

/-- R425: whether a ZMOV covers a byte of an access, through whatever pointer the access names it. -/
def State.moveCovers (s : State) (g : Group) (m : Ptr × Nat) (p : Ptr) (n : Nat) (addrs : List Nat) : Bool :=
  (m.1.space == p.space && (m.1.space != spTarn || s.tarnTeam g m.1 == s.tarnTeam g p) &&
    addrs.any fun a => decide (a < m.2 + 49216) && decide (m.2 < a + n)) ||
  (m.1.space != spTarn && p.space != spTarn && wordsMeet (s.wordKeys g p n addrs) (s.wordKeys g m.1 49216 [m.2]))
/-- R425: whether a queued ZMOV of the group covers a byte of an access. -/
def State.zmovCovers (s : State) (g : Group) (p : Ptr) (n : Nat) (addrs : List Nat) : Bool :=
  g.mq.any fun o => o.move.any fun m => s.moveCovers g m p n addrs
/-- R166, R182: whether an earlier access of the group to a word, its queued ZMOVs among them, has not been performed. -/
def State.owedAt (s : State) (g : Group) (p : Ptr) (n : Nat) (addrs : List Nat) : Bool :=
  s.zmovCovers g p n addrs || g.flight.any fun f => s.touches g f p n addrs

/-- R379: the words of Q that a queued MMAB has still to read. -/
def State.queueWords (s : State) (g : Group) (o : MxOp) : List (Nat × Nat × Nat) :=
  match o.op with
  | .mmab _ x =>
    let t := g.streams.getD x.stream.toNat Stream.fresh
    (g.queue? x.stream.toNat).elim [] fun q =>
      s.wordKeys g q 4 ((List.range (x.n1.toNat + 1)).filterMap fun i => t.entryAddr (t.pos + i))
  | _ => []
/-- R166, R379: whether a queued MMAB has still to read one of some words of Q; before gives the operations that count. -/
def State.queueOwes (s : State) (g : Group) (before : MxOp → Bool) (words : Unit → List (Nat × Nat × Nat)) : Bool :=
  g.mq.any fun o => before o && !(s.queueWords g o).isEmpty && wordsMeet (s.queueWords g o) (words ())
/-- R166: whether a word of an access is still owed to an earlier LD, ATOM, XSECT or MMAB of the group. -/
def State.owesWord (s : State) (g : Group) (p : Ptr) (n : Nat) (addrs : List Nat) : Bool :=
  (g.flight.any fun f => !f.isStore && s.touches g f p n addrs) || s.queueOwes g (fun _ => true) fun _ => s.wordKeys g p n addrs

/-- R269, R171: whether a home has not acknowledged the last write of a word that a SYNC read reads. -/
def State.wordsUnacked (s : State) (g : Group) (p : Ptr) (n : Nat) (addrs : List Nat) : Bool :=
  p.cls == clSync && (s.wordKeys g p n addrs).any fun x => x.1 == 1 && s.mem.snoops.any fun n => n.words.any fun wa => cellWord wa == x.2.2
/-- R166, R168 to R170, R182: whether a read that is made at issue must wait: an earlier access of the group to one of its words has
not been performed, an acquire has not read, or the read is a SYNC access and an earlier one has not been performed or a home has not
acknowledged what it reads. -/
def State.readWaits (s : State) (g : Group) (p : Ptr) (n : Nat) (addrs : List Nat) : Bool :=
  s.owedAt g p n addrs || g.acquiring || (p.cls == clSync && (g.owesSync || s.groupUnacked g)) || s.wordsUnacked g p n addrs

/-- R166, R169, R170, R187: whether an entry must wait for an earlier one: an acquire that has not read, an access to one of its words,
or a SYNC access where it is one too. Entries whose stream entries are not read, on either side, may name any word. -/
def State.follows (s : State) (g : Group) (f e : Flight) : Bool :=
  e.acquire || (g.syncOf e && g.syncOf f) ||
  (if (g.unread f).isEmpty then f.work.any fun w => s.touches g e w.1 w.2.1 w.2.2 else g.owes e)
/-- R182, R425: whether an entry must wait for an earlier queued ZMOV. -/
def State.followsMove (s : State) (g : Group) (f : Flight) (o : MxOp) : Bool :=
  o.move.any fun m => (m.1.cls == clSync && g.syncOf f) || !(g.unread f).isEmpty || f.work.any fun w => s.moveCovers g m w.1 w.2.1 w.2.2
/-- R166, R379: whether an entry that may write must wait for an earlier MMAB that reads a Q; one whose stream entries are not read may
write any word. -/
def State.followsQueue (s : State) (g : Group) (f : Flight) : Bool :=
  f.owesWrite && (((!(g.unread f).isEmpty) && g.mq.any fun o => decide (o.id < f.fid) && !(s.queueWords g o).isEmpty) ||
    f.work.any fun w => s.queueOwes g (fun o => decide (o.id < f.fid)) fun _ => s.wordKeys g w.1 w.2.1 w.2.2)
/-- Whether an entry must wait for an earlier access of its group. -/
def State.behind (s : State) (g : Group) (f : Flight) : Bool :=
  (g.flight.any fun e => decide (e.fid < f.fid) && s.follows g f e) ||
  (g.mq.any fun o => decide (o.id < f.fid) && s.followsMove g f o) || s.followsQueue g f

/-- R168 to R171, R269: whether an entry must wait for homes: a SYNC access for those of the group's own writes, an acquiring one for
those of the words that it reads. -/
def State.unacked (s : State) (g : Group) (f : Flight) : Bool :=
  (g.syncOf f && s.groupUnacked g) || (!f.isStore && f.work.any fun w => s.wordsUnacked g w.1 w.2.1 w.2.2) ||
  ((g.unread f).any fun q => q.cls == clSync) && !s.mem.snoops.isEmpty

/-- Whether an entry may be performed now. -/
def State.inTurn (s : State) (g : Group) (f : Flight) : Bool := !s.behind g f && !s.unacked g f

/-- Whether an entry that has read must not read again once a later access of its group is performed: it is an acquire, or the later
access writes one of its words (R166, R169). -/
def State.mustKeep (s : State) (g : Group) (e : Flight) (write : Option (Ptr × Nat × List Nat)) : Bool :=
  g.syncRead e ||
  (match e.pend with
   | .load b r _ all _ _ => write.any fun w => wordsMeet (s.wordKeys g (Ptr.ofBits b) (widthOf (Ptr.ofBits b).fmt r) (all.map (·.2))) (s.wordKeys g w.1 w.2.1 w.2.2)
   | .xsect j k .. => write.isSome && ((g.queue? j).isSome || (g.queue? k).isSome)
   | _ => false)
/-- R92: what entries before fid have read stays, where the access of fid would contradict another value. (DEDUCED, unsafe: log entry 74.) -/
def State.keptBy (s : State) (g : Group) (fid : Nat) (write : Option (Ptr × Nat × List Nat)) (h : Group) : Group :=
  { h with flight := h.flight.map fun e => if e.fid < fid ∧ s.mustKeep g e write = true then e.keep else e }
/-- R92: an access of a group is performed; write says where it writes. -/
def State.performing (s : State) (g : Group) (fid : Nat) (write : Option (Ptr × Nat × List Nat)) : State :=
  s.updGroup g.gid (s.keptBy g fid write)

/-! ## The accesses -/

/-- R87, R206: results of lanes that have come while others are owed: written at once, with their flags, when the window is closed;
else held for its close. -/
def Group.takeResults (g : Group) (f : Flight) (w : Writes) : Group × Writes :=
  if f.window = 0 then (g.applyWrites f.slot f.dests w, Writes.none) else (g, w)

/-- LD reads memory for the lanes that it owes (R337, R338, R89). pre are lanes that met ACCESS before. -/
def State.performLoad (s : State) (g : Group) (f : Flight) (bits : W128) (rsf : Rsf) (dst : Dst) (all lanes : List LaneAddr)
    (done : Writes) (pre : List (Nat × Nat × Nat)) : State × Option Trap :=
  let p := Ptr.ofBits bits
  let uniform := match dst with
    | .v _ => false
    | _ => true
  let wide := dataWide rsf p.fmt
  let (s, got, misses, bads) := loadLanes (s.port g p) (widthOf p.fmt rsf) lanes s
  let w := got.foldl (fun w x =>
    let v := loadVal p.fmt rsf x.2
    w.join { dstWrites dst wide x.1 v.1 with flags := v.2 }) done
  match accessTrap f uniform (pre ++ bads) with
  | some t => (s.updGroup g.gid fun g => (g.applyWrites f.slot f.dests w).dropFlight f.fid, some t)
  | none =>
    match misses with
    | (_, _, va) :: _ =>
      let s := s.updGroup g.gid fun g => (g.takeResults f w).1
      (s.parkFlight g f va false (.load bits rsf dst all (misses.map fun m => (m.1, m.2.1)) (g.takeResults f w).2)
        (if uniform then f.active else maskOf (misses.map (·.1))), none)
    | [] =>
      let fails : Option Nat := match dst, w.aw with
        | .a _, (_, x) :: _ => if !sealOk (s.sealKey g) x then some cSeal else if !(Ptr.ofBits x).valid then some cFormat else none
        | _, _ => none
      match fails with
      | some c =>
        (s.endFlight g.gid f.fid, some ⟨c, 0, f.active, ((lanes.head?).map (·.2)).getD 0, 0, f.slot, f.pc⟩)
      | none =>
        let s := if p.cls = clSync then s.acquire g p.scope else s
        (s.updGroup g.gid fun g => g.arrive { f with parked := none } w, none)

/-- ST writes the lanes that it owes (R383, R90); when none is left, a SYNC store is a release (R187). -/
def State.performStore (s : State) (g : Group) (f : Flight) (bits : W128) (lanes : List (Nat × Nat × List W8)) (uniform : Bool)
    (pre : List (Nat × Nat × Nat)) : State × Option Trap :=
  let p := Ptr.ofBits bits
  let k0 := s.run.nextId
  let (s, misses, bads) := storeLanes (s.port g p) g.gid lanes s
  let s := s.mergeSnoops k0
  let written := lanes.filter fun x => !(misses.any fun m => m.1.1 == x.1) && !(bads.any fun b => b.1 == x.1)
  let s := s.noteWrites g p (((lanes.head?).map (·.2.2.length)).getD 0) (written.map (·.2.1))
  match accessTrap f uniform (pre ++ bads) with
  | some t => (s.endFlight g.gid f.fid, some t)
  | none =>
    match misses with
    | (_, va) :: _ => (s.parkFlight g f va true (.store bits uniform (misses.map (·.1)))
        (if uniform then f.active else maskOf (misses.map (·.1.1))), none)
    | [] =>
      let s := if p.cls = clSync then s.updGroup g.gid Group.released else s
      (s.endFlight g.gid f.fid, none)

/-- ATOM performs the lanes that it owes (R304, R307); when none is left its values are in the entry (R92), and through a SYNC
pointer it is a release and an acquire. -/
def State.performAtom (s : State) (g : Group) (f : Flight) (bits : W128) (op : AtomK) (n : Nat) (rsf : Rsf) (dst : Nat)
    (lanes : List (Nat × Nat × Nat × Nat)) (done : Writes) (pre : List (Nat × Nat × Nat)) : State × Option Trap :=
  let p := Ptr.ofBits bits
  let k0 := s.run.nextId
  let (s, w, misses, bads) := atomLanes (s.portAt g g.core p.space p.atomTy (s.tarnTeam g p)) g.gid op p.fmt n rsf dst lanes s
  let s := s.mergeSnoops k0
  let written := lanes.filter fun x => !(misses.any fun m => m.1.1 == x.1) && !(bads.any fun b => b.1 == x.1)
  let s := s.noteWrites g p n (written.map (·.2.1))
  let w := done.join w
  match accessTrap f false (pre ++ bads) with
  | some t => (s.updGroup g.gid fun g => (g.applyWrites f.slot f.dests w).dropFlight f.fid, some t)
  | none =>
    match misses with
    | (_, va) :: _ =>
      let s := s.updGroup g.gid fun g => (g.takeResults f w).1
      (s.parkFlight g f va true (.atom bits op n rsf dst (misses.map (·.1)) (g.takeResults f w).2) (maskOf (misses.map (·.1.1))), none)
    | [] =>
      let s := if p.cls = clSync then (s.updGroup g.gid Group.released).acquire g p.scope else s
      (s.updGroup g.gid fun g => g.putFlight { f with
        parked := none, owed := 0#96, acquire := false, pend := .atom bits op n rsf dst [] w }, none)

def Flight.writes (f : Flight) : Bool :=
  match f.pend with
  | .store .. | .atom .. => true
  | _ => false
/-- An LD, ST or ATOM that an entry still owes is performed, but for lanes whose stream entries are not read. -/
def State.performAccess (s : State) (g : Group) (f : Flight) (pre : List (Nat × Nat × Nat)) : State × Option Trap :=
  let s := s.performing g f.fid (f.work.filter fun _ => f.writes)
  match f.pend with
  | .load bits rsf dst all lanes done => s.performLoad g f bits rsf dst all lanes done pre
  | .store bits uniform lanes => s.performStore g f bits lanes uniform pre
  | .atom bits op n rsf dst lanes done => s.performAtom g f bits op n rsf dst lanes done pre
  | _ => (s, none)

/-- What an access does with lanes that passed their checks. -/
def Access.pend (acc : Access) (bits : W128) (ok : List LaneAddr) (data : List (Nat × Nat × Nat)) (done : Writes) : Pend :=
  let d (l : Nat) : Nat × Nat := ((data.find? fun x => x.1 == l).map (·.2)).getD (0, 0)
  match acc with
  | .load rsf dst => .load bits rsf dst ok ok done
  | .store rsf u => .store bits u (ok.map fun x => (x.1, x.2, leBytes (widthOf (Ptr.ofBits bits).fmt rsf) (d x.1).1))
  | .atom op n rsf dst => .atom bits op n rsf dst (ok.map fun x => (x.1, x.2, (d x.1).1, (d x.1).2)) done
def Access.uniform (acc : Access) : Bool :=
  match acc with
  | .load _ (.v _) => false
  | .load .. => true
  | .store _ u => u
  | .atom .. => false
/-- R167: whether an access through a SYNC pointer is an acquire. -/
def Access.acquires (acc : Access) : Bool :=
  match acc with
  | .store .. => false
  | _ => true
/-- Elements, bytes and alignment of an access (R129, R150). -/
def Access.shape (acc : Access) (fmt : Nat) : Nat × Nat × Nat :=
  match acc with
  | .load rsf _ => (elemsOf fmt rsf, widthOf fmt rsf, accessAlign fmt rsf)
  | .store rsf _ => (elemsOf fmt rsf, widthOf fmt rsf, accessAlign fmt rsf)
  | .atom _ n _ _ => (if fmt = fmtBytes then n else 1, n, if fmt = fmtBytes then n else alignOf fmt)

/-- R151: the lanes of an ATOM that had no fault complete before its trap: their values are written. -/
def State.deliver (s : State) (gid fid : Nat) : State :=
  s.updGroup gid fun g =>
    match g.flightOf fid with
    | some f => (match f.pend with
      | .atom _ _ _ _ _ _ w => (g.applyWrites f.slot f.dests w).dropFlight fid
      | _ => g)
    | none => g

/-- R89, R379: lanes whose entries lie on a missing page wait in an entry of their own. -/
def State.parkGather (s : State) (g : Group) (f : Flight) (late : List (Nat × Nat × Nat)) (uniform : Bool) : State :=
  match late with
  | [] => s
  | (_, _, va) :: _ =>
    let owed := if uniform then f.active else maskOf (late.map (·.1))
    let s := s.updGroup g.gid fun g => { g with flight := g.flight ++ [{ f with owed := owed }] }
    s.parkFlight g f va false f.pend owed

/-- R151: the trap of the first cause that lanes raised before any access. -/
def Flight.sortedTrap (f : Flight) (uniform : Bool) (x : Sorted) : Option Trap :=
  let t (c : Nat) (ls : List LaneAddr) (a : Nat) : Option Trap :=
    some ⟨c, 0, if uniform then f.active else maskOf (ls.map (·.1)), a, 0, f.slot, f.pc⟩
  match x.out, x.mis with
  | (l, a) :: rest, _ => t cBounds ((l, a) :: rest) a
  | [], (l, a) :: rest => t cMisaligned ((l, a) :: rest) a
  | [], [] => none

/-- R383: the lanes of an ST whose bytes no higher lane of the same ST has written. -/
def State.outrun (s : State) (g : Group) (p : Ptr) (wrote lanes : List LaneAddr) : List LaneAddr :=
  lanes.filter fun x => !(wrote.any fun y => decide (x.1 < y.1) && y.2 % 4 == x.2 % 4 && s.wordKey g p y.2 == s.wordKey g p x.2)

/-- R156, R379: the lanes of an entry read their stream entries again, those of its first issue, and go on as an access at its place in
program order; while a page of Q is missing they all wait (R89). The detector sees them now (R189). -/
def State.performGather (s : State) (g : Group) (f : Flight) (bits : W128) (q : StreamRec) (add : Int) (acc : Access)
    (lanes : List (Nat × Nat)) (data : List (Nat × Nat × Nat)) (wrote : List LaneAddr) : State × Option Trap :=
  let p := Ptr.ofBits bits
  let qp := Ptr.ofBits q.q
  let s := s.performing g f.fid none
  let (s, y) := s.takeEntries g ⟨some q, none, true, 0⟩ lanes
  match y.late with
  | (_, _, va) :: _ => (s.parkFlight g f va false f.pend f.owed, none)
  | [] =>
    let (w, n, align) := acc.shape p.fmt
    let x := s.sortTaken g p w n align add y
    let s := if qp.cls = clSync then s.acquire g qp.scope else s
    match s.detect g f.slot f.pc f.active p n x.ok acc.uniform with
    | (s, some t) => (s.endFlight g.gid f.fid, some t)
    | (s, none) =>
      let f := { f with parked := none, owed := maskOf (x.ok.map (·.1)), acquire := acc.acquires && p.cls == clSync,
                        pend := acc.pend bits (s.outrun g p wrote x.ok) data Writes.none }
      let s := s.updGroup g.gid fun g => g.putFlight f
      match f.sortedTrap acc.uniform x with
      | some t => ((s.performAccess g { f with window := 0 } []).1.deliver g.gid f.fid, some t)
      | none =>
        if x.bad.isEmpty then
          if s.inTurn ((s.group? g.gid).getD g) f then s.performAccess g f [] else (s, none)
        else s.performAccess g { f with window := 0 } x.bad

end Sys2Proof.Machine
end

