-- ==== Sys2Proof/Machine/Barrier.lean ====
section
/-! DEFINITION. The named barriers and sync words: BARI, BARA, BARW, SYNCW (R51, R308 to R311, R388 to R390), and WAIT (R405). -/

namespace Sys2Proof.Machine

/-! ## Barriers -/

/-- R51: whether barrier b of a team is the gang barrier of class 1. -/
def State.gangBar (s : State) (tid b : Nat) : Bool :=
  match s.team? tid with
  | none => false
  | some t => b == 15 && ((s.grid? t.grid).any fun x => x.launch.cls == 1)
/-- The gang of a team. -/
def State.gangOf (s : State) (tid : Nat) : Nat :=
  match s.team? tid with
  | none => 0
  | some t => t.t / ((s.grid? t.grid).map (·.launch.gangSize)).getD 1
def State.barOf (s : State) (tid b : Nat) : Barrier :=
  match s.team? tid with
  | none => Barrier.fresh
  | some t =>
    if s.gangBar tid b then
      ((s.sys.gangs.find? fun x => x.grid == t.grid && x.gang == s.gangOf tid).map (·.bar)).getD Barrier.fresh
    else t.bars.getD b Barrier.fresh
def State.setBar (s : State) (tid b : Nat) (x : Barrier) : State :=
  match s.team? tid with
  | none => s
  | some t =>
    if s.gangBar tid b then
      let n := s.gangOf tid
      { s with sys := { s.sys with gangs := s.sys.gangs.map fun (y : GangBar) =>
        if y.grid = t.grid ∧ y.gang = n then { y with bar := x } else y } }
    else s.updTeam tid fun t => { t with bars := setAt t.bars b x }

/-- R310: one arrival; a group's arrival is recorded with the current phase. (DEDUCED, unsafe: log entry 40.) On a gang barrier that of
a group which the sluice relaunched counts as any other. (DESIGN CHOICE, unsafe: log entry 79.) -/
def Barrier.arrive (b : Barrier) (who : Option Nat) : Barrier :=
  let b := match who with
    | some gid => { b with latest := (gid, b.phase) :: b.latest.filter (fun x => x.1 != gid), arrivals := gid :: b.arrivals }
    | none => b
  { b with count := b.count + 1 }.settle
def State.arriveBar (s : State) (tid b : Nat) (who : Option Nat) : State := s.setBar tid b ((s.barOf tid b).arrive who)

/-- R309. -/
def execBari (g : Guard) (o : BariOp) (s : State) : Out :=
  issue (.bari g o) s fun k h _ s =>
    let n := h.sop k o.a false
    let b := s.barOf h.tid o.b.toNat
    if n = 0 || decide (65535 < n) || 0 < b.count || s.gangBar h.tid o.b.toNat then .trap s (h.illegal k 8)
    else .done (s.setBar h.tid o.b.toNat { b with init := true, expect := n, count := 0, phase := b.phase + 1 })

/-- R310; BARA is a release (R179). -/
def execBara (g : Guard) (b : BitVec 4) (s : State) : Out :=
  issue (.bara g b) s fun k h _ s =>
    if !(s.barOf h.tid b.toNat).init then .trap s (h.illegal k 8)
    else .done ((s.setGroup h.released).arriveBar h.tid b.toNat (some h.gid))

/-- R179: the scope of a barrier. -/
def State.barScope (s : State) (tid b : Nat) : Nat := if s.gangBar tid b then 3 else 2

/-- R311: a BARW.arrive makes its arrival once, when it reaches the barrier; then BARW waits. -/
def execBarw (g : Guard) (o : BarwOp) (s : State) : Out :=
  issue (.barw g o) s fun k h _ s =>
    let b := o.b.toNat
    if !(s.barOf h.tid b).init then .trap s (h.illegal k 8)
    else
      let first := o.arrive && !(h.slot k).arrived
      let h := if first then (h.setSlot k { h.slot k with arrived := true }).released.keepAcquired else h
      let s := if first then (s.setGroup h).arriveBar h.tid b (some h.gid) else s
      let x := s.barOf h.tid b
      match x.latest.find? fun y => y.1 == h.gid with
      | some y => if y.2 = x.phase then .stall s else .done (s.acquire h (s.barScope h.tid b))
      | none =>
        match (h.slot k).barWait with
        | some n => if x.dones = n then .stall s else .done (s.acquire h (s.barScope h.tid b))
        | none => .stall (s.setGroup (h.setSlot k { h.slot k with barWait := some x.dones }))

/-! ## Sync words and counters -/

/-- R389: a copy arrival at the sync word at a TARN offset of a team. -/
def Team.syncArrival (t : Team) (off bytes : Nat) : Team :=
  let u (i : Nat) : Nat := leNat ((List.range 4).map fun j => SMap.get t.tarn (off + i + j))
  let count := (u 4 + bytes) % 2 ^ 32
  let n := if u 0 = 0 then 0 else count / u 0
  let bs := leBytes 4 (count - n * u 0) ++ leBytes 4 (u 8 + n)
  { t with tarn := SMap.setAll t.tarn (bs.zipIdx.map fun b => (off + 4 + b.2, b.1)) }

/-- R388, R390: the generation is read in program order (R166); a trap names the pointer's base (R444; DEDUCED, unsafe: log entry 60). -/
def execSyncw (g : Guard) (o : SyncwOp) (s : State) : Out :=
  issue (.syncw g o) s fun k h _ s =>
    let p := Ptr.ofBits (h.getA o.a)
    let off := h.sop k o.b false
    let t (c aux : Nat) : Res := .trap s (h.trapAt k c aux (h.active k) p.base)
    if p.space ≠ spTarn || p.fmt ≠ fmtBytes then .trap s (h.illegal k 8)
    else if s.domainBad h p then t cDomain 0
    else if off % 16 ≠ 0 then t cMisaligned 0
    else if p.count < off + 16 || s.outside h p (p.base + off) 16 then t cBounds 0
    else if s.readWaits h p 4 [p.base + off + 8] then .stall s
    else
      match (s.port h p).read s (p.base + off + 8) 4 with
      | (s, .ok bs) =>
        if leNat bs = (h.getS k o.d.toNat).toNat then .stall s
        else .done ((s.setGroup (h.setS k o.d.toNat (BitVec.ofNat 32 (leNat bs)))).acquire h 2)
      | (s, _) => .stall s

/-- R178: the counter of a class. -/
def Group.counter (g : Group) (cls : Nat) : Nat :=
  match cls with
  | 0 => g.cntCopy
  | 1 => g.cntMx
  | 2 => g.cntStream
  | _ => g.cntColl

/-- R178, Table 6-1: an operation of a class and a scope has completed. -/
def Group.saw (g : Group) (cls scope : Nat) : Group := { g with seen := setAt g.seen cls (max (g.seen.getD cls 0) scope) }

/-- R178, R268, R405: an acquire at the scope of the completions of the class that it observes. -/
def execWait (g : Guard) (o : WaitOp) (s : State) : Out :=
  issue (.wait g o) s fun k h _ s =>
    if h.sop k o.a false < h.counter o.cls.toNat then .stall s else .done (s.acquire h (h.seen.getD o.cls.toNat 0))

end Sys2Proof.Machine
end

