-- ==== Sys2Proof/Machine/Engine.lean ====
section
/-! DEFINITION. What the engines share: accesses from the core where an operation was issued, page faults of an engine (R155),
causes raised after issue (R91, R444), and counters that reach a saved or a kept image (R119, R281). -/

namespace Sys2Proof.Machine

/-- Change a group wherever it stands: resident, saved, or in a kept image. -/
def State.updKept (s : State) (gid : Nat) (f : Group → Group) : State :=
  { s.updGroup gid f with sys := { s.sys with ctxs := s.sys.ctxs.map fun (c : Ctx) =>
    { c with images := c.images.map fun (i : Image) => if i.group.gid = gid then { i with group := f i.group } else i } } }

/-- R281: change a team, and its copy in a kept image. -/
def State.updKeptTeam (s : State) (tid : Nat) (f : Team → Team) : State :=
  let s := s.updTeam tid f
  { s with sys := { s.sys with ctxs := s.sys.ctxs.map fun (c : Ctx) =>
    { c with images := c.images.map fun (i : Image) => { i with team := i.team.map fun t => if t.tid = tid then f t else t } } } }

/-- R281, R414: a copy arrival at a barrier of a team; a gang barrier that is gone stands in the kept image. -/
def State.copyArrival (s : State) (tid b : Nat) : State :=
  let f (t : Team) : Team := { t with bars := setAt t.bars b ((t.bars.getD b Barrier.fresh).arrive none) }
  if s.gangBar tid b && s.sys.gangs.any fun x => (s.team? tid).any fun t => x.grid == t.grid && x.gang == s.gangOf tid then
    s.arriveBar tid b none
  else s.updKeptTeam tid f

/-- R281: a group of a grid that has ended goes once its engine work is done. -/
def State.sweep (s : State) (gid : Nat) : State :=
  match s.group? gid with
  | none => s
  | some g =>
    if ((s.grid? g.grid).any fun x => x.st == .admitted) || !g.mq.isEmpty || s.sys.copies.any fun c => c.gid == gid then s
    else { s with groups := s.groups.filter fun h => h.gid != gid }

/-- Table 10-6: the reason of a page fault that the firmware converts. -/
def Ctx.faultReason (c : Ctx) (va : Nat) : Nat := if (c.inDemand va).isSome || c.inStack va then 8 else 5

/-- A missing translation met outside an issue: the fault is raised once; when the firmware has converted it, its reason is the
answer. -/
def State.awaitPage (s : State) (o : PfOwner) (ctx core va : Nat) (write : Bool) : State × Option Nat :=
  match s.mem.faults.find? fun f => f.owner == o && f.ctx == ctx && f.va == va with
  | some f =>
    if f.done then
      ({ s with mem := { s.mem with faults := s.mem.faults.filter fun x => x.k != f.k } },
        some (((s.ctx? ctx).map fun c => c.faultReason va).getD 5))
    else (s, none)
  | none => ((s.raisePage ctx va write (Config.memDomain s.boot.sku (s.dieNum core)) o).1, none)

/-- The port of an engine at a core. -/
def State.enginePort (s : State) (ctx core space : Nat) (ty : ReqTy) (tid stack : Nat) : Port :=
  let c := (s.ctx? ctx).getD emptyCtx
  ⟨s.whoOf c core, Config.memDomain s.boot.sku (s.dieNum core), c, space, ty, tid, stack⟩

/-- The team that a TARN pointer of a team's operation reaches (R133). -/
def State.tarnFrom (s : State) (tid dom : Nat) : Nat :=
  match s.team? tid with
  | none => tid
  | some t =>
    let n := ((s.grid? t.grid).map (·.launch.gangSize)).getD 1
    ((s.sys.teams.find? fun u => u.grid == t.grid && u.t == t.t / n * n + dom).map (·.tid)).getD tid

/-- R132: bytes of a team's TARN space. -/
def State.tarnSize (s : State) (tid : Nat) : Nat :=
  match s.team? tid with
  | none => 0
  | some t => t.cores.length * ((s.grid? t.grid).map (·.launch.tarn)).getD 0

/-- Outcome of an engine's work: a value, waiting for a page, or a cause with its auxiliary word and address. -/
inductive Eng (α : Type) where
  | ok (x : α)
  | wait
  | fail (cause aux addr : Nat)

/-- An engine's read of n bytes through a port. -/
def State.engineRead (s : State) (gid : Nat) (p : Port) (a n : Nat) : State × Eng (List W8) :=
  match p.read s a n with
  | (s, .ok bs) => (s, .ok bs)
  | (s, .bad va r) => (s, .fail cAccess r va)
  | (s, .miss va w) =>
    match s.awaitPage (.engine gid) p.ctx.id p.who.core va w with
    | (s, some r) => (s, .fail cAccess r va)
    | (s, none) => (s, .wait)

/-- An engine's write through a port; by names the operation whose snoops it awaits. -/
def State.engineWrite (s : State) (gid : Nat) (p : Port) (a : Nat) (bs : List W8) (by_ : Option Nat) : State × Eng Unit :=
  let k0 := s.run.nextId
  match p.write s a bs by_ with
  | (s, .ok _) =>
    let s := (s.mergeSnoops k0).taintMeres p.ctx.id bs.length (if p.space = spTarn then [] else [p.va a])
    (s.clearShadows p.ctx.id (if p.space = spTarn then some p.tid else none) (p.va a) bs.length, .ok ())
  | (s, .bad va r) => (s, .fail cAccess r va)
  | (s, .miss va w) =>
    match s.awaitPage (.engine gid) p.ctx.id p.who.core va w with
    | (s, some r) => (s, .fail cAccess r va)
    | (s, none) => (s, .wait)

/-- Raise a cause on the group that issued an operation (R91); a grid that has ended takes no more. -/
def State.engineTrap (s : State) (gid : Nat) (t : Trap) : State :=
  match s.group? gid with
  | none => s
  | some g =>
    match s.grid? g.grid with
    | none => s
    | some x => if x.st = .admitted then s.takeTrap gid t else s

end Sys2Proof.Machine
end

