-- ==== Sys2Proof/Machine/Launch.lean ====
section
/-! DEFINITION. Launch records and their admission, LAUNCH and LWAIT (R46 to R48, R50, R51, R54 to R58, R61, R62, R104 to R108,
R113, R260, R286 to R288, R334, R335, R341, R446). -/

namespace Sys2Proof.Machine

def leAt (bs : List W8) (o n : Nat) : Nat := leNat ((bs.drop o).take n)

/-- Table 2-6. -/
def parseLaunch (bs : List W8) : LaunchRec where
  entry := leAt bs 0x000 8
  x := leAt bs 0x008 4
  y := leAt bs 0x00C 4
  z := leAt bs 0x010 4
  groups := leAt bs 0x014 2
  lastLanes := leAt bs 0x016 2
  window := leAt bs 0x018 2
  tiles := leAt bs 0x01A 1
  cls := leAt bs 0x01B 1
  prio := leAt bs 0x01C 1
  affinity := leAt bs 0x01D 1
  race := leAt bs 0x01E 1
  flags := leAt bs 0x01F 1
  tarn := leAt bs 0x020 4
  gang := leAt bs 0x024 4
  done := leAt bs 0x028 8
  dep := leAt bs 0x030 8
  depVal := leAt bs 0x038 4
  depth := leAt bs 0x03C 2
  rtClass := leAt bs 0x03E 2
  args := (List.range 16).map fun i => BitVec.ofNat 128 (leAt bs (0x040 + 16 * i) 16)
  sargs := (List.range 16).map fun i => BitVec.ofNat 32 (leAt bs (0x140 + 4 * i) 4)
  coll := leAt bs 0x180 4
  chunk := leAt bs 0x184 4
  resTile := leAt bs 0x188 4
  thresh := leAt bs 0x18C 4
  key := leAt bs 0x190 8
  popCap := leAt bs 0x198 4
  portV := leAt bs 0x19C 2
  portS := leAt bs 0x19E 2
  reorder := leAt bs 0x1A0 8
  childLimit := leAt bs 0x1A8 8

/-- R58, R127: an argument of a record. -/
def argOk (host : Bool) (a : W128) : Bool :=
  let p := Ptr.ofBits a
  a == 0#128 || (p.valid && (!host || (p.sealv == 0 && p.domain == 0)))

/-- R260: the type that the collective id names, as a memory format. -/
def collFmt (coll : Nat) : Nat :=
  match coll / 2 ^ 8 % 16 with
  | 0 => fmtFp32
  | 1 => fmtBf16
  | _ => fmtFp64

/-- R260, as the fields at fault. ranks is the size of the communicator, none if it does not exist. -/
def collBad (l : LaunchRec) (ranks : Option Nat) : List Nat :=
  if !l.collBound then (if l.coll ≠ 0 then [0x180] else []) ++ (if l.chunk ≠ 0 then [0x184] else []) ++
    (if 15 < l.resTile then [0x188] else [])
  else
    let p := Ptr.ofBits (l.args.getD l.resTile 0#128)
    let c := l.chunkCount
    (if l.coll / 2 ^ 12 % 16 ≠ 0 ∨ 2 < l.coll / 2 ^ 8 % 16 ∨ 1 < l.coll % 2 ^ 8 ∨ ranks = none then [0x180] else []) ++
    (if 16 ≤ l.chunk ∨ 3 < l.chunk % 16 then [0x184] else []) ++
    (if 15 < l.resTile ∨ p.space ≠ spGlobal ∨ p.fmt ≠ collFmt l.coll ∨ p.cls = clShared ∨ (1 < ranks.getD 1 ∧ p.ceiling < 4) ∨
      c = 0 ∨ p.count % (128 * c) ≠ 0 then [0x188] else [])

/-- The field checks of Table 2-6, R51, R58, R106, R113, R260 and R287: the offsets of the fields that fail. bs is the record;
affinity is the effective affinity. -/
def fieldsBad (l : LaunchRec) (bs : List W8) (host : Bool) (affinity bench : Nat) (ranks : Option Nat) : List Nat :=
  let no (b : Bool) (o : Nat) : List Nat := if b then [] else [o]
  let s := l.gangSize
  no (l.entry != 0 && l.entry % 8 == 0) 0x000 ++
  no (l.x != 0) 0x008 ++ no (l.y != 0) 0x00C ++ no (l.z != 0 && decide (l.teamCount < 2 ^ 32)) 0x010 ++
  no (decide (1 ≤ l.groups) && decide (l.groups ≤ 683)) 0x014 ++
  no (decide (1 ≤ l.lastLanes) && decide (l.lastLanes ≤ 96) && decide (l.teamLanes ≤ 65536)) 0x016 ++
  no (decide (16 ≤ l.window) && decide (l.window ≤ 256) && l.window % 8 == 0) 0x018 ++
  no (decide (l.tiles ≤ 16)) 0x01A ++
  no ((if host then decide (l.cls ≤ 2) else l.cls == 3) && !(l.cls == 2 && bench == 0) &&
    !(l.popn && (l.cls == 1 || l.cls == 2))) 0x01B ++
  no (decide (l.prio ≤ 3)) 0x01C ++
  no (l.affinity != 0 && decide (l.affinity < 16) && affinity != 0) 0x01D ++
  no (decide (l.race ≤ 2)) 0x01E ++ no (decide (l.flags < 8)) 0x01F ++
  no (decide (l.tarn ≤ 524288) && l.tarn % 256 == 0) 0x020 ++
  no (decide (s ≤ 2048) && l.teamCount % s == 0 && !(l.cls == 1 && decide (65535 < s * l.groups)) &&
    !(l.popn && decide (1 < l.gang))) 0x024 ++
  no (l.done % 16 == 0) 0x028 ++ no (l.dep % 4 == 0) 0x030 ++
  no (decide (1 ≤ l.depth) && decide (l.depth ≤ 4096)) 0x03C ++
  no (if l.cls = 1 then decide (1 ≤ l.rtClass) && decide (l.rtClass ≤ 3) else l.rtClass == 0) 0x03E ++
  (List.range 16).flatMap (fun i => no (argOk host (l.args.getD i 0#128)) (0x040 + 16 * i)) ++
  collBad l ranks ++
  no (l.popCap == 0 || decide (l.popZero ≤ l.popCap)) 0x198 ++
  no (decide (l.portV ≤ l.window)) 0x19C ++ no (decide (l.portS ≤ 480)) 0x19E ++
  no (l.reorder % 8 == 0) 0x1A0 ++ no (decide (l.childLimit < 2 ^ 32)) 0x1A8 ++
  no ((bs.drop 0x1B0).all fun b => b == 0) 0x1B0

/-! ## Room on a die (R47, R48, R113) -/

/-- R113. -/
def benchCore (bench core : Nat) : Bool :=
  if bench = 16 then core % 8 == 7 else if bench = 8 then core % 8 == 7 && decide (core / 8 % 16 < 8) else false

/-- R48: whether a team fits an empty die. -/
def fitsEmptyDie (l : LaunchRec) (bench : Nat) : Bool :=
  let perCore := min 16 (4096 / max 1 l.window)
  let cluster (c : Nat) : Nat :=
    let cores := ((List.range 8).filter fun i => benchCore bench (8 * c + i) == (l.cls == 2)).length
    if l.tiles = 0 then cores * perCore else min (cores * perCore) (85 / l.tiles)
  decide (l.groups ≤ (List.range 16).foldl (fun n c => n + cluster c) 0)

/-! ## Admission -/

/-- R446, R155: a page of an event word; none while the firmware still resolves it. -/
def State.eventPage (s : State) (ctx va : Nat) (write : Bool) : State × Option Bool :=
  match s.ctx? ctx with
  | none => (s, some false)
  | some c =>
    match c.mapOf va with
    | some m => (s, some ((!write || m.write) && backed s.boot.expanders (m.pa + (va - m.va))))
    | none =>
      if (c.inDemand va).isNone then (s, some false)
      else
        match s.awaitPage .part ctx 0 va write with
        | (s, some _) => (s, some false)
        | (s, none) => (s, none)

/-- R106: the effective affinity over the homes of the live dies. -/
def State.homes (s : State) (affinity : Nat) : Nat :=
  s.sys.dies.foldl (fun m d => if d.alive then m ||| (affinity &&& (Config.homeSet s.boot.sku d.num).toNat) else m) 0

/-- A grid that the distributor has read, not yet validated. -/
def newGrid (id ctx : Nat) (l : LaunchRec) (depth : Nat) (parent : Option (Nat × Nat × Nat)) (inlet : Option Nat)
    (prio affinity : Nat) : Grid where
  id := id
  ctx := ctx
  launch := l
  depth := depth
  parent := parent
  inlet := inlet
  prio := prio
  affinity := affinity
  order := 0
  st := .waiting
  nextUnit := 0
  seeds := []
  teamsLeft := l.teamCount
  kidsLive := 0
  cause := none
  collBad := none
  serial := 0
  popSize := l.popZero
  round := 0
  arrivals := []
  chunksLeft := 0
  bad := []
  checked := false
  bound := none
  nextTeam := l.teamCount
  charged := []

/-- R104: the inlet of a grid that has been admitted or rejected goes on. -/
def State.passInlet (s : State) (x : Grid) : State :=
  match x.inlet with
  | none => s
  | some n => s.updInlet n fun i => { i with head := i.head + 1, blocked := false }

/-- R60, R61: the record is rejected. -/
def State.reject (s : State) (id detail : Nat) : State :=
  match s.grid? id with
  | none => s
  | some x =>
    (s.updGrid id fun x => { x with
      st := .ended, cause := some (0x100, BitVec.ofNat 64 detail), teamsLeft := 0 }).passInlet x

/-- R260: whether a communicator is that of a grid. -/
def Grid.inComm (x : Grid) (m : Comm) : Bool := m.ctx == x.ctx && m.index == x.launch.coll / 2 ^ 16

/-- R105 to R108, R261, R286, R288: the record is admitted. -/
def State.admitGrid (s : State) (id : Nat) : State :=
  match s.grid? id with
  | none => s
  | some x =>
    let l := x.launch
    let s := s.updGrid id fun x => { x with
      st := .admitted, order := s.sys.admitted, serial := s.boot.lineage.toNat
      chunksLeft := if l.collBound then l.chunkCount else 0
      bound := if l.collBound then (s.sys.comms.find? x.inComm).map (·.bound) else none }
    let s := { s with
      sys := { s.sys with
        admitted := s.sys.admitted + 1
        comms := s.sys.comms.map fun (m : Comm) => if l.collBound && x.inComm m then { m with bound := m.bound + 1 } else m }
      boot := { s.boot with lineage := s.boot.lineage + BitVec.ofNat 48 l.popZero } }
    s.passInlet x

/-- R269: whether every basin has answered for the word at an address of a context. -/
def State.eventSettled (s : State) (ctx va : Nat) : Bool :=
  (s.ctx? ctx).all fun c => (c.mapOf va).all fun m => !(s.mem.snoops.any fun n => n.words.contains ((m.pa + (va - m.va)) / 4))

/-- R62, R184: whether the dependence is met, by a value whose write every home has acknowledged; none when the word cannot be read. -/
def State.depMet (s : State) (x : Grid) : Option Bool :=
  if x.launch.dep = 0 then some true
  else
    match (s.ctx? x.ctx).map fun c => s.homeRead c x.launch.dep 4 with
    | some (.ok bs) => some (decide (x.launch.depVal ≤ leNat bs) && s.eventSettled x.ctx x.launch.dep)
    | _ => none

/-- The field checks of a waiting grid's record, all offsets that fail. -/
def State.gridBad (s : State) (x : Grid) (bs : List W8) : List Nat :=
  let ranks := (s.sys.comms.find? fun c => c.ctx == x.ctx && c.index == x.launch.coll / 2 ^ 16).map (·.ranks)
  fieldsBad x.launch bs x.parent.isNone (s.homes x.affinity) (((s.ctx? x.ctx).map (·.bench)).getD 0) ranks

/-- R108. -/
def State.full (s : State) : Bool := decide (4096 ≤ (s.sys.grids.filter fun x => x.st == .admitted).length)

/-- R62, R104, R105, R108: a valid record is admitted when its dependence is met and the distributor has room, and else waits. BLOCKED
stays as it is while a record whose dependence is met waits for room. (DESIGN CHOICE, unsafe: log entry 83.) -/
def State.decideDep (s : State) (x : Grid) : State :=
  match s.depMet x with
  | none => s.reject x.id 0x030
  | some true => if s.full then s else s.admitGrid x.id
  | some false =>
    match x.inlet with
    | none => s
    | some n => s.updInlet n fun i => { i with blocked := true }

/-- R56, R61, R446: the verdict on a record that waits; while the firmware resolves the page of an event word there is none. -/
def State.decideGrid (s : State) (id : Nat) : State :=
  match s.grid? id with
  | none => s
  | some x =>
    if x.st ≠ .waiting then s
    else if x.checked then s.decideDep x
    else
      let l := x.launch
      let (s, d) := if l.done = 0 ∨ l.done % 16 ≠ 0 then (s, some true) else s.eventPage x.ctx l.done true
      let (s, w) := if l.dep = 0 ∨ l.dep % 4 ≠ 0 then (s, some true) else s.eventPage x.ctx l.dep false
      match d, w with
      | some d, some w =>
        (match x.bad ++ (if d then [] else [0x028]) ++ (if w then [] else [0x030]) with
         | o :: rest => s.reject id (rest.foldl min o)
         | [] =>
           if !fitsEmptyDie l (((s.ctx? x.ctx).map (·.bench)).getD 0) then s.reject id 0x014
           else (s.updGrid id fun x => { x with checked := true }).decideDep x)
      | _, _ => s

/-- A record that the distributor has read. -/
def State.submit (s : State) (x : Grid) (bs : List W8) : State :=
  let x := { x with bad := s.gridBad x bs }
  { s with sys := { s.sys with grids := s.sys.grids ++ [x] } }.decideGrid x.id

/-! ## LAUNCH and LWAIT -/

/-- R58, R142: the first argument of a record that LAUNCH refuses. -/
def launchArgBad (key : W64) (l : LaunchRec) : Option (Nat × Nat) :=
  (List.range 16).findSome? fun i =>
    let a := l.args.getD i 0#128
    if a = 0#128 then none
    else if !sealOk key a then some (i, cSeal)
    else if !(Ptr.ofBits a).valid then some (i, cFormat)
    else none

/-- R54, R107, R334, R335. The read of the record waits for its turn in program order. LAUNCH_DEPTH names the base of the record pointer.
(DEDUCED, unsafe: log entry 78.) -/
def execLaunch (g : Guard) (o : LaunchOp) (s : State) : Out :=
  issue (.launch g o) s fun k h _ s =>
    match s.grid? h.grid, s.team? h.tid with
    | some x, some t =>
      let p := Ptr.ofBits (h.getA o.a)
      let tr (c aux addr : Nat) : Res := .trap s (h.trapAt k c aux (h.active k) addr)
      if s.full then .stall s
      else if h.idx ≠ 0 || p.space ≠ spGlobal || p.fmt ≠ fmtBytes then .trap s (h.illegal k 8)
      else if x.depth = 10 then tr cDepth 1 p.base
      else if x.launch.childLimit ≤ x.kidsLive then tr cDepth 2 p.base
      else if p.count < 512 then tr cBounds 0 p.base
      else if p.base % 64 ≠ 0 then tr cMisaligned 0 p.base
      else if s.readWaits h p 512 [p.base] then .stall s
      else
        match (s.port h p).read s p.base 512 with
        | (s, .miss va _) => .stall (s.parkSlot h k va false (h.active k))
        | (s, .bad va r) => .trap s (h.trapAt k cAccess r (h.active k) va)
        | (s, .ok bs) =>
          let l := parseLaunch bs
          match launchArgBad (s.sealKey h) l with
          | some (i, c) => .trap s (h.trapAt k c 0 (h.active k) (p.base + 0x40 + 16 * i))
          | none =>
            let n := t.kids.length
            let (id, s) := s.fresh
            let s := s.setGroup ((h.released).setS k o.d.toNat (BitVec.ofNat 32 n))
            let s := s.updTeam t.tid fun t => { t with kids := t.kids ++ [⟨id, none⟩] }
            let s := s.updGrid x.id fun x => { x with kidsLive := x.kidsLive + 1 }
            .done (s.submit (newGrid id x.ctx l (x.depth + 1) (some (x.id, t.tid, n)) none (min l.prio x.prio) (l.affinity % 16)) bs)
    | _, _ => .stall s

/-- R341. -/
def execLwait (g : Guard) (o : LwaitOp) (s : State) : Out :=
  issue (.lwait g o) s fun k h _ s =>
    match s.team? h.tid with
    | none => .stall s
    | some t =>
      let n := h.sop k o.a false
      if t.kids.length ≤ n then .trap s (h.illegal k 8)
      else
        match (t.kids.getD n ⟨0, none⟩).status with
        | none => .stall s
        | some x =>
          let x := if n + 4096 < t.kids.length then 0x200#32 else x
          .done ((s.setGroup (h.setS k o.d.toNat x)).acquire h 3)

end Sys2Proof.Machine
end

