-- ==== Sys2Proof/Machine/Place.lean ====
section
/-! DEFINITION. Placement: the waiting units in ranked order (R109, R110), room on cores (Table 2-4, R113), the dies and cores of a
unit (R47 to R52, R111), and the start of its teams (R59, R112, R132, R288). -/

namespace Sys2Proof.Machine

/-! ## Units -/

/-- A waiting unit: a grid and a unit number (a gang, or a team that RSAMP formed); saved names its image. -/
structure UnitRef where
  grid : Nat
  unit : Nat
  saved : Option Nat
  deriving DecidableEq, Repr

/-- Units of launched teams. -/
def Grid.unitCount (x : Grid) : Nat := x.launch.teamCount / x.launch.gangSize
/-- The lowest team of a unit. -/
def Grid.unitTeam (x : Grid) (u : Nat) : Nat := if u < x.unitCount then u * x.launch.gangSize else u
/-- The teams of a unit with their group counts. -/
def Grid.unitTeams (x : Grid) (u : Nat) : List (Nat × Nat) :=
  if u < x.unitCount then (List.range x.launch.gangSize).map fun i => (u * x.launch.gangSize + i, x.launch.groups)
  else [(u, ((x.seeds.find? fun e => e.1 == u).map (·.2.length)).getD 0)]

/-- R117: the lowest team of a halting unit. -/
def Grid.haltTeam (x : Grid) (h : Nat) : Nat := if x.launch.cls = 1 then x.unitTeam h else h
/-- R109, R121: the lowest team of a waiting unit; that a saved team of a gang of class 0, 2 or 3 waits by itself, at its own number, is
the model's choice. (DESIGN CHOICE, unsafe: log entry 93.) -/
def Grid.refTeam (x : Grid) (u : UnitRef) : Nat := if u.saved.isSome then x.haltTeam u.unit else x.unitTeam u.unit

/-- R109, R121. -/
def Grid.rank (x : Grid) (u : UnitRef) : Nat := (3 - x.prio) * 2 ^ 96 + x.order * 2 ^ 40 + x.refTeam u

/-- The groups of a halting unit (R117). -/
def State.inUnit (s : State) (x : Grid) (u : Nat) (g : Group) : Bool :=
  g.grid == x.id && (s.team? g.tid).any fun t => x.haltUnit t.t == u

/-- R36, R118: whether units of a context may be placed. -/
def State.placeable (s : State) (x : Grid) : Bool :=
  x.st == .admitted && (s.ctx? x.ctx).any fun c => !c.suspended && !c.ended

/-- The waiting units of one grid. While the inlets are held closed to new teams (R36) it has none but those that are saved; that new teams
start in no other way and that no more is held is the model's choice. (DESIGN CHOICE, unsafe: log entry 90.) -/
def State.gridUnits (s : State) (x : Grid) : List UnitRef :=
  let fresh := if s.boot.held then [] else
    (if x.nextUnit < x.unitCount then [⟨x.id, x.nextUnit, none⟩] else []) ++ (x.seeds.take 1).map fun e => (⟨x.id, e.1, none⟩ : UnitRef)
  fresh ++ (s.sys.saved.filter fun u => u.grid == x.id && u.saved).map fun u => ⟨x.id, u.unit, some u.id⟩

/-- R109: the waiting units in ranked order. -/
def State.waitingUnits (s : State) : List UnitRef :=
  let us := (s.sys.grids.filter s.placeable).flatMap fun x => (s.gridUnits x).map fun u => (x.rank u, u)
  (sortBy (·.1) us).map (·.2)

/-- R109: whether a die is eligible for a grid's units. That a die which runs the cores of another context is not is the model's choice.
(DESIGN CHOICE, unsafe: log entry 92.) -/
def State.eligible (s : State) (d : Die) (x : Grid) : Bool :=
  d.alive && !d.inReset && (d.ctx.isNone || d.ctx == some x.ctx) &&
  ((Config.homeSet s.boot.sku d.num).toNat &&& x.affinity) != 0 &&
  (x.launch.cls != 2 || (s.ctx? x.ctx).any fun c => c.bench != 0)

/-- R50, R111, R122: whether a die may take a unit: one of a saved gang of class 0, 2 or 3 goes to the die where the teams of its gang
are that are not saved. -/
def State.gangOn (s : State) (d : Die) (x : Grid) (u : UnitRef) : Bool :=
  x.launch.cls == 1 || u.saved.isNone || s.sys.teams.all fun t =>
    t.grid != x.id || t.done || x.unitOf t.t != x.unitOf u.unit || t.t == u.unit ||
    (s.sys.saved.any fun v => v.grid == x.id && v.unit == t.t && v.saved) || t.cores.all fun c => c / 128 == d.block

/-- R110: the first unit of a die. -/
def State.headUnit (s : State) (d : Die) : Option UnitRef :=
  s.waitingUnits.find? fun u => (s.grid? u.grid).any fun x => s.eligible d x && s.gangOn d x u

/-! ## Eddy stacks of saved units -/

/-- Table 2-2: an entry of the eddy stack in memory. -/
def Eddy.bytes (e : Eddy) : List W8 :=
  match e with
  | .strand pc j m fromJtab => leBytes 8 pc.toNat ++ leBytes 8 ((j.map BitVec.toNat).getD 0) ++ leBytes 12 m.toNat ++
      leBytes 4 (if fromJtab then 1 else 0)
  | .join a o pending _ => leBytes 8 a.toNat ++ leBytes 8 ((o.map BitVec.toNat).getD 0) ++ leBytes 12 pending.toNat ++ leBytes 4 2
/-- The entry that an image in memory holds; the parked lanes of a join record come with the context image (R41). -/
def Eddy.ofBytes (bs : List W8) (parked : LaneMask) : Eddy :=
  let word (o n : Nat) : Nat := leNat ((bs.drop o).take n)
  let second : Option W64 := if word 8 8 = 0 then none else some (BitVec.ofNat 64 (word 8 8))
  if word 28 4 % 4 = 2 then .join (BitVec.ofNat 64 (word 0 8)) second (BitVec.ofNat 96 (word 16 12)) parked
  else .strand (BitVec.ofNat 64 (word 0 8)) second (BitVec.ofNat 96 (word 16 12)) (word 28 4 % 4 == 1)
def Eddy.parked : Eddy → LaneMask
  | .join _ _ _ parked => parked
  | .strand .. => 0#96

/-- R41, R96: the first page that an eddy-stack image of some groups needs and that is not mapped, with its group. -/
def Ctx.eddyMiss (c : Ctx) (gs : List Group) : Option (Group × Nat) :=
  gs.findSome? fun g => ((List.range g.eddy.length).map fun i => c.stackBase g.gid + 32 * i).findSome? fun va =>
    if (c.mapOf va).isNone then some (g, va) else none
/-- R41: the eddy stacks of some groups go to the first bytes of their STACK regions. -/
def State.putEddies (s : State) (ctx op : Nat) (gs : List Group) : State :=
  gs.foldl (fun s g =>
    match s.ctx? ctx with
    | none => s
    | some c => if g.eddy.isEmpty then s else (s.partPut c (c.stackBase g.gid) (g.eddy.flatMap Eddy.bytes) (some op)).1) s
/-- R41: the eddy stack of a group as its image in memory gives it, or an ACCESS reason. -/
def State.getEddy (s : State) (c : Ctx) (g : Group) : Acc (List Eddy) :=
  match s.homeRead c (c.stackBase g.gid) (32 * g.eddy.length) with
  | .ok bs => .ok (g.eddy.zipIdx.map fun e => Eddy.ofBytes ((bs.drop (32 * e.2)).take 32) e.1.parked)
  | .miss va w => .miss va w
  | .bad va r => .bad va r

/-- R96: a page of the STACK region that the save or the restore of a group needs is awaited; one that the firmware cannot back ends
the grid with ACCESS. -/
def State.awaitStack (s : State) (x : Grid) (g : Group) (va : Nat) (write : Bool) : State :=
  match s.awaitPage (.engine g.gid) x.ctx g.core va write with
  | (s, some r) => s.engineTrap g.gid ⟨cAccess, r, g.live, va, 0, 0xFF, 0⟩
  | (s, none) => s

/-! ## Room -/

/-- Whether a group holds resources of its core: it is resident, or it has been asked to halt and is not saved yet. -/
def State.occupies (s : State) (g : Group) : Bool :=
  !g.retired && (g.resident || (s.grid? g.grid).any fun x => (s.team? g.tid).any fun t =>
    s.sys.saved.any fun u => u.grid == x.id && u.unit == x.haltUnit t.t && !u.saved)

/-- What is in use: for each group its core, its window and its tiles; for each tarn slot its core, its team and its size. -/
structure Usage where
  groups : List (Nat × Nat × Nat)
  slots : List (Nat × Nat × Nat)

def State.usage (s : State) : Usage where
  groups := (s.groups.filter s.occupies).map fun g =>
    let l := (s.grid? g.grid).map (·.launch)
    (g.core, (l.map (·.window)).getD 0, (l.map (·.tiles)).getD 0)
  slots := s.sys.teams.flatMap fun t =>
    if t.done || !((s.groups.any fun g => g.tid == t.tid && s.occupies g)) then []
    else t.cores.map fun c => (c, t.tid, ((s.grid? t.grid).map (·.launch.tarn)).getD 0)

def sumOf (xs : List Nat) : Nat := xs.foldl (· + ·) 0
def Usage.tarnAt (u : Usage) (core : Nat) : Nat := sumOf ((u.slots.filter fun x => x.1 == core).map (·.2.2))
/-- Table 2-4: whether one more group fits a core; team names its team for the tarn slot. -/
def Usage.fits (u : Usage) (l : LaunchRec) (bench core team : Nat) : Bool :=
  let here := u.groups.filter fun x => x.1 == core
  let slot := u.slots.any fun x => x.1 == core && x.2.1 == team
  benchCore bench core == (l.cls == 2) && decide (here.length < 16) &&
  decide (sumOf (here.map (·.2.1)) + l.window ≤ 4096) &&
  decide (u.tarnAt core + (if slot then 0 else l.tarn) ≤ 524288) &&
  decide (sumOf ((u.groups.filter fun x => x.1 / 8 == core / 8).map (·.2.2)) + l.tiles ≤ 85)
/-- The usage after a group is put on a core. -/
def Usage.add (u : Usage) (l : LaunchRec) (core team : Nat) : Usage where
  groups := (core, l.window, l.tiles) :: u.groups
  slots := if u.slots.any fun x => x.1 == core && x.2.1 == team then u.slots else (core, team, l.tarn) :: u.slots

/-- The cores of a die (R138). -/
def Die.cores (d : Die) : List Nat := (List.range 128).map fun i => 128 * d.block + i

/-- Choose cores for n groups of a team, the emptiest core first. -/
def chooseCores (l : LaunchRec) (bench team : Nat) (cores : List Nat) : Nat → Usage → Option (List Nat × Usage)
  | 0, u => some ([], u)
  | n + 1, u =>
    let ok := cores.filter fun c => u.fits l bench c team
    match sortBy (fun c => (u.groups.filter fun x => x.1 == c).length) ok with
    | [] => none
    | c :: _ => (chooseCores l bench team cores n (u.add l c team)).map fun r => (c :: r.1, r.2)

/-- Take the cores that the environment names, if each fits. -/
def takeCores (l : LaunchRec) (bench team : Nat) (die : List Nat) : List Nat → Usage → Option Usage
  | [], u => some u
  | c :: rest, u => if die.contains c && u.fits l bench c team then takeCores l bench team die rest (u.add l c team) else none

/-- Place teams, given with a key and a group count, on dies in order, each team on the first die that has room, its groups on the
emptiest cores. -/
def spreadTeams (l : LaunchRec) (bench : Nat) (dies : List Die) : List (Nat × Nat) → Usage → Option (List (Nat × List Nat))
  | [], _ => some []
  | (t, n) :: rest, u =>
    match dies.findSome? fun d => chooseCores l bench t d.cores n u with
    | none => none
    | some (cs, u) => (spreadTeams l bench dies rest u).map fun r => (t, cs) :: r

/-- Every way to put n groups of a team on some cores, most groups first on each core, until one lets the rest go on. -/
def packTeam {α : Type} (l : LaunchRec) (bench team : Nat) (go : List Nat → Usage → Option α) :
    List Nat → Nat → List Nat → Usage → Option α
  | [], n, cs, u => if n = 0 then go cs u else none
  | c :: rest, n, cs, u =>
    if n = 0 then go cs u
    else
      let fill (j : Nat) : Option Usage := (List.range j).foldl (fun v _ =>
        v.bind fun v => if v.fits l bench c team then some (v.add l c team) else none) (some u)
      (List.range (min n 16 + 1)).reverse.findSome? fun j =>
        (fill j).bind fun v => packTeam l bench team go rest (n - j) (cs ++ List.replicate j c) v
/-- Every way to place some teams on some dies, until one is found. -/
def packTeams (l : LaunchRec) (bench : Nat) (dies : List Die) : List (Nat × Nat) → Usage → Option (List (Nat × List Nat))
  | [], _ => some []
  | (t, n) :: rest, u => dies.findSome? fun d =>
      packTeam l bench t (fun cs v => (packTeams l bench dies rest v).map fun r => (t, cs) :: r) d.cores n [] u
/-- Whether each of some dies could take as many groups as some teams have, one die at a time: if not, no search is needed. -/
def mayFit (l : LaunchRec) (bench : Nat) (dies : List Die) (teams : List (Nat × Nat)) (u : Usage) : Bool :=
  teams.all fun t => dies.any fun d => (chooseCores l bench t.1 d.cores t.2 u).isSome
/-- R111: a place for every team, if there is one. -/
def placeTeams (l : LaunchRec) (bench : Nat) (dies : List Die) (teams : List (Nat × Nat)) (u : Usage) :
    Option (List (Nat × List Nat)) :=
  match spreadTeams l bench dies teams u with
  | some r => some r
  | none => if mayFit l bench dies teams u then packTeams l bench dies teams u else none

/-- The same on named cores; the cores of one team lie on one die. -/
def placeNamed (l : LaunchRec) (bench : Nat) (dies : List Die) : List (Nat × Nat) → List Nat → Usage → Option (List (Nat × List Nat))
  | [], cores, _ => if cores.isEmpty then some [] else none
  | (t, n) :: rest, cores, u =>
    let mine := cores.take n
    if mine.length < n then none
    else
      match dies.findSome? fun d => takeCores l bench t d.cores mine u with
      | none => none
      | some u => (placeNamed l bench dies rest (cores.drop n) u).map fun r => (t, mine) :: r

/-- Table 2-5: the sets of dies that a gang of class 1 may use, in the order of R111; sets of one size with the same lowest die follow
the order of their masks. (DESIGN CHOICE, unsafe: log entry 82.) -/
def dieSets (rt : Nat) (dies : List Die) : List (List Die) :=
  let all := (List.range 256).filterMap fun m =>
    let ds := dies.filter fun d => m.testBit d.num
    let near := match rt with
      | 1 => ds.all fun a => ds.all fun b => a.num / 2 == b.num / 2
      | 2 => ds.all fun a => ds.all fun b => a.num / 4 == b.num / 4
      | _ => true
    if m = 0 ∨ ds.length ≠ ((List.range 8).filter m.testBit).length ∨ near = false then none else some ds
  sortBy (fun ds => ds.length * 16 + (ds.map (·.num)).foldl min 15) all

/-- Keys for the teams of a unit that has no team yet: above every team of the state. -/
def State.freshKeys (s : State) (ts : List (Nat × Nat)) : List (Nat × Nat) := ts.map fun t => (s.run.nextId + t.1, t.2)

/-- R159: whether a write of the reservoir that is under way overlaps an argument of a grid. -/
def State.reservoirBusy (s : State) (x : Grid) : Bool :=
  let hit (dst : W128) : Bool := (Ptr.ofBits dst).space == spReservoir && x.launch.args.any fun a =>
    let p := Ptr.ofBits a
    let q := Ptr.ofBits dst
    a != 0#128 && p.space == spReservoir && decide (p.base < q.base + q.count * sizeOf q.fmt) &&
      decide (q.base < p.base + p.count * sizeOf p.fmt)
  (s.sys.copies.any fun c => c.ctx == x.ctx && c.body.any fun r => hit r.dst) ||
  s.sys.hostCopies.any fun c => c.ctx == x.ctx && hit (BitVec.ofNat 128 (leNat ((c.record.drop 16).take 16)))

/-- R111: of the sets of dies that a gang of class 1 may use, in order, the first that has room, with the cores that the environment
names if it does. -/
def pickSet {α : Type} (sets : List (List Die)) (room named : List Die → Option α) (free : Bool) : Option α :=
  match sets.find? fun ds => (room ds).isSome with
  | none => none
  | some ds => if free then room ds else named ds

/-- R111: cores for the teams of a unit that die d pulls. -/
def State.placeUnit (s : State) (d : Die) (x : Grid) (u : UnitRef) (teams : List (Nat × Nat)) (cores : List Nat) :
    Option (List (Nat × List Nat)) :=
  let bench := ((s.ctx? x.ctx).map (·.bench)).getD 0
  let room (ds : List Die) : Option (List (Nat × List Nat)) := placeTeams x.launch bench ds teams s.usage
  let named (ds : List Die) : Option (List (Nat × List Nat)) := placeNamed x.launch bench ds teams cores s.usage
  if x.launch.cls ≠ 1 then (if cores.isEmpty then room [d] else named [d])
  else
    let ready := s.sys.dies.filter fun e => s.eligible e x && s.headUnit e == some u
    pickSet (dieSets x.launch.rtClass ready) room named cores.isEmpty

/-! ## Start -/

/-- GROUP_START (R59, R112, R288): one group of a new team. -/
def State.startGroup (s : State) (x : Grid) (tid t idx core : Nat) : State :=
  let lanes := if idx + 1 = x.launch.groups then x.launch.lastLanes else 96
  let (gid, s) := s.fresh
  let key := ((s.ctx? x.ctx).map (·.sealKey)).getD 0
  s.addGroup x ((freshGroup x key gid tid t idx core lanes (lowLanes lanes) (BitVec.ofNat 64 x.launch.entry)).launchSpecials x t)

/-- R295: a group that RSAMP formed. -/
def State.startSeed (s : State) (x : Grid) (tid t idx core : Nat) (e : Seed) : State :=
  let n := e.lanes.length
  let (gid, s) := s.fresh
  let key := ((s.ctx? x.ctx).map (·.sealKey)).getD 0
  let g := freshGroup x key gid tid t idx core n (lowLanes n) e.resume
  let lane (l : Nat) : W64 × W64 × W32 × W32 := e.lanes.getD l (0, 0, 0, 0)
  let ls := List.range n
  let vw := ls.flatMap fun l =>
    ((e.vregs.getD l []).map fun r => (vkey r.1 l, r.2)) ++ [(vkey e.vd l, (lane l).2.2.2)]
  s.addGroup x { g with
    v := SMap.setAll [] vw
    p := SMap.setAll [] ((List.range 48).map fun i => (i, maskOf (ls.filter fun l => SMap.get (e.pregs.getD l []) i != 0#1)))
    s := SMap.setAll g.s (e.sregs.zipIdx.map fun y => (32 + y.2, y.1))
    lineage := SMap.setAll [] (ls.map fun l => (l, (lane l).1))
    parent := SMap.setAll [] (ls.map fun l => (l, (lane l).2.1))
    pslot := SMap.setAll [] (ls.map fun l => (l, (lane l).2.2.1)) }

/-- R26, R163: the dies of some cores run a context. Where another one ran, the L1s are zeroed; so is what another context left in
them. What is dirty goes on as in an eviction. (DEDUCED, unsafe: log entry 35.) -/
def State.switchIn (s : State) (ctx : Nat) (cores : List Nat) : State :=
  (s.sys.dies.filter fun d => cores.any fun c => c / 128 == d.block).foldl (fun s d =>
    (s.clearL1 d fun w => w.ctx != ctx || d.ctx != some ctx).updDie d.num fun e => { e with ctx := some ctx }) s

/-- A team starts on its cores (R47, R132). (DESIGN CHOICE, unsafe: log entry 10.) -/
def State.startTeam (s : State) (x : Grid) (t : Nat) (cores : List Nat) : State :=
  let (tid, s) := (s.switchIn x.ctx cores).fresh
  let s := { s with sys := { s.sys with
    teams := s.sys.teams ++ [⟨tid, x.id, t, distinct cores, [], List.replicate 16 Barrier.fresh, [], [], 0, [], true, false⟩] } }
  match x.seeds.find? fun e => e.1 == t with
  | some e => (cores.zipIdx).foldl (fun s c => s.startSeed x tid t c.2 c.1 (e.2.getD c.2 ⟨[], 0, [], [], [], 0⟩)) s
  | none => (cores.zipIdx).foldl (fun s c => s.startGroup x tid t c.2 c.1) s

/-- R111: every group of the unit has its resources, and its teams start; a gang of class 1 gets its barrier (R51). -/
def State.startUnit (s : State) (x : Grid) (u : Nat) (place : List (Nat × List Nat)) : State :=
  let teams := x.unitTeams u
  let s := (teams.zip place).foldl (fun s p => s.startTeam x p.1.1 p.2.2) s
  let s := s.updGrid x.id fun x =>
    if u < x.unitCount then { x with nextUnit := x.nextUnit + 1 } else { x with seeds := x.seeds.filter fun e => e.1 != u }
  if x.launch.cls = 1 then
    { s with sys := { s.sys with gangs := s.sys.gangs ++
      [⟨x.id, u, ⟨true, x.launch.gangSize * x.launch.groups, 0, 0, [], [], 0⟩⟩] } }
  else s

/-- R96: whether the context has STACK regions left for n groups. -/
def State.stackRoom (s : State) (x : Grid) (n : Nat) : Bool :=
  (s.ctx? x.ctx).any fun c => decide (c.stackUse.length + n ≤ c.stackGroups)

/-- R109 to R112: a die places its first unit when it has room. A head that waits for something other than Table 2-4 (a reservoir write,
a STACK region) holds the units behind it back as well. (DESIGN CHOICE, unsafe: log entry 84.) -/
def execDiePull (die : Nat) (cores : List Nat) (s : State) : Out :=
  match s.die? die with
  | none => .next s
  | some d =>
    match s.headUnit d with
    | none => .next s
    | some u =>
      match s.grid? u.grid with
      | none => .next s
      | some x =>
        let teams := x.unitTeams u.unit
        if u.saved.isSome || s.reservoirBusy x || !s.stackRoom x (sumOf (teams.map (·.2))) then .next s
        else
          match s.placeUnit d x u (s.freshKeys teams) cores with
          | none => .next s
          | some place => .next (s.startUnit x u.unit place)

/-- R64: a relaunched group of a team starts on a core that holds a slot of the team, once a resident one has retired. (DEDUCED, safe: log entry 37.) -/
def execSluiceRelaunch (tid core : Nat) (s : State) : Out :=
  match s.team? tid with
  | none => .next s
  | some t =>
    match t.runs, s.grid? t.grid with
    | run :: rest, some x =>
      let bench := ((s.ctx? x.ctx).map (·.bench)).getD 0
      let live := (s.groups.filter fun g => g.tid == tid && !g.retired).length
      if !t.resident || t.done || x.launch.groups ≤ live || !t.cores.contains core ||
        !(s.usage.fits x.launch bench core tid) || !s.stackRoom x 1 then .next s
      else
        let (gid, s) := s.fresh
        let n := run.length
        let key := ((s.ctx? x.ctx).map (·.sealKey)).getD 0
        let g := freshGroup x key gid tid t.t (x.launch.groups + t.relaunched) core n (lowLanes n) (BitVec.ofNat 64 x.launch.reorder)
        let ds := run.zipIdx
        let vw := ds.flatMap fun d => (vkey 0 d.2, d.1.key.setWidth 32) :: d.1.payload.zipIdx.map fun y => (vkey (1 + y.2) d.2, y.1)
        let g := { g with
          v := SMap.setAll [] vw
          lineage := SMap.setAll [] (ds.map fun d => (d.2, d.1.lineage))
          parent := SMap.setAll [] (ds.map fun d => (d.2, d.1.parent))
          pslot := SMap.setAll [] (ds.map fun d => (d.2, d.1.pslot))
          tlane := SMap.setAll [] (ds.map fun d => (d.2, BitVec.ofNat 32 d.1.lane)) }
        let s := s.updTeam tid fun t => { t with runs := rest, relaunched := t.relaunched + 1 }
        .next (s.addGroup x g)
    | _, _ => .next s

end Sys2Proof.Machine
end

