-- ==== Sys2Proof/Machine/Distributor.lean ====
section
/-! DEFINITION. The distributor and its registers: inlets (R101 to R104), event words (R105), waiting dependences (R62, R105), and
the end of grids with their completion events (R55, R60, R61, R446). -/

namespace Sys2Proof.Machine

/-! ## Registers -/

/-- R29: whether an image has been accepted; until then the host link answers only BAR0 and configuration requests. -/
def Boot.accepted (b : Boot) : Bool := b.st == .firmware || b.st == .ready || b.st == .failed

/-- R62, R105: every waiting record is looked at again. -/
def State.recheck (s : State) : State :=
  ((s.sys.grids.filter fun x => x.st == .waiting).map (·.id)).foldl State.decideGrid s

/-- R105: the dependences that are waiting are evaluated again. -/
def execDependenceRecheck (s : State) : Out := .next s.recheck

/-- R102: a write to TAIL is ignored when it would pass the size of the ring. -/
def State.writeTail (s : State) (n : Nat) (v : W32) : State :=
  s.updInlet n fun i => if i.size < (v - i.head).toNat then i else { i with tail := v }

def execTailWrite (n : Nat) (v : W32) (s : State) : Out := if s.boot.accepted then .next (s.writeTail n v) else .next s

/-- R105: the physical address of a word of the event array of a slot that a live context has, whatever the context maps. -/
def State.eventPa (s : State) (slot word : Nat) : Option (Ctx × Nat) := (s.ctxAt? slot).map fun c => (c, c.eventPa + 4 * word)

/-- R105: the host writes a word of a slot's event array; the dependences are evaluated at once. A slot that no live context has
keeps its words too. -/
def State.writeEvent (s : State) (slot word : Nat) (v : W32) : State :=
  if 256 ≤ slot ∨ 4096 ≤ word then s
  else
    match s.eventPa slot word with
    | none => { s with sys := { s.sys with events := SMap.set s.sys.events (4096 * slot + word) v } }
    | some (c, pa) => (s.homeStore c pa (leBytes 4 v.toNat) none).recheck

def execEventWordWrite (slot word : Nat) (v : W32) (s : State) : Out :=
  if s.boot.accepted then .next (s.writeEvent slot word v) else .next s

/-- R30: the parameters of an image. -/
def imageParamsBad (addr : W64) (len : W32) : Bool :=
  addr.toNat % 4096 != 0 || len == 0 || decide (2 ^ 24 < len.toNat) || decide (len.toNat < 64 + 2692)

/-- R29, R30: a write of BOOTCTL. GO starts the fetch in states 0 and 3, and in any other a write with GO set is ignored. That a
fetch which starts in REJECTED clears the reject reason is the model's choice. (DEDUCED, unsafe: log entry 45.) -/
def State.writeBootctl (s : State) (v : W32) : State :=
  let b := { s.boot with ctl := v &&& 3#32 }
  if v.getLsbD 0 then
    if b.st = .waitImage ∨ b.st = .rejected then
      if imageParamsBad b.imgAddr b.imgLen then { s with boot := { b with st := .rejected, reason := 6#8 } }
      else { s with boot := { b with st := .fetch, reason := 0#8 } }
    else s
  else { s with boot := b }

/-- Tables 1-7 and 4-1, R105: a host write of a register; all others ignore writes. -/
def execRegisterWrite (bar off : Nat) (v : W64) (s : State) : Out :=
  if bar = 0 then
    if off = 0x0000 then .next (s.writeBootctl (v.setWidth 32))
    else if off = 0x0008 then .next { s with boot := { s.boot with imgAddr := v } }
    else if off = 0x0010 then .next { s with boot := { s.boot with imgLen := v.setWidth 32 } }
    else .next s
  else if bar = 2 ∧ s.boot.accepted then
    if off < 0x100000 then
      if off % 0x1000 = 0x010 then .next (s.writeTail (off / 0x1000) (v.setWidth 32)) else .next s
    else if off < 0x500000 ∧ off % 4 = 0 then
      .next (s.writeEvent ((off - 0x100000) / 0x4000) (off % 0x4000 / 4) (v.setWidth 32))
    else .next s
  else .next s

/-! ## Inlets -/

/-- R103, R155: a read by the distributor: the bytes, none while a page is resolved, or a failure. That poison is a failure too, and
that an entry of the ring stops its inlet as a record does, is the model's choice. (DEDUCED, unsafe: log entry 69.) -/
def State.distRead (s : State) (c : Ctx) (va n : Nat) : State × Option (Option (List W8)) :=
  match s.homeRead c va n with
  | .ok bs => (s, some (some bs))
  | .bad .. => (s, some none)
  | .miss a _ =>
    if (c.inDemand a).isNone then (s, some none)
    else
      match s.awaitPage .part c.id 0 a false with
      | (s, some _) => (s, some none)
      | (s, none) => (s, none)

/-- R103. -/
def State.stopInlet (s : State) (n : Nat) : State := s.updInlet n fun i => { i with stopped := true }

/-- Whether an inlet has an entry that may be taken now (R102 to R104, R108). R36 holds the inlets closed to new teams, not to records.
(DESIGN CHOICE, unsafe: log entry 90.) -/
def State.mayTake (s : State) (i : Inlet) : Bool :=
  s.boot.st == .ready && i.isOpen && !i.blocked && !i.stopped && i.tail != i.head && !s.full &&
  !(s.sys.grids.any fun x => x.st == .waiting && x.inlet == some i.n) && (s.ctx? i.ctx).any fun c => !c.ended

/-- R102 to R108: the distributor takes the entry at the head of an inlet; one that it cannot read stops the inlet. (DEDUCED, unsafe:
log entry 69.) -/
def execInletEntryTake (n : Nat) (s : State) : Out :=
  match s.inlet? n with
  | none => .next s
  | some i =>
    match s.ctx? i.ctx with
    | none => .next s
    | some c =>
      if !s.mayTake i then .next s
      else
        match s.distRead c (i.base + 8 * (i.head.toNat % i.size)) 8 with
        | (s, none) => .next s
        | (s, some none) => .next (s.stopInlet n)
        | (s, some (some e)) =>
          let va := leNat e
          if va % 64 ≠ 0 then .next (s.stopInlet n)
          else
            match s.distRead c va 512 with
            | (s, none) => .next s
            | (s, some none) => .next (s.stopInlet n)
            | (s, some (some bs)) =>
              let l := parseLaunch bs
              let (id, s) := s.fresh
              .next (s.submit (newGrid id c.id l 0 none (some n) (min l.prio i.prio) (l.affinity % 16 &&& i.affinity.toNat)) bs)

/-! ## The end of a grid -/

/-- R61, R172: whether a group of a grid whose teams have all ended has words to carry to the end of the grid, a release at system scope. -/
def State.gridCarries (s : State) (x : Grid) : Bool :=
  x.st == .admitted && x.teamsLeft == 0 && s.groups.any fun g => g.grid == x.id && s.groupCarries g 7
/-- R61, R172: the groups of such a grid carry their words. -/
def State.carryGrid (s : State) (x : Grid) : State :=
  if s.gridCarries x then
    (s.groups.filter fun g => g.grid == x.id && s.groupCarries g 7).foldl (fun s g => s.carryFor g 7 x.id) s
  else s

/-- R55, R61, R183: whether a grid that has not been reported has ended. One that a trap or a lost die ended waits for the writes that
are in no group's name as well: those of its records and their count (R279), and of the takeover (R275). (DEDUCED, unsafe:
log entry 29.) -/
def State.gridOver (s : State) (x : Grid) : Bool :=
  let mine := s.groups.filter fun g => g.grid == x.id
  let caused := x.cause.isSome
  let acked := !(s.mem.snoops.any fun n => n.gid.elim caused fun i => i == x.id || mine.any fun g => g.gid == i) &&
    !(caused && !s.mem.later.isEmpty) && !s.gridCarries x
  match x.st with
  | .ended => x.kidsLive == 0 && acked
  | .admitted => x.teamsLeft == 0 && x.kidsLive == 0 && x.chunksLeft == 0 && acked &&
      mine.all fun g => g.mq.isEmpty && g.flight.isEmpty
  | _ => false

/-- R60, R61: the status and the detail of a grid's end. A parent whose child alone trapped reports 0: no ending of R60 fits, and that is
the model's choice. (DEDUCED, unsafe: log entry 67.) -/
def Grid.outcome (x : Grid) : Nat × Nat :=
  match x.cause, x.collBad with
  | some (c, d), _ => (c, d.toNat)
  | none, some k => (0x300, k)
  | none, none => (0, 0)

/-- R61: status and detail at an address of a mapping, and once their home has acknowledged them (R269), 1 more in the count. -/
def State.writeEvent16 (s : State) (c : Ctx) (m : Mapping) (va status detail : Nat) : State :=
  let pa := m.pa + (va - m.va)
  let k0 := s.run.nextId
  let s := (s.oneCopy c m m.pa).homeWriteBytes c.aesKey (pa + 4) (leBytes 4 status ++ leBytes 8 detail) none none
  (s.outsideWrite c va 16).writeAfter k0 c.aesKey pa none

/-- R446: the record that replaces an event that cannot be written. -/
def lostEventRec (va reason : Nat) : FaultRec where
  seq := 0
  kind := 1
  cause := cAccess
  slot := 0xFF
  source := 7
  pc := 0
  mask := 0
  aux := BitVec.ofNat 32 reason
  addr := BitVec.ofNat 64 va
  team := 0
  group := 0
  event := BitVec.ofNat 64 va
  gen := 0
  image := 0

/-- R61, R446: the completion event of a grid. Two points are the model's choice: a misaligned address gives reason 1, for which Table
10-6 has no other, and a page that has gone since the admission is not asked of the firmware again, the event being dropped at once.
(DEDUCED, unsafe: log entry 68.) -/
def State.reportEvent (s : State) (x : Grid) : State :=
  let va := x.launch.done
  match s.ctx? x.ctx with
  | none => s
  | some c =>
    if va = 0 then s
    else
      let lost (r : Nat) : State := (s.logRecord c.id (lostEventRec va r)).1
      match c.mapOf va with
      | none => lost (c.faultReason va)
      | some m =>
        let pa := m.pa + (va - m.va)
        if !m.write then lost 2
        else if !backed s.boot.expanders pa || va % 16 != 0 then lost 1
        else s.writeEvent16 c m va x.outcome.1 x.outcome.2

/-- R55, R341: the parent's handle takes the status. -/
def State.tellParent (s : State) (x : Grid) : State :=
  match x.parent with
  | none => s
  | some (p, tid, h) =>
    let st := BitVec.ofNat 32 x.outcome.1
    let s := s.updTeam tid fun t => { t with kids := t.kids.zipIdx.map fun (k : Kid × Nat) =>
      if k.2 = h then { k.1 with status := some st } else k.1 }
    s.updGrid p fun y => { y with kidsLive := y.kidsLive - 1 }

/-- What goes with a grid that has been reported: its groups but for engine work under way, its chunks, its locks (R386). -/
def State.closeGrid (s : State) (x : Grid) : State :=
  let busy (g : Group) : Bool := !g.mq.isEmpty || s.sys.copies.any fun c => c.gid == g.gid
  let mine := (s.groups.filter fun g => g.grid == x.id).map (·.gid)
  { s with
    groups := s.groups.filter fun g => g.grid != x.id || busy g
    mem := { s.mem with acquired := s.mem.acquired.filter fun y => !mine.contains y.1 }
    sys := { s.sys with
      gangs := s.sys.gangs.filter fun (b : GangBar) => b.grid != x.id
      chunks := s.sys.chunks.filter fun (c : Chunk) => c.grid != x.id || c.st == .started
      copies := s.sys.copies.map fun (c : CopyOp) => if mine.contains c.gid then { c with und := some (s.undelivered c) } else c
      ctxs := s.sys.ctxs.map fun (c : Ctx) => c.releaseLocks fun h => h.inGrid x.id } }

/-- R55, R60, R61, R446: a grid that has ended is reported. -/
def execCompletionEvent (id : Nat) (s : State) : Out :=
  match s.grid? id with
  | none => .next s
  | some x =>
    if !s.gridOver x then .next (s.carryGrid x)
    else
      let s := ((s.reportEvent x).tellParent x).closeGrid x
      .next ((s.updGrid id fun x => { x with st := .reported }).recheck)

end Sys2Proof.Machine
end

