-- ==== Sys2Proof/Machine/BootRom.lean ====
section
/-! DEFINITION. Power-up, the boot ROM, the firmware's steps, the identity of the part and the registers of BAR0 and BAR2 as the
host reads them (R13, R29 to R33, R101 to R105, R280, Tables 1-7 to 1-9 and 4-1). -/

namespace Sys2Proof.Machine

/-! ## Power -/

/-- R29, R163: power-up or a control-die reset. The fuses and the host's own memory stay; the counter of free values and the
identities go on. -/
def State.restart (s : State) : State :=
  { State.reset with
    boot := { State.reset.boot with
      sku := s.boot.sku, leaf := s.boot.leaf, secver := s.boot.secver, identity := s.boot.identity, antiReplay := s.boot.antiReplay }
    sys := { State.reset.sys with dies := freshDies s.boot.sku }
    mem := { State.reset.mem with home := s.mem.home.filter fun c => !devicePa c.1 }
    run := { State.reset.run with free := s.run.free, nextId := s.run.nextId } }

def execPowerUp (s : State) : Out := .next s.restart

/-- The identity leaves of the part. -/
def leafCount : Nat := 16384

/-- R33: whether booting now certifies an attestation key. -/
def Boot.certifies (b : Boot) : Bool := !b.ctl.getLsbD 1 && decide (b.leaf < leafCount)

/-- R33: a loss of power between the fuse and the signature uses up the leaf. -/
def execPowerLoss (whileCertifying : Bool) (s : State) : Out :=
  let s := if whileCertifying ∧ s.boot.st = .firmware ∧ s.boot.certifies = true then
    { s with boot := { s.boot with leaf := s.boot.leaf + 1 } } else s
  .next s.restart

/-! ## The boot ROM -/

/-- R29, R30: the host writes BOOTCTL. -/
def execBootGo (v : W32) (s : State) : Out := .next (s.writeBootctl v)

/-- R30: the fetch ends with IMGLEN bytes, or with a bus error. That IMGLEN is the register as it stands then, not as it stood at GO, is the
model's choice. (DESIGN CHOICE, unsafe: log entry 89.) -/
def execImageFetchComplete (image : Option (List W8)) (s : State) : Out :=
  if s.boot.st ≠ .fetch then .next s
  else
    match image with
    | none => .next { s with boot := { s.boot with st := .rejected, reason := 5#8 } }
    | some bs =>
      if bs.length ≠ s.boot.imgLen.toNat then .next s
      else .next { s with boot := { s.boot with st := .verify, image := bs } }

def signatureLen : Nat := 2692
/-- R30: the first check that an image fails, as its reason. -/
def imageBad (b : List W8) (imgLen secver : Nat) : Option W8 :=
  let sig := leAt b 0x18 8
  if leAt b 0 4 ≠ 0x46524E4C ∨ leAt b 4 4 ≠ 1 ∨ leAt b 0x0C 4 ≠ 0 ∨ leAt b 0x20 32 ≠ 0 then some 1#8
  else if 64 + leAt b 0x10 8 ≠ sig ∨ sig + signatureLen ≠ imgLen then some 2#8
  else if leAt b 8 4 < secver then some 3#8
  else if !Config.xmssVerifies b then some 4#8
  else none

/-- R30, with IMGLEN as it stands. (DESIGN CHOICE, unsafe: log entry 89.) -/
def execImageVerifyComplete (s : State) : Out :=
  if s.boot.st ≠ .verify then .next s
  else
    match imageBad s.boot.image s.boot.imgLen.toNat s.boot.secver.toNat with
    | some r => .next { s with boot := { s.boot with st := .rejected, reason := r, image := [] } }
    | none =>
      .next { s with
        boot := { s.boot with st := .firmware, memReset := false }
        sys := { s.sys with dies := s.sys.dies.map fun d => { d with inReset := false, lastBeat := s.boot.now } } }

/-! ## The firmware's steps -/

/-- R137, Table 5-6: the scope table, from the live dies, the ports that trained and the packages found. -/
def scopeTable (dies : List Nat) (ports : BitVec 16) (packages : List (BitVec 12 × Nat)) : List ScopeEntry :=
  let near (n : Nat) : List (BitVec 12) := if ports = 0#16 then [] else (packages.filter fun p => decide (p.2 ≤ n)).map (·.1)
  let wide (ps : List (BitVec 12)) (host : Bool) : ScopeEntry := ⟨0, dies, true, ps, host⟩
  [⟨1, [], false, [], false⟩, ⟨8, [], false, [], false⟩, ⟨128, [], false, [], false⟩, wide [] false, wide (near 1) false,
    wide (near 2) false, wide (near 4096) false, wide (near 4096) true]

/-- R32, R33: the attestation key of a boot, certified with the leaf at the old count. n numbers the boot's entropy. -/
def Boot.certify (b : Boot) (n : Nat) : Attest :=
  ⟨b.leaf, Config.attestPublic n, Config.attestSecret n,
    (leBytes 4 b.leaf).reverse ++ leBytes 2688 (Config.xmssSignature b.identity.seed b.leaf (Config.attestPublic n)).toNat⟩

/-- R138, R14: whether a numbering gives every live die a block of core ids of its own. -/
def State.blocksOk (s : State) (blocks : List Nat) : Bool :=
  blocks.length == s.sys.dies.length && decide blocks.Nodup && blocks.all fun b => decide (b < 8)

/-- R31, R33: the firmware's steps end, in their order, all six of them or the first done. fuse says whether a step 5
that failed had blown its fuse, which uses up the leaf. Which step fails, and what the firmware finds, is the environment's. (DESIGN CHOICE, safe: log entry 58.) -/
def execFirmwareStepsComplete (done : Nat) (fuse : Bool) (r : FirmwareReport) (s : State) : Out :=
  if s.boot.st ≠ .firmware || !s.blocksOk r.blocks then .next s
  else
    let b := s.boot
    let all := decide (6 ≤ done)
    let certify := b.certifies && (decide (5 ≤ done) || fuse && done == 4)
    let ver := leAt b.image 8 4
    .next { s with
      boot := { b with
        st := if all then .ready else .failed
        ports := if 1 ≤ done then r.ports else b.ports
        number := if 2 ≤ done then r.number else b.number
        scopes := if 3 ≤ done then scopeTable ((s.sys.dies.filter (·.alive)).map (·.num)) r.ports r.packages else b.scopes
        trees := b.trees || decide (3 ≤ done)
        expanders := if 4 ≤ done then r.expanders else b.expanders
        memInit := b.memInit || decide (4 ≤ done)
        antiReplay := if 4 ≤ done then [0, 0, 0, 0] else b.antiReplay
        attest := if certify && decide (5 ≤ done) then some (b.certify s.run.free) else none
        leaf := if certify then b.leaf + 1 else b.leaf
        secver := if all && decide (b.secver.toNat < ver) then BitVec.ofNat 32 ver else b.secver }
      sys := { s.sys with dies := (s.sys.dies.zip r.blocks).map fun (d : Die × Nat) => { d.1 with block := d.2 } }
      run := { s.run with free := s.run.free + 1 } }

/-! ## Replies to the host -/

/-- What the firmware answers a request with. -/
def rDone : Nat := 0
def rError : Nat := 1
def rNoIdentity : Nat := 2

/-- The replies to the host, the last one last; op names the operation whose writes the reply waits for. -/
def State.replyFor (s : State) (op : Option Nat) (code : Nat) (data : List W8) : State :=
  { s with sys := { s.sys with replies := s.sys.replies ++ [⟨code, data, none, op⟩] } }
def State.reply (s : State) (code : Nat) (data : List W8) : State := s.replyFor none code data
/-- R269: whether every snoop of an operation has been answered. -/
def State.acknowledged (s : State) (op : Nat) : Bool := !(s.mem.snoops.any fun n => n.gid == some op)
/-- R269: whether the host has got a reply. -/
def State.given (s : State) (r : Reply) : Bool := r.op.all s.acknowledged
/-- R29: a request over the host link, which is not answered before an image has been accepted. -/
def State.overLink (s : State) (f : State → State) : Out := .next (if s.boot.accepted then f s else s)

/-- R32, R33: the answer holds the attestation key and the identity signature that certifies it; the private seed and the secret
key never leave. (PRESUMED, unsafe: log entry 62.) -/
def execAttestationRequest (s : State) : Out :=
  if s.boot.st ≠ .ready then .next s
  else
    match s.boot.attest with
    | some k => .next (s.reply rDone (leBytes 1952 k.publicKey.toNat ++ k.signature))
    | none => .next (s.reply rNoIdentity [])

/-! ## Registers as the host reads them -/

/-- Table 1-9. -/
def BootSt.code : BootSt → Nat
  | .waitImage => 0
  | .fetch => 1
  | .verify => 2
  | .rejected => 3
  | .firmware => 4
  | .ready => 5
  | .failed => 6

/-- DIEMAP: bit n is the live die of the firmware's number n; before the numbering, of the number that the model gave it. (DESIGN CHOICE,
unsafe: log entry 80.) -/
def State.dieMap (s : State) : Nat :=
  (s.sys.dies.foldl (fun m d => if d.alive then m + 2 ^ d.num else m) 0) + 0xF00 +
    (List.range 4).foldl (fun m i => if s.boot.expanders.getD i 0 = 0 then m else m + 2 ^ (12 + i)) 0

/-- Table 1-7, R280: the 32-bit word of BAR0 at an offset; what is reserved reads 0. -/
def State.bar0 (s : State) (off : Nat) : W32 :=
  let b := s.boot
  if off = 0x0000 then b.ctl
  else if off = 0x0004 then BitVec.ofNat 32 (b.st.code + b.reason.toNat * 256)
  else if off = 0x0008 then b.imgAddr.setWidth 32
  else if off = 0x000C then (b.imgAddr >>> 32).setWidth 32
  else if off = 0x0010 then b.imgLen
  else if off = 0x0014 then BitVec.ofNat 32 s.dieMap
  else if off = 0x0018 then BitVec.ofNat 32 b.leaf
  else if off = 0x0020 then b.pevCount
  else if 0x8000 ≤ off ∧ off < 0x10000 then
    match b.pevLog.find? fun r => r.seq.toNat % 512 == (off - 0x8000) / 64 with
    | some r => BitVec.ofNat 32 (leAt r.bytes (off % 64 / 4 * 4) 4)
    | none => 0
  else 0

/-- Table 4-1, R105: the 32-bit word of BAR2 at an offset, once the host link answers. -/
def State.bar2Word (s : State) (off : Nat) : W32 :=
  if off < 0x100000 then
    match s.inlet? (off / 0x1000) with
    | none => 0
    | some i =>
      match off % 0x1000 with
      | 0x000 => BitVec.ofNat 32 i.base
      | 0x004 => BitVec.ofNat 32 (i.base / 2 ^ 32)
      | 0x008 => BitVec.ofNat 32 i.size
      | 0x00C => BitVec.ofNat 32 (i.prio + 16 * i.affinity.toNat)
      | 0x010 => i.tail
      | 0x014 => i.head
      | 0x018 => BitVec.ofNat 32 (i.isOpen.toNat + 2 * i.blocked.toNat + 4 * i.stopped.toNat)
      | _ => 0
  else if off < 0x500000 then
    let slot := (off - 0x100000) / 0x4000
    let word := off % 0x4000 / 4
    match s.eventPa slot word with
    | none => SMap.get s.sys.events (4096 * slot + word)
    | some (c, pa) => BitVec.ofNat 32 (leNat (s.mem.bytes c.aesKey pa 4))
  else 0

/-- R29: what a read of BAR2 gives: none before an image has been accepted. -/
def State.bar2 (s : State) (off : Nat) : Option W32 := if s.boot.accepted then some (s.bar2Word off) else none

end Sys2Proof.Machine
end

