-- ==== Sys2Proof/Machine/Coherence.lean ====
section
/-! DEFINITION. Steps of the caches, the homes and the links: REFRESH_WINDOW, LINK_SLEEP, HOME_WRITE, SNOOP_ANSWER,
LINK_WAKE_TIMEOUT, L1_EVICTION, BASIN_EVICTION, CXL_CACHE_SNOOP (R20, R161, R267 to R273, R280). -/

namespace Sys2Proof.Machine

/-- R20: reads wait for the end of the window; no value changes. -/
def execRefreshWindow (_die _bank : Nat) (s : State) : Out := .next s

/-- R273: the link of a compute die to a memory die goes to sleep, unless a snoop is on its way. -/
def execLinkSleep (die mem : Nat) (s : State) : Out :=
  if 4 ≤ mem || s.mem.snoops.any fun n => n.die == die && n.words.any fun wa => memDieOf wa == mem then .next s
  else .next { s with mem := { s.mem with asleep := s.mem.asleep.filter (· != (die, mem)) ++ [(die, mem)] } }

/-- R188: the host reads its own memory, whose dirty words its home agent takes out of the L1s first (R161). -/
def State.hostRead (s : State) (pa n : Nat) (write : Bool) : State × List W8 :=
  let s := (pieces n pa n).foldl (fun s x => s.hostTake (x.1 / 4) write) s
  (s, s.mem.bytes 0 pa n)

/-- R188, R269: a write reaches its home: the other basins that hold a word of it are snooped. At a host address it is the host's own
store, or its compare and swap, which writes only where the bytes are those that it expects. A memory die in reset takes none (R29). -/
def execHomeWrite (pa : Nat) (data : List W8) (key : Nat) (who : HomeWriter) (s : State) : Out :=
  if s.boot.memReset ∧ devicePa pa then .next s
  else if (List.range data.length).all fun i => devicePa (pa + i) && backed s.boot.expanders (pa + i) then
    match who with
    | .store src => .next (s.sys.ctxs.foldl (fun s c => (c.vaSpans pa data.length).foldl (fun s x => s.outsideWrite c x.1 x.2) s)
        (s.homeWriteBytes key pa data src none))
    | .swap _ => .next s
  else if (List.range data.length).all fun i => !devicePa (pa + i) then
    let (s, old) := s.hostRead pa data.length true
    match who with
    | .store _ => .next (s.homeWriteBytes 0 pa data none none)
    | .swap expected => if expected = old then .next (s.homeWriteBytes 0 pa data none none) else .next s
  else .next s

/-- R280: bit 8 of the record of a snoop whose retry was answered. -/
def State.markAnswered (s : State) (n : Snoop) : State :=
  match n.entry with
  | none => s
  | some q => if n.tries = 1 then { s with boot := { s.boot with pevLog := s.boot.pevLog.map fun r =>
      if r.seq = q ∧ r.cause = cLinkWake then { r with aux := r.aux ||| 0x100#32 } else r } } else s

/-- R269, R273: a live die answers a snoop: it has discarded the words and their mirror copies, and its link is awake. -/
def execSnoopAnswer (k : Nat) (s : State) : Out :=
  match s.mem.snoops.find? fun n => n.k == k with
  | none => .next s
  | some n =>
    if !(s.sys.dies.any fun d => d.num == n.die && d.alive && !d.inReset) then .next s
    else
      let s := s.markAnswered n
      let mem := n.words.foldl (fun m wa => m.invalidate n.die wa) s.mem
      .next { s with mem := { mem with
        snoops := mem.snoops.filter fun x => x.k != k
        asleep := mem.asleep.filter fun x => !(x.1 == n.die && n.words.any fun wa => x.2 == memDieOf wa) } }.settleLater

/-- R280: the auxiliary word of LINK_WAKE_TIMEOUT. -/
def wakeAux (n : Snoop) : W32 :=
  BitVec.ofNat 32 (memDieOf (n.words.headD 0) + 16 * (n.die % 8) + if n.awake then 512 else 0)

/-- A record of a kind that concerns no group. -/
def plainRec (kind cause source : Nat) (aux : W32) (addr : Nat) : FaultRec where
  seq := 0
  kind := kind
  cause := cause
  slot := 0xFF
  source := source
  pc := 0
  mask := 0
  aux := aux
  addr := BitVec.ofNat 64 addr
  team := 0
  group := 0
  event := 0
  gen := 0
  image := 0

/-- R273: the bound of 3 µs expires. The first time the event is logged and the snoop is sent again; after that the snoop goes
through the control die. (DEDUCED, unsafe: log entry 47.) -/
def execLinkWakeTimeout (k : Nat) (s : State) : Out :=
  match s.mem.snoops.find? fun n => n.k == k with
  | none => .next s
  | some n =>
    let q := s.boot.pevCount
    let s := if n.tries = 0 then s.packageRecord (plainRec 1 cLinkWake 6 (wakeAux n) 0) else s
    .next { s with mem := { s.mem with snoops := s.mem.snoops.map fun x =>
      if x.k = k then { x with
        tries := x.tries + 1
        relayed := x.relayed || decide (1 ≤ x.tries)
        entry := if x.tries = 0 then some q else x.entry } else x } }

/-- R268: a line of an L1 is evicted; what goes to its home for want of room in the basin goes as one request for each span (R270). -/
def execL1Eviction (core line : Nat) (s : State) : Out :=
  .next (((s.mem.l1.filter fun c => c.own == core && c.wa / 32 == line).foldl
    (fun s c => s.evictL1 (s.cacheWho core (s.dieNum core) c.ctx) c) s).mergeSnoops s.run.nextId)

/-- R269, R271: a line of a basin is evicted, its dirty words to their home. -/
def execBasinEviction (die line : Nat) (s : State) : Out :=
  .next (((s.mem.basin.filter fun c => c.own == die && c.wa / 32 == line && !c.mirror).foldl
    (fun s c => s.basinToHome (s.cacheWho 0 die c.ctx).key c false none) s).mergeSnoops s.run.nextId)

/-- R161, R267: the host's home agent snoops a HOST line in the L1s: dirty words go to the host's memory, and are discarded when it
wants the line for itself. -/
def execCxlCacheSnoop (pa : Nat) (invalidate : Bool) (s : State) : Out :=
  if devicePa pa then .next s
  else
    .next ((List.range 32).foldl (fun s i =>
      let wa := pa / 128 * 32 + i
      let s := s.hostFlush wa (2 ^ 20)
      if invalidate then s.hostInvalidate wa (2 ^ 20) else s) s)

end Sys2Proof.Machine
end

