-- ==== Sys2Proof/Machine/Collective.lean ====
section
/-! DEFINITION. Launch-bound collectives: the blocks on the wire (R264), and the steps COLLECTIVE_START, WIRE_BLOCK_RECEIVE,
COLLECTIVE_COMPLETE and COLLECTIVE_FAIL_TIMEOUT (R260 to R266). CHUNK_FIRE stands in Lifecycle. -/

namespace Sys2Proof.Machine

/-! ## Wire blocks -/

/-- R264: CRC-32C, one byte. -/
def crcByte (c : W32) (b : W8) : W32 :=
  (List.range 8).foldl (fun c _ => if c.getLsbD 0 then (c >>> 1) ^^^ 0x82F63B78#32 else c >>> 1) (c ^^^ b.setWidth 32)
/-- R264: initial value and final XOR all ones. -/
def crc32c (bs : List W8) : W32 := ~~~(bs.foldl crcByte 0xFFFFFFFF#32)

def expField (x : Nat) : Nat := x / 2 ^ 23 % 256
/-- R264: the least exponent field of a block, when the block may be compressed. -/
def compressible (xs : List Nat) : Option Nat :=
  let emin := xs.foldl (fun m x => min m (expField x)) 255
  if xs.all fun x => expField x != 255 && decide (expField x ≤ emin + 15) then some emin else none

/-- The 28-bit code of a value. -/
def wireCode (emin x : Nat) : Nat := x / 2 ^ 31 % 2 * 2 ^ 27 + (expField x - emin) % 16 * 2 ^ 23 + x % 2 ^ 23
def wireValue (emin c : Nat) : Nat := c / 2 ^ 27 % 2 * 2 ^ 31 + (emin + c / 2 ^ 23 % 16) % 256 * 2 ^ 23 + c % 2 ^ 23

/-- Fields of n bits, the first least significant. -/
def packBits (n : Nat) : List Nat → Nat
  | [] => 0
  | x :: rest => x % 2 ^ n + 2 ^ n * packBits n rest
def unpackBits (n : Nat) : Nat → Nat → List Nat
  | 0, _ => []
  | k + 1, x => x % 2 ^ n :: unpackBits n k (x / 2 ^ n)

/-- Table 9-14: the bytes of a block before its check. -/
def wireBody (fmt : Nat) (xs : List Nat) : List W8 :=
  let raw := 0xFF#8 :: 0#8 :: 0#8 :: 0#8 :: leBytes (128 * sizeOf fmt) (packBits (8 * sizeOf fmt) xs)
  if fmt = fmtFp32 then
    match compressible xs with
    | some e => BitVec.ofNat 8 e :: 0#8 :: 0#8 :: 0#8 :: leBytes 448 (packBits 28 (xs.map (wireCode e)))
    | none => raw
  else raw
/-- R264: a block as it is sent. -/
def wireEncode (fmt : Nat) (xs : List Nat) : List W8 :=
  let b := wireBody fmt xs
  b ++ leBytes 4 (crc32c b).toNat
/-- R264, R265: the values of a block whose length and check are right. -/
def wireDecode (fmt : Nat) (bs : List W8) : Option (List Nat) :=
  let n := bs.length - 4
  let b := bs.take n
  if leNat (bs.drop n) ≠ (crc32c b).toNat then none
  else
    match b with
    | h :: _ :: _ :: _ :: rest =>
      if h = 0xFF#8 then
        if rest.length = 128 * sizeOf fmt then some (unpackBits (8 * sizeOf fmt) 128 (leNat rest)) else none
      else if fmt = fmtFp32 ∧ rest.length = 448 then some ((unpackBits 28 128 (leNat rest)).map (wireValue h.toNat))
      else none
    | _ => none

/-! ## The reduction -/

def collTy (fmt : Nat) : FTy := if fmt = fmtFp64 then .fp64 else .fp32
/-- R262: an element as the accumulator takes it. -/
def collIn (fmt x : Nat) : Nat := if fmt = fmtBf16 then x % 2 ^ 16 * 2 ^ 16 else x
/-- R262: the result of one element, over the values of the ranks in ascending order. -/
def collElem (fmt op : Nat) (xs : List Nat) : Nat :=
  match xs.map (collIn fmt) with
  | [] => 0
  | x :: rest =>
    let t := collTy fmt
    let y := rest.foldl (fun y x => (if op = 0 then fltAdd t .rne false y x else fltMax t true y x).1) x
    if fmt = fmtBf16 then (convert ((NumTy.flt fp32).decode y) (.flt bf16) .rne false).1 else y

/-! ## Chunks -/

/-- The rank of this package in the communicator of a grid. -/
def State.rankOf (s : State) (x : Grid) : Nat := ((s.sys.comms.find? x.inComm).map (·.rank)).getD 0

/-- A byte of a context at its home, poisoned or not. -/
def State.homeByte (s : State) (c : Ctx) (va : Nat) : W8 := ((c.mapOf va).map fun m => s.mem.byte c.aesKey (m.pa + (va - m.va))).getD 0

/-- R261, R263: the collective of a chunk starts, and the part reads its own values once every write of the chunk's teams has been
performed. A block with poison is not taken for good (Table 10-4). (DEDUCED, unsafe: log entry 46.) -/
def execCollectiveStart (grid chunk : Nat) (s : State) : Out :=
  match s.grid? grid, s.chunk? grid chunk with
  | some x, some k =>
    match k.st, s.ctx? x.ctx with
    | .fired, some c =>
      if s.chunkOwed x chunk then .next s
      else if s.ranks x = 1 then .next (s.soleChunk x chunk)
      else
        let sz := sizeOf x.resPtr.fmt
        let n := x.chunkLen
        let va := x.chunkAddr chunk
        let s := s.flushVa c va (n * sz) grid
        let rs := (List.range (n / 128)).map fun b => s.homeRead c (va + 128 * sz * b) (128 * sz)
        let start (bad : List Nat) : Out :=
          .next (s.updChunk grid chunk fun k => { k with
            st := .started
            own := (List.range n).map fun i =>
              BitVec.ofNat 64 (leNat ((List.range sz).map fun j => s.homeByte c (va + sz * i + j)))
            poison := bad })
        (match rs.findSome? fun r => match r with
            | .miss a _ => some a
            | _ => none with
         | some a =>
           if (c.inDemand a).isNone then .next (s.endChunk x chunk false)
           else
             match s.awaitPage .part c.id 0 a false with
             | (s, some _) => .next (s.endChunk x chunk false)
             | (s, none) => .next s
         | none =>
           if rs.any fun r => match r with
             | .bad _ 6 => false
             | .bad .. => true
             | _ => false
           then .next (s.endChunk x chunk false)
           else start ((List.range (n / 128)).filter fun b => match rs.getD b (.ok []) with
             | .bad .. => true
             | _ => false))
    | _, _ => .next s
  | _, _ => .next s

/-- R263: whether a chunk takes the path of the bench: above the threshold, with bench cores. -/
def State.sliced (s : State) (x : Grid) : Bool :=
  decide ((if x.launch.thresh = 0 then 262144 else x.launch.thresh) < x.chunkLen * sizeOf x.resPtr.fmt) &&
  (s.ctx? x.ctx).any fun c => c.bench != 0
/-- R263: the rank whose slice holds a block. How slices of unequal length are cut is the model's choice. (DESIGN CHOICE, safe: log entry 57.) -/
def sliceOf (ranks blocks b : Nat) : Nat := b * ranks / max 1 blocks

/-- R263: the ranks whose copy of a block this package awaits: on the bench's path those of every rank for its own slice, and the
result of each other rank's slice; else those of every rank. -/
def State.awaited (s : State) (x : Grid) (b rank : Nat) : Bool :=
  let me := s.rankOf x
  rank != me && (!s.sliced x || sliceOf (s.ranks x) (x.chunkLen / 128) b == me || sliceOf (s.ranks x) (x.chunkLen / 128) b == rank)

/-- R263, R264, Table 10-4: a block of this rank as it is sent: one with poison goes raw, with a check that fails. -/
def Chunk.sent (k : Chunk) (fmt b : Nat) : List W8 :=
  let xs := (List.range 128).map fun i => (k.own.getD (128 * b + i) 0#64).toNat
  if k.poison.contains b then
    let body := 0xFF#8 :: 0#8 :: 0#8 :: 0#8 :: leBytes (128 * sizeOf fmt) (packBits (8 * sizeOf fmt) xs)
    body ++ leBytes 4 (~~~(crc32c body)).toNat
  else wireEncode fmt xs

/-- R261: the k-th grid that was bound to a communicator of a context slot. -/
def State.boundGrid (s : State) (b : BoundGrid) : Option Grid :=
  (s.ctxAt? b.slot).bind fun c => s.sys.grids.find? fun x =>
    x.ctx == c.id && x.launch.collBound && x.launch.coll / 2 ^ 16 == b.comm && x.bound == some b.k

/-- R261, R264, R265: a copy of a block of the k-th bound grid of a communicator arrives. A good one is taken, a bad one is requested
again. The eighth bad one in succession fails the chunk, and, whatever has been taken, so does the loss of every route or another rank's
word that the chunk failed there. (DESIGN CHOICE, safe: log entry 57.) -/
def execWireBlockReceive (grid : BoundGrid) (chunk rank idx : Nat) (block : List W8) (route : Bool) (s : State) : Out :=
  match s.boundGrid grid with
  | none => .next s
  | some x =>
    match s.chunk? x.id chunk with
    | none => .next s
    | some k =>
      let key := 2 ^ 32 * rank + idx
      if s.ranks x ≤ rank ∨ rank = s.rankOf x then .next s
      else if !route then .next (if k.st = .fired ∨ k.st = .started then s.endChunk x chunk false else s)
      else if k.st ≠ .started ∨ s.awaited x idx rank = false ∨ x.chunkLen ≤ 128 * idx ∨ (k.got.any fun g => g.1 == key) = true then .next s
      else
        match wireDecode x.resPtr.fmt block with
        | some vs => .next (s.updChunk x.id chunk fun k => { k with
            got := kvSet k.got key (vs.map (BitVec.ofNat 64)), bad := k.bad.filter fun b => b.1 != key })
        | none =>
          let n := (kvGet k.bad key).getD 0 + 1
          if 8 ≤ n then .next (s.endChunk x chunk false)
          else .next (s.updChunk x.id chunk fun k => { k with bad := kvSet k.bad key n })

/-- Element e of a rank's chunk. -/
def Chunk.value (k : Chunk) (me rank e : Nat) : Nat :=
  if rank = me then (k.own.getD e 0#64).toNat
  else (((kvGet k.got (2 ^ 32 * rank + e / 128)).getD []).getD (e % 128) 0#64).toNat
/-- Whether every block that this package awaits has come, and none of its own is poisoned. -/
def State.chunkFull (s : State) (x : Grid) (k : Chunk) : Bool :=
  k.poison.isEmpty && (List.range (s.ranks x)).all fun r => (List.range (x.chunkLen / 128)).all fun i =>
    !s.awaited x i r || (kvGet k.got (2 ^ 32 * r + i)).isSome
/-- R262, R263: element e of a result: reduced here, or as the rank of its slice stored it. -/
def State.chunkElem (s : State) (x : Grid) (k : Chunk) (e : Nat) : Nat :=
  let me := s.rankOf x
  let n := s.ranks x
  let owner := sliceOf n (x.chunkLen / 128) (e / 128)
  if s.sliced x && owner != me then k.value me owner e
  else collElem x.resPtr.fmt (x.launch.coll % 256) ((List.range n).map fun r => k.value me r e)

/-- Write bytes at their homes, page by page of the elements, in the name of a grid; the answer is what met a write that failed. -/
def State.partWriteAll (c : Ctx) (op va sz : Nat) : List (List W8) → State → State × Acc Unit
  | [], s => (s, .ok ())
  | bs :: rest, s =>
    match s.partWrite c va bs (some op) with
    | (s, .ok _) => partWriteAll c op (va + sz) sz rest s
    | r => r

/-- R155, R262, R263, R266: the results are written into the chunk. -/
def execCollectiveComplete (grid chunk : Nat) (s : State) : Out :=
  match s.grid? grid, s.chunk? grid chunk with
  | some x, some k =>
    match s.ctx? x.ctx with
    | none => .next s
    | some c =>
      if k.st ≠ .started ∨ s.chunkFull x k = false then .next s
      else
        let fmt := x.resPtr.fmt
        let out := (List.range x.chunkLen).map fun e => leBytes (sizeOf fmt) (s.chunkElem x k e)
        let (t, r) := State.partWriteAll c grid (x.chunkAddr chunk) (sizeOf fmt) out s
        match t.mergeSnoops s.run.nextId, r with
        | s, .ok _ => .next (s.endChunk x chunk true)
        | s, .bad _ _ => .next (s.endChunk x chunk false)
        | s, .miss a w =>
          if (c.inDemand a).isNone then .next (s.endChunk x chunk false)
          else
            match s.awaitPage .part c.id 0 a w with
            | (s, some _) => .next (s.endChunk x chunk false)
            | (s, none) => .next s
  | _, _ => .next s

/-- R265: a chunk that another rank never fires fails 2^30 router cycles after this rank fired it; one with a poisoned block of its own,
no copy of which can be good (Table 10-4), fails on every rank. -/
def execCollectiveFailTimeout (grid chunk : Nat) (s : State) : Out :=
  match s.grid? grid, s.chunk? grid chunk with
  | some x, some k =>
    if s.ranks x ≠ 1 ∧ (k.st = .fired ∨ (k.st = .started ∧ k.poison ≠ [])) then .next (s.endChunk x chunk false) else .next s
  | _, _ => .next s

end Sys2Proof.Machine
end

