-- ==== Sys2Proof/Machine/Control.lean ====
section
/-! DEFINITION. Control flow: BR, BRC, BRV, JOIN, JTAB, CALL, RET, EXIT and LOOP (R313 to R318, R321, R330 to R333, R340, R366). -/

namespace Sys2Proof.Machine

/-- R313: PC + 8 x SignExt(offset). -/
def target (pc : W64) (off : BitVec 32) : W64 := pc + (off.signExtend 64 <<< 3)

/-- The eddy-stack depth limit of the group's grid. -/
def State.depthLimit (s : State) (g : Group) : Nat := ((s.grid? g.grid).map (·.launch.depth)).getD 0

/-- R314. -/
def execBr (g : Guard) (off : BitVec 32) (s : State) : Out :=
  issue (.br g off) s fun k h _ s => .jump s (target (h.pc k) off)

/-- Table 12-8. -/
def brcHolds (h : Group) (k : Nat) (t : BrcTest) : Bool :=
  match t with
  | .cmp c w a b => c.holds (if w then 64 else 32) (h.sop k a w) (h.sop k b w)
  | .anyS zero w i => (h.snum k i w == 0) == zero
  | .anyP zero i => (h.getP i &&& h.active k == 0#96) == zero

/-- R315. -/
def execBrc (g : Guard) (o : BrcOp) (s : State) : Out :=
  issue (.brc g o) s fun k h _ s => if brcHolds h k o.test then .jump s (target (h.pc k) o.off) else .done s

/-- R42, R316, R439. -/
def execBrv (g : Guard) (o : BrvOp) (s : State) : Out :=
  issue (.brv g o) s fun k h sel s =>
    let t := h.strand k
    let dest := target t.pc o.off
    if sel = t.members then .jump s dest
    else
      match h.split k (target t.pc o.join) false (s.depthLimit h)
          ⟨nextPc t.pc (.brv g o), t.members &&& ~~~sel, t.active &&& ~~~sel, none⟩ [⟨dest, sel, sel, none⟩] with
      | none => .trap s (h.trapAt k cEddy (h.splitDepth k 1 % 2 ^ 16) sel 0)
      | some h => .placed (s.setGroup h)

/-- R43, R330. -/
def execJoin (s : State) : Out :=
  issue .join s fun k h _ s =>
    if (h.strand k).join = some (h.pc k) then .placed (s.setGroup (h.park k)) else .done s

/-- JTAB's targets, ascending by the smallest index that selects each: (target, lanes). xs are (lane, index, target). -/
def jtabTargets (xs : List (Nat × Nat × W64)) : List (W64 × LaneMask) :=
  let ts := distinct ((sortBy (fun x => x.2.1) xs).map fun x => x.2.2)
  ts.map fun t => (t, maskOf ((xs.filter fun x => x.2.2 == t).map (·.1)))

/-- R331 to R333, R439. -/
def execJtab (g : Guard) (o : JtabOp) (s : State) : Out :=
  issue (.jtab g o) s fun k h sel s =>
    let p := Ptr.ofBits (h.getA o.ptr)
    let ls := lanesOf sel
    let idx (l : Nat) : Nat := (h.getV o.a l).toNat
    let addr (l : Nat) : Nat := p.elemAddr (Int.ofNat (idx l))
    let first := addr (ls.headD 0)
    if s.domainBad h p then .trap s (h.trapAt k cDomain 0 sel first)
    else if p.fmt ≠ fmtI32 then .trap s (h.trapAt k cFormat 0 sel first)
    else
      match ls.filter fun l => decide (p.count ≤ idx l) with
      | l :: rest => .trap s (h.trapAt k cJtab (idx l) (maskOf (l :: rest)) (modPow (Int.ofNat p.base + 4 * Int.ofNat (idx l)) 64))
      | [] =>
        let x := s.sortLanes h p 1 4 4 (ls.map fun l => (l, some (Int.ofNat (idx l))))
        match x.out, x.mis with
        | (l, a) :: rest, _ => .trap s (h.trapAt k cBounds 0 (maskOf ((l :: rest.map (·.1)))) a)
        | [], (l, a) :: rest => .trap s (h.trapAt k cMisaligned 0 (maskOf ((l :: rest.map (·.1)))) a)
        | [], [] =>
          if s.readWaits h p 4 (x.ok.map (·.2)) then .stall s
          else
          match loadLanes (s.port h p) 4 x.ok s with
          | (s, _, _, (l, a, r) :: rest) => .trap s (h.trapAt k cAccess r (maskOf (l :: rest.map (·.1))) a)
          | (s, _, (l, a, va) :: rest, []) => .stall (s.parkSlot h k va false (maskOf (((l, a, va) :: rest).map (·.1))))
          | (s, got, [], []) =>
            let s := if p.cls = clSync then s.acquire h p.scope else s
            let pc := h.pc k
            let xs := got.map fun y => (y.1, idx y.1, pc + BitVec.ofInt 64 (signExt (leNat y.2) 32))
            match xs.filter fun y => y.2.2.toNat % 8 != 0 with
            | (l, _, t) :: rest => .trap s (h.trapAt k cMisaligned 0 (maskOf (l :: rest.map (·.1))) t.toNat)
            | [] =>
              let t := h.strand k
              let away := t.members &&& ~~~sel
              match jtabTargets xs with
              | [] => .done s
              | [(dest, m)] => .placed (s.setGroup (h.setStrand k (some { t with pc := dest, active := m })))
              | (dest, m) :: others =>
                match h.split k (target pc o.join) true (s.depthLimit h) ⟨dest, m ||| away, m, none⟩
                    (others.map fun y => ⟨y.1, y.2, y.2, none⟩) with
                | none => .trap s (h.trapAt k cEddy (h.splitDepth k others.length % 2 ^ 16) sel 0)
                | some h => .placed (s.setGroup h)

/-- R318, R366: whether the group runs more than one strand. -/
def Group.crowded (h : Group) (k : Nat) : Bool := (h.slot (1 - k)).strand.isSome || h.eddy.any isStrandEntry

/-- Table 3-13: the virtual address of call frame n of a group. -/
def State.frameAddr (s : State) (g : Group) (n : Nat) : Nat := ((s.ctxOf g).getD emptyCtx).stackBase g.gid + 0xC20000 + 16 * n
/-- R318: the bytes of a call frame. -/
def frameBytes (ra : W64) (slide : Nat) : List W8 := leBytes 8 ra.toNat ++ leBytes 4 slide ++ leBytes 4 0

/-- R94: the names that leave and enter the resident window when its base rises by n, one for every page that they touch. -/
def State.slidNames (s : State) (g : Group) (base n : Nat) : List Nat :=
  let w := ((s.grid? g.grid).map (·.launch.window)).getD 0
  let m := min n w
  if m = 0 then []
  else
    let run (lo : Nat) : List Nat := ((List.range ((m + 127) / 128)).map fun i => lo + 128 * i) ++ [lo + m - 1]
    (run base ++ run (base + n + w - m)).filter fun i => decide (i < 32768)

/-- R96: an access of the part to the group's STACK region that does not come through: the slot parks, or the group traps ACCESS. -/
def stackFails (k : Nat) (h : Group) (s : State) (va : Nat) (write : Bool) (reason : Option Nat) : Res :=
  match reason with
  | none => .stall (s.parkSlot h k va write (h.active k))
  | some r => .trap s (h.trapAt k cAccess r (h.active k) va)

/-- R318: push the frame, slide the window, jump. -/
def callTo (k : Nat) (h : Group) (s : State) (slide : BitVec 8) (dest : W64) : Res :=
  let n := 8 * slide.toNat
  if h.crowded k then .trap s (h.illegal k 8)
  else if 30720 < h.wbase + n then .trap s (h.trapAt k cWindow 1 (h.active k) 0)
  else if h.depth = 253952 then .trap s (h.trapAt k cWindow 2 (h.active k) 0)
  else
    match s.spillMiss h (s.slidNames h h.wbase n) with
    | some va => stackFails k h s va true none
    | none =>
      match s.partPut ((s.ctxOf h).getD emptyCtx) (s.frameAddr h h.depth) (frameBytes (h.pc k + 16) n) none with
      | (s, .miss va _) => stackFails k h s va true none
      | (s, .bad va r) => stackFails k h s va true (some r)
      | (s, .ok _) => .jump (s.setGroup { h with wbase := h.wbase + n, depth := h.depth + 1 }) dest

/-- R317, R318. -/
def execCall (g : Guard) (o : CallOp) (s : State) : Out :=
  issue (.call g o) s fun k h _ s => callTo k h s o.slide (target (h.pc k) o.off)

/-- R317: an absolute target that is not a multiple of 8 traps MISALIGNED; that it comes before WINDOW_FAULT is the
model's choice. (DESIGN CHOICE, unsafe: log entry 100.) -/
def execCallInd (g : Guard) (o : CallIndOp) (s : State) : Out :=
  issue (.callInd g o) s fun k h _ s =>
    let dest := h.snum k o.a true
    if h.crowded k then .trap s (h.illegal k 8)
    else if dest % 8 ≠ 0 then .trap s (h.trapAt k cMisaligned 0 (h.active k) dest)
    else callTo k h s o.slide (BitVec.ofNat 64 dest)

/-- R366. A frame whose slide would take the base below 0 traps WINDOW_FAULT (R93); the auxiliary word 1 is the model's choice.
(DESIGN CHOICE, unsafe: log entry 11.) -/
def execRet (g : Guard) (s : State) : Out :=
  issue (.ret g) s fun k h _ s =>
    if h.crowded k then .trap s (h.illegal k 8)
    else
      if h.depth = 0 then .trap s (h.trapAt k cWindow 3 (h.active k) 0)
      else
        match s.homeRead ((s.ctxOf h).getD emptyCtx) (s.frameAddr h (h.depth - 1)) 16 with
        | .miss va _ => stackFails k h s va false none
        | .bad va r => stackFails k h s va false (some r)
        | .ok bs =>
          let n := leNat ((bs.drop 8).take 4)
          if h.wbase < n then .trap s (h.trapAt k cWindow 1 (h.active k) 0)
          else
            match s.spillMiss h (s.slidNames h (h.wbase - n) n) with
            | some va => stackFails k h s va true none
            | none => .jump (s.setGroup { h with wbase := h.wbase - n, depth := h.depth - 1 }) (BitVec.ofNat 64 (leNat (bs.take 8)))

/-- The strand of slot k goes on at the next instruction and the lanes of xs exit (R321, R365). -/
def leaveGrid (i : Instr) (k : Nat) (h : Group) (xs : LaneMask) (s : State) : Res :=
  let t := h.strand k
  .placed (s.exitLanes (h.setStrand k (some { t with pc := nextPc t.pc i })) k xs)

/-- R321. -/
def execExit (g : Guard) (s : State) : Out :=
  issue (.exit g) s fun k h sel s => leaveGrid (.exit g) k h sel s

/-- R340. -/
def execLoop (g : Guard) (o : LoopOp) (s : State) : Out :=
  issue (.loop g o) s fun k h _ s =>
    let n := h.getS k o.a.toNat - 1
    let s := s.setGroup (h.setS k o.a.toNat n)
    if n = 0#32 then .done s else .jump s (target (h.pc k) o.off)

end Sys2Proof.Machine
end

