-- ==== Sys2Proof/Machine/Copy.lean ====
section
/-! DEFINITION. The copy engine: XFER and XCHAIN, and its steps COPY_RECORD_CHECK, PROGRESS_UPDATE and COPY_RECORD_COMPLETE
(R158, R159, R177, R409 to R417). -/

namespace Sys2Proof.Machine

/-- The fields that XFER and a chained record share: W, the word at 0x2C, the strides, the word at 0x38 and the control bits. -/
def copyRec (src dst : W128) (ctl link w x2c ss ds x38 : Nat) (resv : Bool) : CopyRec where
  src := src
  dst := dst
  geo := ctl / 2 % 4
  sig := ctl / 8 % 4
  mcast := ctl / 32 % 2 == 1
  own := ctl % 2 == 1
  link := link
  w := w
  bar := x2c / 2 ^ 26 % 16
  base := x2c / 2 ^ 16 % 2 ^ 10
  h := x2c % 2 ^ 16
  sstride := ss
  dstride := ds
  x38 := x38
  resv := resv || decide (2 ^ 30 ≤ x2c)

/-- Table 14-4. -/
def chainRec (bs : List W8) : CopyRec :=
  let at_ (o n : Nat) : Nat := leNat ((bs.drop o).take n)
  let link := at_ 0x20 8
  copyRec (BitVec.ofNat 128 (at_ 0 16)) (BitVec.ofNat 128 (at_ 16 16)) (link % 64) link (at_ 0x28 4) (at_ 0x2C 4) (at_ 0x30 4)
    (at_ 0x34 4) (at_ 0x38 4) (decide (2 ^ 52 ≤ link))

/-- Table 14-7. -/
def xferRec (src dst : W128) (x : Nat → Nat) : CopyRec :=
  copyRec src dst (x 5) 0 (x 0) (x 1) (x 2) (x 3) (x 4)
    (decide (64 ≤ x 5) || x 5 % 2 == 1 || x 6 != 0 || x 7 != 0)

def CopyRec.srcP (r : CopyRec) : Ptr := Ptr.ofBits r.src
def CopyRec.dstP (r : CopyRec) : Ptr := Ptr.ofBits r.dst
/-- R410: the element size. -/
def CopyRec.elem (r : CopyRec) : Nat := if r.srcP.fmt = fmtBytes then sizeOf r.dstP.fmt else sizeOf r.srcP.fmt
/-- Elements of the walk. -/
def CopyRec.count (r : CopyRec) : Nat := if r.geo = 0 then r.w else r.w * r.h
/-- R177. -/
def CopyRec.scope (r : CopyRec) : Nat := max r.srcP.scope r.dstP.scope

def morton (x y : Nat) : Nat :=
  (List.range 13).foldl (fun m i => m + (x / 2 ^ i % 2) * 4 ^ i + (y / 2 ^ i % 2) * 2 * 4 ^ i) 0

/-- Table 14-5: the source and destination element offsets of element j. -/
def CopyRec.walk (r : CopyRec) (j : Nat) : Nat × Nat :=
  let c := j % r.w
  let y := j / r.w
  match r.geo with
  | 0 => (j, j)
  | 1 => (y * r.sstride + c, y * r.dstride + c)
  | 2 => (y * r.sstride + c, morton c y)
  | _ => (morton c y, y * r.dstride + c)

/-- One more than the greatest source and destination element offset of the walk. -/
def CopyRec.extent (r : CopyRec) : Nat × Nat :=
  if r.count = 0 then (0, 0)
  else
    match r.geo with
    | 0 => (r.w, r.w)
    | 1 => ((r.h - 1) * r.sstride + r.w, (r.h - 1) * r.dstride + r.w)
    | 2 => ((r.h - 1) * r.sstride + r.w, r.count)
    | _ => (r.count, (r.h - 1) * r.dstride + r.w)

def powerOfTwo (n : Nat) : Bool := (List.range 13).any fun i => n == 2 ^ i
/-- Table 14-5, Limits. -/
def CopyRec.limits (r : CopyRec) : Bool :=
  match r.geo with
  | 0 => r.h == 1
  | 1 => decide (1 ≤ r.h)
  | _ => r.w == r.h && powerOfTwo r.w

/-- R158: the ranges of the RESERVOIR space that live grids of a context hold. (DEDUCED, unsafe: log entry 34.) -/
def State.reservoirHolds (s : State) (ctx : Nat) : List (Nat × Nat) :=
  (s.sys.grids.filter fun x => x.ctx == ctx && (x.st == .admitted || x.st == .ended)).flatMap fun x =>
    x.launch.args.filterMap fun a =>
      let p := Ptr.ofBits a
      if a ≠ 0#128 ∧ p.space = spReservoir then some (p.base, p.base + p.count * sizeOf p.fmt) else none
def overlaps (a b : Nat × Nat) : Bool := decide (a.1 < b.2) && decide (b.1 < a.2)
/-- Whether the destination of a record overlaps one of some ranges. -/
def CopyRec.hits (r : CopyRec) (xs : List (Nat × Nat)) : Bool :=
  let e := r.elem
  let lo := r.dstP.base
  (xs.any fun x => overlaps x (lo, lo + r.extent.2 * e)) &&
  (List.range r.count).any fun j => xs.any fun x => overlaps x (lo + (r.walk j).2 * e, lo + (r.walk j).2 * e + e)

/-- Table 14-6 for the record of a group: the cause, the auxiliary word, and the pointer concerned (0 none, 1 source, 2
destination). -/
def State.copyFails (s : State) (g : Group) (chained : Bool) (r : CopyRec) : Option (Nat × Nat × Nat) :=
  let p := r.srcP
  let q := r.dstP
  let known (x : Ptr) : Bool := !fmtReserved x.fmt && decide (x.space ≤ 5) && decide (x.cls ≤ 2)
  let sizes := p.fmt == fmtBytes || q.fmt == fmtBytes || sizeOf p.fmt == sizeOf q.fmt
  let key := s.sealKey g
  let ctx := ((s.ctxOf g).map (·.id)).getD 0
  let slot := ((s.grid? g.grid).map (·.launch.tarn)).getD 0
  let groups := ((s.grid? g.grid).map (·.launch.groups)).getD 0
  let (se, de) := r.extent
  let e := r.elem
  if r.resv || r.sig == 3 || (r.mcast && r.sig == 2) || (r.x38 != 0 && !r.mcast && r.sig != 2) then some (cIllegal, 8, 0)
  else if chained && !sealOk key r.src then some (cSeal, 0, 1)
  else if chained && !sealOk key r.dst then some (cSeal, 0, 2)
  else if chained && !p.valid then some (cFormat, 0, 1)
  else if chained && !q.valid then some (cFormat, 0, 2)
  else if !known p || !sizes || !r.limits then some (cFormat, 0, 1)
  else if !known q || (r.mcast && q.space != spTarn) then some (cFormat, 0, 2)
  else if q.cls = clShared && q.space != spReservoir then some (cClass, 0, 2)
  else if s.domainBad g p then some (cDomain, 0, 1)
  else if s.domainBad g q then some (cDomain, 0, 2)
  else if r.mcast && (List.range 32).any fun i => r.x38.testBit i && decide (groups ≤ r.base + i) then some (cMulticast, 0, 2)
  else if r.sig = 1 && !(s.barOf g.tid r.bar).init then some (cIllegal, 8, 0)
  else if p.count * sizeOf p.fmt < se * e || (r.count != 0 && s.outside g p p.base (se * e)) then some (cBounds, 0, 1)
  else if q.count * sizeOf q.fmt < de * e || (r.count != 0 && s.outside g q q.base (de * e)) then some (cBounds, 0, 2)
  else if r.mcast && r.count != 0 && q.base / slot != (q.base + de * e - 1) / slot then some (cBounds, 0, 2)
  else if r.sig = 2 && (r.x38 % 16 != 0 || decide (s.tarnSize g.tid < r.x38 + 16)) then some (cBounds, 0, 0)
  else if q.space = spReservoir && r.hits (s.reservoirHolds ctx) then some (cReservoir, 0, 2)
  else none

/-! ## Issue -/

def State.channelBusy (s : State) (core ch : Nat) : Bool := s.sys.copies.any fun c => c.core == core && c.ch == ch
def State.freeChannel (s : State) (core : Nat) : Option Nat := (List.range 4).find? fun i => !s.channelBusy core i

/-- An operation enters a channel: the copy counter rises (R414), and the issue is a release toward the transfer (R177). -/
def State.startCopy (s : State) (h : Group) (k ch : Nat) (chain : Bool) (addr : Nat) (body : Option CopyRec) : State :=
  let (cid, s) := s.fresh
  let c := (s.ctxOf h).getD emptyCtx
  let s := s.setGroup { h.released with cntCopy := h.cntCopy + 1 }
  { s with sys := { s.sys with copies := s.sys.copies ++
    [⟨cid, h.gid, c.id, h.tid, h.core, ch, chain, k, h.pc k, h.active k, addr, body, 0, false, c.stackBase h.gid, none, none, none, none⟩] } }

/-- R416. -/
def execXfer (g : Guard) (o : XferOp) (s : State) : Out :=
  issue (.xfer g o) s fun k h _ s =>
    if h.cntCopy = 255 then .stall s
    else
      match s.freeChannel h.core with
      | none => .stall s
      | some ch =>
        let r := xferRec (h.getA o.a) (h.getA o.d) fun i => (h.getS k (o.b.toNat + i)).toNat
        match s.copyFails h false r with
        | some (c, aux, w) =>
          if c = cIllegal then .trap s (h.illegal k aux)
          else .trap s (h.trapAt k c aux (h.active k) (if w = 1 then r.srcP.base else if w = 2 then r.dstP.base else 0))
        | none => .done (s.startCopy h k ch false 0 (some r))

/-- R417. -/
def execXchain (g : Guard) (o : XchainOp) (s : State) : Out :=
  issue (.xchain g o) s fun k h _ s =>
    let head := h.snum k o.a true
    if h.cntCopy = 255 || s.channelBusy h.core o.ch.toNat then .stall s
    else if head = 0 then .trap s (h.illegal k 8)
    else if head % 64 ≠ 0 then .trap s (h.trapAt k cMisaligned 0 (h.active k) head)
    else .done (s.startCopy h k o.ch.toNat true head none)

/-! ## Steps of the engine -/

def State.copy? (s : State) (cid : Nat) : Option CopyOp := s.sys.copies.find? fun c => c.cid == cid
def State.updCopy (s : State) (cid : Nat) (f : CopyOp → CopyOp) : State :=
  { s with sys := { s.sys with copies := s.sys.copies.map fun c => if c.cid = cid then f c else c } }

/-- R414: the operation leaves its channel and the counter falls. -/
def State.endCopy (s : State) (c : CopyOp) : State :=
  let s := { s with sys := { s.sys with copies := s.sys.copies.filter fun x => x.cid != c.cid } }
  (s.updKept c.gid fun g => { g with cntCopy := g.cntCopy - 1 }).sweep c.gid

/-- R412: the operation stops with a cause. -/
def State.stopCopy (s : State) (c : CopyOp) (cause aux addr : Nat) : State :=
  (s.endCopy c).engineTrap c.gid ⟨cause, aux, c.active, addr, 1, c.slot, c.pc⟩

/-- R172, R177: the core through whose caches the data of a transfer goes, and whether its group has left the core where it was issued:
then that is the core where the group is, if it is resident, and the data goes through to the homes. (DEDUCED, unsafe: log entry 88.) -/
def State.copySeat (s : State) (c : CopyOp) : Nat × Bool :=
  match s.group? c.gid with
  | some g => if g.resident then (g.core, g.core != c.core) else (c.core, true)
  | none => (c.core, true)

/-- The port through which the engine reads and writes chained records. (DEDUCED, unsafe: log entry 38.) -/
def State.recordPort (s : State) (c : CopyOp) : Port := s.enginePort c.ctx (s.copySeat c).1 spGlobal (.through 7) c.tid c.stack

/-- R177: an earlier ST, ATOM or ZMOV of the group that has not been performed goes before the transfer. -/
def State.copyHeld (s : State) (c : CopyOp) : Bool :=
  (s.group? c.gid).any fun g =>
    (g.mq.any fun o => decide (o.id < c.cid) && o.move.isSome) || g.flight.any fun f => decide (f.fid < c.cid) && f.owesWrite

/-- R415: whether a record moves through the tarn, or signals a sync word there. -/
def CopyRec.tarn (r : CopyRec) : Bool := r.srcP.space == spTarn || r.dstP.space == spTarn || r.sig == 2
/-- Table 14-4: the address of the next record in a link word, 0 for none. -/
def nextRecord (link : Nat) : Nat := link % 2 ^ 52 / 64 * 64
/-- R415: whether a chain goes through the tarn at the record at an address or after it, as the records stand in memory now; seen are
the addresses it has been at, whose OWN it clears. -/
def State.tarnAhead (s : State) (c : CopyOp) : Nat → List Nat → Nat → Bool
  | 0, _, _ => true
  | fuel + 1, seen, a =>
    if a = 0 ∨ seen.contains a then false
    else
      match s.engineRead c.gid (s.recordPort c) a 64 with
      | (_, .ok bs) =>
        (chainRec bs).own && ((chainRec bs).tarn || s.tarnAhead c fuel (a :: seen) (nextRecord (chainRec bs).link))
      | (_, .wait) => true
      | (_, .fail ..) => false
/-- R415: whether a transfer is at a record through the tarn or, as far as its chain stands in memory, comes to one. (DEDUCED, unsafe:
log entry 102.) -/
def State.tarnDue (s : State) (c : CopyOp) : Bool :=
  c.body.any (·.tarn) || c.chain && !c.ending && s.tarnAhead c 65536 [] (match c.body, c.closed with
    | none, _ => c.addr
    | some _, some (some link) => nextRecord link
    | some r, _ => nextRecord r.link)
/-- R415: whether the tarn slots of the unit of a group stand in a saved image. -/
def State.tarnSaved (s : State) (g : Group) : Bool :=
  s.sys.saved.any fun v => v.saved && v.grid == g.grid &&
    (s.grid? g.grid).any fun x => (s.team? g.tid).any fun t => State.teamInUnit x v.unit t

/-- R409, R412, R417: the engine reaches a chained record. One through tarn slots that are saved waits for their restore (R415).
(DEDUCED, unsafe: log entry 102.) -/
def execCopyRecordCheck (cid : Nat) (s₀ : State) : Out :=
  match s₀.copy? cid with
  | none => .next s₀
  | some c =>
    if c.body.isSome || s₀.copyHeld c then .next s₀
    else if c.ending then .next (s₀.endCopy c)
    else
      match s₀.engineRead c.gid (s₀.recordPort c) c.addr 64 with
      | (s, .wait) => .next s
      | (s, .fail cause aux a) => .next (s.stopCopy c cause aux a)
      | (s, .ok bs) =>
        let r := chainRec bs
        if !r.own then .next (s.endCopy c)
        else
          match s.group? c.gid with
          | none => .next (s.endCopy c)
          | some g =>
            match s.copyFails { g with core := c.core } true r with
            | some (cause, aux, w) =>
              let a := if cause = cIllegal then 0
                else if (cause = cSeal ∨ cause = cFormat) ∧ (!sealOk (s.sealKey g) r.src || !sealOk (s.sealKey g) r.dst ||
                  !r.srcP.valid || !r.dstP.valid) = true then c.addr + 16 * (w - 1)
                else c.addr
              .next (s.stopCopy c cause aux a)
            | none =>
              if r.tarn && s.tarnSaved g then .next s₀
              else .next (s.updCopy cid fun c => { c with body := some r, moved := 0 })

/-- Table 10-1 for a transfer: the scope is that of the record (R177); away says that its group has left the issuing core. A RESERVOIR
access keeps no dirty word, so that the teams that start once a write completes read only new data (R159, R267). -/
def copyTy (p : Ptr) (scope : Nat) (away : Bool) : ReqTy :=
  if p.space = spHostNc then .uncached
  else if away ∨ p.space = spReservoir then .through (max scope 3)
  else if p.space = spStack ∨ scope = 0 then .owned
  else .through scope
/-- The port of a transfer for one of its pointers. -/
def State.copyPort (s : State) (c : CopyOp) (r : CopyRec) (p : Ptr) : Port :=
  s.enginePort c.ctx (s.copySeat c).1 p.space (copyTy p r.scope (s.copySeat c).2) (s.tarnFrom c.tid p.domain) c.stack

/-- R411: the tarn offsets that element bytes at offset a of the slot go to. -/
def State.castTargets (s : State) (c : CopyOp) (r : CopyRec) (a : Nat) : List Nat :=
  match s.team? c.tid with
  | none => []
  | some t =>
    let size := ((s.grid? t.grid).map (·.launch.tarn)).getD 0
    let und := s.undelivered c
    let cores := (List.range 32).filterMap fun i =>
      if r.x38.testBit i && !und.testBit i then (s.groups.find? fun g => g.tid == c.tid && g.idx == r.base + i).map (·.core) else none
    (List.range t.cores.length).filterMap fun k =>
      if cores.contains (t.cores.getD k 0) then some (k * size + a % size) else none

/-- Write bytes to one place, or to each target slot. -/
def State.copyPut (s : State) (c : CopyOp) (r : CopyRec) (a : Nat) (bs : List W8) : State × Eng Unit :=
  let p := s.copyPort c r r.dstP
  if r.mcast then
    ((s.castTargets c r a).foldl (fun s b => (s.engineWrite c.gid { p with tid := c.tid } b bs (some c.cid)).1) s, .ok ())
  else s.engineWrite c.gid p a bs (some c.cid)

/-- Bytes of a walk (R410), and the source and destination addresses of byte i of it. -/
def CopyRec.bytes (r : CopyRec) : Nat := r.count * r.elem
def CopyRec.byteAt (r : CopyRec) (i : Nat) : Nat × Nat :=
  let w := r.walk (i / r.elem)
  (r.srcP.base + w.1 * r.elem + i % r.elem, r.dstP.base + w.2 * r.elem + i % r.elem)
/-- The coordinates of a Morton offset. -/
def unmorton (m : Nat) : Nat × Nat :=
  (List.range 13).foldl (fun a i => (a.1 + m / 4 ^ i % 2 * 2 ^ i, a.2 + m / (2 * 4 ^ i) % 2 * 2 ^ i)) (0, 0)
/-- Table 14-5: the elements of the walk whose destination offset is e. -/
def CopyRec.elemsAt (r : CopyRec) (e : Nat) : List Nat :=
  match r.geo with
  | 0 => if e < r.w then [e] else []
  | 2 =>
    let x := unmorton e
    if x.1 < r.w ∧ x.2 < r.h ∧ morton x.1 x.2 = e then [x.2 * r.w + x.1] else []
  | _ => (List.range r.h).filterMap fun y =>
      if y * r.dstride ≤ e ∧ e - y * r.dstride < r.w then some (y * r.w + (e - y * r.dstride)) else none
/-- The bytes of the walk that go to a destination address. -/
def CopyRec.bytesAt (r : CopyRec) (a : Nat) : List Nat :=
  if a < r.dstP.base then []
  else (r.elemsAt ((a - r.dstP.base) / r.elem)).map fun j => j * r.elem + (a - r.dstP.base) % r.elem
/-- The addresses of the destination word of byte i that the walk writes, each with the bytes that go there. -/
def CopyRec.word (r : CopyRec) (i : Nat) : List (Nat × List Nat) :=
  ((List.range 4).map fun k => 4 * ((r.byteAt i).2 / 4) + k).filterMap fun a =>
    if (r.bytesAt a).isEmpty then none else some (a, r.bytesAt a)
/-- R159, R176, R177: an aligned word of the destination moves as one, with the first of its bytes; whether byte i is that. -/
def CopyRec.leads (r : CopyRec) (i : Nat) : Bool := (r.word i).all fun x => x.2.all fun j => decide (i ≤ j)
/-- The destination word of byte i as runs of addresses, each with the bytes that it takes, the last that the walk writes to an address. -/
def CopyRec.runs (r : CopyRec) (i : Nat) : List (Nat × List Nat) :=
  (r.word i).foldr (fun x rest =>
    let j := x.2.foldl max 0
    match rest with
    | (b, js) :: more => if b = x.1 + 1 then (x.1, j :: js) :: more else (x.1, [j]) :: rest
    | [] => [(x.1, [j])]) []

/-- Read bytes of a walk, each from its own source. -/
def State.copyGet (s : State) (c : CopyOp) (r : CopyRec) : List Nat → State × Eng (List W8)
  | [] => (s, .ok [])
  | i :: rest =>
    match s.engineRead c.gid (s.copyPort c r r.srcP) (r.byteAt i).1 1 with
    | (s, .wait) => (s, .wait)
    | (s, .fail x y z) => (s, .fail x y z)
    | (s, .ok b) =>
      match s.copyGet c r rest with
      | (s, .ok bs) => (s, .ok (b ++ bs))
      | e => e
/-- Write the runs of one word; they lie in one page, so that all are written or none. -/
def State.copyPutAll (c : CopyOp) (r : CopyRec) : List (Nat × List Nat) → List W8 → State → State × Eng Unit
  | [], _, s => (s, .ok ())
  | (a, js) :: rest, bs, s =>
    match s.copyPut c r a (bs.take js.length) with
    | (s, .ok _) => copyPutAll c r rest (bs.drop js.length) s
    | e => e

/-- Move the bytes of a walk from byte i on, up to byte stop, a word of the destination at a time; the answer counts the bytes before
which all have moved. -/
def State.copyMove (c : CopyOp) (r : CopyRec) (stop : Nat) : Nat → Nat → State → State × Nat × Eng Unit
  | 0, i, s => (s, i, .ok ())
  | fuel + 1, i, s =>
    if stop ≤ i then (s, i, .ok ())
    else if !r.leads i then copyMove c r stop fuel (i + 1) s
    else
      match s.copyGet c r ((r.runs i).flatMap (·.2)) with
      | (s, .wait) => (s, i, .wait)
      | (s, .fail x y z) => (s, i, .fail x y z)
      | (s, .ok bs) =>
        match State.copyPutAll c r (r.runs i) bs s with
        | (s, .ok _) => copyMove c r stop fuel (i + 1) s
        | (s, .wait) => (s, i, .wait)
        | (s, .fail x y z) => (s, i, .fail x y z)
/-- R270: a span of a record moves; the snoops of its writes become one request for each line and span. -/
def State.copySpan (s : State) (c : CopyOp) (r : CopyRec) (n : Nat) : State × Nat × Eng Unit :=
  let (t, i, x) := State.copyMove c r (min r.bytes (c.moved + n)) n c.moved s
  (t.mergeSnoops s.run.nextId, i, x)

/-- R269: whether every write of an operation has been acknowledged. -/
def State.copyAcked (s : State) (c : CopyOp) : Bool := !(s.mem.snoops.any fun n => n.gid == some c.cid)

/-- R415: the progress field, of a chained record alone. -/
def State.writeProgress (s : State) (c : CopyOp) (bytes : Nat) : State × Eng Unit :=
  if c.chain then s.engineWrite c.gid (s.recordPort c) (c.addr + 0x3C) (leBytes 4 bytes) (some c.cid) else (s, .ok ())

/-- R415: the bytes of the walk that may move before the progress field is rewritten: each brings at most one word with it. -/
def progressSpan : Nat := 1024
/-- Whether the progress field of a record is behind what has moved. -/
def CopyOp.untold (c : CopyOp) : Bool := c.chain && c.told.getD 0 != c.moved

/-- R412, R415: once what has moved is acknowledged the progress field is written, and a record that has met a cause stops. While the
field cannot be written nothing more moves. -/
def State.tellCopy (s : State) (c : CopyOp) : State :=
  if !s.copyAcked c then s
  else
    match (if c.told = some c.moved then (s, .ok ()) else s.writeProgress c c.moved), c.halted with
    | (s, .wait), _ => s
    | (s, _), some (cause, aux, a) => s.stopCopy c cause aux a
    | (s, .fail cause aux a), none => s.stopCopy c cause aux a
    | (s, .ok _), none => s.updCopy c.cid fun c => { c with told := some c.moved }

/-- R412: what the engine has moved, and what has stopped it. -/
def CopyOp.after (c : CopyOp) (i : Nat) (x : Eng Unit) : CopyOp :=
  { c with moved := i, halted := match x with
    | .fail cause aux a => some (cause, aux, a)
    | _ => c.halted }

/-- R415: at least every 4 KiB. -/
def execProgressUpdate (cid : Nat) (s : State) : Out :=
  match s.copy? cid with
  | none => .next s
  | some c =>
    match c.body with
    | none => .next s
    | some r =>
      if s.copyHeld c || c.closed.isSome then .next s
      else if c.halted.isSome || c.untold then .next (s.tellCopy c)
      else
        let (s, i, x) := s.copySpan c r progressSpan
        .next ((s.updCopy cid fun _ => c.after i x).tellCopy (c.after i x))

/-- R178, R414: the signals of a completing record, whose completion is a release at its scope. -/
def State.copySignal (s : State) (c : CopyOp) (r : CopyRec) : State :=
  let s := s.updKept c.gid fun g => g.saw 0 r.scope
  if r.sig = 1 then s.copyArrival c.tid r.bar
  else if r.sig = 2 then s.updKeptTeam c.tid fun t => t.syncArrival r.x38 r.bytes
  else s

/-- R413, R414: the last part of a chained record's end: it signals, and the chain goes on to its link. -/
def State.leaveRecord (s : State) (c : CopyOp) (r : CopyRec) (link : Nat) : State :=
  let s := s.copySignal c r
  let dest := nextRecord link
  if dest = 0 ∨ c.ending then s.endCopy c
  else s.updCopy c.cid fun c => { c with addr := dest, body := none, moved := 0, told := none, closed := none }
/-- R413: the third: OWN is cleared, and the link word is read. -/
def State.clearOwn (s : State) (c : CopyOp) (r : CopyRec) : State :=
  match s.engineRead c.gid (s.recordPort c) (c.addr + 0x20) 8 with
  | (s, .wait) => s
  | (s, .fail x y z) => s.stopCopy c x y z
  | (s, .ok bs) =>
    let link := leNat bs
    match s.engineWrite c.gid (s.recordPort c) (c.addr + 0x20) (leBytes 4 (link / 2 * 2)) (some c.cid) with
    | (s, .wait) => s
    | (s, .fail x y z) => s.stopCopy c x y z
    | (s, .ok _) =>
      let s := s.updCopy c.cid fun c => { c with closed := some (some link) }
      if s.copyAcked c then s.leaveRecord c r link else s
/-- R413: the second: the progress field, and for a multicast the undelivered mask. -/
def State.closeRecord (s : State) (c : CopyOp) (r : CopyRec) : State :=
  match s.writeProgress c r.bytes with
  | (s, .wait) => s
  | (s, .fail x y z) => s.stopCopy c x y z
  | (s, .ok _) =>
    match (if r.mcast then s.engineWrite c.gid (s.recordPort c) (c.addr + 0x38) (leBytes 4 (s.undelivered c)) (some c.cid)
      else (s, .ok ())) with
    | (s, .wait) => s
    | (s, .fail x y z) => s.stopCopy c x y z
    | (s, .ok _) =>
      let s := s.updCopy c.cid fun c => { c with closed := some none }
      if s.copyAcked c then s.clearOwn c r else s
/-- R413: what follows the data of a record, each part once the homes have acknowledged the one before. -/
def State.endRecord (s : State) (c : CopyOp) (r : CopyRec) : State :=
  if !s.copyAcked c then s
  else if !c.chain then (s.copySignal c r).endCopy c
  else
    match c.closed with
    | none => s.closeRecord c r
    | some none => s.clearOwn c r
    | some (some link) => s.leaveRecord c r link

/-- R413: all data moved and acknowledged, then the record's own fields, then OWN, then the signals. A chained record completes once its
progress field is current and no more than a span of it is left (R415). -/
def execCopyRecordComplete (cid : Nat) (s : State) : Out :=
  match s.copy? cid with
  | none => .next s
  | some c =>
    match c.body with
    | none => .next s
    | some r =>
      if s.copyHeld c || c.chain && decide (c.moved + progressSpan < r.bytes) then .next s
      else if c.closed.isSome then .next (s.endRecord c r)
      else if c.halted.isSome || c.untold && decide (c.moved < r.bytes) then .next (s.tellCopy c)
      else
        let (s, i, x) := s.copySpan c r (r.bytes - c.moved)
        let c := c.after i x
        let s := s.updCopy cid fun _ => c
        .next (match x with
          | .ok _ => s.endRecord c r
          | _ => s.tellCopy c)

end Sys2Proof.Machine
end

