-- ==== Sys2Proof/Machine/Vector.lean ====
section
/-! DEFINITION. Lane-wise results: values computed for the selected lanes from the registers at issue, written to vD, and predicate
bits (R8, R71, R75). -/

namespace Sys2Proof.Machine

/-- The results of the selected lanes. -/
def laneVals (sel : LaneMask) (f : Nat → Val) : List (Nat × Val) := (lanesOf sel).map fun l => (l, f l)
def valFlags (rs : List (Nat × Val)) : W8 := rs.foldl (fun a r => a ||| r.2.2) 0#8

/-- The writes of lane results to name d. -/
def Group.laneWrites (h : Group) (d : BitVec 11) (wide : Bool) (rs : List (Nat × Val)) : Writes :=
  ⟨rs.flatMap fun r => vwords (h.absV d) wide r.1 r.2.1, [], [], valFlags rs⟩

/-- A lane-wise result written at once. -/
def Group.putLanes (h : Group) (d : BitVec 11) (wide : Bool) (sel : LaneMask) (f : Nat → Val) : Group :=
  let rs := laneVals sel f
  (h.writeV (rs.flatMap fun r => vwords (h.absV d) wide r.1 r.2.1)).orFlags (valFlags rs)

/-- A lane-wise test written to a predicate; unselected lanes keep their bit. -/
def Group.putPred (h : Group) (d : BitVec 6) (sel : LaneMask) (f : Nat → Bool × W8) : Group :=
  let ls := lanesOf sel
  (h.setPIn d.toNat sel (maskOf (ls.filter fun l => (f l).1))).orFlags (ls.foldl (fun a l => a ||| (f l).2) 0#8)

/-- The B operand of a lane (Table 3-8); flt converts an immediate to a floating type (R73). -/
def Group.vbVal (h : Group) (k : Nat) (b : VB) (wide : Bool) (imm : Int → Nat) (l : Nat) : Nat :=
  match b with
  | .v n => h.vnum n wide l
  | .sc (.imm v) => imm v.toInt
  | .sc (.s i) => h.snum k i wide

/-- The B operand under an integer type. -/
def Group.vbInt (h : Group) (k : Nat) (b : VB) (wide : Bool) (l : Nat) : Nat :=
  h.vbVal k b wide (fun v => modPow v (if wide then 64 else 32)) l
/-- The B operand under a floating type. -/
def Group.vbFlt (h : Group) (k : Nat) (t : FTy) (b : VB) (l : Nat) : Nat := h.vbVal k b t.wide t.ofInt l

/-- R397: the value of name n in source lane m; a never-launched lane holds 0. -/
def Group.source (h : Group) (n : BitVec 11) (wide : Bool) (m : Nat) : Nat := h.vnum n wide m

end Sys2Proof.Machine
end

