-- ==== Sys2Proof/Machine/Tiles.lean ====
section
/-! DEFINITION. Accumulator tiles: their elements by kind (Table 8-1, R220), which tile a matrix operation writes, and the maximum
of R216 over them (R301, R426). -/

namespace Sys2Proof
open Sys2Proof.Machine

/-- Columns of a tile. -/
def TileKind.cols : TileKind → Nat
  | .fp64 => 64
  | _ => 128
/-- R301: a FREQ tile is read as its FP32 words. -/
def TileKind.num : TileKind → NumTy
  | .int32 => .int true 32
  | .fp64 => .flt Machine.fp64
  | _ => .flt Machine.fp32

end Sys2Proof

namespace Sys2Proof.Machine

/-- Word w of row i. -/
def Tile.word (t : Tile) (i w : Nat) : W32 := SMap.get t.data (128 * i + w)
/-- The pattern of element (i, j), 64 bits for kind FP64. -/
def Tile.pat (t : Tile) (i j : Nat) : Nat :=
  match t.kind with
  | .fp64 => (t.word i (2 * j)).toNat + 2 ^ 32 * (t.word i (2 * j + 1)).toNat
  | _ => (t.word i j).toNat
def Tile.elem (t : Tile) (i j : Nat) : FVal := t.kind.num.decode (t.pat i j)
def Tile.row (t : Tile) (i : Nat) : List FVal := (List.range t.kind.cols).map fun j => t.elem i j
def Tile.all (t : Tile) : List FVal := (List.range 96).flatMap t.row

/-- The tiles that a queued operation writes. -/
def tilesWritten (i : Instr) : List Nat :=
  match i with
  | .mma _ o => [o.z.toNat]
  | .mmas _ o => [o.z.toNat]
  | .mmab _ o => [o.z.toNat]
  | .scacc _ o => o.z.toNat :: (if o.clrp then (List.range (o.n1.toNat + 1)).map fun q => o.zp.toNat + q else [])
  | .spx _ o => [o.z.toNat]
  | .zmovV2z _ _ o => [o.z.toNat]
  | .zmovM2z _ _ o => [o.z.toNat]
  | .zclr _ o => [o.z.toNat]
  | _ => []

/-- Whether an unfinished operation of the group writes tile z. -/
def Group.tileBusy (g : Group) (z : Nat) : Bool := g.mq.any fun o => (tilesWritten o.op).contains z

end Sys2Proof.Machine
end

