-- ==== Sys2Proof/Machine/Cross.lean ====
section
/-! DEFINITION. Conversions and cross-lane instructions: CVT, QNT, DQNT, AMAX, VPERM, VROT, VSCAN, VRDC, VCONF and VELECT (R234,
R300, R301, R319, R320, R357, R358, R397 to R404). -/

namespace Sys2Proof.Machine

/-- R319: a value of type src; FP16 and BF16 in bits [15:0]. -/
def atyIn (t : ATy) (x : Nat) : Nat :=
  match t with
  | .int ty => x % 2 ^ ty.bits
  | .flt f => x % 2 ^ f.fmt.width

/-- R319, R202: between equal types a value that is no NaN is unchanged. -/
def execCvt (g : Guard) (o : CvtOp) (s : State) : Out :=
  issue (.cvt g o) s (onGroup fun _ sel h =>
    h.putLanes o.d o.dst.wide sel fun l =>
      convert (o.src.num.decode (atyIn o.src (h.vnum o.a o.src.wide l))) o.dst.num o.rnd.rnd (o.sat && decide (o.src ≠ o.dst)))

/-- The number format of a code. -/
def qTy (q : QCode) : NumTy :=
  match q with
  | .e4m3 => .flt fp8e4m3
  | .e5m2 => .flt fp8e5m2
  | .i8 => .int true 8
  | .u8 => .int false 8
  | .i4 => .int true 4
  | .lns6 => .lns6
/-- Bits of a code (R223). -/
def qBits (q : QCode) : Nat :=
  match q with
  | .i4 => 4
  | .lns6 => 6
  | _ => 8

/-- R358: one lane of QNT. -/
def quantLane (o : QntOp) (scale : Nat) (src : Nat → Nat) : Val :=
  (List.range o.dst.count).foldl (fun acc p =>
    let x := o.src.num.decode (src p % 2 ^ o.src.fmt.width)
    let m := mulEx x (FVal.decode fp32 scale)
    let y := finish fp32 .rne false m
    let c := convert (FVal.decode fp32 y.1) (qTy o.dst) o.rnd.rnd o.sat
    (acc.1 + c.1 % 2 ^ qBits o.dst * 2 ^ (qBits o.dst * p), acc.2 ||| y.2 ||| c.2)) (0, 0#8)

/-- R357, R358. -/
def execQnt (g : Guard) (o : QntOp) (s : State) : Out :=
  issue (.qnt g o) s (onGroup fun k sel h =>
    h.putLanes o.d false sel fun l =>
      quantLane o (h.vbFlt k .fp32 o.b l) fun p => (h.vAt (h.absV o.a + p) l).toNat)

/-- R320: code p of DQNT, scaled. -/
def dequantCode (o : DqntOp) (w scale p : Nat) : Val :=
  let x := (qTy o.src).decode (w / 2 ^ (qBits o.src * p) % 2 ^ qBits o.src)
  let c := convert x (.flt fp32) .rne false
  let y := finish fp32 .rne false (mulEx (FVal.decode fp32 c.1) (FVal.decode fp32 scale))
  (y.1, c.2 ||| y.2)

/-- R320. -/
def execDqnt (g : Guard) (o : DqntOp) (s : State) : Out :=
  issue (.dqnt g o) s (onGroup fun k sel h =>
    let rs := (lanesOf sel).flatMap fun l =>
      let w := (h.getV o.a l).toNat
      let sc := h.vbFlt k .fp32 o.b l
      (List.range o.src.count).map fun p => ((h.absV o.d + p, l), dequantCode o w sc p)
    (h.writeV (rs.map fun r => (r.1.1, r.1.2, BitVec.ofNat 32 r.2.1))).orFlags
      (rs.foldl (fun a r => a ||| r.2.2) 0#8))

/-- R300, R301: modes 1 and 2 wait for the operations that write the tile. -/
def execAmax (g : Guard) (la : BitVec 4) (o : AmaxOp) (s : State) : Out :=
  issue (.amax g la o) s fun k h sel s =>
    match o with
    | .lanes t d a =>
      inCore la (.amax g la o) (fun _ sel h =>
        let r := maxAbs32 ((lanesOf sel).map fun l => t.val (h.vnum a t.wide l))
        ⟨[], [(d.toNat, BitVec.ofNat 32 r.1)], [], r.2⟩) k h sel s
    | .row d z =>
      if h.tiles.length ≤ z.toNat then .trap s (h.trapAt k cMatrix 1 sel 0)
      else if h.tileBusy z.toNat then .stall s
      else
        inCore la (.amax g la o) (fun _ sel h =>
          h.laneWrites d false (laneVals sel fun l => maxAbs32 ((h.tiles.getD z.toNat Tile.fresh).row l))) k h sel s
    | .tile d z =>
      if h.tiles.length ≤ z.toNat then .trap s (h.trapAt k cMatrix 1 (h.active k) 0)
      else if h.tileBusy z.toNat then .stall s
      else
        inCore la (.amax g la o) (fun _ _ h =>
          let r := maxAbs32 (h.tiles.getD z.toNat Tile.fresh).all
          ⟨[], [(d.toNat, BitVec.ofNat 32 r.1)], [], r.2⟩) k h sel s

/-- R400. -/
def execVperm (g : Guard) (la : BitVec 4) (o : VPermOp) (s : State) : Out :=
  issue (.vperm g la o) s (inCore la (.vperm g la o) fun k sel h =>
    h.laneWrites o.d o.ty.wide (laneVals sel fun l =>
      let m := h.vbInt k o.b false l
      (if m < 96 then h.source o.a o.ty.wide m else 0, 0#8)))

/-- R403: the signed amount. -/
def rotAmount (h : Group) (k : Nat) (b : SOp) : Int :=
  match b with
  | .imm v => v.toInt
  | .s i => (h.getS k i.toNat).toInt
/-- R403. -/
def execVrot (g : Guard) (o : VRotOp) (s : State) : Out :=
  issue (.vrot g o) s (onGroup fun k sel h =>
    h.putLanes o.d o.ty.wide sel fun l =>
      let m : Int := Int.ofNat l + rotAmount h k o.b
      let m := if o.shift then m else m % 96
      (if 0 ≤ m ∧ m < 96 then h.source o.a o.ty.wide m.toNat else 0, 0#8))

/-- R402: one operation of VRDC and VSCAN. -/
def rdcVal (t : ATy) (op : RdcK) (rnd : RndF) (sat : Bool) (x y : Nat) : Val :=
  match t with
  | .int ty =>
    (match op with
     | .add => intAdd ty sat x y
     | .min => intMin ty x y
     | .max => intMax ty x y
     | .and => intAnd x y
     | .or => intOr x y
     | .xor => intXor x y)
  | .flt f =>
    (match op with
     | .add => fltAdd f rnd false x y
     | .max => fltMax f true x y
     | _ => fltMax f false x y)

/-- R194: a value as a computing instruction writes it: a NaN is the canonical one. -/
def canonOf (t : ATy) (x : Nat) : Nat :=
  match t with
  | .int _ => x
  | .flt f => f.fmt.canon x

/-- R402: one level of the tree over absent and present values. -/
def rdcLevel (f : Nat → Nat → Val) : List (Option Val) → List (Option Val)
  | a :: b :: rest =>
    (match a, b with
     | some x, some y => let z := f x.1 y.1; some (z.1, x.2 ||| y.2 ||| z.2)
     | some x, none => some x
     | none, y => y) :: rdcLevel f rest
  | xs => xs

/-- R402: the fixed tree over 128 positions. -/
def rdcTree (f : Nat → Nat → Val) (sel : LaneMask) (x : Nat → Nat) : Option Val :=
  let start := (List.range 128).map fun i => if i < 96 ∧ sel.getLsbD i then some (x i, (0#8 : W8)) else none
  ((List.range 7).foldl (fun xs _ => rdcLevel f xs) start).headD none

/-- R194, R401, R402. -/
def execVrdc (g : Guard) (la : BitVec 4) (o : VRdcOp) (s : State) : Out :=
  issue (.vrdc g la o) s (inCore la (.vrdc g la o) fun _ sel h =>
    match rdcTree (rdcVal o.ty o.op o.rnd o.sat) sel fun l => atyIn o.ty (h.vnum o.a o.ty.wide l) with
    | none => Writes.none
    | some v => ⟨[], swords o.d.toNat o.ty.wide (canonOf o.ty v.1), [], v.2⟩)

/-- R404: the identity of an exclusive scan. -/
def rdcIdentity (t : ATy) (op : RdcK) : Nat :=
  match t, op with
  | .int ty, .and => 2 ^ ty.bits - 1
  | .int ty, .min => modPow (maxInt ty.signed ty.bits) ty.bits
  | .int ty, .max => modPow (minInt ty.signed ty.bits) ty.bits
  | .flt f, .min => f.fmt.infBits false
  | .flt f, .max => f.fmt.infBits true
  | _, _ => 0

/-- R404: the scan over lanes in ascending order. -/
def scanLanes (f : Nat → Nat → Val) (excl : Bool) (ident : Nat) (x : Nat → Nat) : Option Nat → List Nat → List (Nat × Val)
  | _, [] => []
  | acc, l :: rest =>
    let v : Val := match acc with
      | none => (x l, 0#8)
      | some a => f a (x l)
    (l, if excl then (acc.getD ident, v.2) else v) :: scanLanes f excl ident x (some v.1) rest

/-- R194, R404. -/
def execVscan (g : Guard) (la : BitVec 4) (o : VScanOp) (s : State) : Out :=
  issue (.vscan g la o) s (inCore la (.vscan g la o) fun _ sel h =>
    h.laneWrites o.d o.ty.wide ((scanLanes (rdcVal o.ty o.op o.rnd o.sat) o.excl (rdcIdentity o.ty o.op)
      (fun l => atyIn o.ty (h.vnum o.a o.ty.wide l)) none (lanesOf sel)).map fun v => (v.1, canonOf o.ty v.2.1, v.2.2)))

/-- R234, R398. -/
def execVconf (g : Guard) (o : VConfOp) (s : State) : Out :=
  issue (.vconf g o) s (onGroup fun _ sel h =>
    let ls := lanesOf sel
    let x (l : Nat) : Nat := h.vnum o.a o.wide l
    let first := maskOf (ls.filter fun l => !ls.any fun m => decide (m < l) && x m == x l)
    let dup := maskOf (ls.filter fun l => ls.any fun m => m != l && x m == x l)
    (h.setPIn o.d.toNat sel first).setPIn (o.d.toNat + 1) sel dup)

/-- R399. -/
def execVelect (g : Guard) (o : VElectOp) (s : State) : Out :=
  issue (.velect g o) s (onGroup fun _ sel h =>
    let ls := lanesOf sel
    h.putLanes o.d false sel fun l =>
      ((ls.find? fun m => h.vnum o.a o.wide m == h.vnum o.a o.wide l).getD l, 0#8))

end Sys2Proof.Machine
end

