-- ==== Sys2Proof/Machine/Meeting.lean ====
section
/-! DEFINITION. Meres: MJOIN, MEET, MWAIT, MQRY and the steps of their home routers (R242 to R251, R342 to R344, R347, R348). -/

namespace Sys2Proof.Machine

/-! ## Payloads (R241, R228) -/

/-- Elements of m registers. -/
def elemCount (wide : Bool) (m : Nat) : Nat := if wide then m / 2 * 96 else m * 96
/-- The absolute register and the lane of element e. -/
def elemReg (base : Nat) (wide : Bool) (e : Nat) : Nat × Nat := (base + (if wide then 2 else 1) * (e / 96), e % 96)

/-- The payload of m registers from a name, of all 96 lanes. -/
def Group.payload (h : Group) (d : BitVec 11) (wide : Bool) (m : Nat) : List W64 :=
  (List.range (elemCount wide m)).map fun e =>
    let r := elemReg (h.absV d) wide e
    BitVec.ofNat 64 ((h.vAt r.1 r.2).toNat + if wide then 2 ^ 32 * (h.vAt (r.1 + 1) r.2).toNat else 0)

/-- Write elements to m registers from a name, in the lanes of a mask. -/
def Group.putPayload (h : Group) (d : BitVec 11) (wide : Bool) (sel : LaneMask) (xs : List W64) : Group :=
  h.writeV (xs.zipIdx.flatMap fun x =>
    let r := elemReg (h.absV d) wide x.2
    if sel.getLsbD r.2 then vwords r.1 wide r.2 x.1.toNat else [])

/-- A run of m registers that passes name 2,047, or starts at an odd name for FP64. -/
def runBad (d : BitVec 11) (wide : Bool) (m : Nat) : Bool := decide (2048 < d.toNat + m) || (wide && d.toNat % 2 == 1)

/-- Combine two lists of elements, with the flags raised so far. -/
def combineElems (f : Nat → Nat → Val) (a : List W64 × W8) (b : List W64) : List W64 × W8 :=
  let rs := List.zipWith (fun x y => f x.toNat y.toNat) a.1 b
  (rs.map fun r => BitVec.ofNat 64 r.1, rs.foldl (fun w r => w ||| r.2) a.2)
/-- Change every element, with the flags raised so far. -/
def mapElems (f : Nat → Val) (a : List W64 × W8) : List W64 × W8 :=
  let rs := a.1.map fun x => f x.toNat
  (rs.map fun r => BitVec.ofNat 64 r.1, rs.foldl (fun w r => w ||| r.2) a.2)

/-! ## Rounds -/

def Mere.ty (m : Mere) : FTy := if m.fp64 then .fp64 else .fp32
/-- R249: the operation of a mere. -/
def Mere.comb (m : Mere) (x y : Nat) : Val := if m.op = 2 then fltMax m.ty true x y else fltAdd m.ty .rne false x y
/-- Weight 1. -/
def fullWeight : Nat := 2 ^ 255

/-- R249: the terms of the oldest round in ascending member index, on-time first. -/
def Mere.terms (m : Mere) : List (List W64 × Nat) :=
  (List.range m.n).flatMap fun i =>
    ((m.rounds.filter fun r => r.tag == m.tag).flatMap fun r =>
      (r.pays.filter fun p => p.1 == i).map fun p => (p.2, fullWeight)) ++
    (m.folds.filter fun f => f.member == i).map fun f => (f.acc, f.weight)

/-- R194, R249: the result of the oldest round, with its flags. -/
def Mere.result (m : Mere) : List W64 × W8 :=
  match m.terms with
  | [] => ([], 0#8)
  | t :: rest =>
    let fl := m.folds.foldl (fun w f => w ||| f.flags) 0#8
    let sum := rest.foldl (fun a b => combineElems m.comb a b.1) (t.1, fl)
    let w := (t :: rest).foldl (fun n x => n + x.2) 0
    if m.op = 1 then mapElems (fun x => finish m.ty.fmt .rne false (divEx (m.ty.val x) (.fin false w (-255)))) sum
    else (sum.1.map fun x => BitVec.ofNat 64 (m.ty.fmt.canon x.toNat), sum.2)

/-- The members with an on-time contribution to a tag. -/
def Mere.onTime (m : Mere) (tag : W16) : List Nat := (m.rounds.filter fun r => r.tag == tag).flatMap fun r => r.pays.map (·.1)

/-- The bits of a list of members. -/
def memberMask (xs : List Nat) : W64 := xs.foldl (fun w i => w ||| (1#64 <<< i)) 0#64

/-- R247, R249: the oldest round closes. Its result is a free value once software has written the descriptor or the work area
(R243). -/
def Mere.close (m : Mere) (free : Nat) : Mere :=
  let r := m.result
  let on := m.onTime m.tag
  let c : Closed := ⟨m.tag, r.1, memberMask (on ++ m.folds.map (·.member)), on.length, m.folds.length, r.2⟩
  let u (i : Nat) : W64 := Config.undefinedRound free i
  let c := if m.tainted then
      ⟨m.tag, (List.range (elemCount m.fp64 m.m)).map u, u 4096, (u 4097).toNat % 256, (u 4098).toNat % 256, (u 4099).setWidth 8⟩
    else c
  { m with
    tag := m.tag + 1
    rounds := m.rounds.filter fun r => r.tag != m.tag
    folds := []
    closed := (c :: m.closed).take 8 }

/-- R247: rounds close in tag order while the oldest holds k on-time members. -/
def closeRounds : Nat → Mere → Nat → Mere × Nat
  | 0, m, free => (m, free)
  | fuel + 1, m, free => if (m.onTime m.tag).length < m.k then (m, free) else closeRounds fuel (m.close free) (free + 1)

/-- R249: a late payload enters its member's fold accumulator. -/
def Mere.fold (m : Mere) (i lag : Nat) (pay : List W64) : Mere :=
  let w := if m.rule = 1 then fullWeight / 2 ^ lag else fullWeight
  let scaled : List W64 × W8 :=
    if m.rule = 1 ∧ m.op ≠ 2 then
      mapElems (fun x => finish m.ty.fmt .rne false (mulEx (m.ty.val x) (.fin false 1 (-Int.ofNat lag)))) (pay, 0#8)
    else (pay, 0#8)
  let new : Fold := match m.folds.find? fun f => f.member == i with
    | none => ⟨i, scaled.1, w, scaled.2⟩
    | some f =>
      let r := combineElems m.comb (f.acc, f.flags ||| scaled.2) scaled.1
      ⟨i, r.1, f.weight + w, r.2⟩
  { m with folds := new :: (m.folds.filter fun f => f.member != i), folded := m.folded + 1 }

/-- An on-time payload enters its round. -/
def Mere.put (m : Mere) (tag : W16) (i : Nat) (pay : List W64) : Mere :=
  let old := ((m.rounds.find? fun r => r.tag == tag).map (·.pays)).getD []
  { m with rounds := ⟨tag, old ++ [(i, pay)]⟩ :: m.rounds.filter fun r => r.tag != tag }

/-! ## The state of a mere -/

def State.mere? (s : State) (ctx base : Nat) : Option Mere := s.sys.meres.find? fun m => m.ctx == ctx && m.base == base
def State.setMere (s : State) (m : Mere) : State :=
  { s with sys := { s.sys with meres := s.sys.meres.map fun (x : Mere) => if x.ctx = m.ctx ∧ x.base = m.base then m else x } }

def meetTrap (h : Group) (k aux addr : Nat) : Trap := h.trapAt k cMeeting aux (h.active k) addr

/-- R244, then the domain check of R139. (DEDUCED, unsafe: log entry 41.) -/
def State.merePointer (s : State) (h : Group) (k : Nat) (p : Ptr) : Option Trap :=
  if p.space ≠ spGlobal || p.cls ≠ clSync || p.fmt ≠ fmtBytes || !(p.scope == 2 || p.scope == 3) || decide (p.count < 256) ||
    p.base % 256 ≠ 0 then some (meetTrap h k 2 p.base)
  else if s.domainBad h p then some (h.trapAt k cDomain 0 (h.active k) p.base)
  else none

/-- R243: the first field of a descriptor that is not valid. -/
def mereBad (b : List W8) : Option Nat :=
  let u (o n : Nat) : Nat := leNat ((b.drop o).take n)
  let zero (o n : Nat) : Bool := ((b.drop o).take n).all fun x => x == 0#8
  if u 0 1 = 0 ∨ 64 < u 0 1 then some 0x00
  else if u 1 1 = 0 ∨ u 0 1 < u 1 1 then some 0x01
  else if 2 < u 2 1 then some 0x02
  else if 2 < u 3 1 then some 0x03
  else if 1 < u 4 1 then some 0x04
  else if u 5 1 = 0 ∨ 16 < u 5 1 ∨ (u 4 1 = 1 ∧ u 5 1 % 2 = 1) then some 0x05
  else if u 8 8 = 0 ∨ u 8 8 % 128 ≠ 0 then some 0x08
  else if !zero 0x30 16 then some 0x30
  else if !zero 0x80 128 then some 0x80
  else none

/-- R245: a mere as it is bound. -/
def freshMere (ctx base : Nat) (die : Option Nat) (b : List W8) : Mere :=
  let u (o n : Nat) : Nat := leNat ((b.drop o).take n)
  { ctx := ctx, base := base, die := die, n := u 0 1, k := u 1 1, op := u 2 1, rule := u 3 1, fp64 := u 4 1 == 1, m := u 5 1
    work := u 8 8, lags := (List.range 64).map fun i => u (0x40 + i) 1, joined := [], flagged := [], tag := BitVec.ofNat 16 (u 6 2)
    folded := 0, discarded := 0, rejected := 0, rounds := [], folds := [], closed := [], tainted := false }

def Mere.workBytes (m : Mere) : Nat := (8 * m.n + 8) * m.m * 384

/-- R245: the translation of the whole work area: the first page that is missing or that fails. -/
def State.workPages (s : State) (c : Ctx) (dom va : Nat) : Nat → Acc Unit
  | 0 => .ok ()
  | n + 1 =>
    match s.xlate c dom spGlobal va true with
    | .ok _ => s.workPages c dom ((va / 0x10000 + 1) * 0x10000) n
    | .miss a w => .miss a w
    | .bad a r => .bad a r

/-- R243: the part uses the work area: what it held is no longer known. -/
def State.forget (s : State) (c : Ctx) (va len : Nat) : State :=
  let inside (pa : Nat) : Bool := (c.vasOf pa).any fun a => decide (va ≤ a) && decide (a < va + len)
  { s with mem := { s.mem with
    home := s.mem.home.filter fun x => !inside x.1
    l1 := s.mem.l1.filter fun x => !(x.ctx == c.id && inside (4 * x.wa))
    basin := s.mem.basin.filter fun x => !(x.ctx == c.id && inside (4 * x.wa)) } }

/-- Table 6-1: the scope of a contribution: that of its mere, or of its tree. -/
def State.sentScope (s : State) (e : Sent) : Nat :=
  let die := match e.what with
    | .meet b _ _ _ => (s.sys.meres.find? fun (m : Mere) => m.ctx == e.ctx && m.base == b).bind Mere.die
    | .reduce _ die .. => die
  if die.isSome then 2 else 3

/-- R178, R242: the collective counter falls when the router has accepted a contribution. -/
def State.accepted (s : State) (e : Sent) : State :=
  let s := { s with sys := { s.sys with sent := s.sys.sent.filter fun x => x.id != e.id } }
  s.updKept e.gid fun g => { g with cntColl := g.cntColl - 1 }.saw 3 (s.sentScope e)

/-- R245, R246: whether no live grid holds a group that joined; joined gives the grid of each member, whose group may have retired or
been lost with its die. -/
def State.mereIdle (s : State) (m : Mere) : Bool := !(m.joined.any fun j => (s.grid? j.2).any fun x => x.st == .admitted)

/-- The part fields of Table 9-2 from offset 0x10, as they stand once the mere is unbound. -/
def Mere.partFields (m : Mere) : List W8 :=
  leBytes 8 (memberMask (m.joined.map (·.1))).toNat ++ leBytes 8 (memberMask m.flagged).toNat ++ leBytes 2 m.tag.toNat ++
  leBytes 2 0 ++ leBytes 4 m.folded.toNat ++ leBytes 4 m.discarded.toNat ++ leBytes 4 m.rejected.toNat

/-- A mere leaves its router; the contributions on their way to it are accepted and dropped. -/
def State.dropMere (s : State) (m : Mere) : State :=
  let s := (s.sys.sent.filter fun e => e.ctx == m.ctx && (match e.what with
    | .meet b _ _ _ => b == m.base
    | .reduce .. => false)).foldl State.accepted s
  { s with sys := { s.sys with meres := s.sys.meres.filter fun x => !(x.ctx == m.ctx && x.base == m.base) } }

/-- R155, R243, R245: a mere that no live grid holds unbinds: the part fields are written back, and then it leaves its router; while
the firmware resolves their page it stays. The answer says whether it has gone. -/
def State.unbindMere (s : State) (m : Mere) : State × Bool :=
  match s.ctx? m.ctx with
  | none => (s.dropMere m, true)
  | some c =>
    match s.partPut c (m.base + 0x10) m.partFields none with
    | (s, .miss va w) =>
      if (c.inDemand va).isNone then (s.dropMere m, true)
      else
        (match s.awaitPage .part c.id 0 va w with
         | (s, some _) => (s.dropMere m, true)
         | (s, none) => (s, false))
    | (s, _) => (s.dropMere m, true)

/-- R245, R251, R269: before an instruction meets a mere that no live grid holds any more, the mere unbinds; the
descriptor of an unbound one is read once the homes have acknowledged the last writes of it. -/
def State.settleMere (s : State) (h : Group) (p : Ptr) : State × Bool :=
  let c := (s.ctxOf h).getD emptyCtx
  let (s, gone) := match s.mere? c.id p.base with
    | none => (s, true)
    | some m => if s.mereIdle m then s.unbindMere m else (s, true)
  match s.mere? c.id p.base with
  | some _ => (s, gone)
  | none => (s, gone && !s.wordsUnacked h p 256 [p.base])

/-- A group as it stands now. -/
def State.again (s : State) (h : Group) : Group := (s.group? h.gid).getD h

/-- What binding answers. -/
inductive Bound where
  | ok (s : State) (m : Mere)
  | stop (r : Res)

/-- R245: the mere, bound afresh if it is unbound. -/
def State.bindMere (s : State) (h : Group) (k : Nat) (p : Ptr) : Bound :=
  let c := (s.ctxOf h).getD emptyCtx
  match s.mere? c.id p.base with
  | some m => .ok s m
  | none =>
    match (s.port h p).read s p.base 256 with
    | (s, .miss va _) => .stop (.stall (s.parkSlot h k va false (h.active k)))
    | (s, .bad va r) => .stop (.trap s (h.trapAt k cAccess r (h.active k) va))
    | (s, .ok b) =>
      match mereBad b with
      | some o => .stop (.trap s (meetTrap h k (1 + 256 * o) p.base))
      | none =>
        let m := freshMere c.id p.base (if p.scope = 2 then some (s.dieNum h.core) else none) b
        let last := (m.work + m.workBytes - 1) / 0x10000
        match s.workPages c (Config.memDomain s.boot.sku (s.dieNum h.core)) m.work (last + 1 - m.work / 0x10000) with
        | .miss va _ => .stop (.stall (s.parkSlot h k va true (h.active k)))
        | .bad va r => .stop (.trap s (h.trapAt k cAccess r (h.active k) va))
        | .ok _ =>
          let s := s.forget c m.work m.workBytes
          .ok { s with sys := { s.sys with meres := s.sys.meres ++ [m] } } m

/-! ## The instructions -/

/-- R246, R344. A binding stands although the same MJOIN then traps on its member index. (DESIGN CHOICE, unsafe: log entry 87.) -/
def execMjoin (g : Guard) (o : MjoinOp) (s : State) : Out :=
  issue (.mjoin g o) s fun k h _ s =>
    let p := Ptr.ofBits (h.getA o.a)
    match s.merePointer h k p with
    | some t => .trap s t
    | none =>
      match s.settleMere h p with
      | (s, false) => .stall s
      | (s, true) =>
      let h := s.again h
      match s.bindMere h k p with
      | .stop r => r
      | .ok s m =>
        let i := h.sop k o.b false
        if m.n ≤ i || m.joined.any fun j => j.1 == i then .trap s (meetTrap h k 3 p.base)
        else
          let s := s.setMere { m with joined := m.joined ++ [(i, h.grid)] }
          .done (s.setGroup (h.setS k o.d.toNat (m.tag.setWidth 32)))

/-- R247, R342, R343. -/
def execMeet (g : Guard) (o : MeetOp) (s : State) : Out :=
  issue (.meet g o) s fun k h _ s =>
    let x := (h.getS k o.b.toNat).toNat
    let tag := BitVec.ofNat 16 x
    let i := x / 2 ^ 16 % 64
    let p := Ptr.ofBits (h.getA o.a)
    if 2 ^ 22 ≤ x then .trap s (h.illegal k 8)
    else
      match s.merePointer h k p with
      | some t => .trap s t
      | none =>
        let c := (s.ctxOf h).getD emptyCtx
        match s.settleMere h p with
        | (s, false) => .stall s
        | (s, true) =>
        let h := s.again h
        match s.mere? c.id p.base with
        | none => .trap s (meetTrap h k 4 p.base)
        | some m =>
          let d := (tag - m.tag).toNat
          if m.n ≤ i || !(m.joined.any fun j => j.1 == i) then .trap s (meetTrap h k 4 p.base)
          else if runBad o.d m.fp64 m.m then .trap s (meetTrap h k 7 p.base)
          else if (4 ≤ d ∧ d < 2 ^ 15) ∨ h.cntColl = 255 then .stall s
          else
            let (id, s) := s.fresh
            let e : Sent := ⟨id, c.id, h.gid, h.core, k, h.pc k, h.active k, .meet p.base i tag (h.payload o.d m.fp64 m.m)⟩
            let s := { s with sys := { s.sys with sent := s.sys.sent ++ [e] } }
            .done (s.setGroup { h.released with cntColl := h.cntColl + 1 })

/-- Write four scalars from index b. -/
def Group.putQuad (h : Group) (k b : Nat) (x0 x1 x2 x3 : Nat) : Group :=
  h.writeS k [(b, BitVec.ofNat 32 x0), (b + 1, BitVec.ofNat 32 x1), (b + 2, BitVec.ofNat 32 x2), (b + 3, BitVec.ofNat 32 x3)]

/-- R250, R348; its own write of s3 does not clear its flags (R206). A lane that the guard leaves out is written too (R75; DEDUCED, unsafe: log entry 66). -/
def execMwait (g : Guard) (o : MeetOp) (s : State) : Out :=
  issue (.mwait g o) s fun k h _ s =>
    let b := o.b.toNat
    let x0 := (h.getS k b).toNat
    let tag := BitVec.ofNat 16 x0
    let p := Ptr.ofBits (h.getA o.a)
    match s.merePointer h k p with
    | some t => .trap s t
    | none =>
      match s.settleMere h p with
      | (s, false) => .stall s
      | (s, true) =>
      let h := s.again h
      match s.mere? ((s.ctxOf h).getD emptyCtx).id p.base with
      | none => .done (s.setGroup (h.putQuad k b x0 1 0 0))
      | some m =>
        if runBad o.d m.fp64 m.m then .trap s (meetTrap h k 7 p.base)
        else if (tag - m.tag).toNat < 2 ^ 15 then .stall s
        else
          match m.closed.find? fun c => c.tag == tag with
          | none => .done (s.setGroup (h.putQuad k b x0 1 0 0))
          | some c =>
            let h := h.putPayload o.d m.fp64 (h.active k) c.vals
            let h := h.putQuad k b (c.folds * 2 ^ 24 + c.ontime * 2 ^ 16 + tag.toNat) 0 (c.mask.toNat % 2 ^ 32) (c.mask.toNat / 2 ^ 32)
            let h := h.orFlags c.flags
            .done ((s.setGroup h).acquire h p.scope)

/-- Table 9-4: a field of a bound mere. -/
def Mere.field (m : Mere) (f : Nat) : Nat :=
  let j := (memberMask (m.joined.map (·.1))).toNat
  let fl := (memberMask m.flagged).toNat
  match f with
  | 0 => m.tag.toNat
  | 1 => j % 2 ^ 32
  | 2 => j / 2 ^ 32
  | 3 => fl % 2 ^ 32
  | 4 => fl / 2 ^ 32
  | 5 => m.folded.toNat
  | 6 => m.discarded.toNat
  | 7 => m.rejected.toNat
  | 8 => (m.onTime m.tag).length
  | _ => if m.die.isSome then 1 else 2
/-- Tables 9-2 and 9-4: offset and bytes of a field in the descriptor; the present count has none. -/
def mereOffset (f : Nat) : Nat × Nat :=
  match f with
  | 0 => (0x20, 2)
  | 1 => (0x10, 4)
  | 2 => (0x14, 4)
  | 3 => (0x18, 4)
  | 4 => (0x1C, 4)
  | 5 => (0x24, 4)
  | 6 => (0x28, 4)
  | 7 => (0x2C, 4)
  | 8 => (0x10, 0)
  | _ => (0x22, 2)

/-- R251, R347. -/
def execMqry (g : Guard) (o : MqryOp) (s : State) : Out :=
  issue (.mqry g o) s fun k h _ s =>
    let p := Ptr.ofBits (h.getA o.a)
    let f := o.fld.toNat
    match s.merePointer h k p with
    | some t => .trap s t
    | none =>
      match s.settleMere h p with
      | (s, false) => .stall s
      | (s, true) =>
      let h := s.again h
      match s.mere? ((s.ctxOf h).getD emptyCtx).id p.base with
      | some m => .done (s.setGroup (h.setS k o.d.toNat (BitVec.ofNat 32 (m.field f))))
      | none =>
        match (s.port h p).read s (p.base + (mereOffset f).1) (mereOffset f).2 with
        | (s, .ok bs) => .done (s.setGroup (h.setS k o.d.toNat (BitVec.ofNat 32 (leNat bs))))
        | (s, .miss va _) => .stall (s.parkSlot h k va false (h.active k))
        | (s, .bad va r) => .trap s (h.trapAt k cAccess r (h.active k) va)

/-! ## The home router -/

/-- R91: MEETING reasons 5 and 6. -/
def State.meetReject (s : State) (e : Sent) (reason base : Nat) : State :=
  s.engineTrap e.gid ⟨cMeeting, reason, e.active, base, 4, e.slot, e.pc⟩

/-- A mere takes a contribution of member i that has reached its router (R247 to R249). -/
def State.meetArrives (s : State) (e : Sent) (m : Mere) (i : Nat) (tag : W16) (pay : List W64) : State :=
  let d := (tag - m.tag).toNat
  let s := s.accepted e
  if d < 4 then
    if (m.onTime tag).contains i then s.meetReject e 5 m.base
    else
      let (m, free) := closeRounds 5 (m.put tag i pay) s.run.free
      { s.setMere m with run := { s.run with free := free } }
  else
    let lag := 2 ^ 16 - d
    if m.lags.getD i 0 < lag then
      (s.setMere { m with rejected := m.rejected + 1, flagged := if m.flagged.contains i then m.flagged else m.flagged ++ [i] }).meetReject
        e 6 m.base
    else if m.rule = 2 then s.setMere { m with discarded := m.discarded + 1 }
    else s.setMere (m.fold i lag pay)

/-- R242: the home router of a contribution to a bound mere: that of a die, or of the package. -/
def State.meetRouter (s : State) (x : Sent) : Option (Option Nat) :=
  match x.what with
  | .meet b _ _ _ => (s.mere? x.ctx b).map Mere.die
  | .reduce .. => none

/-- R242, R247, R343: contribution id reaches its home router; those of one group arrive there in issue order. A late
one whose d has come down below 2^15 waits there like one that is early. (DESIGN CHOICE, unsafe: log entry 98.) -/
def execMereContribution (id : Nat) (s : State) : Out :=
  match s.sys.sent.find? fun e => e.id == id with
  | none => .next s
  | some e =>
    match e.what with
    | .reduce .. => .next s
    | .meet base i tag pay =>
      let earlier := (s.sys.sent.takeWhile fun x => x.id != id).any fun x =>
        x.gid == e.gid && (s.meetRouter x).isSome && s.meetRouter x == s.meetRouter e
      if earlier then .next s
      else
        match s.mere? e.ctx base with
        | none => .next (s.accepted e)
        | some m =>
          let d := (tag - m.tag).toNat
          if 4 ≤ d ∧ d < 2 ^ 15 then .next s else .next (s.meetArrives e m i tag pay)

/-- R243, R245: mere n of those bound unbinds, and the part fields are written back. -/
def execMereUnbind (n : Nat) (s : State) : Out :=
  match s.sys.meres[n]? with
  | none => .next s
  | some m => if s.mereIdle m then .next (s.unbindMere m).1 else .next s

end Sys2Proof.Machine
end

