-- ==== Sys2Proof/Machine/Failure.lean ====
section
/-! DEFINITION. Dies that are lost, errors and the clock: HEARTBEAT, DIE_DEATH with the takeover, COMPUTE_DIE_RESET, SCRUB,
CORRECTED_ERROR, UNCORRECTABLE_ERROR, LINK_RETRAIN, THERMAL_THROTTLE, THROTTLE_CAUSE_CLEARS (R13, R36, R60, R265, R274 to R277,
R280, R281). -/

namespace Sys2Proof.Machine

/-- R274: a heartbeat, 2 µs after the last one of the die. A die silent for 50 µs by then is declared dead first, and its own heartbeat
comes too late. (DEDUCED, safe: log entry 48.) -/
def execHeartbeat (die : Nat) (s : State) : Out :=
  match s.die? die with
  | none => .next s
  | some d =>
    let t := max s.boot.now (d.lastBeat + 2)
    if !d.alive || d.inReset || decide (d.lastBeat + 50 ≤ t) then .next s
    else
      let late := s.sys.dies.filter fun e => e.alive && !e.inReset && e.num != die && decide (e.lastBeat + 50 ≤ t)
      if late.isEmpty then .next ({ s with boot := { s.boot with now := t } }.updDie die fun d => { d with lastBeat := t })
      else .next { s with run := { s.run with agenda := (late.map fun e => .dieDeath e.num) ++ .heartbeat die :: s.run.agenda } }

/-! ## The takeover -/

/-- R275, steps 1 to 3: the mirror copies of snooped words go, the others are written to their homes; then every home forgets the
die, and its caches are gone. Mirror copies that the die kept for its buddy go with it. -/
def State.recoverDie (s : State) (d : Die) : State :=
  let k0 := s.run.nextId
  let owed := (s.mem.snoops.filter fun n => n.die == d.num).flatMap (·.words)
  let s := { s with mem := { s.mem with
    snoops := s.mem.snoops.filter fun n => n.die != d.num
    basin := s.mem.basin.filter fun c =>
      !(c.mirror && ((c.own == d.num && owed.contains c.wa) || some c.own == Config.buddy s.boot.sku d.num)) } }
  let s := (s.mem.basin.filter fun c => c.mirror && c.own == d.num).foldl (fun s c =>
    s.homePut (some d.num) (s.cacheWho 0 d.num c.ctx).key c.wa c.val c.poison none) s
  let s := s.mergeSnoops k0
  { s with mem := { s.mem with
    basin := s.mem.basin.filter fun c => c.own != d.num
    l1 := s.mem.l1.filter fun c => c.own / 128 != d.block } }

/-- Whether a team has a place on a die. -/
def Team.onDie (t : Team) (d : Die) : Bool := t.cores.any fun c => c / 128 == d.block

/-- The teams that a die takes with it (R275, step 4): those of its units, with every team of a gang. A saved unit stands in
memory. -/
def State.lostTeams (s : State) (d : Die) : List Team :=
  let here (t : Team) : Bool := !t.done && t.onDie d &&
    !((s.grid? t.grid).any fun x => s.sys.saved.any fun v => v.grid == x.id && v.unit == x.haltUnit t.t && v.saved)
  s.sys.teams.filter fun t => !t.done && s.sys.teams.any fun u => here u && u.grid == t.grid &&
    (s.grid? t.grid).any fun x => x.unitOf u.t == x.unitOf t.t

/-- The last program counter of a group. -/
def Group.lastPc (g : Group) : W64 :=
  match g.slot0.strand, g.slot1.strand with
  | some t, _ => t.pc
  | none, some t => t.pc
  | none, none => 0

/-- R265: the chunks of lost teams never fire. -/
def State.loseChunks (s : State) (ts : List Team) : State :=
  ts.foldl (fun s t =>
    match s.grid? t.grid with
    | none => s
    | some x =>
      let c := x.launch.chunkOf t.t
      if x.launch.collBound ∧ t.t < x.launch.teamCount ∧ (s.sys.chunks.any fun k => k.grid == x.id && k.chunk == c) = false then
        { s with sys := { s.sys with
          chunks := s.sys.chunks ++ [⟨x.id, c, .lost, [], [], [], []⟩]
          grids := s.sys.grids.map fun (y : Grid) => if y.id = x.id then { y with chunksLeft := y.chunksLeft - 1 } else y } }
      else s) s

/-- R13, R60, R275, R280: one record for each group of the die, and the teams end; what a team that had ended left on the die goes too: its groups, its tarn slots there, and its contributions on their way to a router.
(DEDUCED, unsafe: log entry 49.) -/
def State.endTeams (s : State) (d : Die) (ts : List Team) : State :=
  let tids := ts.map (·.tid)
  let mine := s.groups.filter fun g => tids.contains g.tid
  let dead (g : Group) : Bool := g.core / 128 == d.block
  let s := (mine.filter fun g => dead g && !g.retired).foldl (fun s g =>
    match s.grid? g.grid with
    | none => s
    | some x =>
      let s := (s.logRecord x.ctx (s.recordOf g 0 0 ⟨cDieLost, 0, g.live, 0, 7, 0xFF, g.lastPc⟩)).1
      s.updGrid x.id fun x => { x with cause := x.cause.orElse fun _ => some (cDieLost, g.lastPc) }) s
  let gone := mine.map (·.gid)
  let lost := (mine.filter dead).map (·.gid)
  let s := s.loseChunks ts
  let stay := s.groups.filterMap fun (g : Group) => if gone.contains g.gid then (if dead g then none else g.remains)
      else if dead g && !(s.team? g.tid).any (fun t => !t.done) then none else some g
  let size (t : Team) : Nat := ((s.grid? t.grid).map (·.launch.tarn)).getD 0
  { s with
    groups := stay
    mem := { s.mem with
      faults := s.mem.faults.filter fun f => !(f.owner.gid?.any fun g => gone.contains g)
      snoops := s.mem.snoops.map fun n => { n with gid := s.snoopOwner gone n.gid } }
    sys := { s.sys with
      teams := (s.sys.teams.filter fun t => !tids.contains t.tid).map fun (t : Team) =>
        if t.done then { t with tarn := t.tarn.filter fun b => t.cores.getD (b.1 / size t) 0 / 128 != d.block } else t
      gangs := s.sys.gangs.filter fun b => !ts.any fun t => t.grid == b.grid &&
        (s.grid? t.grid).any fun x => x.unitOf t.t == b.gang
      saved := s.sys.saved.filter fun v => !ts.any fun t => t.grid == v.grid && (s.grid? t.grid).any fun x => x.haltUnit t.t == v.unit
      copies := (s.sys.copies.filter fun c => !(lost.contains c.gid || c.core / 128 == d.block)).map fun (c : CopyOp) =>
        if gone.contains c.gid then { c with ending := true, und := some (s.undelivered c) } else c
      sent := s.sys.sent.filter fun e => e.core / 128 != d.block || stay.any fun g => g.gid == e.gid
      ctxs := s.sys.ctxs.map fun (c : Ctx) =>
        { c.releaseLocks (fun h => match h with
            | .group grid t _ => ts.any fun u => u.grid == grid && u.t == t
            | .host _ => false) with
          stackUse := c.stackUse.filter fun u => !gone.contains u.1 }
      grids := s.sys.grids.map fun (x : Grid) =>
        let n := (ts.filter fun t => t.grid == x.id).length
        if n = 0 then x
        else { x with
          teamsLeft := x.teamsLeft - n
          cause := x.cause.orElse fun _ => some (cDieLost, 0)
          arrivals := x.arrivals.filter fun a => !gone.contains a.gid } } }

/-- What a die loses with its cores (Table 10-2, R13): the meres and the tree instances at its router, and its teams. -/
def State.loseDie (s : State) (d : Die) : State :=
  let s := s.recoverDie d
  let s := (s.sys.meres.filter fun m => m.die == some d.num).foldl State.dropMere s
  let s := { s with
    sys := { s.sys with reducts := s.sys.reducts.filter fun r => r.die != some d.num }
    cycles := s.cycles.filter fun c => c.1 / 128 != d.block
    idle := s.idle.filter fun c => c.1 / 128 != d.block
    placed := s.placed.filter fun c => c.1 / 128 != d.block }
  (s.endTeams d (s.lostTeams d)).settleLater

/-- R15: once no compute die lives, no grid can go on: DIE_LOST reaches the completion event of each that was admitted, and of its
children, those that still wait among them. -/
def State.endStranded (s : State) : State :=
  if s.sys.dies.any fun d => d.alive && !d.inReset then s
  else s.stopGrids (distinct ((s.sys.grids.filter fun x => x.st == .admitted).flatMap fun x => s.family x.id)) cDieLost 0

/-- R274, R275: 50 µs after the last heartbeat of a die the control die declares it dead, holds it in reset and takes over. -/
def execDieDeath (die : Nat) (s : State) : Out :=
  match s.die? die with
  | none => .next s
  | some d =>
    if !d.alive || d.inReset then .next s
    else
      let s := { s with boot := { s.boot with now := max s.boot.now (d.lastBeat + 50) } }
      let s := s.updDie die fun d => { d with alive := false, inReset := true, ctx := none }
      .next (s.loseDie d).endStranded

/-- R13: a compute-die reset discards everything on the die; its teams go as with a lost die. -/
def execComputeDieReset (die : Nat) (s : State) : Out :=
  match s.die? die with
  | none => .next s
  | some d =>
    if !d.alive || d.inReset then .next s else .next ((s.loseDie d).updDie die fun d => { d with ctx := none })

/-! ## Errors -/

/-- R276: corrected data is written back; nothing that programs see changes. -/
def execScrub (_mem : Nat) (s : State) : Out := .next s

/-- R280: the context that owns the word, the group or the reduction where an error lies. -/
def State.ownerAt (s : State) (e : ErrSite) (n : Nat) : Option Nat :=
  let page (pa : Nat) : Option Nat :=
    (s.sys.ctxs.find? fun c => !c.ended && c.maps.any fun m => (c.copiesOf m).any fun x => decide (x.2 ≤ pa) && decide (pa < x.2 + m.sz)).map (·.id)
  match e with
  | .memory => page n
  | .core => (s.group? n).bind fun g => (s.ctxOf g).map (·.id)
  | .l1 core => (s.mem.l1.find? fun c => c.own == core && c.wa == n).map (·.ctx)
  | .basin die => (s.mem.basin.find? fun c => s.inBasin die c && c.wa == n).map (·.ctx)
  | .link => page n
  | .router => (s.sys.reducts.find? fun r => r.id == n).map (·.ctx)

/-- R280: a record goes to the log of the context that owns the error, or to the package event log. -/
def State.errorRecord (s : State) (e : ErrSite) (n : Nat) (r : FaultRec) : State :=
  match s.ownerAt e n with
  | some c => (s.logRecord c r).1
  | none => s.packageRecord r

/-- The source and the address of an error (Table 10-5). -/
def errAt (e : ErrSite) (n : Nat) : Nat × Nat :=
  match e with
  | .memory => (5, n)
  | .core => (0, 0)
  | .l1 _ => (0, 0)
  | .basin _ => (0, 0)
  | .link => (6, n)
  | .router => (4, 0)

/-- R276, R277: a corrected error; the parity of a router's buffer corrects none. (DEDUCED, unsafe: log entry 50.) -/
def execCorrectedError (e : ErrSite) (place : Nat) (s : State) : Out :=
  match e with
  | .router => .next s
  | _ => .next (s.errorRecord e place (plainRec 2 0 (errAt e place).1 0 (errAt e place).2))

/-- R277, Table 10-4: an uncorrectable error poisons a word, reaches the group whose core holds it, or times a reduction out. -/
def execUncorrectableError (e : ErrSite) (place : Nat) (s : State) : Out :=
  let r := plainRec 3 0 (errAt e place).1 0 (errAt e place).2
  match e with
  | .core =>
    (match s.group? place with
     | some g =>
       if g.resident && !g.retired then .next (s.takeTrap place ⟨cAccess, 7, g.live, 0, 0, 0xFF, 0⟩) else .next s
     | none => .next s)
  | .memory =>
    let wa := place / 4
    let t : State := if (devicePa place && !s.poisoned wa) = true then { s with mem := { s.mem with poison := s.mem.poison ++ [wa] } } else s
    .next (t.errorRecord e place r)
  | .l1 core =>
    let t : State := { s with mem := { s.mem with l1 := s.mem.l1.map fun (c : CWord) => if c.own = core ∧ c.wa = place then { c with poison := true } else c } }
    .next (t.errorRecord e place r)
  | .basin die =>
    let t : State := { s with mem := { s.mem with basin := s.mem.basin.map fun (c : CWord) =>
      if (s.inBasin die c) = true ∧ c.wa = place then { c with poison := true } else c } }
    .next (t.errorRecord e place r)
  | .link => .next (s.errorRecord e place r)
  | .router =>
    let t : State := { s with sys := { s.sys with reducts := s.sys.reducts.map fun (x : Reduct) =>
      if x.id = place ∧ x.result = none then { x with timedOut := true } else x } }
    .next (t.errorRecord e place r)

/-- R277: a link retrains; one that does not train is removed, and the package event log says so. Links below 16 are the fabric ports.
(DEDUCED, unsafe: log entry 50.) -/
def execLinkRetrain (port : Nat) (trains : Bool) (s : State) : Out :=
  if trains then .next s
  else
    let s := if port < 16 then { s with boot := { s.boot with ports := s.boot.ports &&& ~~~(1#16 <<< port) } }
      else { s with boot := { s.boot with lostLinks := s.boot.lostLinks.filter (· != port) ++ [port] } }
    .next (s.packageRecord (plainRec 3 0 6 0 0))

/-! ## The clock -/

/-- R36: one step down, to 1.2 GHz; past that the inlets are held closed to new teams. (DEDUCED, unsafe: log entry 51.) -/
def execThermalThrottle (s : State) : Out :=
  if 1200 < s.boot.mhz then .next { s with boot := { s.boot with mhz := s.boot.mhz - 100 } }
  else .next { s with boot := { s.boot with held := true } }

/-- R36: the cause has cleared. -/
def execThrottleCauseClears (s : State) : Out := .next { s with boot := { s.boot with held := false } }

end Sys2Proof.Machine
end

