-- ==== Sys2Proof/Machine/LoadStore.lean ====
section
/-! DEFINITION. LD, ST, ATOM and SGEN (R302 to R307, R336 to R339, R376, R382 to R384). A load performs its reads when its result
arrives (LONG_LATENCY_RESULT); a store and an atomic act as they issue, unless an earlier access of the group keeps them
waiting (DEDUCED, safe: log entry 17). -/

namespace Sys2Proof.Machine

/-- The signed 48-bit addend of the extension word (R150). -/
def extAdd (e : Option (BitVec 48)) : Int :=
  match e with
  | none => 0
  | some x => x.toInt

/-- R150: the offset of a lane, before a stream. -/
def laneOffset (g : Group) (k : Nat) (o : MOff) (l : Nat) : Int :=
  match o with
  | .sc (.s i) => Int.ofNat (g.getS k i.toNat).toNat
  | .sc (.imm v) => v.toInt
  | .vec n => Int.ofNat (g.getV n l).toNat
  | .stream _ => 0

/-- The streams whose Q an access consults. -/
def streamOf (g : Group) (o : MOff) : Option (Nat × Stream) :=
  match o with
  | .stream k => some (k.toNat, g.streams.getD k.toNat Stream.fresh)
  | _ => none

/-- R379, R139: whether the Q of an indirect stream fails its domain check. -/
def State.streamDomainBad (s : State) (g : Group) (t : Stream) : Bool :=
  match t.body with
  | some r => r.ind && s.domainBad g (Ptr.ofBits r.q)
  | none => false

/-- The byte address that the lowest lane would access (R444); 0 where its stream is exhausted, as R379 has it, and where its entry of Q
cannot be read, for which no rule gives an address. (DESIGN CHOICE, unsafe: log entry 75.) -/
def State.firstAddr (s : State) (g : Group) (k : Nat) (p : Ptr) (o : MOff) (ext : Option (BitVec 48)) (l : Nat) : Nat :=
  match streamOf g o with
  | none => p.elemAddr (laneOffset g k o l + extAdd ext)
  | some (i, t) =>
    match (s.streamEntry g t (g.streamPos i)).2 with
    | .idx e => p.elemAddr (e + extAdd ext)
    | _ => 0

/-- R150, R379: the element addresses of the lanes of an access: the state, the group after a stream has advanced, and the lanes. What
acquires have read stays once Q is read. -/
def State.address (s : State) (g : Group) (k : Nat) (p : Ptr) (o : MOff) (ext : Option (BitVec 48)) (w n align : Nat)
    (lanes : List Nat) : State × Group × Sorted :=
  match streamOf g o with
  | none => (s, g, s.sortLanes g p w n align (lanes.map fun l => (l, some (laneOffset g k o l + extAdd ext))))
  | some (i, t) =>
    let q := g.streamPos i
    let (s, y) := s.takeEntries g t (lanes.zipIdx.map fun l => (l.1, q + l.2))
    let g := (if t.ind then g.keepAcquired else g).setStream i { t with pos := min (q + lanes.length) t.len }
    let s := match g.queue? i with
      | some p => if p.cls = clSync then s.acquire g p.scope else s
      | none => s
    (s.setGroup g, g, s.sortTaken g p w n align (extAdd ext) y)

/-- Whether an access waits for the stream that it takes its offsets from: its record is not read (R377), or an entry of its Q is not
to be read yet, in program order (R379). -/
def State.streamWaits (s : State) (g : Group) (o : MOff) (lanes : List Nat) : Bool :=
  (streamOf g o).any fun t => !g.streamReady t.1 ||
    (g.queue? t.1).any fun q => s.readWaits g q 4 (((lanes.zipIdx.filterMap fun l => t.2.entryAddr (g.streamPos t.1 + l.2))))

/-- The lanes that an access visits: the selected lanes, or one for a uniform access. -/
def accessLanes (uniform : Bool) (sel : LaneMask) : List Nat := if uniform then [0] else lanesOf sel

/-- The issue checks of LD and ST in the order of R78. -/
def State.memChecks (s : State) (g : Group) (k : Nat) (store : Bool) (sel : LaneMask) (o : MemOp) : Option Trap :=
  let p := Ptr.ofBits (g.getA o.ptr)
  let uniform := o.data.uniform
  let wide := dataWide o.rsf p.fmt
  let odd := match o.data with
    | .v n => wide && n.toNat % 2 == 1
    | .s i => wide && i.toNat % 2 == 1
    | .a _ => false
  let mask := if uniform then g.active k else sel
  let addr := s.firstAddr g k p o.off o.ext ((accessLanes uniform sel).headD 0)
  let bad := match streamOf g o.off with
    | some (_, t) => s.streamDomainBad g t
    | none => false
  if odd then some (g.illegal k 5)
  else if store ∧ p.cls = clShared then some (g.trapAt k cClass 0 mask addr)
  else if s.domainBad g p || bad then some (g.trapAt k cDomain 0 mask addr)
  else if !pairOk p.fmt o.rsf then some (g.trapAt k cFormat 0 mask addr)
  else none

/-- R151, R379: what an access that has entered the in-flight list does at issue: with lanes that failed it performs the others and
traps; lanes whose stream entries lie on a missing page wait in an entry of their own; now says whether it is performed at once. -/
def State.enterAccess (s : State) (h : Group) (f : Flight) (acc : Access) (bits : W128) (add : Int) (x : Sorted)
    (data : List (Nat × Nat × Nat)) (now : Bool) : Res :=
  match f.sortedTrap acc.uniform x with
  | some t => .trap ((s.performAccess h { f with window := 0 } []).1.deliver h.gid f.fid) t
  | none =>
    if !x.bad.isEmpty then
      match s.performAccess h { f with window := 0 } x.bad with
      | (s, some t) => .trap s t
      | (s, none) => .done s
    else
      let (fid, s) := if x.late.isEmpty then (0, s) else s.fresh
      let q := ((f.stream.bind fun i => (h.streams.getD i Stream.fresh).body)).getD ⟨0, [], [], false, 0, 0⟩
      let wrote := match acc with
        | .store .. => x.ok
        | _ => []
      let s := s.parkGather h { f with
        fid := fid, acquire := f.acquire || (Ptr.ofBits q.q).cls == clSync
        pend := .gather bits q add acc (x.late.map fun z => (z.1, z.2.1)) data wrote } x.late acc.uniform
      if now && s.inTurn ((s.group? h.gid).getD h) f then
        match s.performAccess h f [] with
        | (s, some t) => .trap s t
        | (s, none) => .done s
      else .done s

def execLd (g : Guard) (la : BitVec 4) (o : MemOp) (s : State) : Out :=
  issue (.ld g la o) s fun k h sel s =>
    let uniform := o.data.uniform
    if s.streamWaits h o.off (accessLanes uniform sel) then .stall s
    else
    match s.memChecks h k false sel o with
    | some t => .trap s t
    | none =>
      let bits := h.getA o.ptr
      let p := Ptr.ofBits bits
      let n := widthOf p.fmt o.rsf
      match s.address h k p o.off o.ext (elemsOf p.fmt o.rsf) n (accessAlign p.fmt o.rsf) (accessLanes uniform sel) with
      | (s1, h1, x) =>
        if s.zmovCovers h p n (x.ok.map (·.2)) then .stall s
        else
          match s1.detect h1 k (h.pc k) (h.active k) p n x.ok uniform with
          | (s1, some t) => .trap s1 t
          | (s1, none) =>
            let dst : Dst := match o.data with
              | .v i => .v (h.absV i)
              | .s i => .s i.toNat
              | .a i => .a i.toNat
            let acc : Access := .load o.rsf dst
            let (fid, s1) := s1.fresh
            let f : Flight := ⟨fid, k, h.pc k, la.toNat + 1, (dataRegs h o).filter pendable,
              if uniform then h.active k else sel, h.active k, acc.pend bits x.ok [] Writes.none, none, none,
              p.cls == clSync, (streamOf h o.off).map (·.1)⟩
            (s1.setGroup { h1 with flight := h1.flight ++ [f] }).enterAccess h1 f acc bits (extAdd o.ext) x [] false

/-- The value that an ST takes from its data operand (R204, R382). -/
def storeSource (h : Group) (k : Nat) (o : MemOp) (wide : Bool) (l : Nat) : Nat :=
  match o.data with
  | .v n => h.vnum n wide l
  | .s i => h.snum k i wide
  | .a i => (h.getA i).toNat

def execSt (g : Guard) (o : MemOp) (s : State) : Out :=
  issue (.st g o) s fun k h sel s =>
    let uniform := o.data.uniform
    if s.streamWaits h o.off (accessLanes uniform sel) then .stall s
    else
    match s.memChecks h k true sel o with
    | some t => .trap s t
    | none =>
      let bits := h.getA o.ptr
      let p := Ptr.ofBits bits
      let n := widthOf p.fmt o.rsf
      match s.address h k p o.off o.ext (elemsOf p.fmt o.rsf) n (accessAlign p.fmt o.rsf) (accessLanes uniform sel) with
      | (s1, h1, x) =>
        let addrs := x.ok.map (·.2)
        if s.zmovCovers h p n addrs || s.owesWord h p n addrs then .stall s
        else
          match s1.detect h1 k (h.pc k) (h.active k) p n x.ok uniform with
          | (s1, some t) => .trap s1 t
          | (s1, none) =>
            let wide := dataWide o.rsf p.fmt
            let vals := (x.ok.map (·.1) ++ x.late.map (·.1)).map fun l => (l, storeVal p.fmt o.rsf (storeSource h k o wide l))
            let data := vals.map fun v => (v.1, v.2.1, 0)
            let h1 := h1.orFlags (vals.foldl (fun f v => f ||| v.2.2) 0#8)
            let acc : Access := .store o.rsf uniform
            let (fid, s1) := s1.fresh
            let f : Flight := ⟨fid, k, h.pc k, 0, [], if uniform then h.active k else sel, h.active k,
              acc.pend bits x.ok data Writes.none, none, none, false, (streamOf h o.off).map (·.1)⟩
            let h1 := { h1 with flight := h1.flight ++ [f] }
            (s1.setGroup h1).enterAccess h1 f acc bits (extAdd o.ext) x data true

/-- Table 12-4: whether ATOM accepts a pair, and whether the pair lists the operation. -/
def atomPair (f : Nat) (r : Rsf) (wide : Bool) (op : AtomK) : Bool × Bool :=
  let all := true
  let some_ := match op with
    | .and | .or | .xor => false
    | _ => true
  if f = 0x04 then ((r == .native || r == .u32) && !wide, all)
  else if f = 0x05 then ((r == .native || r == .i32) && !wide, all)
  else if f = 0x06 then ((r == .native || r == .u64) && !wide, all)
  else if f = 0x07 then ((r == .native || r == .i64) && !wide, all)
  else if f = 0x0A then ((r == .native || r == .fp32) && !wide, some_)
  else if f = 0x0B then ((r == .native || r == .fp64) && !wide, some_)
  else if f = fmtBytes then ((r == .u32 && !wide) || r == .u64, all)
  else (false, false)

/-- R162, R306, Table 5-11: whether a HOSTNC atomic is sent. -/
def atomHostNc (c : Ctx) (f n : Nat) (op : AtomK) : Bool :=
  let fl := f == 0x0A || f == 0x0B
  let listed := match op with
    | .add => !fl && decide (n ≤ 8)
    | .xchg => decide (n ≤ 8)
    | .cas => true
    | _ => false
  listed && c.atomics.contains n

/-- The issue checks of ATOM in the order of R78. -/
def State.atomChecks (s : State) (g : Group) (k : Nat) (sel : LaneMask) (o : AtomOp) : Option Trap :=
  let p := Ptr.ofBits (g.getA o.ptr)
  let addr := s.firstAddr g k p o.off (some o.ext) ((lanesOf sel).headD 0)
  let ok := atomPair p.fmt o.rsf o.wide o.op
  let bad := match streamOf g o.off with
    | some (_, t) => s.streamDomainBad g t
    | none => false
  if o.vb.toNat % (atomBytes o.rsf o.wide p.fmt / 4) ≠ 0 then some (g.illegal k 5)
  else if p.cls = clShared then some (g.trapAt k cClass 0 sel addr)
  else if s.domainBad g p || bad then some (g.trapAt k cDomain 0 sel addr)
  else if !ok.1 then some (g.trapAt k cFormat 0 sel addr)
  else if !ok.2 then some (g.trapAt k cFormat 1 sel addr)
  else if p.space = spHostNc && !atomHostNc ((s.ctxOf g).getD emptyCtx) p.fmt (atomBytes o.rsf o.wide p.fmt) o.op then
    some (g.trapAt k cAtomic 0 sel addr)
  else none

/-- An operand run of an ATOM, as one number. -/
def atomOperand (h : Group) (base n l : Nat) : Nat :=
  (List.range (n / 4)).foldl (fun x i => x + 2 ^ (32 * i) * (h.vAt (base + i) l).toNat) 0

def execAtom (g : Guard) (la : BitVec 4) (o : AtomOp) (s : State) : Out :=
  issue (.atom g la o) s fun k h sel s =>
    if s.streamWaits h o.off (lanesOf sel) then .stall s
    else
    match s.atomChecks h k sel o with
    | some t => .trap s t
    | none =>
      let bits := h.getA o.ptr
      let p := Ptr.ofBits bits
      let n := atomBytes o.rsf o.wide p.fmt
      let w := if p.fmt = fmtBytes then n else 1
      match s.address h k p o.off (some o.ext) w n (if p.fmt = fmtBytes then n else alignOf p.fmt) (lanesOf sel) with
      | (s1, h1, x) =>
        let addrs := x.ok.map (·.2)
        if s.zmovCovers h p n addrs || s.owesWord h p n addrs then .stall s
        else
          match s1.detect h1 k (h.pc k) (h.active k) p n x.ok false with
          | (s1, some t) => .trap s1 t
          | (s1, none) =>
            let base := h.absV (o.vb.setWidth 11)
            let data := (x.ok.map (·.1) ++ x.late.map (·.1)).map fun l =>
              (l, atomOperand h base n l, if o.op = .cas then atomOperand h (base + n / 4) n l else 0)
            let acc : Access := .atom o.op n o.rsf base
            let (fid, s1) := s1.fresh
            let f : Flight := ⟨fid, k, h.pc k, la.toNat + 1, atomDests h o, sel, h.active k,
              acc.pend bits x.ok data Writes.none, none, none,
              p.cls == clSync, (streamOf h o.off).map (·.1)⟩
            let h1 := { h1 with flight := h1.flight ++ [f] }
            (s1.setGroup h1).enterAccess h1 f acc bits (extAdd (some o.ext)) x data true

/-- R376; a trap at issue names the pointer's base (R444; DEDUCED, unsafe: log entry 60). (DEDUCED, safe: log entry 27.) -/
def execSgen (g : Guard) (o : SgenOp) (s : State) : Out :=
  issue (.sgen g o) s fun k h _ s =>
    let bits := h.getA o.ptr
    let p := Ptr.ofBits bits
    let off := h.sop k o.a false
    let addr := p.base + off
    let t (c : Nat) : Res := .trap s (h.trapAt k c 0 (h.active k) p.base)
    if !h.streamFree o.k.toNat || h.cntStream == 255 then .stall s
    else if p.fmt ≠ fmtBytes then t cFormat
    else if s.domainBad h p then t cDomain
    else if off % 64 ≠ 0 then t cMisaligned
    else if p.count < off + 64 || s.outside h p addr 64 then t cBounds
    else
      let x : Stream := ⟨none, some ⟨bits, addr, k, h.pc k, h.active k⟩, true, 0⟩
      .done (s.setGroup { h.setStream o.k.toNat x with cntStream := h.cntStream + 1 })

end Sys2Proof.Machine
end

