-- ==== Sys2Proof/Machine/MatMath.lean ====
section
/-! DEFINITION. The arithmetic of the matrix engine and of spectral mode, as functions of captured operands: elements (R223,
R224), terms and block sums (R198, R209 to R211, R213), seeded sparsity (R230), blocks (R231), scales (R214, R232), transforms
(R236, R237) and spectral products (R238). Only the order of additions that the rules give is used. -/

namespace Sys2Proof

open Machine

/-- Bits of an element. -/
def MFmt.bits : MFmt → Nat
  | .bf16 | .fp16 => 16
  | .e4m3 | .e5m2 | .i8 | .u8 => 8
  | .i4 => 4
  | .lns6 => 6
  | .fp32 => 32
  | .fp64 => 64
/-- R223: elements in a register. -/
def MFmt.perReg : MFmt → Nat
  | .bf16 | .fp16 => 2
  | .i4 => 8
  | .fp32 | .fp64 => 1
  | _ => 4
/-- Table 8-2: columns. -/
def MFmt.cols : MFmt → Nat
  | .fp64 => 64
  | _ => 128
/-- Bytes of rows × cols elements in memory (R224). -/
def MFmt.bytes (f : MFmt) (rows cols : Nat) : Nat :=
  match f with
  | .lns6 => rows * 96
  | _ => rows * cols * f.bits / 8
def MFmt.num : MFmt → NumTy
  | .bf16 => .flt Machine.bf16
  | .fp16 => .flt Machine.fp16
  | .e4m3 => .flt fp8e4m3
  | .e5m2 => .flt fp8e5m2
  | .i8 => .int true 8
  | .u8 => .int false 8
  | .i4 => .int true 4
  | .lns6 => .lns6
  | .fp32 => .flt Machine.fp32
  | .fp64 => .flt Machine.fp64
/-- R209: the accumulator format of the floating inputs. -/
def MFmt.acc : MFmt → Fmt
  | .fp64 => Machine.fp64
  | _ => Machine.fp32

/-- R223: element k of a row; reg gives the words of the captured run. -/
def MFmt.aElem (f : MFmt) (reg : Nat → Nat) (k : Nat) : Nat :=
  match f with
  | .fp64 => reg (2 * k) + 2 ^ 32 * reg (2 * k + 1)
  | _ => reg (k / f.perReg) / 2 ^ (f.bits * (k % f.perReg)) % 2 ^ f.bits

/-- R224: element (k, j) of a tile with n columns; byte gives the bytes. -/
def MFmt.bElem (f : MFmt) (byte : Nat → Nat) (n k j : Nat) : Nat :=
  match f with
  | .i4 => byte ((k * n + j) / 2) / 16 ^ (j % 2) % 16
  | .lns6 =>
    let o := 96 * k + 3 * (j / 4)
    (byte o + 256 * byte (o + 1) + 65536 * byte (o + 2)) / 64 ^ (j % 4) % 64
  | _ =>
    let w := f.bits / 8
    (List.range w).foldl (fun x i => x + 256 ^ i * byte ((k * n + j) * w + i)) 0

end Sys2Proof

namespace Sys2Proof.Machine

/-! ## Sums -/

/-- One level of a binary tree over adjacent pairs. -/
def pairUp {α : Type} (f : α → α → α) : List α → List α
  | a :: b :: rest => f a b :: pairUp f rest
  | xs => xs

/-- R210: add two nodes of a floating accumulator. -/
def accAdd (acc : Fmt) (x y : Val) : Val :=
  let r := finish acc .rne false (addEx .rne (FVal.decode acc x.1) (FVal.decode acc y.1))
  (r.1, x.2 ||| y.2 ||| r.2)
/-- R210: BlockSum over 32 terms. -/
def blockSum (acc : Fmt) (t : List Val) : Val :=
  ((List.range 5).foldl (fun xs _ => pairUp (accAdd acc) xs) t).headD (0, 0#8)

/-- R211: add two nodes of the INT32 accumulator. -/
def accAddInt (x y : Int × W8) : Int × W8 :=
  let s := satInt true 32 (x.1 + y.1)
  (s, x.2 ||| y.2 ||| if s = x.1 + y.1 then 0#8 else fQSAT)
def blockSumInt (t : List (Int × W8)) : Int × W8 :=
  ((List.range 5).foldl (fun xs _ => pairUp accAddInt xs) t).headD (0, 0#8)

/-- R209: a floating term. -/
def fltTerm (f : MFmt) (a b : Nat) : Val :=
  match f with
  | .lns6 => finish fp32 .rne false (lnsMul a b, 0#8)
  | _ => finish f.acc .rne false (mulEx (f.num.decode a) (f.num.decode b))
/-- R213: an integer term. -/
def intTerm (f : MFmt) (za zb a b : Nat) : Int :=
  let v (x : Nat) : Int := match f.num with
    | .int s n => toInt s n x
    | _ => 0
  (v a - v za) * (v b - v zb)

/-- R210, R227: an element takes the blocks of k terms; term gives none where a term is +0 by rule. -/
def accumulate (f : MFmt) (za zb : Nat) (k : Nat) (term : Nat → Option (Nat × Nat)) (old : Nat) : Val :=
  let blocks := List.range ((k + 31) / 32)
  if f.isInt then
    let r := blocks.foldl (fun (z : Int × W8) b =>
      accAddInt z (blockSumInt ((List.range 32).map fun q =>
        if 32 * b + q < k then (match term (32 * b + q) with
          | some (x, y) => (intTerm f za zb x y, 0#8)
          | none => (0, 0#8)) else (0, 0#8)))) (signExt old 32, 0#8)
    (modPow r.1 32, r.2)
  else
    blocks.foldl (fun (z : Val) b =>
      accAdd f.acc z (blockSum f.acc ((List.range 32).map fun q =>
        if 32 * b + q < k then (match term (32 * b + q) with
          | some (x, y) => fltTerm f x y
          | none => (0, 0#8)) else (0, 0#8)))) (old, 0#8)

/-! ## Tiles -/

/-- The words of a tile as an array. -/
def Tile.words (t : Tile) : Array W32 := (SMap.dense t.data 0 12288).toArray
def wordAt (xs : Array W32) (i : Nat) : Nat := (xs.getD i 0#32).toNat
/-- The pattern of element (i, j) among the words of a tile of a kind. -/
def patAt (k : TileKind) (xs : Array W32) (i j : Nat) : Nat :=
  match k with
  | .fp64 => wordAt xs (128 * i + 2 * j) + 2 ^ 32 * wordAt xs (128 * i + 2 * j + 1)
  | _ => wordAt xs (128 * i + j)

/-- A tile of a kind whose elements are f i j, with the flags. -/
def tileOf (k : TileKind) (kcount : Nat) (f : Nat → Nat → Val) : Tile × W8 :=
  let vals := ((List.range 96).flatMap fun i => (List.range k.cols).map fun j => f i j).toArray
  let word (i w : Nat) : W32 :=
    match k with
    | .fp64 => BitVec.ofNat 32 ((vals.getD (64 * i + w / 2) (0, 0#8)).1 / 2 ^ (32 * (w % 2)))
    | _ => BitVec.ofNat 32 (vals.getD (128 * i + w) (0, 0#8)).1
  (⟨k, kcount, SMap.ofFn 12288 fun n => word (n / 128) (n % 128)⟩, vals.foldl (fun a v => a ||| v.2) 0#8)

/-- R221: what an operation finds in its tile: a cleared tile holds +0. -/
def Tile.cleared (t : Tile) (clr : Bool) (k : TileKind) : Tile := if clr then ⟨k, 0, []⟩ else t

/-- The words of a captured run: register r of lane i has key vkey r i. -/
def runAt (xs : Array W32) (i r : Nat) : Nat := wordAt xs (vkey r i)

/-- R227: MMA. -/
def mmaTile (f : MFmt) (t : Tile) (clr : Bool) (a : Array W32) (b : Array W8) (za zb : Nat) : Tile × W8 :=
  let t := t.cleared clr f.kind
  let old := t.words
  let byte (n : Nat) : Nat := (b.getD n 0#8).toNat
  tileOf f.kind (min (t.kcount + f.k) 65535) fun i j =>
    accumulate f za zb f.k (fun k => some (f.aElem (runAt a i) k, f.bElem byte f.cols k j)) (patAt f.kind old i j)

/-- R230: where position k of a column keeps an element: its compressed row, or none. -/
def keptRow (seed ordinal : Nat) (one : Bool) (k j : Nat) : Option Nat :=
  let g := k / 4
  let x := (rill seed ordinal g j 0 0).1
  if one then (if k % 4 = x % 4 then some g else none)
  else
    let p := [(0, 1), (0, 2), (0, 3), (1, 2), (1, 3), (2, 3)].getD (x % 6) (0, 1)
    if k % 4 = p.1 then some (2 * g) else if k % 4 = p.2 then some (2 * g + 1) else none

/-- Table 8-8. -/
def MmasOp.k (o : MmasOp) : Nat := 2 * o.fmt.k
def masBytes (f : MFmt) (one : Bool) : Nat := f.bytes (if one then f.k / 2 else f.k) 128

/-- R230: MMAS. -/
def mmasTile (f : MFmt) (t : Tile) (clr : Bool) (a : Array W32) (b : Array W8) (seed hdr : Nat) : Tile × W8 :=
  let t := t.cleared clr f.kind
  let old := t.words
  let byte (n : Nat) : Nat := (b.getD n 0#8).toNat
  let one := hdr / 2 ^ 30 == 1
  tileOf f.kind (min (t.kcount + 2 * f.k) 65535) fun i j =>
    accumulate f 0 0 (2 * f.k) (fun k =>
      (keptRow seed (hdr % 2 ^ 30) one k j).map fun r => (f.aElem (runAt a i) k, f.bElem byte 128 r j))
      (patAt f.kind old i j)

/-- R231: MMAB; cols are the block columns minus the window base, in stream order. -/
def mmabTile (f : MFmt) (t : Tile) (clr : Bool) (a : Array W32) (b : Array W8) (cols : List Nat) : Tile × W8 :=
  let t := t.cleared clr f.kind
  let old := t.words
  let bs := f.bs
  let size := bs * bs * f.bits / 8
  tileOf f.kind (min (t.kcount + bs) 65535) fun i j =>
    (cols.zipIdx).foldl (fun (z : Val) c =>
      if c.1 = j / bs then
        let byte (n : Nat) : Nat := (b.getD (c.2 * size + n) 0#8).toNat
        let r := accumulate f 0 0 bs (fun k => some (f.aElem (runAt a i) k, f.bElem byte bs k (j % bs))) z.1
        (r.1, z.2 ||| r.2)
      else z) (patAt f.kind old i j, 0#8)

def fMul32 (x y : Nat) : Val := finish fp32 .rne false (mulEx (FVal.decode fp32 x) (FVal.decode fp32 y))

/-- R214, R232: SCACC. a holds the A scales, b the B scales. -/
def scaccTile (t : Tile) (clr : Bool) (parts : List Tile) (grain : Nat) (a : Array W32) (b : Array W8) : Tile × W8 :=
  let t := t.cleared clr .fp32
  let old := t.words
  let ps := parts.map fun p => (p.kind, p.words)
  tileOf .fp32 (min (t.kcount + parts.length * grain) 65535) fun i j =>
    (ps.zipIdx).foldl (fun (z : Val) q =>
      let x := patAt q.1.1 q.1.2 i j
      let p : Val := if q.1.1 = .int32 then finish fp32 .rne false (FVal.ofInt (signExt x 32), 0#8) else (x, 0#8)
      let u := fMul32 p.1 (runAt a i q.2)
      let sb := (List.range 4).foldl (fun n k => n + 256 ^ k * (b.getD ((q.2 * 128 + j) * 4 + k) 0#8).toNat) 0
      let w := fMul32 u.1 sb
      accAdd fp32 (z.1, z.2 ||| p.2 ||| u.2) w) (patAt .fp32 old i j, 0#8)

/-! ## Spectral mode -/

/-- A value times 2^e. -/
def FVal.scale (x : FVal) (e : Int) : FVal :=
  match x with
  | .fin n m d => .fin n m (d + e)
  | v => v

def f32 (x : Nat) : FVal := FVal.decode fp32 x
/-- Round(a * b + c * d), one rounding; neg subtracts the second product; e scales by 2^e. -/
def dot2 (a b c d : FVal) (neg : Bool) (e : Int) : Val :=
  let p := mulEx a b
  let q := mulEx c d
  let r := addEx .rne p.1 (if neg then q.1.negate else q.1)
  finish fp32 .rne false (r.1.scale e, p.2 ||| q.2 ||| r.2)

/-- R238: SPX for one row: y, x of 128 words; c the block's row. -/
def spxElem (e : Int) (c x : Nat → Nat) (y : Nat) (j : Nat) : Val :=
  if j < 2 then
    let p := mulEx (f32 (c j)) (f32 (x j))
    accAdd fp32 (y, 0#8) (finish fp32 .rne false (p.1.scale e, p.2))
  else
    let k := j / 2
    let cr := f32 (c (2 * k))
    let ci := f32 (c (2 * k + 1))
    let xr := f32 (x (2 * k))
    let xi := f32 (x (2 * k + 1))
    accAdd fp32 (y, 0#8) (if j % 2 = 0 then dot2 cr xr ci xi true e else dot2 cr xi ci xr false e)

def leWord (b : Array W8) (o : Nat) : Nat := (List.range 4).foldl (fun n k => n + 256 ^ k * (b.getD (o + k) 0#8).toNat) 0

/-- R238: SPX over a tile; c and x are the images with their headers. -/
def spxTile (t : Tile) (clr : Bool) (c x : Array W8) : Tile × W8 :=
  let t := t.cleared clr .freq
  let old := t.words
  let adj (b : Array W8) : Int := signExt (b.getD 2 0#8).toNat 8
  let e := adj c + adj x
  tileOf .freq t.kcount fun i j =>
    spxElem e (fun n => leWord c (64 + 4 * n)) (fun n => leWord x (64 + 512 * i + 4 * n)) (wordAt old (128 * i + j)) j

/-- R237: the twiddle table. -/
def twiddles : Array (FVal × FVal) :=
  ((List.range 64).map fun q =>
    let a : FVal := .fin false q (-6)
    (f32 (finish fp32 .rne false (trigEx true a)).1, f32 (finish fp32 .rne false (trigEx false a)).1)).toArray

def bitRev7 (n : Nat) : Nat := (List.range 7).foldl (fun r i => r + (n / 2 ^ i % 2) * 2 ^ (6 - i)) 0

/-- A complex FP32 value with the flags raised so far. -/
abbrev Cpx := Nat × Nat
def butterfly (w : FVal × FVal) (fwd : Bool) (u v : Cpx) : (Cpx × Cpx) × W8 :=
  let wi := if fwd then w.2.negate else w.2
  let pr := dot2 w.1 (f32 v.1) wi (f32 v.2) true 0
  let pi := dot2 w.1 (f32 v.2) wi (f32 v.1) false 0
  let add (x y : Nat) : Val := finish fp32 .rne false (addEx .rne (f32 x) (f32 y))
  let sub (x y : Nat) : Val := finish fp32 .rne false (addEx .rne (f32 x) (f32 y).negate)
  let a := add u.1 pr.1
  let b := add u.2 pi.1
  let c := sub u.1 pr.1
  let d := sub u.2 pi.1
  (((a.1, b.1), (c.1, d.1)), pr.2 ||| pi.2 ||| a.2 ||| b.2 ||| c.2 ||| d.2)

/-- One stage of the transform: m is the span. -/
def fftStage (fwd : Bool) (m : Nat) (z : Array Cpx × W8) : Array Cpx × W8 :=
  (List.range 64).foldl (fun (acc : Array Cpx × W8) n =>
    let h := m / 2
    let i := n / h * m + n % h
    let r := butterfly (twiddles.getD (n % h * (128 / m)) (.fin false 1 0, .fin false 0 0)) fwd
      (acc.1.getD i (0, 0)) (acc.1.getD (i + h) (0, 0))
    ((acc.1.setIfInBounds i r.1.1).setIfInBounds (i + h) r.1.2, acc.2 ||| r.2)) z

def scale32 (x : Nat) (e : Int) : Val := finish fp32 .rne false ((f32 x).scale e, match f32 x with | .nan true => fFNV | _ => 0#8)
def neg32 (x : Nat) : Nat := if (f32 x).isNaN then x else (x + 2 ^ 31) % 2 ^ 32

/-- R237: the transform of one row of 128 words. -/
def xformRow (fwd : Bool) (x : Nat → Nat) : List Nat × W8 :=
  let z (n : Nat) : Cpx :=
    if fwd then (x n, 0)
    else if n = 0 then (x 0, 0)
    else if n = 64 then (x 1, 0)
    else if n < 64 then (x (2 * n), x (2 * n + 1))
    else (x (2 * (128 - n)), neg32 (x (2 * (128 - n) + 1)))
  let a0 := ((List.range 128).map fun n => z (bitRev7 n)).toArray
  let a := (List.range 7).foldl (fun s st => fftStage fwd (2 ^ (st + 1)) s) (a0, 0#8)
  let get (n : Nat) : Cpx := a.1.getD n (0, 0)
  let out := (List.range 128).map fun n =>
    if fwd then
      (if n = 0 then scale32 (get 0).1 (-4)
       else if n = 1 then scale32 (get 64).1 (-4)
       else if n % 2 = 0 then scale32 (get (n / 2)).1 (-4)
       else scale32 (get (n / 2)).2 (-4))
    else scale32 (get n).1 (-3)
  (out.map (·.1), out.foldl (fun f v => f ||| v.2) a.2)

/-! ## Tile images in memory -/

/-- Table 8-9: a header as its fields. -/
structure TileHdr where
  fmt : Nat
  tag : Nat
  rows : Nat
  cols : Nat
  zero : Bool
  deriving DecidableEq, Repr

def tileHdr (b : List W8) : TileHdr where
  fmt := leNat (b.take 1)
  tag := leNat ((b.drop 1).take 1)
  rows := leNat ((b.drop 4).take 2)
  cols := leNat ((b.drop 6).take 2)
  zero := (b.drop 3).headD 0#8 == 0#8 && ((b.drop 8).take 56).all fun x => x == 0#8

/-- R235. -/
def TileHdr.ok (h : TileHdr) : Bool :=
  decide (h.fmt ≤ 2) && (h.tag == 0 || (h.tag == 1 && h.fmt == 0)) && (h.rows == 96 || h.rows == 1) &&
  h.cols == (if h.fmt = 1 then 64 else 128) && h.zero

def TileHdr.kind (h : TileHdr) : TileKind :=
  match h.fmt with
  | 0 => if h.tag = 1 then .freq else .fp32
  | 1 => .fp64
  | _ => .int32

/-- R239: the header that ZMOV writes. -/
def hdrBytes (k : TileKind) : List W8 :=
  let f : Nat := match k with
    | .fp64 => 1
    | .int32 => 2
    | _ => 0
  leBytes 1 f ++ leBytes 1 (if k = .freq then 1 else 0) ++ leBytes 2 0 ++ leBytes 2 96 ++ leBytes 2 k.cols ++
    List.replicate 56 0#8

/-- R239, R424: the image of a tile. -/
def Tile.image (t : Tile) : List W8 :=
  hdrBytes t.kind ++ (SMap.dense t.data 0 12288).flatMap fun w => leBytes 4 w.toNat
def imageTile (k : TileKind) (b : List W8) : Tile :=
  let a := b.toArray
  ⟨k, 0, SMap.ofFn 12288 fun n => BitVec.ofNat 32 (leWord a (64 + 4 * n))⟩

/-- R424: the conversion field of ZMOV. -/
def cvNum (cv : BitVec 2) : Option Fmt :=
  if cv = 1#2 then some fp32 else if cv = 2#2 then some bf16 else if cv = 3#2 then some fp16 else none

/-- R424: the register words of row i that z2v writes, as (offset, word), with flags. -/
def Tile.toRow (t : Tile) (cv : BitVec 2) (i : Nat) : List (Nat × W32) × W8 :=
  match cvNum cv with
  | none => ((List.range 128).map fun w => (w, t.word i w), 0#8)
  | some f =>
    let vs := (List.range t.kind.cols).map fun j => (j, convert (t.elem i j) (.flt f) .rne false)
    (vs.map fun v => (v.1, BitVec.ofNat 32 v.2.1), vs.foldl (fun a v => a ||| v.2.2) 0#8)

/-- R424: the tile that v2z makes of a captured run. -/
def tileFromRun (t : Tile) (cv : BitVec 2) (a : Array W32) : Tile × W8 :=
  match cvNum cv with
  | none => (⟨t.kind, 0, SMap.ofFn 12288 fun n => BitVec.ofNat 32 (runAt a (n / 128) (n % 128))⟩, 0#8)
  | some f => tileOf .fp32 0 fun i j => convert (FVal.decode f (runAt a i j % 2 ^ f.width)) (.flt fp32) .rne false

end Sys2Proof.Machine
end

