-- ==== Sys2Proof/Machine/Matrix.lean ====
section
/-! DEFINITION. The issue of the matrix instructions: checks, captured operands, the latch, and the entry in the queue (R217, R220
to R232, R345, R375, R381, R418, R422 to R426), and XSECT (R420). What the engine then does stands in MatrixEngine. -/

namespace Sys2Proof.Machine

/-- The captured registers of a run of n names, all 96 lanes (R228). -/
def Group.capture (h : Group) (a : BitVec 11) (n : Nat) : SMap 32 := SMap.ofFn (96 * n) fun i => h.vAt (h.absV a + i / 96) (i % 96)

/-- Reason of MATRIX_OPERAND at issue. -/
def mxTrap (h : Group) (k reason addr : Nat) : Trap := h.trapAt k cMatrix reason (h.active k) addr

/-- R217: whether the queue takes no further operation. -/
def Group.mxFull (h : Group) (counts : Bool) : Bool := decide (32 ≤ h.mq.length) || (counts && h.cntMx == 255)

/-- Enter an operation in the queue. -/
def State.enqueue (s : State) (h : Group) (k : Nat) (i : Instr) (a : SMap 32) (scal : List W32) (ptrs : List W128) (counts : Bool) :
    State :=
  let (id, s) := s.fresh
  s.setGroup { h with
    mq := h.mq ++ [⟨id, k, h.pc k, h.active k, i, a, scal, ptrs, 0, false, 0, none⟩]
    cntMx := if counts then h.cntMx + 1 else h.cntMx }

/-- Checks of a memory operand in the order of R345: pointer, domain, extent. -/
def State.mxPointer (s : State) (h : Group) (k : Nat) (ok : Ptr → Bool) (p : Ptr) (off n : Nat) : Option Trap :=
  if p.fmt ≠ fmtBytes || !ok p || off % 64 ≠ 0 then some (mxTrap h k 5 p.base)
  else if s.domainBad h p then some (h.trapAt k cDomain 0 (h.active k) p.base)
  else if p.count < off + n || s.outside h p (p.base + off) n then some (h.trapAt k cBounds 0 (h.active k) (p.base + off))
  else none
def bSpace (p : Ptr) : Bool := p.space == spTarn || p.space == spReservoir

/-- R221: the kind check of an operation that does not clear its tile: not ready, or the wrong kind. -/
def Group.kindFails (h : Group) (z : Nat) (clr : Bool) (need : TileKind) : Option Bool :=
  if clr then some false
  else
    match (h.tileAfter z).1 with
    | none => none
    | some k => some (k != need)

/-- R221: whether every earlier m2z on a tile has read its header, where the kind matters. -/
def Group.kindKnown (h : Group) (z : Nat) (clr : Bool) : Bool := clr || (h.tileAfter z).1.isSome

/-- R229: the A data, the latch after, or reason 2. regs is the run that the instruction reads. -/
def Group.takeA (h : Group) (a : BitVec 11) (f : MFmt) (regs : Nat) (reuse : Bool) (free : Nat) : Option (SMap 32 × Option Latch) :=
  match h.latch with
  | some l =>
    if l.a ≠ a.toNat ∨ l.fmt ≠ f then none
    else
      let beyond := (List.range (96 * (regs - l.regs))).map fun i => (96 * l.regs + i, Config.latchWord free (96 * l.regs + i))
      some (SMap.setAll (l.data.filter fun c => decide (c.1 < 96 * regs)) beyond, if reuse then some l else none)
  | none =>
    let d := h.capture a regs
    some (d, if reuse then some ⟨a.toNat, f, regs, d⟩ else none)

/-- The common part of MMA, MMAS and MMAB after their pointer and pattern checks. -/
def State.multiply (s : State) (h : Group) (k : Nat) (i : Instr) (f : MFmt) (z regs : Nat) (a : BitVec 11) (clr reuse : Bool)
    (scal : List W32) (ptr : W128) : Res :=
  match h.kindFails z clr f.kind with
  | none => .stall s
  | some true => .trap s (mxTrap h k 8 0)
  | some false =>
    let (n, s) := s.freshFree
    match h.takeA a f regs reuse n with
    | none => .trap s (mxTrap h k 2 0)
    | some (d, latch) => .done (s.enqueue { h with latch := latch } k i d scal [ptr] true)

/-- R227, R345. -/
def execMma (g : Guard) (o : MmaOp) (s : State) : Out :=
  issue (.mma g o) s fun k h _ s =>
    let x := h.getA o.ptr
    let off := h.getS k o.boff.toNat
    let zp := match o.zp with
      | some i => h.getS k i.toNat
      | none => 0#32
    if h.mxFull true || !h.kindKnown o.z.toNat o.clr then .stall s
    else if h.tiles.length ≤ o.z.toNat then .trap s (mxTrap h k 1 0)
    else
      match s.mxPointer h k bSpace (Ptr.ofBits x) off.toNat (o.fmt.bytes o.fmt.k o.fmt.cols) with
      | some t => .trap s t
      | none => s.multiply h k (.mma g o) o.fmt o.z.toNat o.fmt.mmaRegs o.a o.clr o.reuse [off, zp] x

/-- R230, R345. B's extent under a reserved pattern is the 2:4 one. (DESIGN CHOICE, unsafe: log entry 85.) -/
def execMmas (g : Guard) (o : MmasOp) (s : State) : Out :=
  issue (.mmas g o) s fun k h _ s =>
    let x := h.getA o.ptr
    let off := h.getS k o.boff.toNat
    let seed := h.getS k o.hdr.toNat
    let hdr := h.getS k (o.hdr.toNat + 1)
    if h.mxFull true || !h.kindKnown o.z.toNat o.clr then .stall s
    else if h.tiles.length ≤ o.z.toNat then .trap s (mxTrap h k 1 0)
    else
      match s.mxPointer h k bSpace (Ptr.ofBits x) off.toNat (masBytes o.fmt (hdr.toNat / 2 ^ 30 == 1)) with
      | some t => .trap s t
      | none =>
        if 2 ≤ hdr.toNat / 2 ^ 30 then .trap s (mxTrap h k 6 0)
        else s.multiply h k (.mmas g o) o.fmt o.z.toNat 32 o.a o.clr o.reuse [off, seed, hdr] x

/-- R231, R345. The SCOPE_DOMAIN check of the stream's Q (R379) stands after the extent. (DESIGN CHOICE, unsafe: log entry 86.) -/
def execMmab (g : Guard) (o : MmabOp) (s : State) : Out :=
  issue (.mmab g o) s fun k h _ s =>
    let x := h.getA o.ptr
    let off := h.getS k o.boff.toNat
    let win := h.sop k o.win false
    let n := o.n1.toNat + 1
    let t := h.streams.getD o.stream.toNat Stream.fresh
    if h.mxFull true || !h.streamReady o.stream.toNat || !h.kindKnown o.z.toNat o.clr then .stall s
    else if h.tiles.length ≤ o.z.toNat then .trap s (mxTrap h k 1 0)
    else
      match s.mxPointer h k bSpace (Ptr.ofBits x) off.toNat (n * (o.fmt.bs * o.fmt.bs * o.fmt.bits / 8)) with
      | some t => .trap s t
      | none =>
        if (match t.body with
          | some r => r.ind && s.domainBad h (Ptr.ofBits r.q)
          | none => false) then .trap s (h.trapAt k cDomain 0 (h.active k) ((t.body.map fun r => (Ptr.ofBits r.q).base).getD 0))
        else s.multiply h k (.mmab g o) o.fmt o.z.toNat o.fmt.mmabRegs o.a o.clr o.reuse [off, BitVec.ofNat 32 win] x

/-- R232: whether a partial tile is refused; none while its kind is not known. -/
def scaccPartBad (h : Group) (o : ScaccOp) (z : Nat) : Option Bool :=
  let t := h.tileAfter z
  t.1.map fun k => !(k == .fp32 || k == .int32) || t.2 != o.grain.num || z == o.z.toNat

/-- R232, R375. -/
def execScacc (g : Guard) (o : ScaccOp) (s : State) : Out :=
  issue (.scacc g o) s fun k h _ s =>
    let x := h.getA o.ptr
    let off := h.getS k o.boff.toNat
    let n := o.n1.toNat + 1
    let parts := (List.range n).map fun q => o.zp.toNat + q
    if h.mxFull true || !h.kindKnown o.z.toNat o.clr || parts.any (fun z => !h.kindKnown z false) then .stall s
    else if (o.z.toNat :: parts).any fun z => decide (h.tiles.length ≤ z) then .trap s (mxTrap h k 1 0)
    else
      match s.mxPointer h k bSpace (Ptr.ofBits x) off.toNat (n * 512) with
      | some t => .trap s t
      | none =>
        if parts.any fun z => (scaccPartBad h o z).isNone then .stall s
        else if parts.any fun z => scaccPartBad h o z == some true then .trap s (mxTrap h k 9 0)
        else
          match h.kindFails o.z.toNat o.clr .fp32 with
          | none => .stall s
          | some true => .trap s (mxTrap h k 8 0)
          | some false => .done (s.enqueue h k (.scacc g o) (h.capture o.a n) [off] [x] true)

/-- R238, R381, R444. R381 gives its causes no order, so Table 3-6 takes the domain first (R78); the order of the
others is the model's choice. (DESIGN CHOICE, unsafe: log entry 96.) -/
def execSpx (g : Guard) (o : SpxOp) (s : State) : Out :=
  issue (.spx g o) s fun k h _ s =>
    let xa := h.getA o.ax
    let ca := h.getA o.ac
    let xo := h.getS k o.xoff.toNat
    let co := h.getS k o.coff.toNat
    let bad (p : Ptr) (off : Nat) : Bool := p.fmt != fmtBytes || p.space != spTarn || off % 64 != 0
    let short (p : Ptr) (off n : Nat) : Bool := decide (p.count < off + n) || s.outside h p (p.base + off) n
    let c := Ptr.ofBits ca
    let x := Ptr.ofBits xa
    if h.mxFull true || !h.kindKnown o.z.toNat o.clr then .stall s
    else if s.domainBad h c then .trap s (h.trapAt k cDomain 0 (h.active k) c.base)
    else if s.domainBad h x then .trap s (h.trapAt k cDomain 0 (h.active k) x.base)
    else if h.tiles.length ≤ o.z.toNat then .trap s (mxTrap h k 1 0)
    else if bad c co.toNat then .trap s (mxTrap h k 5 c.base)
    else if bad x xo.toNat then .trap s (mxTrap h k 5 x.base)
    else if short c co.toNat 576 then .trap s (h.trapAt k cBounds 0 (h.active k) c.base)
    else if short x xo.toNat 49216 then .trap s (h.trapAt k cBounds 0 (h.active k) x.base)
    else
      match h.kindFails o.z.toNat o.clr .freq with
      | none => .stall s
      | some true => .trap s (mxTrap h k 8 0)
      | some false => .done (s.enqueue h k (.spx g o) [] [xo, co] [xa, ca] true)

/-- R418: the checks at issue, in their order. -/
def xformIssue (i : Instr) (o : XformOp) (k : Nat) (h : Group) (s : State) : Res :=
  let a := h.getA o.ptr
  let p := Ptr.ofBits a
  let b := h.sop k o.b false
  let ext := (o.ext.map BitVec.toNat).getD 0
  let off := b + ext
  if h.mxFull true then .stall s
  else if p.space ≠ spTarn || p.fmt ≠ fmtBytes || off % 64 ≠ 0 then .trap s (mxTrap h k 5 p.base)
  else if p.cls = clShared then .trap s (h.trapAt k cClass 0 (h.active k) p.base)
  else if s.domainBad h p then .trap s (h.trapAt k cDomain 0 (h.active k) p.base)
  else if p.count < off + 64 || s.outside h p (p.base + off) 64 then .trap s (h.trapAt k cBounds 0 (h.active k) p.base)
  else .done (s.enqueue h k i [] [BitVec.ofNat 32 b, BitVec.ofNat 32 ext] [a] true)

def execXformFwd (g : Guard) (o : XformOp) (s : State) : Out :=
  issue (.xformFwd g o) s fun k h _ s => xformIssue (.xformFwd g o) o k h s
def execXformInv (g : Guard) (o : XformOp) (s : State) : Out :=
  issue (.xformInv g o) s fun k h _ s => xformIssue (.xformInv g o) o k h s

/-- R422. -/
def execZclr (g : Guard) (o : ZclrOp) (s : State) : Out :=
  issue (.zclr g o) s fun k h _ s =>
    if h.mxFull false then .stall s
    else if h.tiles.length ≤ o.z.toNat then .trap s (mxTrap h k 1 0)
    else .done (s.enqueue h k (.zclr g o) [] [] [] false)

/-- A ZMOV enters the queue; the registers that it writes are pending (R426). -/
def State.enqueueMove (s : State) (h : Group) (k : Nat) (i : Instr) (la : BitVec 4) (lanes : LaneMask) (a : SMap 32)
    (scal : List W32) (ptrs : List W128) (counts : Bool) : State :=
  let dests := (regsOf h i).2
  let (id, s) := s.fresh
  let (fid, s) := s.fresh
  let h := if dests.isEmpty then h else h.launchFlight fid k (h.pc k) la dests lanes (.zmov id) false
  s.setGroup { h with
    mq := h.mq ++ [⟨id, k, h.pc k, h.active k, i, a, scal, ptrs, 0, false, 0, if dests.isEmpty then none else some fid⟩]
    cntMx := if counts then h.cntMx + 1 else h.cntMx }

/-- R423, R424: z2v. A lane that the guard leaves out is written too (R75; DEDUCED, unsafe: log entry 66).
(DEDUCED, unsafe: log entry 33.) -/
def execZmovZ2v (g : Guard) (la : BitVec 4) (o : ZmovVOp) (s : State) : Out :=
  issue (.zmovZ2v g la o) s fun k h _ s =>
    match (h.tileAfter o.z.toNat).1 with
    | none => .stall s
    | some kd =>
      if h.mxFull false then .stall s
      else if h.tiles.length ≤ o.z.toNat then .trap s (mxTrap h k 1 0)
      else
        if 2048 < o.v.toNat + zRun o.cv kd then .trap s (h.illegal k 5)
        else .done (s.enqueueMove h k (.zmovZ2v g la o) la (h.active k) [] [BitVec.ofNat 32 (h.absV o.v)] [] false)

/-- R423, R424: v2z; raw keeps the kind, which must be known. -/
def execZmovV2z (g : Guard) (la : BitVec 4) (o : ZmovVOp) (s : State) : Out :=
  issue (.zmovV2z g la o) s fun k h _ s =>
    if (o.cv = 0#2 && (h.tileAfter o.z.toNat).1.isNone) || h.mxFull false then .stall s
    else if h.tiles.length ≤ o.z.toNat then .trap s (mxTrap h k 1 0)
    else .done (s.enqueueMove h k (.zmovV2z g la o) la (h.active k) (h.capture o.v 128) [] [] false)

/-- R425: the checks of z2m and m2z, to which R425 gives no order, so that of Table 3-6 stands (R78); that of reason 1,
reason 5 and BOUNDS is the model's choice. (DESIGN CHOICE, unsafe: log entry 97.) -/
def State.zmovChecks (s : State) (h : Group) (k : Nat) (store : Bool) (o : ZmovMOp) : Option Trap :=
  let p := Ptr.ofBits (h.getA o.ptr)
  let off := (h.getS k o.off.toNat).toNat
  if store ∧ p.cls = clShared then some (h.trapAt k cClass 0 (h.active k) p.base)
  else if s.domainBad h p then some (h.trapAt k cDomain 0 (h.active k) p.base)
  else if h.tiles.length ≤ o.z.toNat then some (mxTrap h k 1 0)
  else if p.fmt ≠ fmtBytes || !(p.space == spTarn || p.space == spGlobal) || off % 64 ≠ 0 then some (mxTrap h k 5 p.base)
  else if p.count < off + 49216 || s.outside h p (p.base + off) 49216 then some (h.trapAt k cBounds 0 (h.active k) p.base)
  else none

/-- R182, R425: z2m. -/
def execZmovZ2m (g : Guard) (la : BitVec 4) (o : ZmovMOp) (s : State) : Out :=
  issue (.zmovZ2m g la o) s fun k h _ s =>
    if !h.kindKnown o.z.toNat false || h.mxFull true then .stall s
    else
      match s.zmovChecks h k true o with
      | some t => .trap s t
      | none => .done (s.enqueueMove h k (.zmovZ2m g la o) la (h.active k) [] [h.getS k o.off.toNat] [h.getA o.ptr] true)

/-- R182, R239, R425: m2z. -/
def execZmovM2z (g : Guard) (la : BitVec 4) (o : ZmovMOp) (s : State) : Out :=
  issue (.zmovM2z g la o) s fun k h _ s =>
    if h.mxFull true then .stall s
    else
      match s.zmovChecks h k false o with
      | some t => .trap s t
      | none => .done (s.enqueueMove h k (.zmovM2z g la o) la (h.active k) [] [h.getS k o.off.toNat] [h.getA o.ptr] true)

/-- R233, R420: XSECT enters the in-flight list with the positions of its streams; through a SYNC Q it is an acquire (R379). -/
def execXsect (g : Guard) (la : BitVec 4) (o : XsectOp) (s : State) : Out :=
  issue (.xsect g la o) s fun k h sel s =>
    let qs := (h.queue? o.j.toNat).toList ++ (h.queue? o.k.toNat).toList
    let bad := qs.find? fun p => s.domainBad h p
    if !h.streamIdle o.j.toNat || !h.streamIdle o.k.toNat then .stall s
    else
      match bad with
      | some p => .trap s (h.trapAt k cDomain 0 sel p.base)
      | none =>
        let (fid, s) := s.fresh
        let dests := (regsOf h (.xsect g la o)).2
        .done (s.setGroup (h.launchFlight fid k (h.pc k) la dests sel
          (.xsect o.j.toNat o.k.toNat (h.absV o.d) (h.streamPos o.j.toNat, h.streamPos o.k.toNat) none false)
          (qs.any fun q => q.cls == clSync)))

end Sys2Proof.Machine
end

