-- ==== Sys2Proof/Machine/MatrixEngine.lean ====
section
/-! DEFINITION. What the arrays and the transform units do after issue: ARRAY_TAKE_WORK, TRANSFORM_START, MATRIX_OP_COMPLETE (R181,
R182, R217 to R219, R224, R226 to R240, R418, R424 to R426), and the stream address generator: STREAM_RECORD_READ (R377). -/

namespace Sys2Proof.Machine

/-- Go on with an engine's value. -/
def Eng.then_ {α β : Type} (r : State × Eng α) (f : State → α → State × Eng β) : State × Eng β :=
  match r with
  | (s, .ok x) => f s x
  | (s, .wait) => (s, .wait)
  | (s, .fail c x a) => (s, .fail c x a)

/-! ## Taking work -/

/-- The tiles that an operation reads. -/
def tilesRead (i : Instr) : List Nat :=
  match i with
  | .scacc _ o => (List.range (o.n1.toNat + 1)).map fun q => o.zp.toNat + q
  | .zmovZ2v _ _ o => [o.z.toNat]
  | .zmovZ2m _ _ o => [o.z.toNat]
  | _ => []
/-- The tiles that an operation acts on, in whose order it stands (R182, R218). -/
def tilesUsed (i : Instr) : List Nat := tilesWritten i ++ tilesRead i

def isXform (i : Instr) : Bool :=
  match i with
  | .xformFwd .. | .xformInv .. => true
  | _ => false

/-- R218: the oldest operation of a queue that may start and whose tiles no older operation uses. older are the tiles in use so far. -/
def nextOp (ready : MxOp → Bool) : List MxOp → List Nat → Option MxOp
  | [], _ => none
  | o :: rest, older =>
    let ts := tilesUsed o.op
    if !isXform o.op && !o.started && o.status == 0 && ready o && !(ts.any fun z => older.contains z) then some o
    else nextOp ready rest (older ++ ts)

/-- The arrays of a cluster (R9, R218). -/
def arraysPerCluster : Nat := 4

/-- R218: the resident groups of a cluster in order, those after the group served last first; from the first one where that group is no
longer resident. (DESIGN CHOICE, unsafe: log entry 76.) -/
def State.roundRobin (s : State) (cluster array : Nat) : List Group :=
  let gs := sortBy (·.core) (s.groups.filter fun g => g.core / 8 == cluster && g.resident)
  match s.sys.served.find? fun x => x.1 == 4 * cluster + array with
  | none => gs
  | some x =>
    let i := (gs.findIdx? fun g => g.gid == x.2).map (· + 1)
    (gs.drop (i.getD 0)) ++ gs.take (i.getD 0)

/-- R169, R181, R182: whether earlier accesses of the group still stand before the operation's memory access: an ST, an ATOM or an
acquire that has not been performed, and for a ZMOV any access, an earlier ZMOV, an MMAB that reads its range through Q (R379), or, through a SYNC pointer, a write of the group that a
home has not acknowledged (R168, R170). Such an operation does not start (R240). -/
def State.mxHeld (s : State) (g : Group) (o : MxOp) : Bool :=
  (g.flight.any fun f => decide (f.fid < o.id) && g.owes f && (o.move.isSome || f.acquire || (match f.pend with
    | .load .. | .xsect .. => false
    | _ => true))) ||
  (o.move.isSome && g.mq.any fun e => decide (e.id < o.id) && e.move.isSome) ||
  (o.move.any fun m => s.queueOwes g (fun e => decide (e.id < o.id)) fun _ => s.wordKeys g m.1 49216 [m.2]) || (o.syncMove && s.groupUnacked g)

/-- R224: the B operand of an operation: pointer, address and bytes. -/
def MxOp.operandB (o : MxOp) : Option (Ptr × Nat × Nat) :=
  let p := Ptr.ofBits (o.ptrs.getD 0 0#128)
  let a := p.base + (o.scal.getD 0 0#32).toNat
  match o.op with
  | .mma _ x => some (p, a, x.fmt.bytes x.fmt.k x.fmt.cols)
  | .mmas _ x => some (p, a, masBytes x.fmt ((o.scal.getD 2 0#32).toNat / 2 ^ 30 == 1))
  | .mmab _ x => some (p, a, (x.n1.toNat + 1) * (x.fmt.bs * x.fmt.bs * x.fmt.bits / 8))
  | .scacc _ x => some (p, a, (x.n1.toNat + 1) * 512)
  | _ => none
/-- R224, R155: the missing page of an operation's B operand, if any. -/
def State.missingB (s : State) (g : Group) (o : MxOp) : Option Nat :=
  match o.operandB with
  | none => none
  | some (p, a, n) =>
    if p.space = spTarn then none
    else
      match Port.plan s (s.port g p) false (pieces n a n) with
      | .miss va _ => some va
      | _ => none
/-- R240, R224: whether an operation may be chosen: nothing stands before it, and no page of its B awaits the firmware. -/
def State.mxReady (s : State) (g : Group) (o : MxOp) : Bool :=
  !s.mxHeld g o && !((s.missingB g o).any fun va => s.mem.faults.any fun f => f.owner == .engine g.gid && f.va == va && !f.done)

/-- An operation of a group starts; what earlier accesses have read stays, where a ZMOV's access would contradict another value. -/
def State.startOp (s : State) (gid id array : Nat) : State :=
  match s.group? gid with
  | none => s
  | some g =>
    let s := match (g.mq.find? fun o => o.id == id).bind fun o => o.move.map fun m => (o.op, m) with
      | some (.zmovZ2m .., m) => s.performing g id (some (m.1, 49216, [m.2]))
      | some _ => s.performing g id none
      | none => s
    s.updGroup gid fun g => { g with mq := g.mq.map fun (o : MxOp) => if o.id = id then { o with started := true, array := array } else o }

/-! ## Errors of the engine -/

/-- R91, R226, R240: an operation raises a cause: it takes status 1 and those not started take status 2 in the image. Its grid's
trap removes it from the queue; where the grid had ended already, it goes with no further effect. -/
def State.failOp (s : State) (gid : Nat) (o : MxOp) (cause aux addr : Nat) : State :=
  let s := s.updGroup gid fun g => { g with mq := g.mq.map fun (x : MxOp) =>
    if x.id = o.id then { x with status := 1, started := false } else if x.started then x else { x with status := 2 } }
  let s := s.engineTrap gid ⟨cause, aux, o.active, addr, 2, o.slot, o.pc⟩
  (s.updGroup gid fun g => { g with mq := g.mq.filter fun x => x.id != o.id }).sweep gid

/-! ## The arrays -/

/-- R218, R224: a free array of the cluster takes work. A missing page of B is resolved first; converted, it is the operation's trap. -/
def execArrayTakeWork (cluster : Nat) (s : State) : Out :=
  let busy := s.groups.flatMap fun g =>
    if g.core / 8 = cluster then (g.mq.filter fun o => o.started && !isXform o.op).map (·.array) else []
  match (List.range arraysPerCluster).find? fun a => !busy.contains a with
  | none => .next s
  | some a =>
    match (s.roundRobin cluster a).findSome? fun g => (nextOp (s.mxReady g) g.mq []).map fun o => (g, o) with
    | none => .next s
    | some (g, o) =>
      match s.missingB g o with
      | some va =>
        (match s.awaitPage (.engine g.gid) ((s.ctxOf g).getD emptyCtx).id g.core va false with
         | (s, some r) => .next (s.failOp g.gid o cAccess r va)
         | (s, none) => .next s)
      | none =>
        let s := s.startOp g.gid o.id a
        .next { s with sys := { s.sys with served := kvSet s.sys.served (4 * cluster + a) g.gid } }

/-! ## The operations -/

/-- What an operation leaves: the tiles that it wrote, its flags, its register writes, and a stream with its new position. -/
structure MxDone where
  tiles : List (Nat × Tile)
  flags : W8
  regs : Writes
  stream : Option (Nat × Nat)

def MxOp.s (o : MxOp) (i : Nat) : Nat := (o.scal.getD i 0#32).toNat
def MxOp.p (o : MxOp) (i : Nat) : Ptr := Ptr.ofBits (o.ptrs.getD i 0#128)
def MxOp.a (o : MxOp) (n : Nat) : Array W32 := (SMap.dense o.aData 0 (96 * n)).toArray

/-- Read n bytes at an offset of a pointer operand. -/
def State.mxRead (s : State) (g : Group) (p : Ptr) (off n : Nat) : State × Eng (List W8) := s.engineRead g.gid (s.port g p) (p.base + off) n

/-- R231, R379: the block columns of MMAB, relative to the window. -/
def State.blockCols (s : State) (g : Group) (t : Stream) (win limit : Nat) : Nat → Nat → State × Eng (List Nat)
  | 0, _ => (s, .ok [])
  | n + 1, q =>
    let qa : Nat := match t.body with
      | some r => if r.ind then (Ptr.ofBits r.q).elemAddr (r.direct q) else 0
      | none => 0
    match s.streamEntry g t q with
    | (s, .exhausted) => (s, .fail cMatrix 7 0)
    | (s, .out a) => (s, .fail cBounds 0 a)
    | (s, .mis a) => (s, .fail cMisaligned 0 a)
    | (s, .bad a r) => (s, .fail cAccess r a)
    | (s, .miss va) =>
      let c := (s.ctxOf g).getD emptyCtx
      (match s.awaitPage (.engine g.gid) c.id g.core va false with
       | (s, some r) => (s, .fail cAccess r va)
       | (s, none) => (s, .wait))
    | (s, .idx e) =>
      let c := modPow e 32
      if c < win ∨ win + limit ≤ c then (s, .fail cMatrix 7 qa)
      else Eng.then_ (s.blockCols g t win limit n (q + 1)) fun s xs => (s, .ok ((c - win) :: xs))

/-- R426: the scalar write of an AMAX modifier over a tile. -/
def amaxWrite (a : Option (BitVec 9)) (t : Tile) : Writes :=
  match a with
  | none => Writes.none
  | some i => let m := maxAbs32 t.all; ⟨[], [(i.toNat, BitVec.ofNat 32 m.1)], [], m.2⟩

def oneTile (z : Nat) (r : Tile × W8) : MxDone := ⟨[(z, r.1)], r.2, Writes.none, none⟩

/-- MMAB (R231). (DEDUCED, unsafe: log entry 44.) -/
def State.runMmab (s : State) (g : Group) (o : MxOp) (x : MmabOp) : State × Eng MxDone :=
  let n := x.n1.toNat + 1
  let t := g.streams.getD x.stream.toNat Stream.fresh
  let size := x.fmt.bs * x.fmt.bs * x.fmt.bits / 8
  Eng.then_ (s.blockCols g t (o.s 1) (x.fmt.cols / x.fmt.bs) n t.pos) fun s cols =>
  Eng.then_ (s.mxRead g (o.p 0) (o.s 0) (n * size)) fun s b =>
    let s := match t.body with
      | some r => if r.ind ∧ (Ptr.ofBits r.q).cls = clSync then s.acquire g (Ptr.ofBits r.q).scope else s
      | none => s
    let r := mmabTile x.fmt (g.tiles.getD x.z.toNat Tile.fresh) x.clr (o.a x.fmt.mmabRegs) b.toArray cols
    (s, .ok { oneTile x.z.toNat r with stream := some (x.stream.toNat, t.pos + n) })

/-- SCACC (R214, R232). -/
def State.runScacc (s : State) (g : Group) (o : MxOp) (x : ScaccOp) : State × Eng MxDone :=
  let n := x.n1.toNat + 1
  let parts := (List.range n).map fun q => (x.zp.toNat + q, g.tiles.getD (x.zp.toNat + q) Tile.fresh)
  Eng.then_ (s.mxRead g (o.p 0) (o.s 0) (n * 512)) fun s b =>
    let r := scaccTile (g.tiles.getD x.z.toNat Tile.fresh) x.clr (parts.map (·.2)) x.grain.num (o.a n) b.toArray
    (s, .ok { oneTile x.z.toNat r with
      tiles := (x.z.toNat, r.1) :: (if x.clrp then parts.map fun p => (p.1, ⟨p.2.kind, 0, []⟩) else []) })

/-- R238: the reason of a header, if it fails. -/
def spxHdrBad (h : TileHdr) (rows : Nat) : Option Nat :=
  if !h.ok then some 4 else if h.fmt ≠ 0 then some 4 else if h.tag ≠ 1 then some 3 else if h.rows ≠ rows then some 4 else none

/-- SPX (R238). -/
def State.runSpx (s : State) (g : Group) (o : MxOp) (x : SpxOp) : State × Eng MxDone :=
  let c := o.p 1
  let p := o.p 0
  Eng.then_ (s.mxRead g c (o.s 1) 64) fun s hc =>
    match spxHdrBad (tileHdr hc) 1 with
    | some r => (s, .fail cMatrix r (c.base + o.s 1))
    | none =>
      Eng.then_ (s.mxRead g p (o.s 0) 64) fun s hx =>
        match spxHdrBad (tileHdr hx) 96 with
        | some r => (s, .fail cMatrix r (p.base + o.s 0))
        | none =>
          Eng.then_ (s.mxRead g c (o.s 1) 576) fun s bc =>
          Eng.then_ (s.mxRead g p (o.s 0) 49216) fun s bx =>
            (s, .ok (oneTile x.z.toNat (spxTile (g.tiles.getD x.z.toNat Tile.fresh) x.clr bc.toArray bx.toArray)))

/-- XFORM (R236, R237, R418): the rows, then the tag. The third scalar is the row count that the header gave at the start. -/
def State.runXform (s : State) (g : Group) (o : MxOp) (fwd : Bool) : State × Eng MxDone :=
  let p := o.p 0
  let off := o.s 0 + o.s 1
  let rows := o.s 2
  Eng.then_ (s.mxRead g p (off + 64) (512 * rows)) fun s b =>
    let xs := b.toArray
    let rs := (List.range rows).map fun i => xformRow fwd fun w => leWord xs (512 * i + 4 * w)
    let bytes := rs.flatMap fun r => r.1.flatMap fun w => leBytes 4 w
    Eng.then_ (s.engineWrite g.gid (s.port g p) (p.base + off + 64) bytes (some g.gid)) fun s _ =>
    Eng.then_ (s.engineWrite g.gid (s.port g p) (p.base + off + 1) (leBytes 1 (if fwd then 1 else 0)) (some g.gid)) fun s _ =>
      (s, .ok ⟨[], rs.foldl (fun f r => f ||| r.2) 0#8, Writes.none, none⟩)

/-- ZMOV z2v (R239, R424, R426): the rows of the active lanes, which alone raise flags (R205). The scalar is the absolute base of the run. -/
def runZ2v (g : Group) (o : MxOp) (x : ZmovVOp) : MxDone :=
  let t := g.tiles.getD x.z.toNat Tile.fresh
  let rows := (lanesOf o.active).map fun i => (i, t.toRow x.cv i)
  let am := amaxWrite x.amax t
  let vw := rows.flatMap fun r => r.2.1.map fun w => (o.s 0 + w.1, r.1, w.2)
  let fl := rows.foldl (fun a r => a ||| r.2.2) 0#8
  ⟨[], fl ||| am.flags, { am with vw := vw, flags := 0#8 }, none⟩

/-- ZMOV v2z. -/
def runV2z (g : Group) (o : MxOp) (x : ZmovVOp) : MxDone :=
  let r := tileFromRun (g.tiles.getD x.z.toNat Tile.fresh) x.cv (o.a 128)
  let am := amaxWrite x.amax r.1
  ⟨[(x.z.toNat, r.1)], r.2 ||| am.flags, { am with flags := 0#8 }, none⟩

/-- ZMOV z2m. -/
def State.runZ2m (s : State) (g : Group) (o : MxOp) (x : ZmovMOp) : State × Eng MxDone :=
  let t := g.tiles.getD x.z.toNat Tile.fresh
  let p := o.p 0
  let am := amaxWrite x.amax t
  Eng.then_ (s.engineWrite g.gid (s.port g p) (p.base + o.s 0) t.image (some g.gid)) fun s _ =>
    (s, .ok ⟨[], am.flags, { am with flags := 0#8 }, none⟩)

/-- ZMOV m2z: a malformed header, or one row, is refused. -/
def State.runM2z (s : State) (g : Group) (o : MxOp) (x : ZmovMOp) : State × Eng MxDone :=
  let p := o.p 0
  Eng.then_ (s.mxRead g p (o.s 0) 64) fun s hb =>
    let h := tileHdr hb
    if !h.ok ∨ h.rows ≠ 96 then (s, .fail cMatrix 4 (p.base + o.s 0))
    else
      Eng.then_ (s.mxRead g p (o.s 0) 49216) fun s b =>
        let t := imageTile h.kind b
        let am := amaxWrite x.amax t
        (s, .ok ⟨[(x.z.toNat, t)], am.flags, { am with flags := 0#8 }, none⟩)

/-- The whole work of a started operation. -/
def State.runOp (s : State) (g : Group) (o : MxOp) : State × Eng MxDone :=
  let tile (z : BitVec 4) : Tile := g.tiles.getD z.toNat Tile.fresh
  match o.op with
  | .mma _ x =>
    Eng.then_ (s.mxRead g (o.p 0) (o.s 0) (x.fmt.bytes x.fmt.k x.fmt.cols)) fun s b =>
      (s, .ok (oneTile x.z.toNat (mmaTile x.fmt (tile x.z) x.clr (o.a x.fmt.mmaRegs) b.toArray (o.s 1 % 256) (o.s 1 / 256 % 256))))
  | .mmas _ x =>
    Eng.then_ (s.mxRead g (o.p 0) (o.s 0) (masBytes x.fmt (o.s 2 / 2 ^ 30 == 1))) fun s b =>
      (s, .ok (oneTile x.z.toNat (mmasTile x.fmt (tile x.z) x.clr (o.a 32) b.toArray (o.s 1) (o.s 2))))
  | .mmab _ x => s.runMmab g o x
  | .scacc _ x => s.runScacc g o x
  | .spx _ x => s.runSpx g o x
  | .xformFwd _ _ => s.runXform g o true
  | .xformInv _ _ => s.runXform g o false
  | .zclr _ x => (s, .ok (oneTile x.z.toNat (⟨x.kind, 0, []⟩, 0#8)))
  | .zmovZ2v _ _ x => (s, .ok (runZ2v g o x))
  | .zmovV2z _ _ x => (s, .ok (runV2z g o x))
  | .zmovZ2m _ _ x => s.runZ2m g o x
  | .zmovM2z _ _ x => s.runM2z g o x
  | _ => (s, .ok ⟨[], 0#8, Writes.none, none⟩)

/-- R217: whether an operation counts in the matrix counter. -/
def countsMx (i : Instr) : Bool :=
  match i with
  | .zclr .. | .zmovZ2v .. | .zmovV2z .. => false
  | _ => true

/-- R206, R217, R426: an operation completes: tiles, flags, the counter, the stream, and the registers that its flight owes. A move
between a tile and registers, which no counter counts, raises its flags when its flight is written. -/
def Group.finishOp (g : Group) (o : MxOp) (d : MxDone) : Group :=
  let g := { g with
    tiles := d.tiles.foldl (fun (ts : List Tile) (t : Nat × Tile) => setAt ts t.1 t.2) g.tiles
    mq := g.mq.filter fun x => x.id != o.id
    cntMx := if countsMx o.op then g.cntMx - 1 else g.cntMx }
  let g := if countsMx o.op then g.saw 1 ((o.ptrs.map fun p => (Ptr.ofBits p).scope).foldl max 0) else g
  let g := match d.stream with
    | some (k, q) => g.setStream k { g.streams.getD k Stream.fresh with pos := q }
    | none => g
  match o.fid.bind g.flightOf with
  | some f =>
    if countsMx o.op then (g.putFlight { f with pend := .moved d.regs }).orFlags d.flags
    else g.putFlight { f with pend := .moved { d.regs with flags := d.regs.flags ||| d.flags } }
  | none => g.orFlags d.flags

/-- R181, R217, R218, R281: a started operation of a group completes, or raises its cause. All of B is read here, in one step, so that
a write of the group since the issue is always seen; R181 leaves it open word by word. (DESIGN CHOICE, unsafe: log entry 71.) -/
def execMatrixOpComplete (gid opid : Nat) (s : State) : Out :=
  match s.group? gid with
  | none => .next s
  | some g =>
    match g.mq.find? fun o => o.id == opid && o.started with
    | none => .next s
    | some o =>
      match s.runOp g o with
      | (s, .wait) => .next s
      | (s, .fail cause aux a) => .next (s.failOp gid o cause aux a)
      | (s, .ok d) => .next ((s.updKept gid fun g => g.finishOp o d).sweep gid)

/-! ## The transform unit -/

/-- R237, R418: the checks of a header that XFORM reads when it starts. -/
def xformHdrBad (fwd : Bool) (p : Ptr) (off : Nat) (h : TileHdr) : Option (Nat × Nat) :=
  if !h.ok || h.fmt != 0 then some (cMatrix, 4)
  else if h.tag ≠ (if fwd then 0 else 1) then some (cMatrix, 3)
  else if p.count < off + 64 + 512 * h.rows then some (cBounds, 0)
  else none

/-- R218, R418: the oldest XFORM of a group starts once none of the group runs. A header that fails is named by its address, for a
row extent beyond the count too. (DEDUCED, unsafe: log entry 44.) -/
def execTransformStart (gid : Nat) (s : State) : Out :=
  match s.group? gid with
  | none => .next s
  | some g =>
    match g.mq.find? fun o => isXform o.op with
    | none => .next s
    | some o =>
      if !g.resident || o.started || o.status != 0 || s.mxHeld g o then .next s
      else
        let p := o.p 0
        let off := o.s 0 + o.s 1
        let fwd := match o.op with
          | .xformFwd .. => true
          | _ => false
        match s.mxRead g p off 64 with
        | (s, .wait) => .next s
        | (s, .fail cause aux a) => .next (s.failOp gid o cause aux a)
        | (s, .ok b) =>
          let h := tileHdr b
          match xformHdrBad fwd p off h with
          | some (cause, aux) => .next (s.failOp gid o cause aux (p.base + off))
          | none =>
            .next (s.updGroup gid fun g => { g with mq := g.mq.map fun (x : MxOp) =>
              if x.id = o.id then { x with started := true, scal := x.scal.take 2 ++ [BitVec.ofNat 32 h.rows] } else x })

/-! ## The stream address generator -/

/-- Table 13-7. -/
def parseStream (b : List W8) : StreamRec :=
  let u (o n : Nat) : Nat := leNat ((b.drop o).take n)
  { e0 := signExt (u 0 8) 64
    counts := (List.range 4).map fun i => u (8 + 8 * i) 4
    strides := (List.range 4).map fun i => signExt (u (12 + 8 * i) 4) 32
    ind := u 0x28 4 % 2 == 1
    scale := signExt (u 0x2C 4) 32
    q := BitVec.ofNat 128 (u 0x30 16) }

/-- R377: the checks of a record, with the cause, its auxiliary word, and the offset of the field at fault, none for a cause that names no
address: Q's where its seal or Table 5-2 fails it (R142), else the record's own (R444). -/
def streamBad (key : W64) (b : List W8) : Option (Nat × Nat × Option Nat) :=
  let flags := leNat ((b.drop 0x28).take 4)
  let r := parseStream b
  let q := Ptr.ofBits r.q
  if 2 ≤ flags ∨ (!r.ind ∧ r.q ≠ 0) then some (cIllegal, 8, none)
  else if r.ind ∧ !sealOk key r.q then some (cSeal, 0, some 0x30)
  else if r.ind ∧ !q.valid then some (cFormat, 0, some 0x30)
  else if r.ind ∧ !(q.fmt == fmtI32 || q.fmt == fmtU32) then some (cFormat, 0, some 0)
  else none

/-- R377: a stream record is read and checked; the stream counter falls. Earlier writes of the group come first (R181). -/
def execStreamRecordRead (gid k : Nat) (s : State) : Out :=
  match s.group? gid with
  | none => .next s
  | some g =>
    let t := g.streams.getD k Stream.fresh
    match t.req with
    | none => .next s
    | some r =>
      let parked := s.zmovCovers g (Ptr.ofBits r.ptr) 64 [r.addr] || g.flight.any Flight.owesWrite
      if !g.resident || parked then .next s
      else
        let trap (s : State) (cause aux a : Nat) : Out :=
          .next (s.engineTrap gid ⟨cause, aux, r.active, a, 3, r.slot, r.pc⟩)
        match s.engineRead gid (s.port g (Ptr.ofBits r.ptr)) r.addr 64 with
        | (s, .wait) => .next s
        | (s, .fail cause aux a) => trap s cause aux a
        | (s, .ok b) =>
          match streamBad (s.sealKey g) b with
          | some (cause, aux, off) => trap s cause aux (off.elim 0 fun o => r.addr + o)
          | none =>
            .next (s.updGroup gid fun g =>
              { g.setStream k { t with body := some (parseStream b), req := none } with cntStream := g.cntStream - 1 }.saw 2
                (Ptr.ofBits r.ptr).scope)

end Sys2Proof.Machine
end

