-- ==== Sys2Proof/Machine/Pointer.lean ====
section
/-! DEFINITION. PDER, PCLASS, NARROW, WIDEN, PQRY and ALLOC (R143 to R149, R299, R349, R351, R352, R355, R406, R407). -/

namespace Sys2Proof.Machine

/-- The domain of a pointer at the group's current placement (R138). -/
def State.domainAt (s : State) (g : Group) (space scope : Nat) : Nat := domainOf space scope g.core (s.teamIdx g)

/-- A derived pointer goes to aD, or traps POINTER_FORMAT if it breaks Table 5-2. -/
def deliverPtr (k : Nat) (h : Group) (s : State) (d : BitVec 5) (base : Nat) (q : Ptr) : Res :=
  if q.valid then .done (s.setGroup (h.setA d (q.sealed (s.sealKey h)))) else .trap s (h.trapAt k cFormat 0 (h.active k) base)

/-- R144, R352. A range that ends the space leaves a tail whose base, 2^52, Table 5-1 cannot hold (Ptr.bits). (DEDUCED, unsafe: log
entry 28.) -/
def execPder (g : Guard) (o : PderOp) (s : State) : Out :=
  issue (.pder g o) s fun k h _ s =>
    let p := Ptr.ofBits (h.getA o.a)
    let nf := match o.fmt with
      | some f => f.toNat
      | none => p.fmt
    let (off, quad) := match o.src with
      | .quad i => (h.snum k i true, some ((h.getS k (i.toNat + 2)).toNat + 2 ^ 32 * (h.getS k (i.toNat + 3)).toNat))
      | .tail x => (h.sop k x false, none)
    let start := p.base + off * sizeOf p.fmt
    let stop := p.base + p.count * sizeOf p.fmt
    let cnt := quad.getD ((stop - start) / sizeOf nf)
    let t (c : Nat) : Res := .trap s (h.trapAt k c 0 (h.active k) (start % 2 ^ 64))
    if p.count < off then t cBounds
    else if stop < start + cnt * sizeOf nf then t cBounds
    else if start % alignOf nf ≠ 0 then t cMisaligned
    else deliverPtr k h s o.d start { p with base := start, count := cnt, fmt := nf }

/-- R145, R351. -/
def execPclass (g : Guard) (o : PclassOp) (s : State) : Out :=
  issue (.pclass g o) s fun k h _ s =>
    let p := Ptr.ofBits (h.getA o.a)
    if !classPermitted p.cls o.cls.toNat then .trap s (h.trapAt k cClass 0 (h.active k) p.base)
    else deliverPtr k h s o.d p.base { p with cls := o.cls.toNat }

/-- The words of the range of a pointer of group g. -/
def State.rangeTest (s : State) (g : Group) (p : Ptr) : Nat → Bool :=
  let c := (s.ctxOf g).getD emptyCtx
  let base := if p.space = spStack then c.stackBase g.gid + p.base else p.base
  fun wa => p.space != spTarn && c.covers base (p.count * sizeOf p.fmt) wa

/-- R166, R173: whether an earlier access of the group, its queued ZMOVs among them, to the range of a pointer has not been performed. -/
def State.owedInRange (s : State) (g : Group) (p : Ptr) : Bool :=
  let hit (q : Ptr) (n a : Nat) : Bool := q.space != spTarn && p.space != spTarn &&
    (((q.space == spStack) == (p.space == spStack) && decide (a < p.base + p.count * sizeOf p.fmt) && decide (p.base < a + n)) ||
     (s.wordKeys g q n [a]).any fun x => x.1 == 1 && s.rangeTest g p x.2.2)
  (g.mq.any fun o => o.move.any fun m => hit m.1 49216 m.2) ||
  g.flight.any fun f => !(g.unread f).isEmpty || f.work.any fun w => w.2.2.any fun a => hit w.1 w.2.1 a

/-- R146, R173, R406, R407. The range is written back, published to the race detector and released, once every earlier access of the
group to it has been performed. aD waits in an entry for the acknowledgement of the write-back, if a home has not given it yet.
(DEDUCED, safe: log entry 21.) -/
def execWiden (g : Guard) (o : WidenOp) (s : State) : Out :=
  issue (.widen g o) s fun k h _ s =>
    let p := Ptr.ofBits (h.getA o.a)
    let ns := o.scp.toNat
    let nc := match o.cls with
      | some c => c.toNat
      | none => p.cls
    let t (c aux : Nat) : Res := .trap s (h.trapAt k c aux (h.active k) p.base)
    if ns < p.scope then .trap s (h.illegal k 8)
    else if p.ceiling < ns then t cCeiling 0
    else if !classPermitted p.cls nc then t cClass 0
    else
      let q := { p with scope := ns, cls := nc, domain := s.domainAt h p.space ns }
      if !q.valid then t cFormat 0
      else
        let c := (s.ctxOf h).getD emptyCtx
        if s.owedInRange h p then .stall s
        else
          let k0 := s.run.nextId
          let s1 := ((s.writeBack (s.whoOf c h.core) ns (s.rangeTest h p) (some h.gid)).mergeSnoops k0).publish h p ns
          let x := q.sealed (s.sealKey h)
          if s1.mem.snoops.any fun n => n.gid == some h.gid then
            let (fid, s1) := s1.fresh
            .done (s1.setGroup { h.released with flight := h.flight ++
              [⟨fid, k, h.pc k, 0, [.a o.d.toNat], 0#96, h.active k, .ready ⟨[], [], [(o.d.toNat, x)], 0#8⟩, none, none, true, none⟩] })
          else .done (s1.setGroup (h.setA o.d x).released)

/-- R147, R349. -/
def execNarrow (g : Guard) (o : NarrowOp) (s : State) : Out :=
  issue (.narrow g o) s fun k h _ s =>
    let p := Ptr.ofBits (h.getA o.a)
    let ns := o.scp.toNat
    if p.scope < ns then .trap s (h.illegal k 8)
    else
      let q := { p with scope := ns, domain := s.domainAt h p.space ns }
      if !q.valid then .trap s (h.trapAt k cFormat 0 (h.active k) p.base)
      else
        let c := (s.ctxOf h).getD emptyCtx
        let s1 := s.discardClean (s.whoOf c h.core) (decide (3 ≤ p.scope)) (s.rangeTest h p)
        .done (s1.setGroup (h.setA o.d (q.sealed (s.sealKey h))))

/-- Table 5-8. -/
def ptrField (p : Ptr) (f : Nat) : Nat :=
  match f with
  | 0 => p.base % 2 ^ 32
  | 1 => p.base / 2 ^ 32
  | 2 => p.count % 2 ^ 32
  | 3 => p.count / 2 ^ 32
  | 4 => p.fmt
  | 5 => p.space
  | 6 => p.cls
  | 7 => p.scope
  | 8 => p.ceiling
  | 9 => p.domain
  | 10 => p.sealv
  | _ => sizeOf p.fmt

/-- R148, R355. -/
def execPqry (g : Guard) (o : PqryOp) (s : State) : Out :=
  issue (.pqry g o) s (onGroup fun k _ h =>
    h.writeS k [(o.d.toNat, BitVec.ofNat 32 (ptrField (Ptr.ofBits (h.getA o.a)) o.fld.toNat))])

def roundUp (x m : Nat) : Nat := (x + (m - 1)) / m * m

/-- R149, R299: the null pointer when the arena is too small. (DEDUCED, safe: log entry 30.) -/
def execAlloc (g : Guard) (o : AllocOp) (s : State) : Out :=
  issue (.alloc g o) s fun k h _ s =>
    let z := Ptr.ofBits (h.getA o.a)
    let f := o.fmt.toNat
    if z.fmt ≠ fmtBytes ∨ z.space = spReservoir then .trap s (h.trapAt k cFormat 0 (h.active k) z.base)
    else
      let n := h.sop k o.b false
      let key := s.sealKey h
      let start := roundUp z.base (max 16 (alignOf f))
      let stop := start + n * sizeOf f
      if z.base + z.count < stop then
        .done (s.setGroup (h.setA o.d (Ptr.null.rebind h.core (s.teamIdx h) key)))
      else
        let carved := { z with base := start, count := n, fmt := f }
        let rest := { z with base := stop, count := z.base + z.count - stop }
        .done (s.setGroup ((h.setA o.d (carved.sealed key)).setA o.a (rest.sealed key)))

end Sys2Proof.Machine
end

