-- ==== Sys2Proof/Machine/Population.lean ====
section
/-! DEFINITION. Populations and the sluice: RNG, REORD, RSAMP and the step RESAMPLE (R63, R282 to R298, R364, R365, R367, R368). -/

namespace Sys2Proof.Machine

/-! ## RNG and REORD -/

/-- R284, R285: bits 31:0 of a lane's lineage serial enter the block. -/
def execRng (g : Guard) (la : BitVec 4) (o : RngOp) (s : State) : Out :=
  issue (.rng g la o) s fun k h sel s =>
    let b := o.b.toNat
    if h.getS k (b + 3) ≠ 0 then .trap s (h.illegal k 8)
    else
      inCore la (.rng g la o) (fun k sel h =>
        let x (i : Nat) : Nat := (h.getS k i).toNat
        ⟨(lanesOf sel).flatMap fun l =>
          let y := rill (x o.a.toNat) (x (o.a.toNat + 1)) (x b) (x (b + 1)) ((SMap.get h.lineage l).toNat % 2 ^ 32) (x (b + 2))
          let d := h.absV o.d
          [(d, l, BitVec.ofNat 32 y.1), (d + 1, l, BitVec.ofNat 32 y.2.1), (d + 2, l, BitVec.ofNat 32 y.2.2.1),
            (d + 3, l, BitVec.ofNat 32 y.2.2.2)], [], [], 0#8⟩) k h sel s

/-- R63, R365: the deposit of a lane. -/
def Group.deposit (h : Group) (o : ReordOp) (l : Nat) : Deposit where
  key := (h.getV o.a l).setWidth 16
  lane := (SMap.get h.tlane l).toNat
  lineage := SMap.get h.lineage l
  parent := SMap.get h.parent l
  pslot := SMap.get h.pslot l
  payload := (List.range o.p.toNat).map fun i => h.vAt (h.absV o.d + i) l

/-- R63, R364, R365: the selected lanes deposit and exit. -/
def execReord (g : Guard) (o : ReordOp) (s : State) : Out :=
  issue (.reord g o) s fun k h sel s =>
    if (s.grid? h.grid).any fun x => x.launch.reorder == 0 then .trap s (h.illegal k 8)
    else
      let s := s.updTeam h.tid fun t => { t with sluice := t.sluice ++ (lanesOf sel).map (h.deposit o) }
      let t := h.strand k
      .placed (s.exitLanes (h.setStrand k (some { t with pc := nextPc t.pc (.reord g o) })) k sel)

/-! ## RSAMP -/

/-- R289, R290: the lanes of the strand arrive, and the slot empties as for a parked JOIN. -/
def execRsamp (o : RsampOp) (s : State) : Out :=
  issue (.rsamp o) s fun k h _ s =>
    let t := h.strand k
    if (s.grid? h.grid).any (fun x => !x.launch.popn) || t.active ≠ t.members || h.wbase ≠ 0 then .trap s (h.illegal k 8)
    else
      let n := BitVec.ofNat 32 (h.sop k o.b false)
      let arr : List Arrival := (lanesOf t.members).map fun l =>
        ⟨h.gid, k, l, (SMap.get h.pslot l).toNat, h.getV o.a l, n, t.pc + 8, o.d.toNat⟩
      let s := s.updGrid h.grid fun x => { x with arrivals := x.arrivals ++ arr }
      .placed (s.setGroup ((h.setSlot k Slot.empty).takeWork k))

/-! ## The resample -/

/-- R290: whether every lane of a grid has arrived or exited. (DEDUCED, unsafe: log entry 43.) -/
def State.allArrived (s : State) (x : Grid) : Bool :=
  !x.arrivals.isEmpty && x.nextUnit == x.unitCount && x.seeds.isEmpty &&
  !(s.sys.teams.any fun t => t.grid == x.id && !t.runs.isEmpty) &&
  s.groups.all fun g => g.grid != x.id || g.retired ||
    g.live &&& ~~~(maskOf ((x.arrivals.filter fun a => a.gid == g.gid).map (·.lane))) == 0#96

def Arrival.val (a : Arrival) : FVal := FVal.decode fp32 a.weight.toNat
/-- R292: an FP64 sum. -/
def sum64 (a b : FVal) : FVal := FVal.decode fp64 (finish fp64 .rne false (addEx .rne a b)).1

/-- R292: the prefix sums from slot i on; block base, running sum, and the last sum. -/
def prefixSums (w : Nat → FVal) : Nat → Nat → FVal → FVal → FVal → List FVal
  | 0, _, _, _, _ => []
  | n + 1, i, base, run, last =>
    let base := if i % 4096 = 0 then last else base
    let run := sum64 (if i % 4096 = 0 then .fin false 0 0 else run) (w i)
    let c := sum64 base run
    c :: prefixSums w n (i + 1) base run c

/-- R292: C over the slots 0 to P - 1. -/
def Grid.prefixes (x : Grid) : List FVal :=
  prefixSums (fun i => ((x.arrivals.find? fun a => a.pslot == i).map Arrival.val).getD (.fin false 0 0))
    x.popSize 0 (.fin false 0 0) (.fin false 0 0) (.fin false 0 0)

/-- Table 11-4: the cause, the reason and the lanes concerned; arr is in ascending slot order. -/
def Grid.resampleBad (x : Grid) (arr : List Arrival) (total : FVal) : Option (Nat × Nat × List Arrival) :=
  let n := ((arr.head?).map (·.target)).getD 0
  let cap := if x.launch.popCap = 0 then x.launch.popZero else x.launch.popCap
  let some_ (p : Arrival → Bool) : Option (List Arrival) := match arr.filter p with
    | [] => none
    | xs => some xs
  match some_ fun a => a.target != n with
  | some xs => some (cResample, 1, xs)
  | none =>
    match some_ fun a => a.val.isNaN with
    | some xs => some (cResample, 2, xs)
    | none =>
      match some_ fun a => a.val.neg? && !a.val.isZero with
      | some xs => some (cResample, 3, xs)
      | none =>
        match some_ fun a => (match a.val with
          | .inf _ => true
          | _ => false) with
        | some xs => some (cResample, 4, xs)
        | none => if total.isZero then some (cResample, 5, arr) else if cap < n.toNat then some (cPopCap, 6, arr) else none

/-- R293: the numerator of u over 2^53. -/
def Grid.uniform (x : Grid) : Nat :=
  let y := rill (x.launch.key % 2 ^ 32) (x.launch.key / 2 ^ 32) (x.round % 2 ^ 32) 0 0 0
  (y.2.1 * 2 ^ 32 + y.1) / 2 ^ 11

/-- R293: the slot that owns point k of n. -/
def ownerOf (cs : List (FVal × Nat)) (total : FVal) (top um n k : Nat) : Nat :=
  let e := divEx (mulEx (.fin false (um + k * 2 ^ 53) (-53)) total).1 (FVal.ofInt (Int.ofNat n))
  let p := FVal.decode fp64 (finish fp64 .rne false e).1
  if p.lt total then ((cs.find? fun c => p.lt c.1).map (·.2)).getD top else top

/-- A copy of a source lane: the source's arrival, and the clone index. -/
structure Copy where
  src : Arrival
  clone : Nat

/-- Where a copy lands. -/
inductive Land where
  | lane (gid lane : Nat)
  | fresh (unit group lane : Nat)

/-- The portable scalars of a group (R294). -/
def Group.portable (g : Group) (n : Nat) : List W32 := (List.range n).map fun i => SMap.get g.s (32 + i)

/-- R295, steps 1 to 3: the group that takes the next clone of a source. vac lists vacant lanes by group. A group that halts is
resident until it is saved; one that is saved counts at the core where it stood. (DESIGN CHOICE, unsafe: log entry 99.) -/
def State.vacancy (s : State) (x : Grid) (g : Group) (vac : List (Nat × List Nat)) : Option Nat :=
  let has (h : Group) : Bool := vac.any fun v => v.1 == h.gid && !v.2.isEmpty
  let port := g.portable x.launch.portS
  let ok (h : Group) : Bool := h.grid == x.id && s.occupies h && h.gid != g.gid && has h && h.portable x.launch.portS == port
  if has g then some g.gid
  else
    match s.groups.find? fun h => ok h && h.core == g.core with
    | some h => some h.gid
    | none => ((sortBy (·.core) (s.groups.filter fun h => ok h && h.core != g.core && h.core / 128 == g.core / 128)).head?).map
        (·.gid)

/-- R295: clones of groups that none holds: cut into new groups. -/
def cutGroups (same : Copy → Copy → Bool) : List Copy → List (List Copy) → List (List Copy)
  | [], acc => acc.reverse
  | c :: rest, [] => cutGroups same rest [[c]]
  | c :: rest, cur :: done =>
    if cur.length < 96 ∧ (cur.all fun d => same d c) = true then cutGroups same rest ((cur ++ [c]) :: done)
    else cutGroups same rest ([c] :: cur :: done)

/-- R294: the portable registers of a source lane. -/
def Group.laneRegs (g : Group) (n l : Nat) : SMap 32 := SMap.ofFn n fun i => g.vAt i l
def Group.lanePreds (g : Group) (l : Nat) : SMap 1 := SMap.ofFn 48 fun i => if (SMap.get g.p i).getLsbD l then 1#1 else 0#1

/-- R294, R295: lane l becomes a clone: v0 to v(V - 1) and the predicates of the source, 0 elsewhere. -/
def Group.fillLane (g : Group) (l : Nat) (vs : SMap 32) (ps : SMap 1) : Group :=
  { g with
    live := g.live ||| (1#96 <<< l)
    v := SMap.setAll (g.v.filter fun c => c.1 % 96 != l) (vs.map fun r => (vkey r.1 l, r.2))
    p := SMap.setAll g.p ((List.range 48).map fun i =>
      (i, (SMap.get g.p i &&& ~~~(1#96 <<< l)) ||| (if SMap.get ps i = 0#1 then 0#96 else 1#96 <<< l))) }

/-- R297: the strands of a group after the resample, from its lanes with their resume addresses. -/
def Group.resumeAt (g : Group) (lanes : List (Nat × W64)) : Group :=
  let pcs := sortBy BitVec.toNat (distinct (lanes.map (·.2)))
  let st (pc : W64) : Strand :=
    let m := maskOf ((lanes.filter fun x => x.2 == pc).map (·.1))
    ⟨pc, m, m, none⟩
  let put (i : Nat) : Slot := { Slot.empty with strand := (pcs[i]?).map st }
  { g with
    slot0 := put 0
    slot1 := put 1
    eddy := ((pcs.drop 2).map fun pc => Eddy.strand pc none (st pc).members false).reverse }

/-- What a copy in position q becomes: its lane's lineage, parent, slot, clone index (R296). -/
def State.copySpecials (s : State) (x : Grid) (c : Copy) (q : Nat) : W64 × W64 × W32 × W32 :=
  let gen := (x.round + 1) % 2 ^ 16
  let serial := (s.boot.lineage.toNat + q) % 2 ^ 48
  let par := ((s.group? c.src.gid).map fun g => SMap.get g.lineage c.src.lane).getD 0
  (BitVec.ofNat 64 (gen * 2 ^ 48 + serial), par, BitVec.ofNat 32 q, BitVec.ofNat 32 c.clone)

/-- R295: a place for every copy. Clone 0 keeps its lane; vac lists the vacant lanes. The copies that find none are returned. -/
def State.placeCopies (s : State) (x : Grid) : List Copy → List (Nat × List Nat) → List (Copy × Nat × Nat) × List Copy
  | [], _ => ([], [])
  | c :: rest, vac =>
    if c.clone = 0 then
      let r := s.placeCopies x rest vac
      ((c, c.src.gid, c.src.lane) :: r.1, r.2)
    else
      match (s.group? c.src.gid).bind fun g => s.vacancy x g vac with
      | none => let r := s.placeCopies x rest vac; (r.1, c :: r.2)
      | some gid =>
        let l := ((vac.find? fun v => v.1 == gid).map fun v => v.2.headD 0).getD 0
        let r := s.placeCopies x rest (vac.map fun v => if v.1 = gid then (gid, v.2.drop 1) else v)
        ((c, gid, l) :: r.1, r.2)

/-- R293: the copies, ordered by source slot and clone index. -/
def Grid.copies (x : Grid) (arr : List Arrival) (cs : List FVal) (total : FVal) (n : Nat) : List Copy :=
  let top := ((arr.filter fun a => !a.val.isZero).getLast?.map (·.pslot)).getD 0
  let own := (List.range n).map fun k => ownerOf cs.zipIdx total top x.uniform n k
  arr.flatMap fun a => (List.range (own.filter fun i => i == a.pslot).length).map fun j => ⟨a, j⟩

/-- R294 to R297: one group of the grid after the resample. -/
def State.resampleGroup (s : State) (x : Grid) (place : List ((Copy × Nat × Nat) × (W64 × W64 × W32 × W32))) (dead : List Nat)
    (g : Group) : Group :=
  let mine := place.filter fun c => c.1.2.1 == g.gid
  let g1 := { g with live := g.live &&& ~~~(maskOf dead) }
  let g2 := mine.foldl (fun h c =>
    if c.1.1.clone = 0 then h
    else
      match s.group? c.1.1.src.gid with
      | none => h
      | some src => h.fillLane c.1.2.2 (src.laneRegs x.launch.portV c.1.1.src.lane) (src.lanePreds c.1.1.src.lane)) g1
  let g3 := mine.foldl (fun h c =>
    let l := c.1.2.2
    let sp := c.2
    { (h.setVAt c.1.1.src.vd l sp.2.2.2) with
      lineage := SMap.set h.lineage l sp.1
      parent := SMap.set h.parent l sp.2.1
      pslot := SMap.set h.pslot l sp.2.2.1 }) g2
  g3.resumeAt (mine.map fun c => (c.1.2.2, c.1.1.src.resume))

/-- R295: a group that the resample forms. -/
def State.seedOf (s : State) (x : Grid) (cs : List (Copy × (W64 × W64 × W32 × W32))) : Seed :=
  let src (c : Copy) : Option Group := s.group? c.src.gid
  { lanes := cs.map (·.2)
    vd := ((cs.head?).map fun c => c.1.src.vd).getD 0
    vregs := cs.map fun c => ((src c.1).map fun g => g.laneRegs x.launch.portV c.1.src.lane).getD []
    pregs := cs.map fun c => ((src c.1).map fun g => g.lanePreds c.1.src.lane).getD []
    sregs := ((cs.head?).bind fun c => (src c.1).map fun g => g.portable x.launch.portS).getD []
    resume := ((cs.head?).map fun c => c.1.src.resume).getD 0 }

/-- R292 to R297: the resample itself. -/
def State.resample (s : State) (x : Grid) (arr : List Arrival) (cs : List FVal) (total : FVal) (n : Nat) : State :=
  let copies := x.copies arr cs total n
  let specials : List (Copy × (W64 × W64 × W32 × W32)) := copies.zipIdx.map fun c => (c.1, s.copySpecials x c.1 c.2)
  let spec (c : Copy) : W64 × W64 × W32 × W32 :=
    ((specials.find? fun y => y.1.src.pslot == c.src.pslot && y.1.clone == c.clone).map (·.2)).getD (0, 0, 0, 0)
  let deadOf (g : Group) : List Nat :=
    (arr.filter fun a => a.gid == g.gid && !(copies.any fun c => c.src.pslot == a.pslot)).map (·.lane)
  let vac := (s.groups.filter fun g => g.grid == x.id && !g.retired).map fun g =>
    (g.gid, lanesOf (g.launched &&& ~~~(g.live &&& ~~~(maskOf (deadOf g)))))
  let r := s.placeCopies x copies vac
  let place := r.1.map fun c => (c, spec c.1)
  let port (c : Copy) : List W32 := ((s.group? c.src.gid).map fun g => g.portable x.launch.portS).getD []
  let groups := cutGroups (fun a b => a.src.resume == b.src.resume && port a == port b) r.2 []
  let teams := chunksOf x.launch.groups (groups.length + 1) groups
  let seeds := teams.zipIdx.map fun t => (x.nextTeam + t.2, t.1.map fun cs => s.seedOf x (cs.map fun c => (c, spec c)))
  let s' := { s with
    groups := s.groups.map fun (g : Group) =>
      if g.grid = x.id ∧ g.retired = false then s.resampleGroup x place (deadOf g) g else g
    sys := { s.sys with teams := s.sys.teams.map fun (t : Team) => if t.grid = x.id then { t with sluice := [] } else t }
    boot := { s.boot with lineage := s.boot.lineage + BitVec.ofNat 48 n } }
  let s' := s'.updGrid x.id fun y => { y with
    arrivals := [], round := (y.round + 1) % 2 ^ 32, popSize := n, seeds := y.seeds ++ seeds, teamsLeft := y.teamsLeft + seeds.length
    nextTeam := y.nextTeam + seeds.length }
  ((s'.groups.filter fun (g : Group) => g.grid == x.id && !g.retired && g.live == 0#96).map (·.gid)).foldl State.retireGroup s'

/-- R41, R298: the groups of a grid whose images are held, with the saves that hold them. -/
def State.imaged (s : State) (x : Grid) : List (Nat × List Group) :=
  (s.sys.saved.filter fun v => v.grid == x.id && v.saved).map fun v => (v.id, s.groups.filter fun g => s.inUnit x v.unit g && !g.retired)
/-- R298: what the resample makes of the groups that are saved goes to their images, t being the state after it. A page that an image
needs is awaited first. -/
def State.imageResample (s : State) (x : Grid) (t : State) : State :=
  match (t.ctx? x.ctx).bind fun c => c.eddyMiss ((t.imaged x).flatMap (·.2)) with
  | some (g, va) => s.awaitStack x g va true
  | none => (t.imaged x).foldl (fun t y => t.putEddies x.ctx y.1 y.2) t

/-- R290 to R298. -/
def execResample (id : Nat) (s : State) : Out :=
  match s.grid? id with
  | none => .next s
  | some x =>
    if x.st ≠ .admitted ∨ s.allArrived x = false then .next s
    else
      let arr := sortBy (·.pslot) x.arrivals
      let cs := x.prefixes
      let total := (cs.getLast?).getD (.fin false 0 0)
      match x.resampleBad arr total with
      | some (cause, reason, xs) =>
        (match xs with
         | [] => .next s
         | a :: _ => .next (s.takeTrap a.gid
            ⟨cause, reason, maskOf ((xs.filter fun b => b.gid == a.gid).map (·.lane)), 0, 0, a.slot, a.resume - 8⟩))
      | none => .next (s.imageResample x (s.resample x arr cs total (((arr.head?).map fun a => a.target.toNat).getD 0)))

end Sys2Proof.Machine
end

