-- ==== Sys2Proof/Machine/Predicate.lean ====
section
/-! DEFINITION. PLOG, PMOV and PRED (R353, R354, R356). -/

namespace Sys2Proof.Machine

/-- The bits of a truth table over two masks: bit 2a + b of tt. -/
def plogBits (tt : BitVec 4) (a b : LaneMask) : LaneMask :=
  let pick (i : Nat) (m : LaneMask) : LaneMask := if tt.getLsbD i then m else 0#96
  pick 0 (~~~a &&& ~~~b) ||| pick 1 (~~~a &&& b) ||| pick 2 (a &&& ~~~b) ||| pick 3 (a &&& b)

/-- R353. -/
def execPlog (g : Guard) (o : PlogOp) (s : State) : Out :=
  issue (.plog g o) s (onGroup fun _ sel h => h.setPIn o.d.toNat sel (plogBits o.tt (h.getP o.a) (h.getP o.b)))

/-- Three scalars as a mask. -/
def maskOfScalars (h : Group) (k i : Nat) : LaneMask := h.getS k (i + 2) ++ h.getS k (i + 1) ++ h.getS k i

/-- R354, Table 13-3. -/
def execPmov (g : Guard) (o : PmovOp) (s : State) : Out :=
  issue (.pmov g o) s (onGroup fun k sel h =>
    match o with
    | .pp d a => h.setPIn d.toNat sel (h.getP a)
    | .ps d a => h.setPIn d.toNat sel (maskOfScalars h k a.toNat)
    | .pi d v => h.setPIn d.toNat sel (if v then ~~~0#96 else 0#96)
    | .sp d a => h.writeS k ((List.range 3).map fun j => (d.toNat + j, maskWord (h.getP a) j)))

/-- Table 13-4. -/
def predVal (op : PredK) (p act : LaneMask) : Nat :=
  let ls := lanesOf (p &&& act)
  match op with
  | .any => if ls.isEmpty then 0 else 1
  | .all => if act &&& ~~~p = 0#96 then 1 else 0
  | .cnt => ls.length
  | .first => ls.headD 0xFFFFFFFF
  | .last => ls.getLast?.getD 0xFFFFFFFF

/-- R356. -/
def execPred (g : Guard) (o : PredOp) (s : State) : Out :=
  issue (.pred g o) s (onGroup fun k _ h =>
    h.writeS k [(o.d.toNat, BitVec.ofNat 32 (predVal o.op (h.getP o.a) (h.active k)))])

end Sys2Proof.Machine
end

