-- ==== Sys2Proof/Machine/Preempt.lean ====
section
/-! DEFINITION. Pre-emption and migration (R92, R117 to R124, R186, R298): requests, the save, the restore, and the triggers of
Table 4-3. -/

namespace Sys2Proof.Machine

/-- R117: the unit is asked to halt: between two steps every slot stands at an instruction boundary. -/
def State.requestUnit (s : State) (grid u cause : Nat) (yielder : Option (Nat × Nat × Nat)) : State :=
  match s.grid? grid with
  | none => s
  | some x =>
    let here := s.groups.any fun g => s.inUnit x u g && g.resident && !g.retired
    if !here || (s.sys.saved.any fun v => v.grid == grid && v.unit == u) then s
    else
      let (id, s) := s.fresh
      { s with
        groups := s.groups.map fun g => if s.inUnit x u g then { g with resident := false } else g
        sys := { s.sys with
          teams := s.sys.teams.map fun t => if State.teamInUnit x u t then { t with resident := false } else t
          saved := s.sys.saved ++ [⟨id, grid, u, cause, yielder, false⟩] } }

/-- The units of resident groups that sel names, as requests. -/
def State.requests (s : State) (cause : Nat) (sel : Group → Bool) : List Instr :=
  (distinct ((s.groups.filter fun g => g.resident && !g.retired && sel g).filterMap fun g =>
    (s.team? g.tid).map fun t => (g.grid, t.t))).map fun p => .preEmptionRequest p.1 p.2 cause

/-! ## Room for a saved unit -/

/-- Choose one core for each tarn slot of a team, room for the groups that stood on it, until the rest finds room too; named is a choice of the environment.
(DEDUCED, safe: log entry 36.) -/
def chooseSlots {α : Type} (l : LaunchRec) (bench team : Nat) (cores : List Nat) (go : List Nat → Usage → Option α) :
    Option (List Nat) → List Nat → List Nat → Usage → Option α
  | _, [], cs, u => go cs u
  | named, n :: rest, cs, u =>
    let fill (c : Nat) : Option Usage :=
      if n = 0 then
        (if benchCore bench c = (l.cls == 2) ∧ u.tarnAt c + l.tarn ≤ 524288 then some { u with slots := (c, team, l.tarn) :: u.slots }
         else none)
      else (List.range n).foldl (fun v _ =>
        v.bind fun v => if v.fits l bench c team then some (v.add l c team) else none) (some u)
    let free := (match named with
      | some (c :: _) => cores.filter fun d => d == c
      | some [] => []
      | none => cores).filter fun c => !u.slots.any fun x => x.1 == c && x.2.1 == team
    free.findSome? fun c => (fill c).bind fun v => chooseSlots l bench team cores go (named.map (·.drop 1)) rest (cs ++ [c]) v

/-- New cores for the slots of the teams of a saved unit (R113, R122). -/
def State.placeSaved (s : State) (x : Grid) (dies : List Die) : Option (List Nat) →
    List Team → Usage → Option (List (Nat × List Nat))
  | _, [], _ => some []
  | named, t :: rest, u =>
    let bench := ((s.ctx? x.ctx).map (·.bench)).getD 0
    let counts := t.cores.map fun c => (s.groups.filter fun g => g.tid == t.tid && !g.retired && g.core == c).length
    dies.findSome? fun d => chooseSlots x.launch bench t.tid d.cores
      (fun cs v => (placeSaved s x dies (named.map (·.drop t.cores.length)) rest v).map fun r => (t.tid, cs) :: r) named counts [] u

/-- The teams of a saved unit. -/
def State.savedTeams (s : State) (x : Grid) (u : Nat) : List Team := s.sys.teams.filter fun t => State.teamInUnit x u t && !t.done

/-- R111, R121: new cores for a saved unit that heads some dies. -/
def State.placeBack (s : State) (x : Grid) (u : Nat) (heads : List Die) (use : Usage) (named : Option (List Nat)) :
    Option (List (Nat × List Nat)) :=
  let teams := s.savedTeams x u
  if x.launch.cls = 1 then
    pickSet (dieSets x.launch.rtClass heads) (fun ds => s.placeSaved x ds none teams use) (fun ds => s.placeSaved x ds named teams use)
      named.isNone
  else heads.findSome? fun d => s.placeSaved x [d] named teams use

/-! ## Priority -/

/-- Whether the first unit of a die would fit once some groups, and those that have been asked to halt, have left. -/
def State.headFits (s : State) (d : Die) (gone : List Nat) : Bool :=
  let s' := { s with groups := s.groups.filter fun g => g.resident && !gone.contains g.gid }
  match s.headUnit d with
  | none => true
  | some u =>
    match s.grid? u.grid with
    | none => true
    | some x =>
      match u.saved with
      | none => (s'.placeUnit d x u (s.freshKeys (x.unitTeams u.unit)) []).isSome
      | some _ =>
        let heads := s.sys.dies.filter fun e => s.eligible e x && s.headUnit e == some u
        (s.placeBack x u.unit (if x.launch.cls = 1 then heads else [d]) s'.usage none).isSome

/-- Table 4-3, cause 1: the units of a die that have a lower priority than y, youngest admission first, as (grid, unit, team); those of
one grid come by falling unit number. (DESIGN CHOICE, unsafe: log entry 94.) -/
def State.victims (s : State) (d : Die) (y : Grid) : List (Nat × Nat × Nat) :=
  let on := s.groups.filter fun g => g.resident && !g.retired && s.dieNum g.core == d.num
  let units := distinct (on.filterMap fun g =>
    match s.grid? g.grid, s.team? g.tid with
    | some x, some t => if x.prio < y.prio ∧ x.launch.cls ≠ 2 then some (x.order, x.id, x.haltUnit t.t) else none
    | _, _ => none)
  (sortBy (·.1) (sortBy (·.2.2) units)).reverse.filterMap fun v =>
    (s.grid? v.2.1).map fun x => (x.id, v.2.2, x.haltTeam v.2.2)

/-- Of some units, those up to where the head of the die fits. -/
def State.untilFits (s : State) (d : Die) : List (Nat × Nat × Nat) → List Nat → List (Nat × Nat × Nat)
  | [], _ => []
  | v :: rest, gone =>
    if s.headFits d gone then []
    else
      v :: s.untilFits d rest (gone ++ ((s.grid? v.1).elim [] fun x => (s.groups.filter fun g => s.inUnit x v.2.1 g).map (·.gid)))

/-- R118, Table 4-3, cause 1: the units that give way to the head of a die. -/
def State.givesWay (s : State) (d : Die) : List (Nat × Nat × Nat) :=
  match (s.headUnit d).bind fun u => s.grid? u.grid with
  | none => []
  | some y => if y.prio < 2 then [] else s.untilFits d (s.victims d y) []

/-- R118: whether Table 4-3 gives the cause for a unit. -/
def State.causeHolds (s : State) (x : Grid) (u cause : Nat) : Bool :=
  let dies := s.sys.dies.filter fun d => s.groups.any fun g => s.inUnit x u g && s.dieNum g.core == d.num
  match cause with
  | 1 => dies.any fun d => ((s.givesWay d).head?).any fun v => v.1 == x.id && v.2.1 == u
  | 3 => (s.ctx? x.ctx).any fun c => c.suspended
  | 4 => dies.any fun d => d.ctx != some x.ctx
  | _ => false

/-- R117. -/
def execPreEmptionRequest (grid t cause : Nat) (s : State) : Out :=
  match s.grid? grid with
  | none => .next s
  | some x => if s.causeHolds x (x.haltUnit t) cause then .next (s.requestUnit grid (x.haltUnit t) cause none) else .next s

/-- R118: one more pre-emption for priority is counted against a unit. -/
def Grid.charge (x : Grid) (u : Nat) : Grid := { x with charged := kvSet x.charged u ((kvGet x.charged u).getD 0 + 1) }

/-- Table 4-3, cause 1: units of lower priority on the die, youngest admission first, until the head fits; the event is counted
against the head. -/
def execPriorityPreemptTrigger (die : Nat) (s : State) : Out :=
  match s.die? die with
  | none => .next s
  | some d =>
    match s.givesWay d, s.headUnit d with
    | v :: rest, some u => .next { s.updGrid u.grid fun y => y.charge u.unit with
        run := { s.run with agenda := ((v :: rest).map fun v => .preEmptionRequest v.1 v.2.2 1) ++ s.run.agenda } }
    | _, _ => .next s

/-! ## The save -/

/-- R415: whether a transfer of a unit still touches the tarn. One that stands behind a store of a halted group waits with it. -/
def State.tarnCopies (s : State) (x : Grid) (u : Nat) : Bool :=
  s.sys.copies.any fun c => (s.group? c.gid).any (s.inUnit x u) && !s.copyHeld c && s.tarnDue c

/-- R172, R186, R273: whether a home has not acknowledged what a die of some cores has evicted. -/
def State.evicting (s : State) (cores : List Nat) : Bool :=
  s.mem.snoops.any fun n => n.gid == none && cores.any fun c => n.src == some (s.dieNum c)

/-- R119, R120, R186: a halted unit is saved once its transfers through the tarn, its acknowledgements, those of evictions of its dies,
and its started matrix work are done; its dirty words and its eddy stacks go to memory, and then its cores are free. -/
def execPreEmptionSave (grid t : Nat) (s : State) : Out :=
  match s.grid? grid with
  | none => .next s
  | some x =>
    let u := x.haltUnit t
    let mine := s.groups.filter (s.inUnit x u)
    let cores := s.teamCores grid (State.teamInUnit x u)
    let busy := s.tarnCopies x u || s.evicting cores || mine.any fun g =>
      (g.mq.any fun o => o.started) || s.mem.snoops.any fun n => n.gid == some g.gid
    match s.sys.saved.find? fun v => v.grid == grid && v.unit == u && !v.saved, s.ctx? x.ctx with
    | some v, some c =>
      if busy then .next s
      else
        match c.eddyMiss (mine.filter fun g => !g.retired) with
        | some (g, va) => .next (s.awaitStack x g va true)
        | none =>
          let s := { s with groups := s.groups.map fun g => if s.inUnit x u g then g.halt.released else g }
          let s := (s.writeBackAll x.ctx cores v.id).putEddies x.ctx v.id (mine.filter fun g => !g.retired)
          let s := { s with mem := { s.mem with acquired := s.mem.acquired.filter fun y => !(mine.any fun g => g.gid == y.1) } }
          .next { s with sys := { s.sys with saved := s.sys.saved.map fun (v : SavedUnit) =>
            if v.grid = grid ∧ v.unit = u then { v with saved := true } else v } }
    | _, _ => .next s

/-! ## Restore -/

/-- R123, R124: a group on its new core. -/
def Group.moved (g : Group) (core teamIdx : Nat) (key : W64) : Group :=
  { g with
    resident := true
    core := core
    s := SMap.setAll g.s [(9, SMap.get g.s 9 + 1), (10, BitVec.ofNat 32 core)]
    a := SMap.setAll g.a ((List.range 32).filterMap fun i =>
      let x := SMap.get g.a i
      let p := Ptr.ofBits x
      if p.scope < 3 ∨ p.space = spTarn then some (i, p.rebind core teamIdx key) else none) }

/-- R92, R121: whether an ATOM of the unit still owes a value. -/
def owesAtom (g : Group) : Bool := g.flight.any fun f => match f.pend with
  | .atom _ _ _ _ _ lanes _ => lanes.isEmpty && f.held.isNone
  | _ => false

/-- R121 to R124, R186: the teams of a saved unit resume on their new cores; eddies gives the eddy stacks by group. -/
def State.resumeUnit (s : State) (x : Grid) (v : SavedUnit) (place : List (Nat × List Nat)) (eddies : List (Nat × List Eddy)) : State :=
  let key := ((s.ctx? x.ctx).map (·.sealKey)).getD 0
  let s := s.switchIn x.ctx (place.flatMap (·.2))
  let s := { s with groups := s.groups.map fun (g : Group) =>
    match place.find? fun (p : Nat × List Nat) => p.1 == g.tid, s.team? g.tid with
    | some p, some t =>
      let i := (t.cores.findIdx? fun c => c == g.core).getD 0
      if g.retired then { g with resident := true, core := p.2.getD i g.core }
      else { g.moved (p.2.getD i g.core) (t.t % x.launch.gangSize) key with
        eddy := ((eddies.find? fun (e : Nat × List Eddy) => e.1 == g.gid).map Prod.snd).getD g.eddy }
    | _, _ => g }
  let s := { s with sys := { s.sys with
    teams := s.sys.teams.map fun (t : Team) =>
      match place.find? fun (p : Nat × List Nat) => p.1 == t.tid with
      | some p => { t with cores := p.2, resident := true }
      | none => t
    saved := s.sys.saved.filter fun w => w.id != v.id } }
  let s := match v.yielder with
    | some (gid, k, r) => s.updGroup gid fun g => g.setS k r 1#32
    | none => s
  (s.groups.filter fun (g : Group) => place.any fun p => p.1 == g.tid).foldl (fun s g => s.acquire g 3) s

/-- What the eddy stacks of a unit read as, or the first group that cannot read its own, with what it met. -/
def State.getEddies (s : State) (c : Ctx) : List Group → List (Nat × List Eddy) ⊕ (Group × Acc (List Eddy))
  | [] => .inl []
  | g :: rest =>
    match s.getEddy c g with
    | .ok es =>
      (match s.getEddies c rest with
       | .inl xs => .inl ((g.gid, es) :: xs)
       | e => e)
    | e => .inr (g, e)

/-- R121: a saved unit that heads a die with room is restored there, once its ATOMs have their values and the writes of its save
have reached every basin. -/
def execRestore (k : Nat) (cores : List Nat) (s : State) : Out :=
  match s.sys.saved.find? fun v => v.id == k && v.saved with
  | none => .next s
  | some v =>
    match s.grid? v.grid, (s.grid? v.grid).bind fun x => s.ctx? x.ctx with
    | some x, some c =>
      let ref : UnitRef := ⟨x.id, v.unit, some v.id⟩
      let heads := s.sys.dies.filter fun d => s.eligible d x && s.headUnit d == some ref
      let mine := s.groups.filter (s.inUnit x v.unit)
      if (mine.any owesAtom) || s.mem.snoops.any fun n => n.gid == some v.id then .next s
      else
        match s.placeBack x v.unit heads s.usage (if cores.isEmpty then none else some cores) with
        | none => .next s
        | some place =>
          match s.getEddies c (mine.filter fun g => !g.retired) with
          | .inl es => .next (s.resumeUnit x v place es)
          | .inr (g, .miss va _) => .next (s.awaitStack x g va false)
          | .inr (g, .bad va r) => .next (s.engineTrap g.gid ⟨cAccess, r, g.live, va, 0, 0xFF, 0⟩)
          | .inr (_, .ok _) => .next s
    | _, _ => .next s

/-- R118, R421. (DEDUCED, unsafe: log entry 55.) -/
def execYield (g : Guard) (d : BitVec 9) (s : State) : Out :=
  issue (.yield g d) s fun k h _ s =>
    match s.grid? h.grid, s.team? h.tid, s.dieOfCore h.core with
    | some x, some t, some die =>
      if x.launch.cls ≠ 2 ∧ (s.headUnit die).isSome then
        .done (s.requestUnit x.id (x.haltUnit t.t) 2 (some (h.gid, k, d.toNat)))
      else .done (s.setGroup (h.setS k d.toNat 0#32))
    | _, _, _ => .done (s.setGroup (h.setS k d.toNat 0#32))

/-- R118, cause 3: the context is suspended and its resident units are asked to halt. -/
def execHostSuspend (slot : Nat) (s : State) : Out :=
  match s.ctxAt? slot with
  | none => .next s
  | some c =>
    let rs := s.requests 3 fun g => (s.grid? g.grid).any fun x => x.ctx == c.id
    .next { s.updCtx c.id fun c => { c with suspended := true } with run := { s.run with agenda := rs ++ s.run.agenda } }

/-- R26, R118, cause 4: a die's cores go to another context; its units there are asked to halt, and the cores are zeroed. (DEDUCED, unsafe: log entry 35.) -/
def execContextSwitch (die slot : Nat) (s : State) : Out :=
  match s.die? die, s.ctxAt? slot with
  | some d, some c =>
    if d.ctx = some c.id then .next s
    else
      let rs := s.requests 4 fun g => s.dieNum g.core == die && (s.grid? g.grid).any fun x => x.ctx != c.id
      let s := (s.clearL1 d fun _ => true).updDie die fun d => { d with ctx := some c.id }
      .next { s.updCtx c.id fun c => { c with suspended := false } with run := { s.run with agenda := rs ++ s.run.agenda } }
  | _, _ => .next s

end Sys2Proof.Machine
end

