-- ==== Sys2Proof/Machine/Reduce.lean ====
section
/-! DEFINITION. The combining-router reductions: RDCN, RDGET and the steps of their roots (R252 to R259, R359, R360). -/

namespace Sys2Proof.Machine

/-! ## Trees -/

/-- Table 9-9: fan-in of the levels, leaves to root. -/
def treeFans (tree : Nat) : List Nat :=
  match tree % 4 with
  | 0 => [2, 2, 2, 2, 2, 2]
  | 1 => [64]
  | 2 => [8, 8]
  | _ => [4, 4, 4]

/-- R253: Op on one element. -/
def rdOp (ty : RTy) (op : RK) (x y : Nat) : Val :=
  let int (t : IntTy) : Val := match op with
    | .sum => ((x + y) % 2 ^ 32, 0#8)
    | .max => intMax t x y
    | .min => intMin t x y
  let flt (t : FTy) : Val := match op with
    | .sum => fltAdd t .rne false x y
    | .max => fltMax t true x y
    | .min => fltMax t false x y
  match ty with
  | .i32 => int .i32
  | .u32 => int .u32
  | .fp32 => flt .fp32
  | .fp64 => flt .fp64

/-- R253: a node over its children, ascending; an absent child takes no part. -/
def rdNode (f : Nat → Nat → Val) (cs : List (Option (List W64 × W8))) : Option (List W64 × W8) :=
  match cs.filterMap id with
  | [] => none
  | c :: rest => some (rest.foldl (fun a b => let r := combineElems f a b.1; (r.1, r.2 ||| b.2)) c)

/-- R253: the root's value over the leaves. -/
def rdTree (f : Nat → Nat → Val) (fans : List Nat) (leaves : List (Option (List W64 × W8))) : Option (List W64 × W8) :=
  (fans.foldl (fun xs n => (chunksOf n 64 xs).map (rdNode f)) leaves).headD none

/-- R194: an element of a result: a NaN is the canonical one. -/
def canonElem (t : RTy) (x : Nat) : Nat :=
  match t with
  | .fp32 => fp32.canon x
  | .fp64 => fp64.canon x
  | _ => x

/-- R253: the result of an instance. -/
def Reduct.combine (r : Reduct) : Option (List W64 × W8) :=
  (rdTree (rdOp r.ty r.op) (treeFans r.tree)
    ((List.range 64).map fun i => (r.got.find? fun x => x.1 == i).map fun x => (x.2, 0#8))).map
      fun x => (x.1.map fun y => BitVec.ofNat 64 (canonElem r.ty y.toNat), x.2)

/-! ## Instances -/

def wideTy (t : RTy) : Bool := t == .fp64

/-- Table 9-10. -/
structure Quad where
  tree : Nat
  leaf : Nat
  tag : W16
  mask : W64
  ok : Bool

/-- R255: the quad at index a. -/
def Group.quad (h : Group) (k a : Nat) : Quad :=
  let x := (h.getS k a).toNat
  let m : W64 := (h.getS k (a + 3)) ++ (h.getS k (a + 2))
  let leaf := x / 2 ^ 16 % 64
  ⟨x / 2 ^ 22 % 8, leaf, BitVec.ofNat 16 x, m,
    decide (x < 2 ^ 25) && h.getS k (a + 1) == 0 && m != 0 && m.getLsbD leaf⟩

/-- R255: the tree instance of a quad: a die tree's is the die of the group's placement. -/
def State.treeDie (s : State) (h : Group) (q : Quad) : Option Nat := if 4 ≤ q.tree then some (s.dieNum h.core) else none
def Reduct.named (r : Reduct) (ctx tree : Nat) (die : Option Nat) (tag : W16) : Bool :=
  r.ctx == ctx && r.tree == tree && r.die == die && r.tag == tag
def State.reduct? (s : State) (ctx tree : Nat) (die : Option Nat) (tag : W16) : Option Reduct :=
  s.sys.reducts.find? fun r => r.named ctx tree die tag
def State.setReduct (s : State) (r : Reduct) : State :=
  { s with sys := { s.sys with reducts := s.sys.reducts.map fun (x : Reduct) => if x.id = r.id then r else x } }

/-- R255: the instances of a tree instance that a context has open, or that a contribution under way will open. -/
def State.instances (s : State) (ctx tree : Nat) (die : Option Nat) : List W16 :=
  distinct (((s.sys.reducts.filter fun r => r.ctx == ctx && r.tree == tree && r.die == die).map (·.tag)) ++
    s.sys.sent.filterMap fun e => match e.what with
      | .reduce t d tag _ _ _ _ _ _ => if e.ctx = ctx ∧ t = tree ∧ d = die then some tag else none
      | .meet .. => none)
/-- R255: whether an instance is open or may be opened. -/
def State.mayOpen (s : State) (ctx tree : Nat) (die : Option Nat) (tag : W16) : Bool :=
  (s.instances ctx tree die).contains tag || decide ((s.instances ctx tree die).length < 16)

/-- R255: the instance, brought into being if there is none. -/
def State.openReduct (s : State) (ctx tree : Nat) (die : Option Nat) (tag : W16) (mask : W64) (ty : RTy) (op : RK) (m : Nat) :
    State × Reduct :=
  match s.reduct? ctx tree die tag with
  | some r => (s, r)
  | none =>
    let (id, s) := s.fresh
    let r : Reduct := ⟨id, ctx, tree, die, tag, mask, ty, op, m, [], none, false, 0, []⟩
    ({ s with sys := { s.sys with reducts := s.sys.reducts ++ [r] } }, r)
/-- R257. -/
def State.freeReduct (s : State) (id : Nat) : State :=
  { s with sys := { s.sys with reducts := s.sys.reducts.filter fun r => r.id != id } }

/-! ## The instructions -/

/-- R255, R256, R359. -/
def execRdcn (g : Guard) (o : RdcnOp) (s : State) : Out :=
  issue (.rdcn g o) s fun k h _ s =>
    let q := h.quad k o.a.toNat
    let m := o.m1.toNat + 1
    let c := (s.ctxOf h).getD emptyCtx
    let die := s.treeDie h q
    if !q.ok then .trap s (h.illegal k 8)
    else if !s.mayOpen c.id q.tree die q.tag || h.cntColl == 255 then .stall s
    else
      let (id, s) := s.fresh
      let e : Sent := ⟨id, c.id, h.gid, h.core, k, h.pc k, h.active k,
        .reduce q.tree die q.tag q.leaf q.mask o.ty o.op m (h.payload o.d (wideTy o.ty) m)⟩
      let s := { s with sys := { s.sys with sent := s.sys.sent ++ [e] } }
      .done (s.setGroup { h.released with cntColl := h.cntColl + 1 })

/-- The participants that have not contributed. -/
def Reduct.missing (r : Reduct) : W64 := r.pmask &&& ~~~(memberMask (r.got.map (·.1)))
def Reduct.agrees (r : Reduct) (mask : W64) (ty : RTy) (op : RK) (m : Nat) : Bool :=
  r.pmask == mask && r.ty == ty && r.op == op && r.m == m

/-- R257: a leaf takes its outcome; the instance is freed once each leaf has. -/
def State.takeOutcome (s : State) (r : Reduct) (leaf : Nat) : State :=
  let t := r.taken ||| (1#64 <<< leaf)
  if t &&& r.pmask = r.pmask then s.freeReduct r.id else s.setReduct { r with taken := t }

/-- R257 to R259, R360; its own write of s3 does not clear its flags (R206). A lane that the guard leaves out is written too (R75; DEDUCED, unsafe: log entry 66).
(DEDUCED, safe: log entry 42.) -/
def execRdget (g : Guard) (o : RdgetOp) (s : State) : Out :=
  issue (.rdget g o) s fun k h _ s =>
    let q := h.quad k o.a.toNat
    let m := o.m1.toNat + 1
    let b := o.b.toNat
    let c := (s.ctxOf h).getD emptyCtx
    let die := s.treeDie h q
    if !q.ok then .trap s (h.illegal k 8)
    else if !s.mayOpen c.id q.tree die q.tag then .stall s
    else
      let (s, r) := s.openReduct c.id q.tree die q.tag q.mask o.ty o.op m
      if r.result.isNone && !r.timedOut then .stall (s.setReduct { r with waiters := (h.gid, k) :: r.waiters.filter (· != (h.gid, k)) })
      else if !r.agrees q.mask o.ty o.op m then .done (s.setGroup (h.putQuad k b 1 r.got.length 0 0))
      else
        match r.result with
        | some x =>
          let s := s.takeOutcome r q.leaf
          let h := ((h.putPayload o.d (wideTy o.ty) (h.active k) x.1).putQuad k b 0 r.got.length 0 0).orFlags x.2
          .done ((s.setGroup h).acquire h (if 4 ≤ q.tree then 2 else 3))
        | none =>
          let miss := (List.range 64).filter fun i => r.missing.getLsbD i
          if (s.grid? h.grid).any fun x => x.launch.redtrap then
            .trap s (h.trapAt k cReduce (miss.headD 0 + 256 * miss.length) (h.active k) 0)
          else
            let s := s.takeOutcome r q.leaf
            .done (s.setGroup (h.putQuad k b 0x12 r.got.length (r.missing.toNat % 2 ^ 32) (r.missing.toNat / 2 ^ 32)))

/-! ## The roots -/

/-- R242, R256: contribution id reaches its root. It is dropped where it disagrees, repeats a leaf, or comes after the time-out. -/
def execRouterContribution (id : Nat) (s : State) : Out :=
  match s.sys.sent.find? fun e => e.id == id with
  | none => .next s
  | some e =>
    match e.what with
    | .meet .. => .next s
    | .reduce tree die tag leaf mask ty op m pay =>
      let open_ := s.sys.reducts.filter fun r => r.ctx == e.ctx && r.tree == tree && r.die == die
      if !(open_.any fun r => r.tag == tag) && decide (16 ≤ open_.length) then .next s
      else
        let (s, r) := s.openReduct e.ctx tree die tag mask ty op m
        let s := s.accepted e
        if r.timedOut || !r.agrees mask ty op m || r.got.any fun x => x.1 == leaf then .next s
        else
          let r := { r with got := r.got ++ [(leaf, pay)] }
          .next (s.setReduct { r with result := if r.missing = 0 then r.combine else none })

/-- R257: the limit of an instance expires before every participant has contributed. -/
def execReduceTimeout (id : Nat) (s : State) : Out :=
  match s.sys.reducts.find? fun r => r.id == id with
  | none => .next s
  | some r => if r.result.isSome then .next s else .next (s.setReduct { r with timedOut := true })

/-- R257: 2^24 router cycles after its outcome an instance is freed. -/
def execInstanceFreeTimeout (id : Nat) (s : State) : Out :=
  match s.sys.reducts.find? fun r => r.id == id with
  | none => .next s
  | some r => if r.result.isSome || r.timedOut then .next (s.freeReduct id) else .next s

end Sys2Proof.Machine
end

