-- ==== Sys2Proof/Machine/Results.lean ====
section
/-! DEFINITION. Results that arrive, page faults and their replay, and the choice of a slot that has waited: the steps
LONG_LATENCY_RESULT, PAGE_FAULT, REPLAY and ISSUE_GUARD (R87, R89, R92, R96, R116, R153 to R157, R233, R420). -/

namespace Sys2Proof.Machine

/-! ## XSECT -/

/-- What a walk of XSECT answers: the matches, or what stopped it. -/
inductive Walk where
  | done (qj qk : Nat) (found : List (Nat × Nat))
  | miss (va : Nat)
  | trap (cause aux addr : Nat)

/-- R233: the walk of the streams j and k from positions qj and qk, for n more lanes. -/
def State.walk (g : Group) (tj tk : Stream) : Nat → Nat → Nat → Nat → State → State × Walk
  | 0, _, qj, qk, s => (s, .done qj qk [])
  | fuel + 1, n, qj, qk, s =>
    if n = 0 then (s, .done qj qk [])
    else
      if tj.len ≤ qj ∨ tk.len ≤ qk then (s, .done qj qk [])
      else
      match s.streamEntry g tj qj with
      | (s, .exhausted) => (s, .done qj qk [])
      | (s, .miss va) => (s, .miss va)
      | (s, .out a) => (s, .trap cBounds 0 a)
      | (s, .mis a) => (s, .trap cMisaligned 0 a)
      | (s, .bad a r) => (s, .trap cAccess r a)
      | (s, .idx x) =>
        match s.streamEntry g tk qk with
        | (s, .exhausted) => (s, .done qj qk [])
        | (s, .miss va) => (s, .miss va)
        | (s, .out a) => (s, .trap cBounds 0 a)
        | (s, .mis a) => (s, .trap cMisaligned 0 a)
        | (s, .bad a r) => (s, .trap cAccess r a)
        | (s, .idx y) =>
          if x = y then
            match walk g tj tk fuel (n - 1) (qj + 1) (qk + 1) s with
            | (s, .done a b found) => (s, .done a b ((qj, qk) :: found))
            | r => r
          else if x < y then walk g tj tk fuel n (qj + 1) qk s
          else walk g tj tk fuel n qj (qk + 1) s

/-- R233, R420: XSECT walks; the streams advance when its results are written (R87). -/
def State.performXsect (s : State) (g : Group) (f : Flight) (j k dst : Nat) (start : Nat × Nat) : State × Option Trap :=
  let tj := g.streams.getD j Stream.fresh
  let tk := g.streams.getD k Stream.fresh
  let ls := lanesOf f.owed
  let s := s.performing g f.fid none
  match State.walk g tj tk (tj.len + tk.len + 1) ls.length start.1 start.2 s with
  | (s, .miss va) => (s.parkFlight g f va false f.pend f.owed, none)
  | (s, .trap c aux a) => (s.endFlight g.gid f.fid, some ⟨c, aux, f.owed, a, 0, f.slot, f.pc⟩)
  | (s, .done qj qk found) =>
    let vw := ls.zipIdx.flatMap fun l =>
      let m := (found[l.2]?).getD (2 ^ 32 - 1, 2 ^ 32 - 1)
      [(dst, l.1, BitVec.ofNat 32 m.1), (dst + 1, l.1, BitVec.ofNat 32 m.2)]
    let s := ((g.queue? j).toList ++ (g.queue? k).toList).foldl (fun s q => if q.cls = clSync then s.acquire g q.scope else s) s
    (s.updGroup g.gid fun g =>
      let f := { f with parked := none, pend := .xsect j k dst start (some (qj, qk)) false }
      (g.putFlight f).arrive f ⟨vw, [], [], 0#8⟩, none)

/-! ## Arrivals -/

/-- An access that an entry still owes is performed (R89, R92). -/
def State.perform (s : State) (g : Group) (f : Flight) : State × Option Trap :=
  match f.pend with
  | .load .. | .store .. | .atom .. => s.performAccess g f []
  | .xsect j k dst start _ _ => s.performXsect g f j k dst start
  | .gather bits q add acc lanes data wrote => s.performGather g f bits q add acc lanes data wrote
  | .ready _ | .zmov _ | .moved _ => (s, none)

/-- R87, R91: the outcome of a performed access. -/
def settleAccess (gid : Nat) (r : State × Option Trap) : Out :=
  match r.2 with
  | some t => .next (r.1.takeTrap gid t)
  | none => .next r.1

/-- R87, R92, R406: a result of an entry arrives; that of a WIDEN once its write-back is acknowledged. Only the values of an ATOM reach a group that is saved; they wait in its entry. -/
def execLongLatencyResult (gid fid : Nat) (s : State) : Out :=
  match s.group? gid with
  | none => .next s
  | some g =>
    match g.flightOf fid with
    | none => .next s
    | some f =>
      if f.held.isSome || f.parked.isSome then .next s
      else
        match f.pend with
        | .ready w =>
          if g.resident && !(f.acquire && s.mem.snoops.any fun n => n.gid == some gid) then .next (s.setGroup (g.arrive f w)) else .next s
        | .moved w => if g.resident then .next (s.setGroup (g.arrive f w)) else .next s
        | .load .. | .store .. | .atom _ _ _ _ _ (_ :: _) _ | .gather .. | .xsect .. =>
          if g.resident && s.inTurn g f then settleAccess gid (s.perform g f) else .next s
        | .atom _ _ _ _ _ [] w =>
          if g.resident then .next (s.setGroup (g.arrive f w)) else .next (s.setGroup (g.putFlight { f with pend := .ready w }))
        | .zmov _ => .next s

/-- R89, R90, R156: once its page fault is resolved, the instruction is performed again for the lanes that it owes. -/
def execReplay (gid fid : Nat) (s : State) : Out :=
  match s.group? gid with
  | none => .next s
  | some g =>
    match g.flightOf fid with
    | none => .next s
    | some f =>
      match f.parked with
      | none => .next s
      | some k =>
        if !g.resident || (s.mem.faults.any fun x => x.k == k) || !s.inTurn g f then .next s
        else settleAccess gid (s.perform g { f with parked := none })

/-- R116, rule 1: the slots of the core that have waited 1,024 of its cycles or more issue next, the longest first; one that is not
ready then does not issue (R115). -/
def execIssueGuard (core : Nat) (s : State) : Out :=
  let xs := s.groups.flatMap fun g =>
    if g.core = core ∧ g.resident ∧ g.retired = false then
      (if g.slot0.strand.isSome then [(g.slot0.waits, g.gid, 0)] else []) ++
      (if g.slot1.strand.isSome then [(g.slot1.waits, g.gid, 1)] else [])
    else []
  let due := (sortBy (·.1) (xs.filter fun x => decide (1024 ≤ x.1)).reverse).reverse
  .next { s with run := { s.run with picks := due.map (·.2) ++ s.run.picks } }

/-! ## Page faults -/

/-- Bytes of the smallest page. -/
def pageSize : Nat := 0x10000

/-- Whether a frame of n bytes can back a page of a kind: aligned, of the kind's memory, backed, in no other mapping, and
no event array of a live context (R105). -/
def State.frameOk (s : State) (kind : PageKind) (pa n : Nat) : Bool :=
  pa % n == 0 && backed s.boot.expanders pa &&
  (match kind with
   | .device => devicePa pa && decide (pa % 2 ^ 49 < 0x10000000000 ∨ 0x20000000000 ≤ pa % 2 ^ 49)
   | .reservoir => devicePa pa && decide (0x10000000000 ≤ pa % 2 ^ 49) && decide (pa % 2 ^ 49 < 0x10300000000)
   | .host => pa / 2 ^ 50 == 2
   | .hostnc => pa / 2 ^ 50 == 3) &&
  !(s.sys.ctxs.any fun c => !c.ended && (decide (c.eventPa < pa + n) && decide (pa < c.eventPa + pageSize) ||
    c.maps.any fun m => (c.copiesOf m).any fun x => decide (x.2 < pa + n) && decide (pa < x.2 + m.sz)))

/-- R157: the dirty words of a physical range go to their homes, and no cache keeps a word of it. -/
def State.flushRange (s : State) (key pa n : Nat) : State :=
  let inside (wa : Nat) : Bool := decide (pa ≤ 4 * wa) && decide (4 * wa < pa + n)
  let mem := (s.mem.basin.filter fun c => inside c.wa && c.dirty && !c.mirror).foldl (fun m c => m.putWord key c.wa c.val c.poison) s.mem
  let mem := (s.mem.l1.filter fun c => inside c.wa && c.dirty).foldl (fun m c => m.putWord key c.wa c.val c.poison) mem
  ({ s with mem := mem } : State).dropRange pa n

/-- R157, R277: the contents of a page move to a frame: the bytes that are listed, with the keys of their lines, and its poison; what
nothing has written reads there as it reads in the page. What the caches and the frame held is gone. -/
def State.copyPage (s : State) (key src dst n : Nat) : State :=
  let s := (s.flushRange key src n).dropRange dst n
  let cells := s.mem.home.filter fun c => decide (src ≤ c.1) && decide (c.1 < src + n) && kvGet s.mem.keys (c.1 / 128) == some key
  let mem : Mem := { s.mem with
    home := s.mem.home.filter fun c => !(decide (dst ≤ c.1) && decide (c.1 < dst + n))
    keys := s.mem.keys.filter fun c => !(decide (dst / 128 ≤ c.1) && decide (c.1 < (dst + n) / 128))
    origins := ⟨key, dst, src, n⟩ :: s.mem.origins
    poison := (s.mem.poison.filter fun w => !(decide (dst / 4 ≤ w) && decide (w < (dst + n) / 4))) ++
      (s.mem.poison.filter fun w => decide (src / 4 ≤ w) && decide (w < (src + n) / 4)).map fun w => dst / 4 + (w - src / 4) }
  { s with mem := cells.foldl (fun m c => m.setByte key (dst + (c.1 - src)) c.2) mem }

/-- R157: a read fault makes a replica in the faulting domain; a write fault collapses the page to the writer's domain, whether or not
an on-demand range holds the page, which R155 leaves open. (DEDUCED, unsafe: log entry 25.) -/
def State.moveReplica (s : State) (c : Ctx) (m : Mapping) (f : PFault) (frame : Nat) : State :=
  match ((c.copiesOf m).find? fun x => x.1 == f.domain).map (·.2), f.write with
  | some pa, true => s.keepCopy c m pa
  | none, true => (s.copyPage c.aesKey m.pa frame m.sz).keepCopy c m frame
  | some _, false => s
  | none, false =>
    (s.copyPage c.aesKey m.pa frame m.sz).updCtx c.id fun c => { c with replicas := c.replicas ++ [⟨m.va, m.sz, f.domain, frame⟩] }

/-- The fault is resolved: what waited on it goes on. -/
def State.clearFault (s : State) (f : PFault) : State :=
  let s := { s with mem := { s.mem with faults := s.mem.faults.filter fun x => x.k != f.k } }
  match f.owner with
  | .slot gid k _ => s.updGroup gid fun g => g.setSlot k { g.slot k with park := none }
  | _ => s

/-- R155, R279: the fault becomes an ACCESS trap of its owner. -/
def State.convertFault (s : State) (f : PFault) (reason : Nat) : State :=
  match f.owner with
  | .slot gid k owed =>
    match s.group? gid with
    | none => s.clearFault f
    | some g => (s.clearFault f).takeTrap gid (g.trapAt k cAccess reason owed f.va)
  | .flight gid fid =>
    match (s.group? gid).bind fun g => g.flightOf fid with
    | none => s.clearFault f
    | some x => (s.clearFault f).takeTrap gid ⟨cAccess, reason, x.owed, f.va, 0, x.slot, x.pc⟩
  | .engine _ | .part =>
    { s with mem := { s.mem with faults := s.mem.faults.map fun x => if x.k = f.k then { x with done := true } else x } }

/-- The range that the firmware maps a page of: an on-demand range (R152), or the STACK range (R96). -/
def Ctx.demandPage (c : Ctx) (va : Nat) : Option DemandRange :=
  if c.inStack va then some ⟨c.stackVa, c.stackGroups * 2 ^ 25, .device, true, false, false⟩ else c.inDemand va
/-- R152: whether a frame can back a page of a range; a replicable page lies in LPDDR6. -/
def State.demandFrame (s : State) (r : DemandRange) (pa : Nat) : Bool :=
  s.frameOk r.kind pa pageSize && (!r.replicable || decide (pa % 2 ^ 49 < 0x10000000000))

/-- R96, R154 to R157: the firmware resolves a fault, with the frame that it can give, or converts it. A frame that cannot back
the page changes nothing. (DESIGN CHOICE, safe: log entry 26.) A page whose replica finds no frame converts to ACCESS with reason 8,
whatever its range. (DEDUCED, unsafe: log entry 25.) -/
def execPageFault (k : Nat) (frame : Option Nat) (s : State) : Out :=
  match s.mem.faults.find? fun f => f.k == k && !f.done with
  | none => .next s
  | some f =>
    match s.ctx? f.ctx with
    | none => .next (s.clearFault f)
    | some c =>
      match c.mapOf f.va with
      | some m =>
        let cs := c.copiesOf m
        if !m.replicable || ((cs.any fun x => x.1 == f.domain) && !(f.write && decide (1 < cs.length))) then .next (s.clearFault f)
        else
          match frame with
          | none =>
            if cs.any fun x => x.1 == f.domain then .next ((s.moveReplica c m f 0).clearFault f) else .next (s.convertFault f 8)
          | some pa =>
            if (cs.any fun x => x.1 == f.domain) || (s.frameOk m.kind pa m.sz && pa / 2 ^ 49 % 4 == f.domain) then
              .next ((s.moveReplica c m f pa).clearFault f)
            else .next s
      | none =>
        match c.demandPage f.va, frame with
        | some r, some pa =>
          if s.demandFrame r pa then
            let m : Mapping := ⟨f.va / pageSize * pageSize, pa, pageSize, r.kind, r.write, r.exec, r.replicable⟩
            .next ((s.updCtx c.id fun c => { c with maps := c.maps ++ [m] }).clearFault f)
          else .next s
        | _, _ => .next (s.convertFault f (c.faultReason f.va))

/-- The frame that the environment's default choice gives for a fault (DESIGN CHOICE, safe: log entry 1): above every frame given before. -/
def State.defaultFrame (s : State) (f : PFault) : Option Nat :=
  match s.ctx? f.ctx with
  | none => none
  | some c =>
    let size := ((c.mapOf f.va).map (·.sz)).getD pageSize
    let kind := ((c.mapOf f.va).map (·.kind)).getD (((c.demandPage f.va).map (·.kind)).getD .device)
    let base := match kind with
      | .device => f.domain * 2 ^ 49 + 0x8000000000
      | .reservoir => f.domain * 2 ^ 49 + 0x10000000000
      | .host => 2 ^ 51 + 0x8000000000
      | .hostnc => 3 * 2 ^ 50 + 0x8000000000
    let tops := (s.sys.ctxs.flatMap fun c => c.maps.flatMap fun m => (c.copiesOf m).map fun x => x.2 + m.sz).filter fun a =>
      decide (base < a) && decide (a < base + 0x8000000000)
    let top := tops.foldl max base
    let pa := (top + size - 1) / size * size
    if s.frameOk kind pa size then some pa else none

end Sys2Proof.Machine
end

