-- ==== Sys2Proof/Machine/System.lean ====
section
/-! DEFINITION. TRAP, SVC, RDSR and WRSR (R361 to R363, R385, R386, R391, R408). YIELD stands with pre-emption. -/

namespace Sys2Proof.Machine

/-- R391. -/
def execTrap (g : Guard) (a : SOp) (s : State) : Out :=
  issue (.trap g a) s fun k h _ s => .trap s (h.trapAt k cSoftware (h.sop k a false) (h.active k) 0)

/-- The status of an SVC. -/
def svcDone (h : Group) (k : Nat) (d : BitVec 9) (x : Nat) (s : State) : Res :=
  .done (s.updGroup h.gid fun g => g.setS k d.toNat (BitVec.ofNat 32 x))

/-- R385. -/
def execSvcProbe (g : Guard) (o : SvcOp) (s : State) : Out :=
  issue (.svcProbe g o) s fun k h _ s => svcDone h k o.d 1 s

/-- Lock n of a context; a lock that has not been used is free. -/
def Ctx.lock (c : Ctx) (n : Nat) : Lock := (c.locks.find? fun l => l.n == n).getD ⟨n, none, []⟩
def Ctx.setLock (c : Ctx) (l : Lock) : Ctx := { c with locks := insertBy (·.n) l (c.locks.filter fun x => x.n != l.n) }

/-- The holder that a group is (R386). -/
def State.holderOf (s : State) (h : Group) : Holder := .group h.grid (((s.team? h.tid).map (·.t)).getD 0) h.idx
/-- R386: whether a slot of the group holds an SVC that waits for a lock and names it still; the group waits for no other. -/
def Group.asks (g : Group) (n : Nat) : Bool :=
  [0, 1].any fun k => (g.slot k).lockWait.any fun x => x.2 == n && g.sop k x.1 false == n
/-- Whether a waiting request can take a lock now: a host request, or a resident group with a slot that still asks for it. -/
def State.waiterReady (s : State) (n : Nat) (x : Holder) : Bool :=
  match x with
  | .host _ => true
  | .group grid t idx => s.groups.any fun g => g.grid == grid && g.idx == idx && g.resident && !g.retired && g.asks n &&
      (s.team? g.tid).any fun u => u.t == t

/-- R386: whether a free lock goes to a request: no earlier request that can take it waits. One whose group has no slot that still
waits for the lock comes after all that wait. (DEDUCED, unsafe: log entry 56.) -/
def State.grants (s : State) (l : Lock) (me : Holder) : Bool :=
  l.holder.isNone && (if s.waiterReady l.n me then l.queue.takeWhile fun x => x != me else l.queue).all fun x => !s.waiterReady l.n x

/-- R386: a request takes a lock, and no longer waits for it. -/
def Lock.take (l : Lock) (me : Holder) : Lock := { l with holder := some me, queue := l.queue.filter fun x => x != me }

/-- R386: a request joins those that wait for a lock; one that already waits keeps its place. -/
def Lock.enqueue (l : Lock) (me : Holder) (waiting : Bool) : Lock :=
  if waiting && l.queue.contains me then l else { l with queue := (l.queue.filter fun x => x != me) ++ [me] }

/-- The lock of an SVC, or its trap. -/
def svcLockOf (h : Group) (k : Nat) (o : SvcOp) (s : State) (f : Nat → Ctx → Lock → Holder → Res) : Res :=
  let n := h.sop k o.a false
  if 256 ≤ n then .trap s (h.illegal k 8)
  else
    let c := (s.ctxOf h).getD emptyCtx
    f c.id c (c.lock n) (s.holderOf h)

def execSvcLock (g : Guard) (o : SvcOp) (s : State) : Out :=
  issue (.svcLock g o) s fun k h _ s => svcLockOf h k o s fun id _ l me =>
    if l.holder = some me then svcDone h k o.d 2 s
    else if s.grants l me then
      svcDone h k o.d 0 (s.updCtx id fun c => c.setLock (l.take me))
    else .stall ((s.updCtx id fun c => c.setLock (l.enqueue me (h.asks l.n))).updGroup h.gid fun g =>
      g.setSlot k { g.slot k with lockWait := some (o.a, l.n) })

def execSvcUnlock (g : Guard) (o : SvcOp) (s : State) : Out :=
  issue (.svcUnlock g o) s fun k h _ s => svcLockOf h k o s fun id _ l me =>
    if l.holder = some me then svcDone h k o.d 0 (s.updCtx id fun c => c.setLock { l with holder := none })
    else svcDone h k o.d 1 s

def execSvcTrylock (g : Guard) (o : SvcOp) (s : State) : Out :=
  issue (.svcTrylock g o) s fun k h _ s => svcLockOf h k o s fun id _ l me =>
    if l.holder = some me then svcDone h k o.d 2 s
    else if s.grants l me then svcDone h k o.d 0 (s.updCtx id fun c => c.setLock (l.take me))
    else svcDone h k o.d 1 s

/-- R385: a record of kind 1, or 1 when it is dropped. -/
def execSvcLog (g : Guard) (o : SvcOp) (s : State) : Out :=
  issue (.svcLog g o) s fun k h _ s =>
    let r := s.logEvent h (h.trapAt k cSoftware (h.sop k o.a false) (h.active k) 0)
    svcDone h k o.d (if r.2 then 0 else 1) r.1

/-! ## Specials -/

/-- Table 13-5: a lane special. -/
def Group.laneSpecial (h : Group) (n l : Nat) : Nat :=
  match n with
  | 0 => l
  | 1 => (SMap.get h.tlane l).toNat
  | 2 => (SMap.get h.lineage l).toNat
  | 3 => (SMap.get h.parent l).toNat
  | _ => (SMap.get h.pslot l).toNat

/-- Table 13-5: a group special, but for the refresh phases. -/
def State.special (s : State) (h : Group) (n : Nat) : Nat :=
  let x := s.grid? h.grid
  match n with
  | 0x10 => (((s.cycles.find? fun (c : Nat × W64) => c.1 == h.core).map fun (c : Nat × W64) => c.2).getD 0).toNat
  | 0x11 => (x.map (·.round)).getD 0
  | 0x12 => (x.map (·.popSize)).getD 0
  | 0x13 => h.depth
  | 0x14 => h.wbase
  | _ => (h.streams.getD (n - 0x20) Stream.fresh).pos

/-- R160: the refresh phase of a memory die, a free value below 9,600 that the step advances. -/
def State.phase (s : State) (m : Nat) : State × Nat :=
  let (n, s) := s.freshFree
  let v := (s.sys.memCycles.getD m 0) + BitVec.ofNat 64 (Config.phaseReading n m)
  ({ s with sys := { s.sys with memCycles := setAt s.sys.memCycles m v } }, v.toNat % 9600)

/-- R361 to R363. -/
def execRdsr (g : Guard) (o : RdsrOp) (s : State) : Out :=
  issue (.rdsr g o) s fun k h sel s =>
    let n := o.num.toNat
    match o.d with
    | .v d => .done (s.setGroup (h.putLanes d ((Sys2Proof.laneSpecial n).getD false) sel fun l => (h.laneSpecial n l, 0#8)))
    | .s d =>
      let (s, x) := if 0x18 ≤ n ∧ n ≤ 0x1B then s.phase (n - 0x18) else (s, s.special h n)
      .done (s.setGroup (h.writeS k (swords d.toNat ((groupSpecial n).getD false) x)))

/-- R408. -/
def execWrsr (g : Guard) (o : WrsrOp) (s : State) : Out :=
  issue (.wrsr g o) s fun k h _ s =>
    let i := o.num.toNat - 0x20
    let t := h.streams.getD i Stream.fresh
    if !t.everSet then .trap s (h.illegal k 8)
    else if !h.streamIdle i then .stall s
    else .done (s.setGroup (h.setStream i { t with pos := min (h.snum k o.a true) t.len }))

end Sys2Proof.Machine
end

