-- ==== Sys2Proof/Machine/Requests.lean ====
section
/-! DEFINITION. What the host asks of the firmware and the control die: contexts, mappings, inlets, communicators, logs, images,
locks, the CXL.mem window and the package copy engine (R21, R23, R27, R34, R101, R103, R105, R113, R152, R154, R158, R159, R177,
R257, R260, R278, R281, R386). -/

namespace Sys2Proof.Machine

/-! ## Contexts -/

def pow2In (n lo hi : Nat) : Bool := (List.range 64).any fun i => decide (lo ≤ i) && decide (i ≤ hi) && n == 2 ^ i

/-- R101: an inlet that the firmware may create. -/
def State.inletOk (s : State) (i : InletSpec) : Bool :=
  decide (i.n < 256) && i.ringBase % 4096 == 0 && pow2In i.ringSize 4 16 && decide (i.prio ≤ 3) && i.affinity != 0#4 &&
  !(s.sys.inlets.any fun x => x.n == i.n)

/-- Whether two ranges, each a start and a length, share an address. -/
def meets (a b : Nat × Nat) : Bool := decide (a.1 < b.1 + b.2) && decide (b.1 < a.1 + a.2)
def disjoint : List (Nat × Nat) → Bool
  | [] => true
  | x :: rest => !(rest.any fun y => meets x y) && disjoint rest

/-- R278: bytes of a fault log. -/
def logBytes : Nat := 0x40000

/-- R96, R101, R105, R113, R162, R257, R278: what the firmware requires of a context. (DEDUCED, unsafe: log entry 54.) -/
def State.ctxOk (s : State) (c : CtxSpec) : Bool :=
  s.boot.st == .ready && decide (c.slot < 256) && (s.ctxAt? c.slot).isNone &&
  (c.bench == none || c.bench == some 0 || c.bench == some 8 || c.bench == some 16) &&
  c.atomics.all (fun n => n == 4 || n == 8 || n == 16) &&
  c.treeLimits.all (fun n => decide (2 ^ 10 ≤ n) && decide (n ≤ 2 ^ 30)) &&
  c.inlets.all s.inletOk && disjoint (c.inlets.map fun i => (i.n, 1)) &&
  c.stackVa % pageSize == 0 && c.faultLogVa % pageSize == 0 && c.eventVa % pageSize == 0 &&
  disjoint [(c.stackVa, c.stackGroups * 2 ^ 25), (c.faultLogVa, logBytes), (c.eventVa, pageSize)] &&
  decide (c.stackVa + c.stackGroups * 2 ^ 25 ≤ 2 ^ 52) && decide (c.faultLogVa + logBytes ≤ 2 ^ 52) &&
  decide (c.eventVa + pageSize ≤ 2 ^ 52) && disjoint [(c.faultLogPa, logBytes), (c.eventPa, pageSize)] &&
  s.frameOk .device c.eventPa pageSize && (List.range 4).all fun i => s.frameOk .device (c.faultLogPa + i * pageSize) pageSize

/-- R34, R105, R113, R278: a new context, with the keys that the control die generates from its n-th entropy, its bench of 8 cores
if the host names none, its fault log mapped read-only and its event array mapped. -/
def newCtx (c : CtxSpec) (id n : Nat) : Ctx where
  slot := c.slot
  id := id
  sealKey := Config.sealKey n
  aesPair := Config.aesPair n
  keysErased := false
  bench := c.bench.getD 8
  atomics := c.atomics
  treeLimits := c.treeLimits
  maps := ((List.range 4).map fun i =>
      (⟨c.faultLogVa + i * pageSize, c.faultLogPa + i * pageSize, pageSize, .device, false, false, false⟩ : Mapping)) ++
    [⟨c.eventVa, c.eventPa, pageSize, .device, true, false, false⟩]
  demand := []
  replicas := []
  stackVa := c.stackVa
  stackGroups := c.stackGroups
  stackUse := []
  logVa := c.faultLogVa
  logPa := c.faultLogPa
  logWr := 0
  logRd := 0
  logDrop := 0
  logRecs := []
  images := []
  nextImage := 1
  sealFails := 0
  locks := []
  eventVa := c.eventVa
  eventPa := c.eventPa
  suspended := false
  ended := false

/-- R34, R101, R105. The words of the slot stand in the context's array, all 4,096 of them. The reply holds the slot, the address of the
fault log and that of the event array. -/
def execContextCreate (c : CtxSpec) (s : State) : Out :=
  s.overLink fun s =>
  if !s.ctxOk c then s.reply rError []
  else
    let (id, s) := s.fresh
    let (n, s) := s.freshFree
    let k := newCtx c id n
    let words := s.sys.events.filter fun w => w.1 / 4096 == c.slot
    let s := { s with sys := { s.sys with
      events := s.sys.events.filter fun w => w.1 / 4096 != c.slot
      ctxs := s.sys.ctxs ++ [k]
      inlets := s.sys.inlets ++ c.inlets.map fun (i : InletSpec) =>
        (⟨i.n, id, i.ringBase, i.ringSize, i.prio, i.affinity, 0, 0, true, false, false⟩ : Inlet) } }
    let s : State := { s with mem := s.mem.zero k.aesKey (c.eventPa / 128) 128 }
    let s := s.homeWriteBytes k.aesKey c.faultLogPa (leBytes 12 0) none (some id)
    let s := words.foldl (fun s w => s.homeWriteBytes k.aesKey (c.eventPa + 4 * (w.1 % 4096)) (leBytes 4 w.2.toNat) none (some id)) s
    s.replyFor (some id) rDone (leBytes 4 c.slot ++ leBytes 8 c.faultLogVa ++ leBytes 8 c.eventVa)

/-- R21, R26, R34: a context ends: its keys are erased, its basin lines discarded, and what ran for it goes with it. (DEDUCED, unsafe: log entry 52.) -/
def State.endCtx (s : State) (c : Ctx) : State :=
  let ids := (s.sys.grids.filter fun x => x.ctx == c.id).map (·.id)
  let gids := (s.groups.filter fun g => ids.contains g.grid).map (·.gid)
  let s := s.discardCtx c.id
  let s := { s with
    groups := s.groups.filter fun g => !ids.contains g.grid
    mem := { s.mem with
      faults := s.mem.faults.filter fun f => f.ctx != c.id
      snoops := s.mem.snoops.map fun (n : Snoop) => if n.gid.any gids.contains then { n with gid := none } else n
      shadows := s.mem.shadows.filter fun x => !ids.contains x.grid }
    sys := { s.sys with
      inlets := s.sys.inlets.filter fun i => i.ctx != c.id
      grids := s.sys.grids.filter fun x => x.ctx != c.id
      teams := s.sys.teams.filter fun t => !ids.contains t.grid
      gangs := s.sys.gangs.filter fun b => !ids.contains b.grid
      saved := s.sys.saved.filter fun v => !ids.contains v.grid
      copies := s.sys.copies.filter fun p => p.ctx != c.id
      hostCopies := s.sys.hostCopies.filter fun h => h.ctx != c.id
      meres := s.sys.meres.filter fun m => m.ctx != c.id
      sent := s.sys.sent.filter fun e => e.ctx != c.id
      reducts := s.sys.reducts.filter fun r => r.ctx != c.id
      comms := s.sys.comms.filter fun m => m.ctx != c.id
      chunks := s.sys.chunks.filter fun k => !ids.contains k.grid
      dies := s.sys.dies.map fun (d : Die) => if d.ctx = some c.id then { d with ctx := none } else d } }
  s.updCtx c.id fun c => { c with
    sealKey := 0, aesPair := 0, keysErased := true, ended := true, maps := [], demand := [], replicas := [], images := [], locks := [] }

def execContextEnd (slot : Nat) (s : State) : Out :=
  s.overLink fun s => match s.ctxAt? slot with
  | none => s.reply rError []
  | some c => (s.endCtx c).reply rDone []

/-! ## Mappings -/

def pageSizes : List Nat := [0x10000, 0x200000, 0x40000000]

/-- Tables 1-4, 1-5, 5-9: whether a physical range is of a kind. -/
def kindOk (kind : PageKind) (pa : Nat) : Bool :=
  match kind with
  | .device => devicePa pa && !(decide (0x10000000000 ≤ pa % 2 ^ 49) && decide (pa % 2 ^ 49 < 0x20000000000))
  | .reservoir => devicePa pa && decide (0x10000000000 ≤ pa % 2 ^ 49) && decide (pa % 2 ^ 49 < 0x10300000000)
  | .host => pa / 2 ^ 50 == 2
  | .hostnc => pa / 2 ^ 50 == 3

/-- R23, R152: a mapping that the firmware accepts. -/
def State.mapOk (s : State) (c : Ctx) (m : Mapping) : Bool :=
  pageSizes.contains m.sz && m.va % m.sz == 0 && m.pa % m.sz == 0 && decide (m.va + m.sz ≤ 2 ^ 52) &&
  kindOk m.kind m.pa && kindOk m.kind (m.pa + m.sz - 1) &&
  backed s.boot.expanders m.pa && backed s.boot.expanders (m.pa + m.sz - 1) &&
  (!m.exec || m.kind == .device) &&
  (!m.replicable || (m.kind == .device && decide (m.pa % 2 ^ 49 + m.sz ≤ 0x10000000000))) &&
  !meets (m.va, m.sz) (c.stackVa, c.stackGroups * 2 ^ 25) &&
  !(c.maps.any fun x => !(x.va == m.va && x.sz == m.sz) && meets (x.va, x.sz) (m.va, m.sz))

/-- R152: an on-demand range that the firmware accepts. -/
def Ctx.demandOk (c : Ctx) (r : DemandRange) : Bool :=
  decide (0 < r.sz) && r.va % pageSize == 0 && r.sz % pageSize == 0 && decide (r.va + r.sz ≤ 2 ^ 52) &&
  (!r.exec || r.kind == .device) && (!r.replicable || r.kind == .device) && !meets (r.va, r.sz) (c.stackVa, c.stackGroups * 2 ^ 25) &&
  !(c.demand.any fun x => meets (x.va, x.sz) (r.va, r.sz))

/-- SHOOT_DOWN (R154): the old translation of a page goes, with its replicas; every access is made wholly before or after. -/
def Ctx.shootDown (c : Ctx) (va : Nat) : Ctx :=
  { c with maps := c.maps.filter fun x => x.va != va, replicas := c.replicas.filter fun r => r.va != va }

/-- R23, R152, R154. -/
def execMappingRequest (slot : Nat) (r : MapReq) (s : State) : Out :=
  s.overLink fun s => match s.ctxAt? slot with
  | none => s.reply rError []
  | some c =>
    match r with
    | .map m =>
      if s.mapOk c m then
        (s.updCtx c.id fun c => { c.shootDown m.va with maps := (c.shootDown m.va).maps ++ [m] }).reply rDone []
      else s.reply rError []
    | .unmap va =>
      if c.maps.any fun x => x.va == va then (s.updCtx c.id fun c => c.shootDown va).reply rDone []
      else s.reply rError []
    | .demand r =>
      if c.demandOk r then (s.updCtx c.id fun c => { c with demand := c.demand ++ [r] }).reply rDone []
      else s.reply rError []

/-! ## Inlets, communicators, logs, images and locks -/

/-- R103: the inlet goes, with a record that waits at its head. -/
def execInletDestroy (n : Nat) (s : State) : Out :=
  s.overLink fun s => match s.inlet? n with
  | none => s.reply rError []
  | some _ =>
    ({ s with sys := { s.sys with
      inlets := s.sys.inlets.filter fun i => i.n != n
      grids := s.sys.grids.filter fun (x : Grid) => !(x.st == .waiting && x.inlet == some n) } } : State).reply rDone []

/-- R260. -/
def execCommunicatorCreate (slot index ranks rank : Nat) (s : State) : Out :=
  s.overLink fun s => match s.ctxAt? slot with
  | none => s.reply rError []
  | some c =>
    if 2 ^ 16 ≤ index ∨ ranks = 0 ∨ 4096 < ranks ∨ ranks ≤ rank ∨
      (s.sys.comms.any fun m => m.ctx == c.id && m.index == index) = true then s.reply rError []
    else
      let m : Comm := ⟨c.id, index, ranks, rank, 0⟩
      ({ s with sys := { s.sys with comms := s.sys.comms ++ [m] } } : State).reply rDone []

/-- R278, R281: the read count moves on, not past the write count; the images of the records that it passes are freed. -/
def execFaultLogReadAdvance (slot : Nat) (count : W32) (s : State) : Out :=
  s.overLink fun s => match s.ctxAt? slot with
  | none => s.reply rError []
  | some c =>
    let n := (count - c.logRd).toNat
    if (c.logWr - c.logRd).toNat < n then s.reply rError []
    else
      let stays (q : W32) : Bool := decide (n ≤ (q - c.logRd).toNat)
      let s := s.updCtx c.id fun c => { c with
        logRd := count
        logRecs := c.logRecs.filter fun r => stays r.seq
        images := c.images.filter fun i => stays i.seq }
      let (op, s) := s.fresh
      (s.homeWriteBytes c.aesKey (c.logPa + 4) (leBytes 4 count.toNat) none (some op)).replyFor (some op) rDone []

/-- R281: the host reads a kept image. -/
def execInspectionRequest (slot image : Nat) (s : State) : Out :=
  s.overLink fun s => match (s.ctxAt? slot).bind fun c => c.images.find? fun i => i.index == image with
  | none => s.reply rError []
  | some i => { s with sys := { s.sys with replies := s.sys.replies ++ [⟨rDone, [], some i, none⟩] } }

/-- R386: a request stream of the host takes a lock, waits for it in its turn, or releases it. -/
def execHostLockRequest (slot : Nat) (ask : HostLock) (take : Bool) (s : State) : Out :=
  s.overLink fun s => match s.ctxAt? slot with
  | none => s.reply rError []
  | some c =>
    if 256 ≤ ask.lock then s.reply rError []
    else
      let l := c.lock ask.lock
      let me := Holder.host ask.stream
      if take then
        if l.holder = some me then s.reply rError []
        else if s.grants l me then (s.updCtx c.id fun c => c.setLock (l.take me)).reply rDone []
        else s.updCtx c.id fun c => c.setLock (l.enqueue me true)
      else if l.holder = some me then (s.updCtx c.id fun c => c.setLock { l with holder := none }).reply rDone []
      else s.reply rError []

/-! ## The CXL.mem window -/

/-- R27: whether an address is in the LPDDR6 tier. -/
def inWindow (pa : Nat) : Bool := devicePa pa && decide (pa % 2 ^ 49 < 0x10000000000)

/-- R27: the live context that owns the page of an address, with the mapping; of several that map it, the first. (DESIGN CHOICE, unsafe:
log entry 81.) -/
def State.ownerOf (s : State) (pa : Nat) : Option (Ctx × Mapping) :=
  if !inWindow pa then none
  else
    (s.sys.ctxs.filter fun c => !c.ended).findSome? fun c =>
      (c.maps.find? fun m => (c.copiesOf m).any fun x => decide (x.2 ≤ pa) && decide (pa < x.2 + m.sz)).map fun m => (c, m)

/-- R27: a byte as the host reads it. -/
def State.windowByte (s : State) (pa : Nat) : W8 :=
  match s.ownerOf pa with
  | none => 0xFF#8
  | some (c, _) => s.mem.byte c.aesKey pa

/-- Cut n bytes at address a into pieces inside one line. -/
def linePieces : Nat → Nat → Nat → List (Nat × Nat)
  | 0, _, _ => []
  | fuel + 1, a, n => if n = 0 then [] else
      let k := min n (128 - a % 128)
      (a, k) :: linePieces fuel (a + k) (n - k)

/-- R27, R157, R189, R243: bytes that the host stores into the window, a line at a time; those of a page that no live context owns are
discarded. -/
def State.windowStore (s : State) (pa : Nat) (bs : List W8) (op : Nat) : State :=
  ((linePieces bs.length pa bs.length).foldl (fun (acc : State × List W8) x =>
    ((acc.1.ownerOf x.1).elim acc.1 fun y => acc.1.homeStore y.1 x.1 (acc.2.take x.2) (some op), acc.2.drop x.2)) (s, bs)).1

/-- R27, R29, R269. A store is answered once its snoops are. -/
def execCxlMemAccess (r : CxlReq) (s : State) : Out :=
  s.overLink fun s => match r with
  | .read pa len => s.reply rDone ((List.range len).map fun i => s.windowByte (pa + i))
  | .write pa data => let (op, s) := s.fresh; (s.windowStore pa data op).replyFor (some op) rDone []

/-! ## The package copy engine -/

/-- Table 14-6 for a record of the host: no group issues it, so nothing has a domain, a team or a seal. -/
def State.hostCopyFails (s : State) (ctx : Nat) (r : CopyRec) : Nat :=
  let p := r.srcP
  let q := r.dstP
  let known (x : Ptr) : Bool := !fmtReserved x.fmt && decide (x.space ≤ 5) && decide (x.cls ≤ 2)
  let sizes := p.fmt == fmtBytes || q.fmt == fmtBytes || sizeOf p.fmt == sizeOf q.fmt
  let far (x : Ptr) : Bool := x.space == spTarn || x.space == spStack || decide (x.scope < 3)
  let (se, de) := r.extent
  let e := r.elem
  if r.resv || r.sig == 3 || (r.mcast && r.sig == 2) || (r.x38 != 0 && !r.mcast && r.sig != 2) then cIllegal
  else if !known p || !known q || !sizes || !r.limits || (r.mcast && q.space != spTarn) then cFormat
  else if q.cls = clShared && q.space != spReservoir then cClass
  else if far p || far q then cDomain
  else if r.sig = 1 then cIllegal
  else if p.count * sizeOf p.fmt < se * e || q.count * sizeOf q.fmt < de * e || r.sig = 2 then cBounds
  else if q.space = spReservoir && r.hits (s.reservoirHolds ctx) then cReservoir
  else 0

/-- Where an address of a context lies for the package copy engine, which has no memory domain; a page that is written keeps one
copy (R157; DEDUCED, unsafe: log entry 25). -/
def State.packPa (s : State) (ctx space va : Nat) (write : Bool) : State × Acc Nat :=
  let c := (s.ctx? ctx).getD emptyCtx
  match c.mapOf va with
  | none => (s, .miss va write)
  | some m =>
    let s := if write && m.write then s.oneCopy c m m.pa else s
    (s, s.xlate ((s.ctx? ctx).getD emptyCtx) (m.pa / 2 ^ 49 % 4) space va write)

/-- The bytes of a run, each from its own source, at the homes; HOST lines come from the host's home agent. -/
def State.packRead (s : State) (ctx : Nat) (r : CopyRec) : List Nat → State × Acc (List W8)
  | [] => (s, .ok [])
  | i :: rest =>
    match s.packPa ctx r.srcP.space (r.byteAt i).1 false with
    | (s, .miss a w) => (s, .miss a w)
    | (s, .bad a x) => (s, .bad a x)
    | (s, .ok pa) =>
      let s := if hostWa (pa / 4) then s.hostTake (pa / 4) false else s
      if s.poisoned (pa / 4) then (s, .bad (r.byteAt i).1 6)
      else
        let b := s.mem.byte (((s.ctx? ctx).map Ctx.aesKey).getD 0) pa
        match s.packRead ctx r rest with
        | (s, .ok bs) => (s, .ok (b :: bs))
        | e => e

/-- Write the runs of one word at the homes; they lie in one page, so that all are written or none. -/
def State.packPutAll (ctx op space : Nat) : List (Nat × List Nat) → List W8 → State → State × Acc Unit
  | [], _, s => (s, .ok ())
  | (a, js) :: rest, bs, s =>
    match s.packPa ctx space a true with
    | (s, .miss a w) => (s, .miss a w)
    | (s, .bad a x) => (s, .bad a x)
    | (s, .ok pa) =>
      packPutAll ctx op space rest (bs.drop js.length) (s.homeStore ((s.ctx? ctx).getD emptyCtx) pa (bs.take js.length) (some op))

/-- Move the bytes of a walk from byte i on, a word of the destination at a time; the answer counts the bytes before which all have
moved, and says what stopped them. -/
def State.packMove (ctx op : Nat) (r : CopyRec) : Nat → Nat → State → State × Nat × Acc Unit
  | 0, i, s => (s, i, .ok ())
  | fuel + 1, i, s =>
    if r.bytes ≤ i then (s, i, .ok ())
    else if !r.leads i then packMove ctx op r fuel (i + 1) s
    else
      match s.packRead ctx r ((r.runs i).flatMap (·.2)) with
      | (s, .miss a w) => (s, i, .miss a w)
      | (s, .bad a x) => (s, i, .bad a x)
      | (s, .ok bs) =>
        match State.packPutAll ctx op r.dstP.space (r.runs i) bs s with
        | (s, .ok _) => packMove ctx op r fuel (i + 1) s
        | (s, .miss a w) => (s, i, .miss a w)
        | (s, .bad a x) => (s, i, .bad a x)

/-- The record of a request leaves the engine, and its reply is given once its writes are acknowledged. -/
def State.endPack (s : State) (h : HostCopy) (code bytes : Nat) : State :=
  ({ s with sys := { s.sys with hostCopies := s.sys.hostCopies.filter fun x => x.id != h.id } } : State).replyFor (some h.id) code
    (leBytes 4 bytes)

/-- R159, R269: the engine goes on with a record, which it holds while a page or an acknowledgement is awaited. -/
def State.runPack (s : State) (c : Ctx) (h : HostCopy) : State :=
  let r := chainRec h.record
  let (t, i, x) := State.packMove c.id h.id r (r.bytes - h.moved) h.moved s
  let s := t.mergeSnoops s.run.nextId
  let s : State := { s with sys := { s.sys with hostCopies := s.sys.hostCopies.map fun (y : HostCopy) => if y.id = h.id then { y with moved := i } else y } }
  match x with
  | .ok _ => if s.acknowledged h.id then s.endPack h 0 i else s
  | .bad _ _ => s.endPack h cAccess i
  | .miss a w =>
    if (c.inDemand a).isNone then s.endPack h cAccess i
    else
      match s.awaitPage .part c.id 0 a w with
      | (s, some _) => s.endPack h cAccess i
      | (s, none) => s

/-- R29, R158, R159, R177: a record of the host: the reply holds the cause, 0 for success, and the bytes done. A request that waits is
made again. (DEDUCED, unsafe: log entry 53.) -/
def execPackageCopyRequest (slot : Nat) (record : List W8) (s : State) : Out :=
  s.overLink fun s => match s.ctxAt? slot with
  | none => s.reply rError []
  | some c =>
    match s.sys.hostCopies.find? fun h => h.ctx == c.id && h.record == record with
    | some h => s.runPack c h
    | none =>
      let x := s.hostCopyFails c.id (chainRec record)
      if x ≠ 0 then s.reply x (leBytes 4 0)
      else
        let (id, s) := s.fresh
        let h : HostCopy := ⟨id, slot, c.id, record, 0⟩
        ({ s with sys := { s.sys with hostCopies := s.sys.hostCopies ++ [h] } } : State).runPack c h

end Sys2Proof.Machine
end

