-- ==== Sys2Proof/Machine/Scalar.lean ====
section
/-! DEFINITION. NOP, the unassigned opcodes and the scalar integer instructions (R76, R350, R369 to R374, Table 13-6). -/

namespace Sys2Proof.Machine

/-- R350: no effect. -/
def execNop (g : Guard) (s : State) : Out := issue (.nop g) s (onGroup fun _ _ h => h)

/-- R76: the opcode is checked before the guard. -/
def execUnassignedOpcode (w : BitVec 64) (s : State) : Out :=
  issue (.unassignedOpcode w) s fun k g _ s => .trap s (g.illegal k 1)

/-- A scalar result with its flags (R74, R206). -/
def Group.putScalar (h : Group) (k : Nat) (d : BitVec 9) (wide : Bool) (v : Val) : Group :=
  (h.writeS k (swords d.toNat wide v.1)).orFlags v.2

/-- Operand b is 32 bits wide when it is a shift amount. -/
def runSBin (o : SBin) (shift : Bool) (f : Nat → Nat → Val) (k : Nat) (_sel : LaneMask) (h : Group) : Group :=
  h.putScalar k o.d o.ty.wide (f (h.sop k o.a o.ty.wide) (h.sop k o.b (o.ty.wide && !shift)))

/-- The same as a result that arrives later. -/
def laterSBin (o : SBin) (f : Nat → Nat → Val) (k : Nat) (_sel : LaneMask) (h : Group) : Writes :=
  let v := f (h.sop k o.a o.ty.wide) (h.sop k o.b o.ty.wide)
  ⟨[], swords o.d.toNat o.ty.wide v.1, [], v.2⟩

def execSadd (g : Guard) (o : SBin) (s : State) : Out :=
  issue (.sadd g o) s (onGroup (runSBin o false (intAdd o.ty o.sat)))
def execSsub (g : Guard) (o : SBin) (s : State) : Out :=
  issue (.ssub g o) s (onGroup (runSBin o false (intSub o.ty o.sat)))
def execSmul (g : Guard) (o : SBin) (s : State) : Out :=
  issue (.smul g o) s (onGroup (runSBin o false (intMul o.ty o.sat)))
def execSmulh (g : Guard) (o : SBin) (s : State) : Out :=
  issue (.smulh g o) s (onGroup (runSBin o false (intMulh o.ty)))
/-- R208. -/
def execSdiv (g : Guard) (la : BitVec 4) (o : SBin) (s : State) : Out :=
  issue (.sdiv g la o) s (inCore la (.sdiv g la o) (laterSBin o (intDiv o.ty)))
/-- R208. -/
def execSrem (g : Guard) (la : BitVec 4) (o : SBin) (s : State) : Out :=
  issue (.srem g la o) s (inCore la (.srem g la o) (laterSBin o (intRem o.ty)))
def execSand (g : Guard) (o : SBin) (s : State) : Out :=
  issue (.sand g o) s (onGroup (runSBin o false intAnd))
def execSor (g : Guard) (o : SBin) (s : State) : Out :=
  issue (.sor g o) s (onGroup (runSBin o false intOr))
def execSxor (g : Guard) (o : SBin) (s : State) : Out :=
  issue (.sxor g o) s (onGroup (runSBin o false intXor))
def execSshl (g : Guard) (o : SBin) (s : State) : Out :=
  issue (.sshl g o) s (onGroup (runSBin o true (intShl o.ty o.sat)))
def execSshr (g : Guard) (o : SBin) (s : State) : Out :=
  issue (.sshr g o) s (onGroup (runSBin o true (intShr o.ty)))
def execSsra (g : Guard) (o : SBin) (s : State) : Out :=
  issue (.ssra g o) s (onGroup (runSBin o true (intSra o.ty)))
def execSmin (g : Guard) (o : SBin) (s : State) : Out :=
  issue (.smin g o) s (onGroup (runSBin o false (intMin o.ty)))
def execSmax (g : Guard) (o : SBin) (s : State) : Out :=
  issue (.smax g o) s (onGroup (runSBin o false (intMax o.ty)))
/-- R373. -/
def execScmp (g : Guard) (o : SCmpOp) (s : State) : Out :=
  issue (.scmp g o) s (onGroup fun k _ h =>
    let r := o.cond.holds (o.ty.val (h.sop k o.a o.ty.wide)) (o.ty.val (h.sop k o.b o.ty.wide))
    h.putScalar k o.d false (r.toNat, 0#8))
/-- R370, R373: the old sD is tested over its whole width. -/
def execSsel (g : Guard) (o : SBin) (s : State) : Out :=
  issue (.ssel g o) s (onGroup fun k sel h => runSBin o false (intSel (h.snum k o.d o.ty.wide)) k sel h)
def execSmov (g : Guard) (o : SUn) (s : State) : Out :=
  issue (.smov g o) s (onGroup fun k _ h => h.putScalar k o.d o.ty.wide (h.sop k o.a o.ty.wide, 0#8))
/-- R372. -/
def sliNum (v : SliVal) (w : Nat) : Nat :=
  match v with
  | .short x => modPow x.toInt w
  | .long x => x.toNat % 2 ^ w
def execSli (g : Guard) (o : SliOp) (s : State) : Out :=
  issue (.sli g o) s (onGroup fun k _ h => h.putScalar k o.d o.ty.wide (sliNum o.v o.ty.bits, 0#8))
/-- R371. -/
def execSbfx (g : Guard) (o : SBfOp) (s : State) : Out :=
  issue (.sbfx g o) s (onGroup fun k _ h =>
    h.putScalar k o.d o.ty.wide (fieldExtract o.ty (h.sop k o.a o.ty.wide) (h.snum k o.b false), 0#8))
/-- R371. -/
def execSbfi (g : Guard) (o : SBfOp) (s : State) : Out :=
  issue (.sbfi g o) s (onGroup fun k _ h =>
    h.putScalar k o.d o.ty.wide
      (fieldInsert o.ty (h.snum k o.d o.ty.wide) (h.sop k o.a o.ty.wide) (h.snum k o.b false), 0#8))
/-- R373: a predicate is counted over all 96 lanes. -/
def execSpopc (g : Guard) (o : SPopcOp) (s : State) : Out :=
  issue (.spopc g o) s (onGroup fun k _ h =>
    let n := match o.a with
      | .so x => popCount (h.sop k x o.ty.wide) o.ty.bits
      | .p i => popCount (h.getP i).toNat 96
    h.putScalar k o.d false (n, 0#8))
/-- R373. -/
def execSclz (g : Guard) (o : SUn) (s : State) : Out :=
  issue (.sclz g o) s (onGroup fun k _ h =>
    h.putScalar k o.d false (leadZeros (h.sop k o.a o.ty.wide) o.ty.bits, 0#8))

end Sys2Proof.Machine
end

