-- ==== Sys2Proof/Machine/VectorFloat.lean ====
section
/-! DEFINITION. The floating instructions FADD to FCLASS (R322 to R329, Table 12-9). -/

namespace Sys2Proof.Machine

/-- One lane of a two-operand instruction; f takes the old vD, a and b. -/
def fbinLane (t : FTy) (d a : BitVec 11) (b : VB) (f : Nat → Nat → Nat → Val) (k : Nat) (h : Group) (l : Nat) : Val :=
  f (h.vnum d t.wide l) (h.vnum a t.wide l) (h.vbFlt k t b l)
def runFBin (o : FBin) (f : Nat → Nat → Nat → Val) (k : Nat) (sel : LaneMask) (h : Group) : Group :=
  h.putLanes o.d o.ty.wide sel (fbinLane o.ty o.d o.a o.b f k h)
def runFPair (o : FPair) (f : Nat → Nat → Val) (k : Nat) (sel : LaneMask) (h : Group) : Group :=
  h.putLanes o.d o.ty.wide sel (fbinLane o.ty o.d o.a o.b (fun _ => f) k h)
def laterFUn (o : FUn) (f : Nat → Val) (_k : Nat) (sel : LaneMask) (h : Group) : Writes :=
  h.laneWrites o.d o.ty.wide (laneVals sel fun l => f (h.vnum o.a o.ty.wide l))

def execFadd (g : Guard) (o : FBin) (s : State) : Out :=
  issue (.fadd g o) s (onGroup (runFBin o fun _ => fltAdd o.ty o.rnd o.sat))
def execFsub (g : Guard) (o : FBin) (s : State) : Out :=
  issue (.fsub g o) s (onGroup (runFBin o fun _ => fltSub o.ty o.rnd o.sat))
def execFmul (g : Guard) (o : FBin) (s : State) : Out :=
  issue (.fmul g o) s (onGroup (runFBin o fun _ => fltMul o.ty o.rnd o.sat))
def execFfma (g : Guard) (o : FBin) (s : State) : Out :=
  issue (.ffma g o) s (onGroup (runFBin o fun d a b => fltFma o.ty o.rnd o.sat a b d))
def execFmin (g : Guard) (o : FPair) (s : State) : Out :=
  issue (.fmin g o) s (onGroup (runFPair o (fltMax o.ty false)))
def execFmax (g : Guard) (o : FPair) (s : State) : Out :=
  issue (.fmax g o) s (onGroup (runFPair o (fltMax o.ty true)))
/-- R325. -/
def execFsgn (g : Guard) (o : FSgnOp) (s : State) : Out :=
  issue (.fsgn g o) s (onGroup fun k sel h =>
    h.putLanes o.d o.ty.wide sel (fbinLane o.ty o.d o.a o.b (fun _ => fltSgn o.ty o.op) k h))
/-- R326. -/
def execFdiv (g : Guard) (la : BitVec 4) (o : FBin) (s : State) : Out :=
  issue (.fdiv g la o) s (inCore la (.fdiv g la o) fun k sel h =>
    h.laneWrites o.d o.ty.wide (laneVals sel (fbinLane o.ty o.d o.a o.b (fun _ => fltDiv o.ty o.rnd o.sat) k h)))
def execFsqrt (g : Guard) (la : BitVec 4) (o : FUn) (s : State) : Out :=
  issue (.fsqrt g la o) s (inCore la (.fsqrt g la o) (laterFUn o (fltSqrt o.ty o.rnd)))
def execFrcp (g : Guard) (la : BitVec 4) (o : FUn) (s : State) : Out :=
  issue (.frcp g la o) s (inCore la (.frcp g la o) (laterFUn o (fltRcp o.ty o.rnd o.sat)))
def execFrsq (g : Guard) (la : BitVec 4) (o : FUn) (s : State) : Out :=
  issue (.frsq g la o) s (inCore la (.frsq g la o) (laterFUn o (fltRsq o.ty o.rnd)))
def execFexp2 (g : Guard) (la : BitVec 4) (o : FUn) (s : State) : Out :=
  issue (.fexp2 g la o) s (inCore la (.fexp2 g la o) (laterFUn o (fltExp2 o.ty o.rnd o.sat)))
def execFlog2 (g : Guard) (la : BitVec 4) (o : FUn) (s : State) : Out :=
  issue (.flog2 g la o) s (inCore la (.flog2 g la o) (laterFUn o (fltLog2 o.ty o.rnd)))
/-- R327. -/
def execFtrig (g : Guard) (la : BitVec 4) (o : FTrigOp) (s : State) : Out :=
  issue (.ftrig g la o) s (inCore la (.ftrig g la o) fun _ sel h =>
    h.laneWrites o.d o.ty.wide (laneVals sel fun l => fltTrig o.ty o.rnd o.cosine (h.vnum o.a o.ty.wide l)))
/-- R328. -/
def execFcmp (g : Guard) (o : FCmpOp) (s : State) : Out :=
  issue (.fcmp g o) s (onGroup fun k sel h =>
    h.putPred o.d sel fun l => fltCmp o.ty o.cond (h.vnum o.a o.ty.wide l) (h.vbFlt k o.ty o.b l))
/-- R329. -/
def execFclass (g : Guard) (o : FClassOp) (s : State) : Out :=
  issue (.fclass g o) s (onGroup fun _ sel h =>
    h.putLanes o.d false sel fun l => (fltClass o.ty (h.vnum o.a o.ty.wide l), 0#8))

end Sys2Proof.Machine
end

