-- ==== Sys2Proof/Machine/VectorInt.lean ====
section
/-! DEFINITION. The vector integer instructions (R392 to R396, Table 14-2). -/

namespace Sys2Proof.Machine

/-- One lane of a two-operand instruction; f takes the old vD, a and b. -/
def vbinLane (o : VBin) (shift : Bool) (f : Nat → Nat → Nat → Val) (k : Nat) (h : Group) (l : Nat) : Val :=
  f (h.vnum o.d o.ty.wide l) (h.vnum o.a o.ty.wide l) (h.vbInt k o.b (o.ty.wide && !shift) l)
def runVBin (o : VBin) (shift : Bool) (f : Nat → Nat → Nat → Val) (k : Nat) (sel : LaneMask) (h : Group) : Group :=
  h.putLanes o.d o.ty.wide sel (vbinLane o shift f k h)
def laterVBin (o : VBin) (f : Nat → Nat → Nat → Val) (k : Nat) (sel : LaneMask) (h : Group) : Writes :=
  h.laneWrites o.d o.ty.wide (laneVals sel (vbinLane o false f k h))

def execVadd (g : Guard) (o : VBin) (s : State) : Out :=
  issue (.vadd g o) s (onGroup (runVBin o false (fun _ => intAdd o.ty o.sat)))
def execVsub (g : Guard) (o : VBin) (s : State) : Out :=
  issue (.vsub g o) s (onGroup (runVBin o false (fun _ => intSub o.ty o.sat)))
def execVmul (g : Guard) (o : VBin) (s : State) : Out :=
  issue (.vmul g o) s (onGroup (runVBin o false (fun _ => intMul o.ty o.sat)))
def execVmulh (g : Guard) (o : VBin) (s : State) : Out :=
  issue (.vmulh g o) s (onGroup (runVBin o false (fun _ => intMulh o.ty)))
def execVmad (g : Guard) (o : VBin) (s : State) : Out :=
  issue (.vmad g o) s (onGroup (runVBin o false (fun d a b => intMad o.ty o.sat a b d)))
/-- R208. -/
def execVdiv (g : Guard) (la : BitVec 4) (o : VBin) (s : State) : Out :=
  issue (.vdiv g la o) s (inCore la (.vdiv g la o) (laterVBin o fun _ => intDiv o.ty))
/-- R208. -/
def execVrem (g : Guard) (la : BitVec 4) (o : VBin) (s : State) : Out :=
  issue (.vrem g la o) s (inCore la (.vrem g la o) (laterVBin o fun _ => intRem o.ty))
def execVand (g : Guard) (o : VBin) (s : State) : Out :=
  issue (.vand g o) s (onGroup (runVBin o false (fun _ => intAnd)))
def execVor (g : Guard) (o : VBin) (s : State) : Out :=
  issue (.vor g o) s (onGroup (runVBin o false (fun _ => intOr)))
def execVxor (g : Guard) (o : VBin) (s : State) : Out :=
  issue (.vxor g o) s (onGroup (runVBin o false (fun _ => intXor)))
def execVshl (g : Guard) (o : VBin) (s : State) : Out :=
  issue (.vshl g o) s (onGroup (runVBin o true (fun _ => intShl o.ty o.sat)))
def execVshr (g : Guard) (o : VBin) (s : State) : Out :=
  issue (.vshr g o) s (onGroup (runVBin o true (fun _ => intShr o.ty)))
def execVsra (g : Guard) (o : VBin) (s : State) : Out :=
  issue (.vsra g o) s (onGroup (runVBin o true (fun _ => intSra o.ty)))
def execVmin (g : Guard) (o : VBin) (s : State) : Out :=
  issue (.vmin g o) s (onGroup (runVBin o false (fun _ => intMin o.ty)))
def execVmax (g : Guard) (o : VBin) (s : State) : Out :=
  issue (.vmax g o) s (onGroup (runVBin o false (fun _ => intMax o.ty)))
def execVsel (g : Guard) (o : VBin) (s : State) : Out :=
  issue (.vsel g o) s (onGroup (runVBin o false intSel))
def execVabs (g : Guard) (o : VUn) (s : State) : Out :=
  issue (.vabs g o) s (onGroup fun _ sel h =>
    h.putLanes o.d o.ty.wide sel fun l => intAbs o.ty o.sat (h.vnum o.a o.ty.wide l))
/-- R394. -/
def execVcmp (g : Guard) (o : VCmpOp) (s : State) : Out :=
  issue (.vcmp g o) s (onGroup fun k sel h =>
    h.putPred o.d sel fun l =>
      (o.cond.holds (o.ty.val (h.vnum o.a o.ty.wide l)) (o.ty.val (h.vbInt k o.b o.ty.wide l)), 0#8))
/-- R395: raw bits. -/
def execVmov (g : Guard) (o : VMovOp) (s : State) : Out :=
  issue (.vmov g o) s (onGroup fun _ sel h => h.putLanes o.d o.ty.wide sel fun l => (h.vnum o.a o.ty.wide l, 0#8))
/-- R395: the broadcast value. -/
def bcastVal (h : Group) (k : Nat) (t : ATy) (a : SOp) : Nat :=
  match t, a with
  | .flt f, .imm v => f.ofInt v.toInt
  | .flt f, .s i => h.snum k i f.wide % 2 ^ f.fmt.width
  | .int ty, a => h.sop k a ty.wide
/-- R395. -/
def execVbcast (g : Guard) (o : VBcastOp) (s : State) : Out :=
  issue (.vbcast g o) s (onGroup fun k sel h => h.putLanes o.d o.ty.wide sel fun _ => (bcastVal h k o.ty o.a, 0#8))
/-- R396. -/
def execVbfx (g : Guard) (o : VBfxOp) (s : State) : Out :=
  issue (.vbfx g o) s (onGroup fun k sel h =>
    h.putLanes o.d o.ty.wide sel fun l =>
      let d := match o.b with
        | .v n => h.vnum n false l
        | .s i => h.snum k i false
      (fieldExtract o.ty (h.vnum o.a o.ty.wide l) d, 0#8))
def execVpopc (g : Guard) (o : VUn) (s : State) : Out :=
  issue (.vpopc g o) s (onGroup fun _ sel h =>
    h.putLanes o.d false sel fun l => (popCount (h.vnum o.a o.ty.wide l) o.ty.bits, 0#8))
def execVclz (g : Guard) (o : VUn) (s : State) : Out :=
  issue (.vclz g o) s (onGroup fun _ sel h =>
    h.putLanes o.d false sel fun l => (leadZeros (h.vnum o.a o.ty.wide l) o.ty.bits, 0#8))

end Sys2Proof.Machine
end

