-- ==== Sys2Proof/Machine/Dispatch.lean ====
section
/-! DEFINITION. The dispatch: one arm for each constructor of Instr, a direct call of its meaning. -/

namespace Sys2Proof.Machine

def exec (i : Instr) (s : State) : Host.Outcome State Fault Refusal :=
  match i with
  | .nop g => Sys2Proof.Machine.execNop g s
  | .unassignedOpcode w => Sys2Proof.Machine.execUnassignedOpcode w s
  | .sadd g o => Sys2Proof.Machine.execSadd g o s
  | .ssub g o => Sys2Proof.Machine.execSsub g o s
  | .smul g o => Sys2Proof.Machine.execSmul g o s
  | .smulh g o => Sys2Proof.Machine.execSmulh g o s
  | .sdiv g la o => Sys2Proof.Machine.execSdiv g la o s
  | .srem g la o => Sys2Proof.Machine.execSrem g la o s
  | .sand g o => Sys2Proof.Machine.execSand g o s
  | .sor g o => Sys2Proof.Machine.execSor g o s
  | .sxor g o => Sys2Proof.Machine.execSxor g o s
  | .sshl g o => Sys2Proof.Machine.execSshl g o s
  | .sshr g o => Sys2Proof.Machine.execSshr g o s
  | .ssra g o => Sys2Proof.Machine.execSsra g o s
  | .smin g o => Sys2Proof.Machine.execSmin g o s
  | .smax g o => Sys2Proof.Machine.execSmax g o s
  | .scmp g o => Sys2Proof.Machine.execScmp g o s
  | .ssel g o => Sys2Proof.Machine.execSsel g o s
  | .smov g o => Sys2Proof.Machine.execSmov g o s
  | .sli g o => Sys2Proof.Machine.execSli g o s
  | .sbfx g o => Sys2Proof.Machine.execSbfx g o s
  | .sbfi g o => Sys2Proof.Machine.execSbfi g o s
  | .spopc g o => Sys2Proof.Machine.execSpopc g o s
  | .sclz g o => Sys2Proof.Machine.execSclz g o s
  | .br g off => Sys2Proof.Machine.execBr g off s
  | .brc g o => Sys2Proof.Machine.execBrc g o s
  | .brv g o => Sys2Proof.Machine.execBrv g o s
  | .join => Sys2Proof.Machine.execJoin s
  | .jtab g o => Sys2Proof.Machine.execJtab g o s
  | .call g o => Sys2Proof.Machine.execCall g o s
  | .callInd g o => Sys2Proof.Machine.execCallInd g o s
  | .ret g => Sys2Proof.Machine.execRet g s
  | .exit g => Sys2Proof.Machine.execExit g s
  | .loop g o => Sys2Proof.Machine.execLoop g o s
  | .plog g o => Sys2Proof.Machine.execPlog g o s
  | .pmov g o => Sys2Proof.Machine.execPmov g o s
  | .pred g o => Sys2Proof.Machine.execPred g o s
  | .pder g o => Sys2Proof.Machine.execPder g o s
  | .pclass g o => Sys2Proof.Machine.execPclass g o s
  | .narrow g o => Sys2Proof.Machine.execNarrow g o s
  | .widen g o => Sys2Proof.Machine.execWiden g o s
  | .pqry g o => Sys2Proof.Machine.execPqry g o s
  | .alloc g o => Sys2Proof.Machine.execAlloc g o s
  | .vadd g o => Sys2Proof.Machine.execVadd g o s
  | .vsub g o => Sys2Proof.Machine.execVsub g o s
  | .vmul g o => Sys2Proof.Machine.execVmul g o s
  | .vmulh g o => Sys2Proof.Machine.execVmulh g o s
  | .vmad g o => Sys2Proof.Machine.execVmad g o s
  | .vdiv g la o => Sys2Proof.Machine.execVdiv g la o s
  | .vrem g la o => Sys2Proof.Machine.execVrem g la o s
  | .vand g o => Sys2Proof.Machine.execVand g o s
  | .vor g o => Sys2Proof.Machine.execVor g o s
  | .vxor g o => Sys2Proof.Machine.execVxor g o s
  | .vshl g o => Sys2Proof.Machine.execVshl g o s
  | .vshr g o => Sys2Proof.Machine.execVshr g o s
  | .vsra g o => Sys2Proof.Machine.execVsra g o s
  | .vmin g o => Sys2Proof.Machine.execVmin g o s
  | .vmax g o => Sys2Proof.Machine.execVmax g o s
  | .vabs g o => Sys2Proof.Machine.execVabs g o s
  | .vcmp g o => Sys2Proof.Machine.execVcmp g o s
  | .vsel g o => Sys2Proof.Machine.execVsel g o s
  | .vmov g o => Sys2Proof.Machine.execVmov g o s
  | .vbcast g o => Sys2Proof.Machine.execVbcast g o s
  | .vbfx g o => Sys2Proof.Machine.execVbfx g o s
  | .vpopc g o => Sys2Proof.Machine.execVpopc g o s
  | .vclz g o => Sys2Proof.Machine.execVclz g o s
  | .fadd g o => Sys2Proof.Machine.execFadd g o s
  | .fsub g o => Sys2Proof.Machine.execFsub g o s
  | .fmul g o => Sys2Proof.Machine.execFmul g o s
  | .ffma g o => Sys2Proof.Machine.execFfma g o s
  | .fmin g o => Sys2Proof.Machine.execFmin g o s
  | .fmax g o => Sys2Proof.Machine.execFmax g o s
  | .fsgn g o => Sys2Proof.Machine.execFsgn g o s
  | .fdiv g la o => Sys2Proof.Machine.execFdiv g la o s
  | .fsqrt g la o => Sys2Proof.Machine.execFsqrt g la o s
  | .frcp g la o => Sys2Proof.Machine.execFrcp g la o s
  | .frsq g la o => Sys2Proof.Machine.execFrsq g la o s
  | .fexp2 g la o => Sys2Proof.Machine.execFexp2 g la o s
  | .flog2 g la o => Sys2Proof.Machine.execFlog2 g la o s
  | .ftrig g la o => Sys2Proof.Machine.execFtrig g la o s
  | .fcmp g o => Sys2Proof.Machine.execFcmp g o s
  | .fclass g o => Sys2Proof.Machine.execFclass g o s
  | .cvt g o => Sys2Proof.Machine.execCvt g o s
  | .qnt g o => Sys2Proof.Machine.execQnt g o s
  | .dqnt g o => Sys2Proof.Machine.execDqnt g o s
  | .amax g la o => Sys2Proof.Machine.execAmax g la o s
  | .vperm g la o => Sys2Proof.Machine.execVperm g la o s
  | .vrot g o => Sys2Proof.Machine.execVrot g o s
  | .vscan g la o => Sys2Proof.Machine.execVscan g la o s
  | .vrdc g la o => Sys2Proof.Machine.execVrdc g la o s
  | .vconf g o => Sys2Proof.Machine.execVconf g o s
  | .velect g o => Sys2Proof.Machine.execVelect g o s
  | .ld g la o => Sys2Proof.Machine.execLd g la o s
  | .st g o => Sys2Proof.Machine.execSt g o s
  | .atom g la o => Sys2Proof.Machine.execAtom g la o s
  | .sgen g o => Sys2Proof.Machine.execSgen g o s
  | .xfer g o => Sys2Proof.Machine.execXfer g o s
  | .xchain g o => Sys2Proof.Machine.execXchain g o s
  | .wait g o => Sys2Proof.Machine.execWait g o s
  | .bari g o => Sys2Proof.Machine.execBari g o s
  | .bara g b => Sys2Proof.Machine.execBara g b s
  | .barw g o => Sys2Proof.Machine.execBarw g o s
  | .syncw g o => Sys2Proof.Machine.execSyncw g o s
  | .mma g o => Sys2Proof.Machine.execMma g o s
  | .mmas g o => Sys2Proof.Machine.execMmas g o s
  | .mmab g o => Sys2Proof.Machine.execMmab g o s
  | .scacc g o => Sys2Proof.Machine.execScacc g o s
  | .zmovZ2v g la o => Sys2Proof.Machine.execZmovZ2v g la o s
  | .zmovV2z g la o => Sys2Proof.Machine.execZmovV2z g la o s
  | .zmovZ2m g la o => Sys2Proof.Machine.execZmovZ2m g la o s
  | .zmovM2z g la o => Sys2Proof.Machine.execZmovM2z g la o s
  | .zclr g o => Sys2Proof.Machine.execZclr g o s
  | .xsect g la o => Sys2Proof.Machine.execXsect g la o s
  | .spx g o => Sys2Proof.Machine.execSpx g o s
  | .xformFwd g o => Sys2Proof.Machine.execXformFwd g o s
  | .xformInv g o => Sys2Proof.Machine.execXformInv g o s
  | .mjoin g o => Sys2Proof.Machine.execMjoin g o s
  | .meet g o => Sys2Proof.Machine.execMeet g o s
  | .mwait g o => Sys2Proof.Machine.execMwait g o s
  | .mqry g o => Sys2Proof.Machine.execMqry g o s
  | .rdcn g o => Sys2Proof.Machine.execRdcn g o s
  | .rdget g o => Sys2Proof.Machine.execRdget g o s
  | .rsamp o => Sys2Proof.Machine.execRsamp o s
  | .rng g la o => Sys2Proof.Machine.execRng g la o s
  | .reord g o => Sys2Proof.Machine.execReord g o s
  | .launch g o => Sys2Proof.Machine.execLaunch g o s
  | .lwait g o => Sys2Proof.Machine.execLwait g o s
  | .trap g a => Sys2Proof.Machine.execTrap g a s
  | .svcProbe g o => Sys2Proof.Machine.execSvcProbe g o s
  | .svcLock g o => Sys2Proof.Machine.execSvcLock g o s
  | .svcUnlock g o => Sys2Proof.Machine.execSvcUnlock g o s
  | .svcTrylock g o => Sys2Proof.Machine.execSvcTrylock g o s
  | .svcLog g o => Sys2Proof.Machine.execSvcLog g o s
  | .rdsr g o => Sys2Proof.Machine.execRdsr g o s
  | .wrsr g o => Sys2Proof.Machine.execWrsr g o s
  | .yield g d => Sys2Proof.Machine.execYield g d s
  | .longLatencyResult gid fid => Sys2Proof.Machine.execLongLatencyResult gid fid s
  | .issueGuard core => Sys2Proof.Machine.execIssueGuard core s
  | .pageFault k frame => Sys2Proof.Machine.execPageFault k frame s
  | .replay gid fid => Sys2Proof.Machine.execReplay gid fid s
  | .preEmptionRequest grid t cause => Sys2Proof.Machine.execPreEmptionRequest grid t cause s
  | .priorityPreemptTrigger die => Sys2Proof.Machine.execPriorityPreemptTrigger die s
  | .preEmptionSave grid t => Sys2Proof.Machine.execPreEmptionSave grid t s
  | .restore k cores => Sys2Proof.Machine.execRestore k cores s
  | .tailWrite inlet v => Sys2Proof.Machine.execTailWrite inlet v s
  | .eventWordWrite slot word v => Sys2Proof.Machine.execEventWordWrite slot word v s
  | .registerWrite bar off v => Sys2Proof.Machine.execRegisterWrite bar off v s
  | .inletEntryTake inlet => Sys2Proof.Machine.execInletEntryTake inlet s
  | .dependenceRecheck => Sys2Proof.Machine.execDependenceRecheck s
  | .diePull die cores => Sys2Proof.Machine.execDiePull die cores s
  | .completionEvent grid => Sys2Proof.Machine.execCompletionEvent grid s
  | .sluiceRelaunch tid core => Sys2Proof.Machine.execSluiceRelaunch tid core s
  | .resample grid => Sys2Proof.Machine.execResample grid s
  | .copyRecordCheck cid => Sys2Proof.Machine.execCopyRecordCheck cid s
  | .copyRecordComplete cid => Sys2Proof.Machine.execCopyRecordComplete cid s
  | .progressUpdate cid => Sys2Proof.Machine.execProgressUpdate cid s
  | .streamRecordRead gid k => Sys2Proof.Machine.execStreamRecordRead gid k s
  | .arrayTakeWork cluster => Sys2Proof.Machine.execArrayTakeWork cluster s
  | .matrixOpComplete gid opid => Sys2Proof.Machine.execMatrixOpComplete gid opid s
  | .transformStart gid => Sys2Proof.Machine.execTransformStart gid s
  | .mereContribution k => Sys2Proof.Machine.execMereContribution k s
  | .mereUnbind k => Sys2Proof.Machine.execMereUnbind k s
  | .routerContribution k => Sys2Proof.Machine.execRouterContribution k s
  | .reduceTimeout k => Sys2Proof.Machine.execReduceTimeout k s
  | .instanceFreeTimeout k => Sys2Proof.Machine.execInstanceFreeTimeout k s
  | .collectiveStart grid chunk => Sys2Proof.Machine.execCollectiveStart grid chunk s
  | .wireBlockReceive grid chunk rank idx block route => Sys2Proof.Machine.execWireBlockReceive grid chunk rank idx block route s
  | .collectiveComplete grid chunk => Sys2Proof.Machine.execCollectiveComplete grid chunk s
  | .collectiveFailTimeout grid chunk => Sys2Proof.Machine.execCollectiveFailTimeout grid chunk s
  | .refreshWindow die bank => Sys2Proof.Machine.execRefreshWindow die bank s
  | .linkSleep die mem => Sys2Proof.Machine.execLinkSleep die mem s
  | .homeWrite pa data key who => Sys2Proof.Machine.execHomeWrite pa data key who s
  | .snoopAnswer k => Sys2Proof.Machine.execSnoopAnswer k s
  | .linkWakeTimeout k => Sys2Proof.Machine.execLinkWakeTimeout k s
  | .l1Eviction core line => Sys2Proof.Machine.execL1Eviction core line s
  | .basinEviction die line => Sys2Proof.Machine.execBasinEviction die line s
  | .heartbeat die => Sys2Proof.Machine.execHeartbeat die s
  | .dieDeath die => Sys2Proof.Machine.execDieDeath die s
  | .scrub mem => Sys2Proof.Machine.execScrub mem s
  | .correctedError e place => Sys2Proof.Machine.execCorrectedError e place s
  | .uncorrectableError e place => Sys2Proof.Machine.execUncorrectableError e place s
  | .linkRetrain port trains => Sys2Proof.Machine.execLinkRetrain port trains s
  | .thermalThrottle => Sys2Proof.Machine.execThermalThrottle s
  | .powerUp => Sys2Proof.Machine.execPowerUp s
  | .computeDieReset die => Sys2Proof.Machine.execComputeDieReset die s
  | .bootGo v => Sys2Proof.Machine.execBootGo v s
  | .imageFetchComplete image => Sys2Proof.Machine.execImageFetchComplete image s
  | .imageVerifyComplete => Sys2Proof.Machine.execImageVerifyComplete s
  | .firmwareStepsComplete done fuse r => Sys2Proof.Machine.execFirmwareStepsComplete done fuse r s
  | .attestationRequest => Sys2Proof.Machine.execAttestationRequest s
  | .contextCreate c => Sys2Proof.Machine.execContextCreate c s
  | .contextEnd slot => Sys2Proof.Machine.execContextEnd slot s
  | .hostSuspend slot => Sys2Proof.Machine.execHostSuspend slot s
  | .contextSwitch die slot => Sys2Proof.Machine.execContextSwitch die slot s
  | .mappingRequest slot r => Sys2Proof.Machine.execMappingRequest slot r s
  | .inletDestroy n => Sys2Proof.Machine.execInletDestroy n s
  | .communicatorCreate slot index ranks rank => Sys2Proof.Machine.execCommunicatorCreate slot index ranks rank s
  | .faultLogReadAdvance slot count => Sys2Proof.Machine.execFaultLogReadAdvance slot count s
  | .inspectionRequest slot image => Sys2Proof.Machine.execInspectionRequest slot image s
  | .hostLockRequest slot ask take => Sys2Proof.Machine.execHostLockRequest slot ask take s
  | .cxlMemAccess r => Sys2Proof.Machine.execCxlMemAccess r s
  | .packageCopyRequest slot record => Sys2Proof.Machine.execPackageCopyRequest slot record s
  | .powerLoss whileCertifying => Sys2Proof.Machine.execPowerLoss whileCertifying s
  | .throttleCauseClears => Sys2Proof.Machine.execThrottleCauseClears s
  | .cxlCacheSnoop pa invalidate => Sys2Proof.Machine.execCxlCacheSnoop pa invalidate s

end Sys2Proof.Machine
end

