-- ==== Sys2Proof/Decode.lean ====
section
/-! DEFINITION. The encoding of instruction words and extension words (R68 to R82 and the entries of 12, 13 and 14), the
decoder with the reasons of Table 3-5, and after it the encoder. Every width check that needs the type of F is made only when
the type code is one the entry accepts (DEDUCED, unsafe: log entry 9). -/

namespace Sys2Proof

/-- R68: the fields of an instruction word, and its extension word. -/
structure Raw where
  f : BitVec 11
  b : BitVec 11
  a : BitVec 11
  d : BitVec 11
  g : BitVec 7
  la : BitVec 4
  l : BitVec 1
  op : BitVec 8
  ext : BitVec 64
  deriving DecidableEq, Repr

/-- Table 3-1. -/
def Raw.word (r : Raw) : BitVec 64 := r.f ++ r.b ++ r.a ++ r.d ++ r.g ++ r.la ++ r.l ++ r.op

/-- Table 3-1, read the other way. -/
def Raw.ofWords (w ext : BitVec 64) : Raw where
  f := w.extractLsb' 53 11
  b := w.extractLsb' 42 11
  a := w.extractLsb' 31 11
  d := w.extractLsb' 20 11
  g := w.extractLsb' 13 7
  la := w.extractLsb' 9 4
  l := w.extractLsb' 8 1
  op := w.extractLsb' 0 8
  ext := ext

/-- What the encoding checks (step 2 of Table 3-6) make of a word: an instruction, or a reason of Table 3-5. -/
inductive Dec where
  | ok (i : Instr)
  | ill (reason : Nat)
  deriving DecidableEq, Repr

/-- Reasons 5, 6 and 7, in that order (R78): the operand fields, the F field, the extension word. -/
def dec3 {α β : Type} (o5 : Option α) (f6 : Option β) (x7 : Bool) (mk : α → β → Instr) : Dec :=
  match o5 with
  | none => .ill 5
  | some x =>
    match f6 with
    | none => .ill 6
    | some y => if x7 then .ok (mk x y) else .ill 7

/-- x, provided c holds. -/
def chk {α : Type} (c : Bool) (x : α) : Option α := if c then some x else none

/-! Operand fields (Table 3-2). -/

def kindOf (x : BitVec 11) : BitVec 2 := x.extractLsb' 9 2
def low9 (x : BitVec 11) : BitVec 9 := x.extractLsb' 0 9

def decS (x : BitVec 11) : Option (BitVec 9) := if kindOf x = 0#2 then some (low9 x) else none
/-- An s register of a 64-bit operand when wide. -/
def decSw (wide : Bool) (x : BitVec 11) : Option (BitVec 9) := (decS x).filter (evenIf wide)
def decA (x : BitVec 11) : Option (BitVec 5) :=
  if kindOf x = 1#2 ∧ x.extractLsb' 5 4 = 0#4 then some (x.extractLsb' 0 5) else none
def decP (x : BitVec 11) : Option (BitVec 6) :=
  if kindOf x = 2#2 ∧ x.extractLsb' 6 3 = 0#3 ∧ pOk (x.extractLsb' 0 6) then some (x.extractLsb' 0 6) else none
def decSOp (x : BitVec 11) : Option SOp :=
  if kindOf x = 0#2 then some (.s (low9 x)) else if kindOf x = 3#2 then some (.imm (low9 x)) else none
def decSOpw (wide : Bool) (x : BitVec 11) : Option SOp := (decSOp x).filter (SOp.okW · wide)
def decSOpIn (lo hi : Int) (x : BitVec 11) : Option SOp := (decSOp x).filter (SOp.okIn · lo hi)
def decV (wide : Bool) (x : BitVec 11) : Option (BitVec 11) := chk (evenIf wide x) x
def decZ (x : BitVec 11) : Option Unit := chk (x == 0#11) ()
def decVB (bc wide : Bool) (x : BitVec 11) : Option VB :=
  if bc then (decSOpw wide x).map .sc else (decV wide x).map .v
def decVBs (bc : Bool) (x : BitVec 11) : Option VB :=
  if bc then (decSOp x).map .sc else some (.v x)
/-- An immediate 0 to 15, as a tile index. -/
def decTile (x : BitVec 11) : Option (BitVec 4) :=
  if kindOf x = 3#2 ∧ x.extractLsb' 4 5 = 0#5 then some (x.extractLsb' 0 4) else none

def encS (i : BitVec 9) : BitVec 11 := 0#2 ++ i
def encA (i : BitVec 5) : BitVec 11 := 1#2 ++ 0#4 ++ i
def encP (i : BitVec 6) : BitVec 11 := 2#2 ++ 0#3 ++ i
def encI (v : BitVec 9) : BitVec 11 := 3#2 ++ v
def encSOp : SOp → BitVec 11
  | .s i => encS i
  | .imm v => encI v
def encVB : VB → BitVec 11
  | .v n => n
  | .sc o => encSOp o
def VB.isSc : VB → Bool
  | .v _ => false
  | .sc _ => true
def encTile (z : BitVec 4) : BitVec 11 := 3#2 ++ 0#5 ++ z
def b1 (x : Bool) : BitVec 1 := BitVec.ofBool x

/-- R75. -/
def decG (g : BitVec 7) : Option Guard :=
  if g = 0x3F#7 then some .always
  else if pOk (g.extractLsb' 0 6) then some (.pred (g.extractLsb' 0 6) (g.getLsbD 6)) else none
def encG : Guard → BitVec 7
  | .always => 0x3F#7
  | .pred i neg => b1 neg ++ i

/-! The arithmetic F layout (Table 3-8). -/

structure ArF where
  pi : BitVec 3
  sat : Bool
  bc : Bool
  rnd : BitVec 2
  ty : BitVec 4
  deriving DecidableEq, Repr

def arF (f : BitVec 11) : ArF where
  pi := f.extractLsb' 8 3
  sat := f.getLsbD 7
  bc := f.getLsbD 6
  rnd := f.extractLsb' 4 2
  ty := f.extractLsb' 0 4
def encArF (x : ArF) : BitVec 11 := x.pi ++ b1 x.sat ++ b1 x.bc ++ x.rnd ++ x.ty

def decIntTy (c : BitVec 4) : Option IntTy :=
  match c.toNat with
  | 0 => some .i32 | 1 => some .u32 | 2 => some .i64 | 3 => some .u64 | _ => none
def encIntTy : IntTy → BitVec 4
  | .i32 => 0#4 | .u32 => 1#4 | .i64 => 2#4 | .u64 => 3#4
def decFTy (c : BitVec 4) : Option FTy :=
  match c.toNat with
  | 4 => some .fp32 | 5 => some .fp64 | 6 => some .fp16 | 7 => some .bf16 | _ => none
def encFTy : FTy → BitVec 4
  | .fp32 => 4#4 | .fp64 => 5#4 | .fp16 => 6#4 | .bf16 => 7#4
def decATy (c : BitVec 4) : Option ATy :=
  match decIntTy c with
  | some t => some (.int t)
  | none => (decFTy c).map .flt
def encATy : ATy → BitVec 4
  | .int t => encIntTy t
  | .flt t => encFTy t
def decRnd (c : BitVec 2) : RndF :=
  match c.toNat with
  | 0 => .rne | 1 => .rtz | 2 => .rup | _ => .rdn
def encRnd : RndF → BitVec 2
  | .rne => 0#2 | .rtz => 1#2 | .rup => 2#2 | .rdn => 3#2
def decCmp (c : BitVec 3) : Option Cmp :=
  match c.toNat with
  | 0 => some .eq | 1 => some .ne | 2 => some .lt | 3 => some .le | 4 => some .gt | 5 => some .ge | _ => none
def encCmp : Cmp → BitVec 3
  | .eq => 0#3 | .ne => 1#3 | .lt => 2#3 | .le => 3#3 | .gt => 4#3 | .ge => 5#3
def decFCond (c : BitVec 3) : FCond :=
  match c.toNat with
  | 0 => .eq | 1 => .ne | 2 => .lt | 3 => .le | 4 => .gt | 5 => .ge | 6 => .un | _ => .ord
def encFCond : FCond → BitVec 3
  | .eq => 0#3 | .ne => 1#3 | .lt => 2#3 | .le => 3#3 | .gt => 4#3 | .ge => 5#3 | .un => 6#3 | .ord => 7#3
def decQCode (c : BitVec 3) : Option QCode :=
  match c.toNat with
  | 0 => some .e4m3 | 1 => some .e5m2 | 2 => some .i8 | 3 => some .u8 | 4 => some .i4 | 5 => some .lns6 | _ => none
def encQCode : QCode → BitVec 3
  | .e4m3 => 0#3 | .e5m2 => 1#3 | .i8 => 2#3 | .u8 => 3#3 | .i4 => 4#3 | .lns6 => 5#3
def decRdcK (c : BitVec 3) : Option RdcK :=
  match c.toNat with
  | 0 => some .add | 1 => some .min | 2 => some .max | 3 => some .and | 4 => some .or | 5 => some .xor | _ => none
def encRdcK : RdcK → BitVec 3
  | .add => 0#3 | .min => 1#3 | .max => 2#3 | .and => 3#3 | .or => 4#3 | .xor => 5#3
def decPredK (c : BitVec 3) : Option PredK :=
  match c.toNat with
  | 0 => some .any | 1 => some .all | 2 => some .cnt | 3 => some .first | 4 => some .last | _ => none
def encPredK : PredK → BitVec 3
  | .any => 0#3 | .all => 1#3 | .cnt => 2#3 | .first => 3#3 | .last => 4#3
def decSgn (c : BitVec 3) : Option SgnK :=
  match c.toNat with
  | 0 => some .copy | 1 => some .neg | 2 => some .xor | _ => none
def encSgn : SgnK → BitVec 3
  | .copy => 0#3 | .neg => 1#3 | .xor => 2#3
def decBrCmp (c : BitVec 3) : Option BrCmp :=
  match c.toNat with
  | 0 => some .eq | 1 => some .ne | 2 => some .lt | 3 => some .ge | 4 => some .ltu | 5 => some .geu | _ => none
def encBrCmp : BrCmp → BitVec 3
  | .eq => 0#3 | .ne => 1#3 | .lt => 2#3 | .ge => 3#3 | .ltu => 4#3 | .geu => 5#3
def decRsf (c : BitVec 4) : Option Rsf :=
  match c.toNat with
  | 0 => some .native | 1 => some .i32 | 2 => some .u32 | 3 => some .i64 | 4 => some .u64 | 5 => some .fp32
  | 6 => some .fp64 | 7 => some .fp16 | 8 => some .bf16 | 9 => some .ptr | _ => none
def encRsf : Rsf → BitVec 4
  | .native => 0#4 | .i32 => 1#4 | .u32 => 2#4 | .i64 => 3#4 | .u64 => 4#4 | .fp32 => 5#4
  | .fp64 => 6#4 | .fp16 => 7#4 | .bf16 => 8#4 | .ptr => 9#4
def decAtomK (c : BitVec 3) : AtomK :=
  match c.toNat with
  | 0 => .add | 1 => .min | 2 => .max | 3 => .and | 4 => .or | 5 => .xor | 6 => .xchg | _ => .cas
def encAtomK : AtomK → BitVec 3
  | .add => 0#3 | .min => 1#3 | .max => 2#3 | .and => 3#3 | .or => 4#3 | .xor => 5#3 | .xchg => 6#3 | .cas => 7#3
def decMFmt (c : BitVec 4) : Option MFmt :=
  match c.toNat with
  | 0 => some .bf16 | 1 => some .fp16 | 2 => some .e4m3 | 3 => some .e5m2 | 4 => some .i8 | 5 => some .u8
  | 6 => some .i4 | 7 => some .lns6 | 8 => some .fp32 | 9 => some .fp64 | _ => none
def encMFmt : MFmt → BitVec 4
  | .bf16 => 0#4 | .fp16 => 1#4 | .e4m3 => 2#4 | .e5m2 => 3#4 | .i8 => 4#4 | .u8 => 5#4
  | .i4 => 6#4 | .lns6 => 7#4 | .fp32 => 8#4 | .fp64 => 9#4
def decGrain (c : BitVec 2) : Option Grain :=
  match c.toNat with
  | 0 => some .g32 | 1 => some .g64 | 2 => some .g128 | _ => none
def encGrain : Grain → BitVec 2
  | .g32 => 0#2 | .g64 => 1#2 | .g128 => 2#2
def decKind (c : BitVec 2) : TileKind :=
  match c.toNat with
  | 0 => .fp32 | 1 => .int32 | 2 => .fp64 | _ => .freq
def encKind : TileKind → BitVec 2
  | .fp32 => 0#2 | .int32 => 1#2 | .fp64 => 2#2 | .freq => 3#2
def decRTy (c : BitVec 4) : Option RTy :=
  match c.toNat with
  | 0 => some .i32 | 1 => some .u32 | 4 => some .fp32 | 5 => some .fp64 | _ => none
def encRTy : RTy → BitVec 4
  | .i32 => 0#4 | .u32 => 1#4 | .fp32 => 4#4 | .fp64 => 5#4
def decRK (c : BitVec 2) : Option RK :=
  match c.toNat with
  | 0 => some .sum | 1 => some .max | 2 => some .min | _ => none
def encRK : RK → BitVec 2
  | .sum => 0#2 | .max => 1#2 | .min => 2#2

def wideOpt : Option IntTy → Bool
  | some t => t.wide
  | none => false
def wideOptF : Option FTy → Bool
  | some t => t.wide
  | none => false
def wideOptA : Option ATy → Bool
  | some t => t.wide
  | none => false

/-! The shapes. -/

def decSBin (satOk shiftB : Bool) (mk : SBin → Instr) (r : Raw) : Dec :=
  let x := arF r.f
  let t := decIntTy x.ty
  let w := wideOpt t
  dec3 (do let d ← decSw w r.d; let a ← decSOpw w r.a; let b ← decSOpw (w && !shiftB) r.b; some (d, a, b))
    (do let ty ← t; chk (x.pi == 0#3 && x.rnd == 0#2 && !x.bc && (satOk || !x.sat)) ty) true
    fun (d, a, b) ty => mk ⟨ty, x.sat, d, a, b⟩
def decSCmp (g : Guard) (r : Raw) : Dec :=
  let x := arF r.f
  let t := decIntTy x.ty
  let w := wideOpt t
  dec3 (do let d ← decS r.d; let a ← decSOpw w r.a; let b ← decSOpw w r.b; some (d, a, b))
    (do let ty ← t; let c ← decCmp x.pi; chk (x.rnd == 0#2 && !x.bc && !x.sat) (ty, c)) true
    fun (d, a, b) (ty, c) => .scmp g ⟨ty, c, d, a, b⟩
/-- F of a scalar or vector integer instruction that has only a type. -/
def tyOnly (f : BitVec 11) : Option IntTy :=
  if f.extractLsb' 4 7 = 0#7 then decIntTy (f.extractLsb' 0 4) else none
def decSUn (wideD : Bool) (mk : SUn → Instr) (r : Raw) : Dec :=
  let w := wideOpt (decIntTy (r.f.extractLsb' 0 4))
  dec3 (do let d ← decSw (w && wideD) r.d; let a ← decSOpw w r.a; let _ ← decZ r.b; some (d, a)) (tyOnly r.f) true
    fun (d, a) ty => mk ⟨ty, d, a⟩
def decSPOp (wide : Bool) (x : BitVec 11) : Option SPOp :=
  if kindOf x = 2#2 then (decP x).map .p else (decSOpw wide x).map .so
def encSPOp : SPOp → BitVec 11
  | .so o => encSOp o
  | .p i => encP i
def decSPopc (g : Guard) (r : Raw) : Dec :=
  let w := wideOpt (decIntTy (r.f.extractLsb' 0 4))
  dec3 (do let d ← decS r.d; let a ← decSPOp w r.a; let _ ← decZ r.b; some (d, a)) (tyOnly r.f) true
    fun (d, a) ty => .spopc g ⟨ty, d, a⟩
def decSli (g : Guard) (r : Raw) : Dec :=
  let t := decIntTy (r.f.extractLsb' 0 4)
  let w := wideOpt t
  if r.l = 1#1 then
    dec3 (do let d ← decSw w r.d; let _ ← decZ r.a; let _ ← decZ r.b; some d) (tyOnly r.f)
      (w || decide (r.ext.toNat < 2 ^ 32)) fun d ty => .sli g ⟨ty, d, .long r.ext⟩
  else
    dec3 (decSw w r.d) (tyOnly r.f) true fun d ty => .sli g ⟨ty, d, .short (r.b ++ r.a)⟩
def decSBf (mk : SBfOp → Instr) (r : Raw) : Dec :=
  let w := wideOpt (decIntTy (r.f.extractLsb' 0 4))
  dec3 (do let d ← decSw w r.d; let a ← decSOpw w r.a; let b ← decS r.b; some (d, a, b)) (tyOnly r.f) true
    fun (d, a, b) ty => mk ⟨ty, d, a, b⟩

/-- D, A, B and F all zero (BR, BRV, JOIN, RET, EXIT, NOP). -/
def decNone (r : Raw) (x7 : Bool) (i : Instr) : Dec :=
  dec3 (do let _ ← decZ r.d; let _ ← decZ r.a; decZ r.b) (decZ r.f) x7 fun _ _ => i
def extHi0 (r : Raw) : Bool := r.ext.extractLsb' 32 32 == 0#32
def extLo (r : Raw) : BitVec 32 := r.ext.extractLsb' 0 32
def extHi (r : Raw) : BitVec 32 := r.ext.extractLsb' 32 32

def decBrcTest (c : BitVec 3) (w : Bool) (a b : BitVec 11) : Option BrcTest :=
  match decBrCmp c with
  | some k => do let x ← decSOpw w a; let y ← decSOpw w b; some (.cmp k w x y)
  | none => do
    let _ ← decZ b
    if kindOf a = 2#2 then do let p ← decP a; chk (!w) (.anyP (c == 7#3) p)
    else do let s ← decSw w a; some (.anyS (c == 7#3) w s)
/-- R315 names no condition on D; one that is not zero is refused as the unused field of R72. (DEDUCED, unsafe: log entry 91.) -/
def decBrc (g : Guard) (r : Raw) : Dec :=
  dec3 (do let _ ← decZ r.d; decBrcTest (r.f.extractLsb' 0 3) (r.f.getLsbD 3) r.a r.b)
    (chk (r.f.extractLsb' 4 7 == 0#7) ()) (extHi0 r) fun t _ => .brc g ⟨t, extLo r⟩
def decJtab (g : Guard) (r : Raw) : Dec :=
  dec3 (do let _ ← decZ r.d; decA r.b) (decZ r.f) (extHi0 r) fun p _ => .jtab g ⟨r.a, p, extLo r⟩
def decCall (g : Guard) (r : Raw) : Dec :=
  if r.f.getLsbD 8 then
    dec3 (do let _ ← decZ r.d; let _ ← decZ r.b; decSw true r.a) (chk (r.f.extractLsb' 9 2 == 0#2) ())
      (r.ext == 0#64) fun a _ => .callInd g ⟨r.f.extractLsb' 0 8, a⟩
  else
    dec3 (do let _ ← decZ r.d; let _ ← decZ r.b; decZ r.a) (chk (r.f.extractLsb' 9 2 == 0#2) ())
      (extHi0 r) fun _ _ => .call g ⟨r.f.extractLsb' 0 8, extLo r⟩
def decLoop (g : Guard) (r : Raw) : Dec :=
  dec3 (do let _ ← decZ r.d; let _ ← decZ r.b; (decS r.a).filter fun i => decide (16 ≤ i.toNat)) (decZ r.f)
    (extHi0 r) fun a _ => .loop g ⟨a, extLo r⟩

def decPlog (g : Guard) (r : Raw) : Dec :=
  dec3 (do let d ← decP r.d; let a ← decP r.a; let b ← decP r.b; some (d, a, b))
    (chk (r.f.extractLsb' 4 7 == 0#7) ()) true fun (d, a, b) _ => .plog g ⟨r.f.extractLsb' 0 4, d, a, b⟩
def decPmovOp (d a : BitVec 11) : Option PmovOp :=
  if kindOf d = 2#2 then
    if kindOf a = 2#2 then do let x ← decP d; let y ← decP a; some (.pp x y)
    else if kindOf a = 0#2 then do let x ← decP d; chk (decide ((low9 a).toNat ≤ 509)) (.ps x (low9 a))
    else if kindOf a = 3#2 then do let x ← decP d; chk (decide ((low9 a).toNat ≤ 1)) (.pi x ((low9 a).getLsbD 0))
    else none
  else if kindOf d = 0#2 then do let y ← decP a; chk (decide ((low9 d).toNat ≤ 509)) (.sp (low9 d) y)
  else none
def decPmov (g : Guard) (r : Raw) : Dec :=
  dec3 (do let _ ← decZ r.b; decPmovOp r.d r.a) (decZ r.f) true fun o _ => .pmov g o
def decPred (g : Guard) (r : Raw) : Dec :=
  dec3 (do let d ← decS r.d; let a ← decP r.a; let _ ← decZ r.b; some (d, a))
    (do let k ← decPredK (r.f.extractLsb' 8 3); chk (r.f.extractLsb' 0 8 == 0#8) k) true
    fun (d, a) k => .pred g ⟨k, d, a⟩

/-! Pointer instructions (Table 5-7). -/

def decPderSrc (mode : BitVec 2) (b : BitVec 11) : Option PderSrc :=
  if mode = 0#2 then ((decS b).filter fun i => decide (i.toNat % 4 = 0)).map .quad
  else (decSOpIn 0 255 b).map .tail
def decPder (g : Guard) (r : Raw) : Dec :=
  let mode := r.f.extractLsb' 7 2
  let fm := r.f.extractLsb' 0 6
  dec3 (do let d ← decA r.d; let a ← decA r.a; let s ← decPderSrc mode r.b; some (d, a, s))
    (do let _ ← chk (r.f.extractLsb' 9 2 == 0#2 && (mode == 0#2 || mode == 1#2)) ()
        if r.f.getLsbD 6 then chk (fmtOk fm) (some fm) else chk (fm == 0#6) none) true
    fun (d, a, s) fmt => .pder g ⟨s, fmt, d, a⟩
def decPclass (g : Guard) (r : Raw) : Dec :=
  let c := r.f.extractLsb' 0 2
  dec3 (do let d ← decA r.d; let a ← decA r.a; let _ ← decZ r.b; some (d, a))
    (chk (r.f.extractLsb' 2 9 == 0#9 && c != 3#2) c) true fun (d, a) c => .pclass g ⟨c, d, a⟩
def decNarrow (g : Guard) (r : Raw) : Dec :=
  dec3 (do let d ← decA r.d; let a ← decA r.a; let _ ← decZ r.b; some (d, a))
    (chk (r.f.extractLsb' 3 8 == 0#8) (r.f.extractLsb' 0 3)) true fun (d, a) s => .narrow g ⟨s, d, a⟩
def decWiden (g : Guard) (r : Raw) : Dec :=
  let c := r.f.extractLsb' 4 2
  dec3 (do let d ← decA r.d; let a ← decA r.a; let _ ← decZ r.b; some (d, a))
    (do let _ ← chk (r.f.extractLsb' 6 5 == 0#5) ()
        if r.f.getLsbD 3 then chk (c != 3#2) (some c) else chk (c == 0#2) none) true
    fun (d, a) cls => .widen g ⟨r.f.extractLsb' 0 3, cls, d, a⟩
def decPqry (g : Guard) (r : Raw) : Dec :=
  let x := r.f.extractLsb' 0 4
  dec3 (do let d ← decS r.d; let a ← decA r.a; let _ ← decZ r.b; some (d, a))
    (chk (r.f.extractLsb' 4 7 == 0#7 && decide (x.toNat ≤ 11)) x) true fun (d, a) x => .pqry g ⟨x, d, a⟩
def decAlloc (g : Guard) (r : Raw) : Dec :=
  let fm := r.f.extractLsb' 0 6
  dec3 (do let d ← decA r.d; let a ← decA r.a; let b ← decSOpIn 0 255 r.b; chk (d != a) (d, a, b))
    (chk (r.f.extractLsb' 6 5 == 0#5 && fmtOk fm) fm) true fun (d, a, b) fm => .alloc g ⟨fm, d, a, b⟩

/-! Vector integer instructions (Table 14-2). -/

def decVBin (satOk shiftB : Bool) (mk : VBin → Instr) (r : Raw) : Dec :=
  let x := arF r.f
  let t := decIntTy x.ty
  let w := wideOpt t
  dec3 (do let d ← decV w r.d; let a ← decV w r.a; let b ← decVB x.bc (w && !shiftB) r.b; some (d, a, b))
    (do let ty ← t; chk (x.pi == 0#3 && x.rnd == 0#2 && (satOk || !x.sat)) ty) true
    fun (d, a, b) ty => mk ⟨ty, x.sat, d, a, b⟩
def decVCmp (g : Guard) (r : Raw) : Dec :=
  let x := arF r.f
  let t := decIntTy x.ty
  let w := wideOpt t
  dec3 (do let d ← decP r.d; let a ← decV w r.a; let b ← decVB x.bc w r.b; some (d, a, b))
    (do let ty ← t; let c ← decCmp x.pi; chk (x.rnd == 0#2 && !x.sat) (ty, c)) true
    fun (d, a, b) (ty, c) => .vcmp g ⟨ty, c, d, a, b⟩
def decVUn (wideD satOk signedOnly : Bool) (mk : VUn → Instr) (r : Raw) : Dec :=
  let x := arF r.f
  let t := decIntTy x.ty
  let w := wideOpt t
  dec3 (do let d ← decV (w && wideD) r.d; let a ← decV w r.a; let _ ← decZ r.b; some (d, a))
    (do let ty ← t
        chk (x.pi == 0#3 && x.rnd == 0#2 && !x.bc && (satOk || !x.sat) && (!signedOnly || ty.signed)) ty) true
    fun (d, a) ty => mk ⟨ty, x.sat, d, a⟩
/-- F that has only a type of any sort. -/
def aTyOnly (f : BitVec 11) : Option ATy :=
  if f.extractLsb' 4 7 = 0#7 then decATy (f.extractLsb' 0 4) else none
def decVMov (g : Guard) (r : Raw) : Dec :=
  let w := wideOptA (decATy (r.f.extractLsb' 0 4))
  dec3 (do let d ← decV w r.d; let a ← decV w r.a; let _ ← decZ r.b; some (d, a)) (aTyOnly r.f) true
    fun (d, a) ty => .vmov g ⟨ty, d, a⟩
def decVBcast (g : Guard) (r : Raw) : Dec :=
  let w := wideOptA (decATy (r.f.extractLsb' 0 4))
  dec3 (do let d ← decV w r.d; let a ← decSOpw w r.a; let _ ← decZ r.b; some (d, a)) (aTyOnly r.f) true
    fun (d, a) ty => .vbcast g ⟨ty, d, a⟩
def decVSrc (bc : Bool) (x : BitVec 11) : Option VSrc := if bc then (decS x).map .s else some (.v x)
def encVSrc : VSrc → BitVec 11
  | .v n => n
  | .s i => encS i
def VSrc.isSc : VSrc → Bool
  | .v _ => false
  | .s _ => true
def decVBfx (g : Guard) (r : Raw) : Dec :=
  let x := arF r.f
  let t := decIntTy x.ty
  let w := wideOpt t
  dec3 (do let d ← decV w r.d; let a ← decV w r.a; let b ← decVSrc x.bc r.b; some (d, a, b))
    (do let ty ← t; chk (x.pi == 0#3 && x.rnd == 0#2 && !x.sat) ty) true
    fun (d, a, b) ty => .vbfx g ⟨ty, d, a, b⟩

/-! Floating instructions (Table 12-9). -/

def decFBin (mk : FBin → Instr) (r : Raw) : Dec :=
  let x := arF r.f
  let t := decFTy x.ty
  let w := wideOptF t
  dec3 (do let d ← decV w r.d; let a ← decV w r.a; let b ← decVB x.bc w r.b; some (d, a, b))
    (do let ty ← t; chk (x.pi == 0#3) ty) true
    fun (d, a, b) ty => mk ⟨ty, decRnd x.rnd, x.sat, d, a, b⟩
def decFPair (mk : FPair → Instr) (r : Raw) : Dec :=
  let x := arF r.f
  let t := decFTy x.ty
  let w := wideOptF t
  dec3 (do let d ← decV w r.d; let a ← decV w r.a; let b ← decVB x.bc w r.b; some (d, a, b))
    (do let ty ← t; chk (x.pi == 0#3 && x.rnd == 0#2 && !x.sat) ty) true
    fun (d, a, b) ty => mk ⟨ty, d, a, b⟩
def decFSgn (g : Guard) (r : Raw) : Dec :=
  let x := arF r.f
  let t := decFTy x.ty
  let w := wideOptF t
  dec3 (do let d ← decV w r.d; let a ← decV w r.a; let b ← decVB x.bc w r.b; some (d, a, b))
    (do let ty ← t; let k ← decSgn x.pi; chk (x.rnd == 0#2 && !x.sat) (ty, k)) true
    fun (d, a, b) (ty, k) => .fsgn g ⟨ty, k, d, a, b⟩
def decFUn (satOk wideOk : Bool) (mk : FUn → Instr) (r : Raw) : Dec :=
  let x := arF r.f
  let t := (decFTy x.ty).filter fun t => wideOk || !t.wide
  let w := wideOptF t
  dec3 (do let d ← decV w r.d; let a ← decV w r.a; let _ ← decZ r.b; some (d, a))
    (do let ty ← t; chk (x.pi == 0#3 && !x.bc && (satOk || !x.sat)) ty) true
    fun (d, a) ty => mk ⟨ty, decRnd x.rnd, x.sat, d, a⟩
def decFTrig (g : Guard) (la : BitVec 4) (r : Raw) : Dec :=
  let x := arF r.f
  dec3 (decZ r.b)
    (do let ty ← (decFTy x.ty).filter fun t => !t.wide
        chk ((x.pi == 0#3 || x.pi == 1#3) && !x.bc && !x.sat) ty) true
    fun _ ty => .ftrig g la ⟨ty, decRnd x.rnd, x.pi == 1#3, r.d, r.a⟩
def decFCmp (g : Guard) (r : Raw) : Dec :=
  let x := arF r.f
  let t := decFTy x.ty
  let w := wideOptF t
  dec3 (do let d ← decP r.d; let a ← decV w r.a; let b ← decVB x.bc w r.b; some (d, a, b))
    (do let ty ← t; chk (x.rnd == 0#2 && !x.sat) ty) true
    fun (d, a, b) ty => .fcmp g ⟨ty, decFCond x.pi, d, a, b⟩
def decFClass (g : Guard) (r : Raw) : Dec :=
  let t := decFTy (r.f.extractLsb' 0 4)
  dec3 (do let a ← decV (wideOptF t) r.a; let _ ← decZ r.b; some a)
    (do let ty ← t; chk (r.f.extractLsb' 4 7 == 0#7) ty) true fun a ty => .fclass g ⟨ty, r.d, a⟩

/-! Conversion and cross-lane instructions. -/

def decCvt (g : Guard) (r : Raw) : Dec :=
  let x := arF r.f
  let t := decATy x.ty
  let s := decATy (r.b.extractLsb' 0 4)
  dec3 (do let d ← decV (wideOptA t) r.d; let a ← decV (wideOptA s) r.a; chk (r.b.extractLsb' 4 7 == 0#7) (d, a))
    (do let ty ← t; let sty ← s; chk (x.pi == 0#3 && !x.bc) (ty, sty)) true
    fun (d, a) (ty, sty) => .cvt g ⟨ty, sty, decRnd x.rnd, x.sat, d, a⟩
def qCount : Option QCode → Nat
  | some q => q.count
  | none => 0
def decQnt (g : Guard) (r : Raw) : Dec :=
  let x := arF r.f
  let q := decQCode x.pi
  dec3 (do let a ← chk (runOk r.a (qCount q)) r.a; let b ← decVBs x.bc r.b; some (a, b))
    (do let ty ← (decFTy x.ty).filter fun t => !t.wide; let k ← q; some (ty, k)) true
    fun (a, b) (ty, k) => .qnt g ⟨k, ty, decRnd x.rnd, x.sat, r.d, a, b⟩
def decDqnt (g : Guard) (r : Raw) : Dec :=
  let x := arF r.f
  let q := decQCode x.pi
  dec3 (do let d ← chk (runOk r.d (qCount q)) r.d; let b ← decVBs x.bc r.b; some (d, b))
    (do let k ← q; chk (x.ty == 4#4 && x.rnd == 0#2 && !x.sat) k) true
    fun (d, b) k => .dqnt g ⟨k, d, r.a, b⟩
def decAmaxO (mode : BitVec 3) (f : BitVec 11) (d a : BitVec 11) : Option AmaxOp :=
  match mode.toNat with
  | 0 =>
    let t := decFTy (f.extractLsb' 0 4)
    do let x ← decS d; let y ← decV (wideOptF t) a; some (.lanes (t.getD .fp32) x y)
  | 1 => (decTile a).map (.row d)
  | 2 => do let x ← decS d; let z ← decTile a; some (.tile x z)
  | _ => some (.row 0#11 0#4)
def decAmax (g : Guard) (la : BitVec 4) (r : Raw) : Dec :=
  let mode := r.f.extractLsb' 8 3
  let ty := r.f.extractLsb' 0 4
  dec3 (do let _ ← decZ r.b; decAmaxO mode r.f r.d r.a)
    (chk (r.f.extractLsb' 4 4 == 0#4 &&
      (if mode == 0#3 then (decFTy ty).isSome else (mode == 1#3 || mode == 2#3) && ty == 4#4)) ()) true
    fun o _ => .amax g la o
def decVPerm (g : Guard) (la : BitVec 4) (r : Raw) : Dec :=
  let x := arF r.f
  let t := decATy x.ty
  dec3 (do let d ← decV (wideOptA t) r.d; let a ← decV (wideOptA t) r.a; let b ← decVBs x.bc r.b; some (d, a, b))
    (do let ty ← t; chk (x.pi == 0#3 && x.rnd == 0#2 && !x.sat) ty) true
    fun (d, a, b) ty => .vperm g la ⟨ty, d, a, b⟩
def decVRot (g : Guard) (r : Raw) : Dec :=
  let x := arF r.f
  let t := decATy x.ty
  dec3 (do let d ← decV (wideOptA t) r.d; let a ← decV (wideOptA t) r.a; let b ← decSOp r.b; some (d, a, b))
    (do let ty ← t; chk ((x.pi == 0#3 || x.pi == 1#3) && x.rnd == 0#2 && !x.sat && x.bc) ty) true
    fun (d, a, b) ty => .vrot g ⟨ty, x.pi == 1#3, d, a, b⟩
def decVScan (g : Guard) (la : BitVec 4) (r : Raw) : Dec :=
  let x := arF r.f
  let t := decATy x.ty
  dec3 (do let d ← decV (wideOptA t) r.d; let a ← decV (wideOptA t) r.a; let _ ← decZ r.b; some (d, a))
    (do let ty ← t; let k ← decRdcK x.pi; chk (rdcOk ty k (decRnd x.rnd) x.sat) (ty, k)) true
    fun (d, a) (ty, k) => .vscan g la ⟨ty, k, decRnd x.rnd, x.sat, x.bc, d, a⟩
def decVRdc (g : Guard) (la : BitVec 4) (r : Raw) : Dec :=
  let x := arF r.f
  let t := decATy x.ty
  dec3 (do let d ← decSw (wideOptA t) r.d; let a ← decV (wideOptA t) r.a; let _ ← decZ r.b; some (d, a))
    (do let ty ← t; let k ← decRdcK x.pi; chk (rdcOk ty k (decRnd x.rnd) x.sat && !x.bc) (ty, k)) true
    fun (d, a) (ty, k) => .vrdc g la ⟨ty, k, decRnd x.rnd, x.sat, d, a⟩
/-- F of VCONF and VELECT: U32 or U64 (R398). -/
def decConfF (f : BitVec 11) : Option Bool :=
  if f = 1#11 then some false else if f = 3#11 then some true else none
def confWide (f : BitVec 11) : Bool := f.extractLsb' 0 4 == 3#4
def decVConf (g : Guard) (r : Raw) : Dec :=
  dec3 (do let d ← (decP r.d).filter (evenIf true); let a ← decV (confWide r.f) r.a; let _ ← decZ r.b; some (d, a))
    (decConfF r.f) true fun (d, a) w => .vconf g ⟨w, d, a⟩
def decVElect (g : Guard) (r : Raw) : Dec :=
  dec3 (do let a ← decV (confWide r.f) r.a; let _ ← decZ r.b; some a)
    (decConfF r.f) true fun a w => .velect g ⟨w, r.d, a⟩

/-! Memory instructions (R82, Tables 3-9 and 12-3). -/

def rsfWide : Option Rsf → Bool
  | some r => r.wide
  | none => false
def rsfPtr (r : Option Rsf) : Bool := r == some .ptr
def decMData (uni : Bool) (rsf : Option Rsf) (d : BitVec 11) : Option MData :=
  if uni then
    if rsfPtr rsf then (decA d).map .a else (decSw (rsfWide rsf) d).map .s
  else if rsfPtr rsf then none else (decV (rsfWide rsf) d).map .v
def decMOff (uni stream : Bool) (a b : BitVec 11) : Option MOff :=
  if stream then do
    let _ ← decZ a
    chk (!uni && b.extractLsb' 2 9 == 0#9) (.stream (b.extractLsb' 0 2))
  else if b = 0#11 then (decSOp a).map .sc
  else if b = 0x400#11 ∧ !uni then some (.vec a)
  else none
def encMData : MData → BitVec 11
  | .v n => n
  | .s i => encS i
  | .a i => encA i
def encMOffA : MOff → BitVec 11
  | .sc o => encSOp o
  | .vec n => n
  | .stream _ => 0#11
def encMOffB : MOff → BitVec 11
  | .sc _ => 0#11
  | .vec _ => 0x400#11
  | .stream k => 0#9 ++ k
def MOff.isStream : MOff → Bool
  | .stream _ => true
  | _ => false
def memRsf (f : BitVec 11) : Option Rsf := decRsf (f.extractLsb' 5 4)
/-- R150: Ext[47:0] is the signed element offset and Ext[63:48] must be zero. -/
def extOff (r : Raw) : Option (BitVec 48) := if r.l = 1#1 then some (r.ext.extractLsb' 0 48) else none
def extOffOk (r : Raw) : Bool := r.l == 0#1 || r.ext.extractLsb' 48 16 == 0#16
def decMem (mk : MemOp → Instr) (r : Raw) : Dec :=
  let uni := r.f.getLsbD 10
  dec3 (do let x ← decMData uni (memRsf r.f) r.d; let o ← decMOff uni (r.f.getLsbD 9) r.a r.b; some (x, o))
    (memRsf r.f) (extOffOk r) fun (x, o) rsf => mk ⟨rsf, r.f.extractLsb' 0 5, x, o, extOff r⟩
def decAtom (g : Guard) (la : BitVec 4) (r : Raw) : Dec :=
  let wide := r.d.getLsbD 7
  let vb := r.d.extractLsb' 0 7
  let unit := if wide then 4 else match memRsf r.f with
    | some .u64 | some .i64 | some .fp64 => 2
    | _ => 1
  dec3 (do let o ← decMOff false (r.f.getLsbD 9) r.a r.b
           chk (!rsfPtr (memRsf r.f) && decide (vb.toNat % unit = 0)) o)
    (do let rsf ← memRsf r.f; chk (!r.f.getLsbD 10) rsf) (extOffOk r)
    fun o rsf => .atom g la ⟨rsf, r.f.extractLsb' 0 5, o, r.ext.extractLsb' 0 48, decAtomK (r.d.extractLsb' 8 3), wide, vb⟩
def decSgen (g : Guard) (r : Raw) : Dec :=
  dec3 (do let _ ← decZ r.d; let _ ← decZ r.b; decSOpIn 0 255 r.a) (chk (r.f.extractLsb' 7 4 == 0#4) ()) true
    fun a _ => .sgen g ⟨r.f.extractLsb' 5 2, r.f.extractLsb' 0 5, a⟩

/-! Engines, barriers and waits. -/

def decXfer (g : Guard) (r : Raw) : Dec :=
  dec3 (do let d ← decA r.d; let a ← decA r.a; let b ← (decS r.b).filter fun i => decide (i.toNat % 8 = 0); some (d, a, b))
    (decZ r.f) true fun (d, a, b) _ => .xfer g ⟨d, a, b⟩
def decXchain (g : Guard) (r : Raw) : Dec :=
  dec3 (do let _ ← decZ r.d; let _ ← decZ r.b; decSw true r.a) (chk (r.f.extractLsb' 2 9 == 0#9) ()) true
    fun a _ => .xchain g ⟨r.f.extractLsb' 0 2, a⟩
def decWait (g : Guard) (r : Raw) : Dec :=
  dec3 (do let _ ← decZ r.d; let _ ← decZ r.b; decSOpIn 0 255 r.a) (chk (r.f.extractLsb' 2 9 == 0#9) ()) true
    fun a _ => .wait g ⟨r.f.extractLsb' 0 2, a⟩
def decBari (g : Guard) (r : Raw) : Dec :=
  dec3 (do let _ ← decZ r.d; let _ ← decZ r.b; decSOpIn 1 255 r.a) (chk (r.f.extractLsb' 4 7 == 0#7) ()) true
    fun a _ => .bari g ⟨r.f.extractLsb' 0 4, a⟩
def decBara (g : Guard) (r : Raw) : Dec :=
  dec3 (do let _ ← decZ r.d; let _ ← decZ r.b; decZ r.a) (chk (r.f.extractLsb' 4 7 == 0#7) ()) true
    fun _ _ => .bara g (r.f.extractLsb' 0 4)
def decBarw (g : Guard) (r : Raw) : Dec :=
  dec3 (do let _ ← decZ r.d; let _ ← decZ r.b; decZ r.a) (chk (r.f.extractLsb' 5 6 == 0#6) ()) true
    fun _ _ => .barw g ⟨r.f.extractLsb' 0 4, r.f.getLsbD 4⟩
def decSyncw (g : Guard) (r : Raw) : Dec :=
  dec3 (do let d ← decS r.d; let a ← decA r.a; let b ← decSOpIn 0 255 r.b; some (d, a, b)) (decZ r.f) true
    fun (d, a, b) _ => .syncw g ⟨d, a, b⟩

/-! Matrix instructions (Tables 8-3, 8-4, 14-9 and 14-10). -/

/-- Bits [63:36], [35:27], [26:22], [21:13], [12:8], [7:4] and [3:0] of the extension word. -/
def mxOff (r : Raw) : BitVec 9 := r.ext.extractLsb' 13 9
def mxPtr (r : Raw) : BitVec 5 := r.ext.extractLsb' 8 5
def mxZp (r : Raw) : BitVec 4 := r.ext.extractLsb' 4 4
def mxZ (r : Raw) : BitVec 4 := r.ext.extractLsb' 0 4
def encMx (off : BitVec 9) (ptr : BitVec 5) (zp z : BitVec 4) : BitVec 64 := 0#42 ++ off ++ ptr ++ zp ++ z
def mxHi0 (r : Raw) : Bool := r.ext.extractLsb' 22 42 == 0#42
def fmtRegs (m : Option MFmt) (k : MFmt → Nat) : Nat :=
  match m with
  | some x => k x
  | none => 0
def fmt64 : Option MFmt → Bool
  | some x => x.is64
  | none => false
def decMma (g : Guard) (r : Raw) : Dec :=
  let m := decMFmt (r.f.extractLsb' 0 4)
  let zpb := r.f.getLsbD 6
  dec3 (do let _ ← decZ r.d
           let a ← chk (runOk r.a (fmtRegs m MFmt.mmaRegs) && evenIf (fmt64 m) r.a) r.a
           let z ← if zpb then (decS r.b).map some else (decZ r.b).map fun _ => none
           some (a, z))
    (do let x ← m; chk (r.f.extractLsb' 7 4 == 0#4 && (!zpb || x.isInt)) x) (mxHi0 r && mxZp r == 0#4)
    fun (a, z) x => .mma g ⟨x, r.f.getLsbD 4, r.f.getLsbD 5, z, a, mxOff r, mxPtr r, mxZ r⟩
def decMmas (g : Guard) (r : Raw) : Dec :=
  let m := decMFmt (r.f.extractLsb' 0 4)
  dec3 (do let _ ← decZ r.d; let a ← chk (runOk r.a 32) r.a; let h ← decSw true r.b; some (a, h))
    (do let x ← m; chk (r.f.extractLsb' 6 5 == 0#5 && x.masOk) x) (mxHi0 r && mxZp r == 0#4)
    fun (a, h) x => .mmas g ⟨x, r.f.getLsbD 4, r.f.getLsbD 5, h, a, mxOff r, mxPtr r, mxZ r⟩
def decMmab (g : Guard) (r : Raw) : Dec :=
  let m := (decMFmt (r.f.extractLsb' 0 4)).filter MFmt.mabOk
  let n1 := r.f.extractLsb' 8 3
  dec3 (do let _ ← decZ r.d
           let a ← chk (runOk r.a (fmtRegs m MFmt.mmabRegs) && evenIf (fmt64 m) r.a) r.a
           let w ← decSOpIn 0 255 r.b
           some (a, w))
    (do let x ← m; chk (x.is64 || decide (n1.toNat < 4)) x) (mxHi0 r && mxZp r == 0#4)
    fun (a, w) x => .mmab g ⟨x, n1, r.f.extractLsb' 6 2, r.f.getLsbD 4, r.f.getLsbD 5, w, a, mxOff r, mxPtr r, mxZ r⟩
def decScacc (g : Guard) (r : Raw) : Dec :=
  let n1 := r.f.extractLsb' 0 2
  dec3 (do let _ ← decZ r.d; let _ ← decZ r.b; chk (runOk r.a (n1.toNat + 1)) r.a)
    (do let x ← decGrain (r.f.extractLsb' 2 2); chk (r.f.extractLsb' 6 5 == 0#5) x) (mxHi0 r)
    fun a x => .scacc g ⟨x, n1, r.f.getLsbD 5, r.f.getLsbD 4, a, mxOff r, mxPtr r, mxZp r, mxZ r⟩
def decSpx (g : Guard) (r : Raw) : Dec :=
  dec3 (do let _ ← decZ r.d; let _ ← decZ r.a; decZ r.b)
    (chk (r.f.extractLsb' 6 5 == 0#5 && r.f.extractLsb' 0 5 == 0#5) ())
    (r.ext.extractLsb' 36 28 == 0#28 && mxZp r == 0#4)
    fun _ _ => .spx g ⟨r.f.getLsbD 5, r.ext.extractLsb' 27 9, r.ext.extractLsb' 22 5, mxOff r, mxPtr r, mxZ r⟩
def decXform (g : Guard) (r : Raw) : Dec :=
  dec3 (do let _ ← decZ r.d; let a ← decA r.a; let b ← decSOpIn 0 255 r.b; some (a, b))
    (chk (r.f.extractLsb' 1 10 == 0#10) ()) (r.l == 0#1 || extHi0 r)
    fun (a, b) _ =>
      let o : XformOp := ⟨a, b, if r.l = 1#1 then some (extLo r) else none⟩
      if r.f.getLsbD 0 then .xformInv g o else .xformFwd g o
def decAmaxS (on : Bool) (b : BitVec 11) : Option (Option (BitVec 9)) :=
  if on then (decS b).map some else (decZ b).map fun _ => none
def decZmov (g : Guard) (la : BitVec 4) (r : Raw) : Dec :=
  let dir := r.f.extractLsb' 0 2
  let z := r.f.extractLsb' 2 4
  let cv := r.f.extractLsb' 6 2
  let on := r.f.getLsbD 8
  let hi := r.f.extractLsb' 9 2 == 0#2
  match dir.toNat with
  | 0 =>
    dec3 (do let _ ← decZ r.a; let s ← decAmaxS on r.b; chk (runOk r.d (if cv = 0#2 then 128 else 64)) s)
      (chk hi ()) true fun s _ => .zmovZ2v g la ⟨cv, s, z, r.d⟩
  | 1 =>
    dec3 (do let _ ← decZ r.d; let s ← decAmaxS on r.b; chk (runOk r.a 128) s)
      (chk hi ()) true fun s _ => .zmovV2z g la ⟨cv, s, z, r.a⟩
  | n =>
    dec3 (do let _ ← decZ r.d; let p ← decA r.a; let s ← decAmaxS on r.b; some (p, s))
      (chk (hi && cv == 0#2) ()) (r.ext.extractLsb' 9 55 == 0#55)
      fun (p, s) _ =>
        let o : ZmovMOp := ⟨s, z, p, r.ext.extractLsb' 0 9⟩
        if n = 2 then .zmovZ2m g la o else .zmovM2z g la o
def decZclr (g : Guard) (r : Raw) : Dec :=
  dec3 (do let _ ← decZ r.d; let _ ← decZ r.a; decZ r.b) (chk (r.f.extractLsb' 6 5 == 0#5) ()) true
    fun _ _ => .zclr g ⟨decKind (r.f.extractLsb' 4 2), r.f.extractLsb' 0 4⟩
def decXsect (g : Guard) (la : BitVec 4) (r : Raw) : Dec :=
  let j := r.f.extractLsb' 0 2
  let k := r.f.extractLsb' 2 2
  dec3 (do let _ ← decZ r.a; let _ ← decZ r.b; chk (runOk r.d 2) r.d)
    (chk (r.f.extractLsb' 4 7 == 0#7 && j != k) ()) true fun d _ => .xsect g la ⟨j, k, d⟩

/-! Meetings and reductions (Table 9-1). -/

def decQuad (x : BitVec 11) : Option (BitVec 9) := (decS x).filter quadOk
def decMjoin (g : Guard) (r : Raw) : Dec :=
  dec3 (do let d ← decS r.d; let a ← decA r.a; let b ← decSOpIn 0 63 r.b; some (d, a, b)) (decZ r.f) true
    fun (d, a, b) _ => .mjoin g ⟨d, a, b⟩
def decMeet (g : Guard) (r : Raw) : Dec :=
  dec3 (do let a ← decA r.a; let b ← decS r.b; some (a, b)) (decZ r.f) true fun (a, b) _ => .meet g ⟨r.d, a, b⟩
def decMwait (g : Guard) (r : Raw) : Dec :=
  dec3 (do let a ← decA r.a; let b ← decQuad r.b; some (a, b)) (decZ r.f) true fun (a, b) _ => .mwait g ⟨r.d, a, b⟩
def decMqry (g : Guard) (r : Raw) : Dec :=
  let x := r.f.extractLsb' 0 4
  dec3 (do let d ← decS r.d; let a ← decA r.a; let _ ← decZ r.b; some (d, a))
    (chk (r.f.extractLsb' 4 7 == 0#7 && decide (x.toNat ≤ 9)) x) true fun (d, a) x => .mqry g ⟨x, d, a⟩
def rtyWide : Option RTy → Bool
  | some t => t.wide
  | none => false
def rdF (f : BitVec 11) : Option (RTy × RK) := do
  let ty ← decRTy (f.extractLsb' 0 4)
  let k ← decRK (f.extractLsb' 4 2)
  chk (!f.getLsbD 10 && (!ty.wide || f.getLsbD 6)) (ty, k)
def rdD (r : Raw) : Option (BitVec 11) :=
  chk (runOk r.d ((r.f.extractLsb' 6 4).toNat + 1) && evenIf (rtyWide (decRTy (r.f.extractLsb' 0 4))) r.d) r.d
def encRd (ty : RTy) (k : RK) (m1 : BitVec 4) : BitVec 11 := 0#1 ++ m1 ++ encRK k ++ encRTy ty
def decRdcn (g : Guard) (r : Raw) : Dec :=
  dec3 (do let d ← rdD r; let a ← decQuad r.a; let _ ← decZ r.b; some (d, a)) (rdF r.f) true
    fun (d, a) (ty, k) => .rdcn g ⟨ty, k, r.f.extractLsb' 6 4, d, a⟩
def decRdget (g : Guard) (r : Raw) : Dec :=
  dec3 (do let d ← rdD r; let a ← decQuad r.a; let b ← decQuad r.b; some (d, a, b)) (rdF r.f) true
    fun (d, a, b) (ty, k) => .rdget g ⟨ty, k, r.f.extractLsb' 6 4, d, a, b⟩

/-! Population, launch and system instructions. -/

def decRsamp (r : Raw) : Dec :=
  dec3 (decSOpIn 1 255 r.b) (decZ r.f) true fun b _ => .rsamp ⟨r.d, r.a, b⟩
def decRng (g : Guard) (la : BitVec 4) (r : Raw) : Dec :=
  dec3 (do let d ← chk (runOk r.d 4) r.d; let a ← decSw true r.a; let b ← decQuad r.b; some (d, a, b)) (decZ r.f) true
    fun (d, a, b) _ => .rng g la ⟨d, a, b⟩
def decReord (g : Guard) (r : Raw) : Dec :=
  let p := r.f.extractLsb' 0 3
  dec3 (do let _ ← decZ r.b
           chk (decide (4 < p.toNat) || (if p = 0#3 then r.d == 0#11 else runOk r.d p.toNat)) r.d)
    (chk (r.f.extractLsb' 3 8 == 0#8 && decide (p.toNat ≤ 4)) ()) true fun d _ => .reord g ⟨p, d, r.a⟩
def decLaunch (g : Guard) (r : Raw) : Dec :=
  dec3 (do let d ← decS r.d; let a ← decA r.a; let _ ← decZ r.b; some (d, a)) (decZ r.f) true
    fun (d, a) _ => .launch g ⟨d, a⟩
def decLwait (g : Guard) (r : Raw) : Dec :=
  dec3 (do let d ← decS r.d; let a ← decSOpIn 0 255 r.a; let _ ← decZ r.b; some (d, a)) (decZ r.f) true
    fun (d, a) _ => .lwait g ⟨d, a⟩
def decTrap (g : Guard) (r : Raw) : Dec :=
  dec3 (do let _ ← decZ r.d; let _ ← decZ r.b; decSOp r.a) (decZ r.f) true fun a _ => .trap g a
def decSvc (g : Guard) (r : Raw) : Dec :=
  dec3 (do let d ← decS r.d; let a ← decSOp r.a; let _ ← decZ r.b; some (d, a)) (chk (decide (r.f.toNat ≤ 4)) r.f.toNat) true
    fun (d, a) n =>
      match n with
      | 0 => .svcProbe g ⟨d, a⟩
      | 1 => .svcLock g ⟨d, a⟩
      | 2 => .svcUnlock g ⟨d, a⟩
      | 3 => .svcTrylock g ⟨d, a⟩
      | _ => .svcLog g ⟨d, a⟩
def decRdsrD (n : Nat) (d : BitVec 11) : Option RdsrDest :=
  match laneSpecial n with
  | some w => (decV w d).map .v
  | none =>
    match groupSpecial n with
    | some w => (decSw w d).map .s
    | none => some (.v d)
def decRdsr (g : Guard) (r : Raw) : Dec :=
  let n := r.f.extractLsb' 0 8
  dec3 (do let _ ← decZ r.a; let _ ← decZ r.b; decRdsrD n.toNat r.d)
    (chk (r.f.extractLsb' 8 3 == 0#3 && ((laneSpecial n.toNat).isSome || (groupSpecial n.toNat).isSome)) ()) true
    fun d _ => .rdsr g ⟨n, d⟩
def decWrsr (g : Guard) (r : Raw) : Dec :=
  let n := r.f.extractLsb' 0 8
  dec3 (do let _ ← decZ r.d; let _ ← decZ r.b; decSw true r.a)
    (chk (r.f.extractLsb' 8 3 == 0#3 && decide (0x20 ≤ n.toNat) && decide (n.toNat ≤ 0x23)) ()) true
    fun a _ => .wrsr g ⟨n, a⟩
def decYield (g : Guard) (r : Raw) : Dec :=
  dec3 (do let d ← decS r.d; let _ ← decZ r.a; let _ ← decZ r.b; some d) (decZ r.f) true fun d _ => .yield g d

/-! The opcode map (Table 3-3), one function for each row. -/

def decRow0 (r : Raw) (g : Guard) : Dec :=
  match r.op.toNat with
  | 0x00 => decNone r true (.nop g)
  | 0x01 => decSBin true false (.sadd g) r
  | 0x02 => decSBin true false (.ssub g) r
  | 0x03 => decSBin true false (.smul g) r
  | 0x04 => decSBin false false (.smulh g) r
  | 0x05 => decSBin false false (.sdiv g r.la) r
  | 0x06 => decSBin false false (.srem g r.la) r
  | 0x07 => decSBin false false (.sand g) r
  | 0x08 => decSBin false false (.sor g) r
  | 0x09 => decSBin false false (.sxor g) r
  | 0x0A => decSBin true true (.sshl g) r
  | 0x0B => decSBin false true (.sshr g) r
  | 0x0C => decSBin false true (.ssra g) r
  | 0x0D => decSBin false false (.smin g) r
  | 0x0E => decSBin false false (.smax g) r
  | _ => decSCmp g r

def decRow1 (r : Raw) (g : Guard) : Dec :=
  match r.op.toNat with
  | 0x10 => decSBin false false (.ssel g) r
  | 0x11 => decSUn true (.smov g) r
  | 0x12 => decSli g r
  | 0x13 => decSBf (.sbfx g) r
  | 0x14 => decSBf (.sbfi g) r
  | 0x15 => decSPopc g r
  | _ => decSUn false (.sclz g) r

def decRow2 (r : Raw) (g : Guard) : Dec :=
  match r.op.toNat with
  | 0x20 => decNone r (extHi0 r) (.br g (extLo r))
  | 0x21 => decBrc g r
  | 0x22 => decNone r true (.brv g ⟨extLo r, extHi r⟩)
  | 0x23 => if g = .always then decNone r true .join else .ill 4
  | 0x24 => decJtab g r
  | 0x25 => decCall g r
  | 0x26 => decNone r true (.ret g)
  | 0x27 => decNone r true (.exit g)
  | _ => decLoop g r

def decRow3 (r : Raw) (g : Guard) : Dec :=
  match r.op.toNat with
  | 0x30 => decPlog g r
  | 0x31 => decPmov g r
  | 0x32 => decPred g r
  | 0x34 => decPder g r
  | 0x35 => decPclass g r
  | 0x36 => decNarrow g r
  | 0x37 => decWiden g r
  | 0x38 => decPqry g r
  | _ => decAlloc g r

def decRow4 (r : Raw) (g : Guard) : Dec :=
  match r.op.toNat with
  | 0x40 => decVBin true false (.vadd g) r
  | 0x41 => decVBin true false (.vsub g) r
  | 0x42 => decVBin true false (.vmul g) r
  | 0x43 => decVBin false false (.vmulh g) r
  | 0x44 => decVBin true false (.vmad g) r
  | 0x45 => decVBin false false (.vdiv g r.la) r
  | 0x46 => decVBin false false (.vrem g r.la) r
  | 0x47 => decVBin false false (.vand g) r
  | 0x48 => decVBin false false (.vor g) r
  | 0x49 => decVBin false false (.vxor g) r
  | 0x4A => decVBin true true (.vshl g) r
  | 0x4B => decVBin false true (.vshr g) r
  | 0x4C => decVBin false true (.vsra g) r
  | 0x4D => decVBin false false (.vmin g) r
  | 0x4E => decVBin false false (.vmax g) r
  | _ => decVUn true true true (.vabs g) r

def decRow5 (r : Raw) (g : Guard) : Dec :=
  match r.op.toNat with
  | 0x50 => decVCmp g r
  | 0x51 => decVBin false false (.vsel g) r
  | 0x52 => decVMov g r
  | 0x53 => decVBcast g r
  | 0x54 => decVBfx g r
  | 0x55 => decVUn false false false (.vpopc g) r
  | _ => decVUn false false false (.vclz g) r

def decRow7 (r : Raw) (g : Guard) : Dec :=
  match r.op.toNat with
  | 0x70 => decFBin (.fadd g) r
  | 0x71 => decFBin (.fsub g) r
  | 0x72 => decFBin (.fmul g) r
  | 0x73 => decFBin (.ffma g) r
  | 0x74 => decFPair (.fmin g) r
  | 0x75 => decFPair (.fmax g) r
  | 0x76 => decFSgn g r
  | 0x77 => decFBin (.fdiv g r.la) r
  | 0x78 => decFUn false true (.fsqrt g r.la) r
  | 0x79 => decFUn true true (.frcp g r.la) r
  | 0x7A => decFUn false true (.frsq g r.la) r
  | 0x7B => decFUn true false (.fexp2 g r.la) r
  | 0x7C => decFUn false false (.flog2 g r.la) r
  | 0x7D => decFTrig g r.la r
  | 0x7E => decFCmp g r
  | _ => decFClass g r

def decRow9 (r : Raw) (g : Guard) : Dec :=
  match r.op.toNat with
  | 0x90 => decCvt g r
  | 0x91 => decQnt g r
  | 0x92 => decDqnt g r
  | 0x93 => decAmax g r.la r
  | 0x94 => decVPerm g r.la r
  | 0x95 => decVRot g r
  | 0x96 => decVScan g r.la r
  | 0x97 => decVRdc g r.la r
  | 0x98 => decVConf g r
  | _ => decVElect g r

def decRowA (r : Raw) (g : Guard) : Dec :=
  match r.op.toNat with
  | 0xA0 => decMem (.ld g r.la) r
  | 0xA1 => decMem (.st g) r
  | 0xA2 => decAtom g r.la r
  | _ => decSgen g r

def decRowB (r : Raw) (g : Guard) : Dec :=
  match r.op.toNat with
  | 0xB0 => decXfer g r
  | 0xB1 => decXchain g r
  | 0xB2 => decWait g r
  | 0xB3 => decBari g r
  | 0xB4 => decBara g r
  | 0xB5 => decBarw g r
  | _ => decSyncw g r

def decRowC (r : Raw) (g : Guard) : Dec :=
  match r.op.toNat with
  | 0xC0 => decMma g r
  | 0xC1 => decMmas g r
  | 0xC2 => decMmab g r
  | 0xC3 => decScacc g r
  | 0xC4 => decZmov g r.la r
  | 0xC5 => decZclr g r
  | 0xC6 => decXsect g r.la r
  | 0xC7 => decSpx g r
  | _ => decXform g r

def decRowD (r : Raw) (g : Guard) : Dec :=
  match r.op.toNat with
  | 0xD0 => decMjoin g r
  | 0xD1 => decMeet g r
  | 0xD2 => decMwait g r
  | 0xD3 => decMqry g r
  | 0xD4 => decRdcn g r
  | _ => decRdget g r

def decRowEF (r : Raw) (g : Guard) : Dec :=
  match r.op.toNat with
  | 0xE0 => if g = .always then decRsamp r else .ill 4
  | 0xE1 => decRng g r.la r
  | 0xE2 => decReord g r
  | 0xE3 => decLaunch g r
  | 0xE4 => decLwait g r
  | 0xF0 => decTrap g r
  | 0xF1 => decSvc g r
  | 0xF2 => decRdsr g r
  | 0xF3 => decWrsr g r
  | _ => decYield g r

def decOp (r : Raw) (g : Guard) : Dec :=
  match (r.op.extractLsb' 4 4).toNat with
  | 0x0 => decRow0 r g
  | 0x1 => decRow1 r g
  | 0x2 => decRow2 r g
  | 0x3 => decRow3 r g
  | 0x4 => decRow4 r g
  | 0x5 => decRow5 r g
  | 0x7 => decRow7 r g
  | 0x9 => decRow9 r g
  | 0xA => decRowA r g
  | 0xB => decRowB r g
  | 0xC => decRowC r g
  | 0xD => decRowD r g
  | _ => decRowEF r g

/-- Table 3-4: the permitted values of L; that of ZMOV follows from its direction (Table 14-10). -/
def lOk (op : Nat) (dir : BitVec 2) (l : BitVec 1) : Bool :=
  if op = 0xC4 then l == dir.extractLsb' 1 1
  else if op ∈ [0x20, 0x21, 0x22, 0x24, 0x25, 0x28, 0xC0, 0xC1, 0xC2, 0xC7, 0xC3, 0xA2] then l == 1#1
  else if op ∈ [0xC8, 0x12, 0xA0, 0xA1] then true
  else l == 0#1

/-- Table 3-4: the long-latency class. -/
def longLatencyOp (op : Nat) : Bool :=
  decide (op ∈ [0x05, 0x06, 0x45, 0x46, 0x77, 0x78, 0x79, 0x7A, 0x7B, 0x7C, 0x7D, 0x93, 0x94, 0x96, 0x97, 0xA0, 0xA2,
    0xC4, 0xC6, 0xE1])

/-- R78 step 2: reasons 1 to 7 in order. Reason 1 has a row of its own in the opcode table, UNASSIGNED_OPCODE. -/
def decodeRaw (r : Raw) : Dec :=
  if opAssigned r.op.toNat then
    if lOk r.op.toNat (r.f.extractLsb' 0 2) r.l then
      if longLatencyOp r.op.toNat || r.la == 0#4 then
        match decG r.g with
        | some g => decOp r g
        | none => .ill 4
      else .ill 3
    else .ill 2
  else .ok (.unassignedOpcode r.word)

/-- Decode an instruction word and the word after it, which counts only when L = 1. -/
def decode (w ext : BitVec 64) : Dec := decodeRaw (Raw.ofWords w ext)

/-- R69: whether an extension word follows. -/
def hasExt (w : BitVec 64) : Bool := w.getLsbD 8

/-- The host's form: bit 0 is the least significant bit of the first word, and the extension word is bits [127:64]. -/
def decodeTableWord (_nbits w : Nat) : Option Instr :=
  match decode (BitVec.ofNat 64 w) (BitVec.ofNat 64 (w / 2 ^ 64)) with
  | .ok i => some i
  | .ill _ => none

/-! The encoder. -/

/-- A word without an extension word. -/
def rawOf (op : BitVec 8) (g : Guard) (f d a b : BitVec 11) : Raw := ⟨f, b, a, d, encG g, 0#4, 0#1, op, 0#64⟩
def Raw.withLa (r : Raw) (la : BitVec 4) : Raw := { r with la := la }
def Raw.withExt (r : Raw) (e : BitVec 64) : Raw := { r with l := 1#1, ext := e }

def encSBin (op : BitVec 8) (g : Guard) (o : SBin) : Raw :=
  rawOf op g (encArF ⟨0#3, o.sat, false, 0#2, encIntTy o.ty⟩) (encS o.d) (encSOp o.a) (encSOp o.b)
def encTy (t : BitVec 4) : BitVec 11 := 0#7 ++ t
def encSUn (op : BitVec 8) (g : Guard) (o : SUn) : Raw := rawOf op g (encTy (encIntTy o.ty)) (encS o.d) (encSOp o.a) 0#11
def encSBf (op : BitVec 8) (g : Guard) (o : SBfOp) : Raw :=
  rawOf op g (encTy (encIntTy o.ty)) (encS o.d) (encSOp o.a) (encS o.b)
def encSli (g : Guard) (o : SliOp) : Raw :=
  match o.v with
  | .short v => rawOf 0x12#8 g (encTy (encIntTy o.ty)) (encS o.d) (v.extractLsb' 0 11) (v.extractLsb' 11 11)
  | .long v => (rawOf 0x12#8 g (encTy (encIntTy o.ty)) (encS o.d) 0#11 0#11).withExt v
def encLo (x : BitVec 32) : BitVec 64 := 0#32 ++ x
def encBrc (g : Guard) (o : BrcOp) : Raw :=
  let (c, w, a, b) := match o.test with
    | .cmp c w a b => (encBrCmp c, w, encSOp a, encSOp b)
    | .anyS n w i => (if n then 7#3 else 6#3, w, encS i, 0#11)
    | .anyP n i => (if n then 7#3 else 6#3, false, encP i, 0#11)
  (rawOf 0x21#8 g (0#7 ++ b1 w ++ c) 0#11 a b).withExt (encLo o.off)
def encPmov (g : Guard) : PmovOp → Raw
  | .pp d a => rawOf 0x31#8 g 0#11 (encP d) (encP a) 0#11
  | .ps d a => rawOf 0x31#8 g 0#11 (encP d) (encS a) 0#11
  | .pi d v => rawOf 0x31#8 g 0#11 (encP d) (encI (0#8 ++ b1 v)) 0#11
  | .sp d a => rawOf 0x31#8 g 0#11 (encS d) (encP a) 0#11
def encPder (g : Guard) (o : PderOp) : Raw :=
  let (mode, b) := match o.src with
    | .quad i => (0#2, encS i)
    | .tail x => (1#2, encSOp x)
  let (on, fm) := match o.fmt with
    | none => (false, 0#6)
    | some f => (true, f)
  rawOf 0x34#8 g (0#2 ++ mode ++ b1 on ++ fm) (encA o.d) (encA o.a) b
def encWiden (g : Guard) (o : WidenOp) : Raw :=
  let (on, c) := match o.cls with
    | none => (false, 0#2)
    | some c => (true, c)
  rawOf 0x37#8 g (0#5 ++ c ++ b1 on ++ o.scp) (encA o.d) (encA o.a) 0#11
def encVBin (op : BitVec 8) (g : Guard) (o : VBin) : Raw :=
  rawOf op g (encArF ⟨0#3, o.sat, o.b.isSc, 0#2, encIntTy o.ty⟩) o.d o.a (encVB o.b)
def encVUn (op : BitVec 8) (g : Guard) (o : VUn) : Raw :=
  rawOf op g (encArF ⟨0#3, o.sat, false, 0#2, encIntTy o.ty⟩) o.d o.a 0#11
def encFBin (op : BitVec 8) (g : Guard) (o : FBin) : Raw :=
  rawOf op g (encArF ⟨0#3, o.sat, o.b.isSc, encRnd o.rnd, encFTy o.ty⟩) o.d o.a (encVB o.b)
def encFPair (op : BitVec 8) (g : Guard) (o : FPair) : Raw :=
  rawOf op g (encArF ⟨0#3, false, o.b.isSc, 0#2, encFTy o.ty⟩) o.d o.a (encVB o.b)
def encFUn (op : BitVec 8) (g : Guard) (o : FUn) : Raw :=
  rawOf op g (encArF ⟨0#3, o.sat, false, encRnd o.rnd, encFTy o.ty⟩) o.d o.a 0#11
def encAmax (g : Guard) : AmaxOp → Raw
  | .lanes t d a => rawOf 0x93#8 g (encTy (encFTy t)) (encS d) a 0#11
  | .row d z => rawOf 0x93#8 g 0x104#11 d (encTile z) 0#11
  | .tile d z => rawOf 0x93#8 g 0x204#11 (encS d) (encTile z) 0#11
def encMem (op : BitVec 8) (g : Guard) (o : MemOp) : Raw :=
  let r := rawOf op g (b1 o.data.uniform ++ b1 o.off.isStream ++ encRsf o.rsf ++ o.ptr) (encMData o.data)
    (encMOffA o.off) (encMOffB o.off)
  match o.ext with
  | none => r
  | some e => r.withExt (0#16 ++ e)
def encAtom (g : Guard) (o : AtomOp) : Raw :=
  (rawOf 0xA2#8 g (0#1 ++ b1 o.off.isStream ++ encRsf o.rsf ++ o.ptr) (encAtomK o.op ++ b1 o.wide ++ o.vb)
    (encMOffA o.off) (encMOffB o.off)).withExt (0#16 ++ o.ext)
def encMma (g : Guard) (o : MmaOp) : Raw :=
  let (on, b) := match o.zp with
    | none => (false, 0#11)
    | some s => (true, encS s)
  (rawOf 0xC0#8 g (0#4 ++ b1 on ++ b1 o.clr ++ b1 o.reuse ++ encMFmt o.fmt) 0#11 o.a b).withExt
    (encMx o.boff o.ptr 0#4 o.z)
def encMmas (g : Guard) (o : MmasOp) : Raw :=
  (rawOf 0xC1#8 g (0#5 ++ b1 o.clr ++ b1 o.reuse ++ encMFmt o.fmt) 0#11 o.a (encS o.hdr)).withExt
    (encMx o.boff o.ptr 0#4 o.z)
def encMmab (g : Guard) (o : MmabOp) : Raw :=
  (rawOf 0xC2#8 g (o.n1 ++ o.stream ++ b1 o.clr ++ b1 o.reuse ++ encMFmt o.fmt) 0#11 o.a (encSOp o.win)).withExt
    (encMx o.boff o.ptr 0#4 o.z)
def encScacc (g : Guard) (o : ScaccOp) : Raw :=
  (rawOf 0xC3#8 g (0#5 ++ b1 o.clr ++ b1 o.clrp ++ encGrain o.grain ++ o.n1) 0#11 o.a 0#11).withExt
    (encMx o.boff o.ptr o.zp o.z)
def encSpx (g : Guard) (o : SpxOp) : Raw :=
  (rawOf 0xC7#8 g (0#5 ++ b1 o.clr ++ 0#5) 0#11 0#11 0#11).withExt (0#28 ++ o.xoff ++ o.ax ++ o.coff ++ o.ac ++ 0#4 ++ o.z)
def encXform (inv : Bool) (g : Guard) (o : XformOp) : Raw :=
  let r := rawOf 0xC8#8 g (0#10 ++ b1 inv) 0#11 (encA o.ptr) (encSOp o.b)
  match o.ext with
  | none => r
  | some e => r.withExt (encLo e)
def encAmaxS : Option (BitVec 9) → BitVec 11
  | none => 0#11
  | some s => encS s
def encZmovF (dir : BitVec 2) (cv : BitVec 2) (on : Bool) (z : BitVec 4) : BitVec 11 := 0#2 ++ b1 on ++ cv ++ z ++ dir
def encZmovM (dir : BitVec 2) (g : Guard) (o : ZmovMOp) : Raw :=
  (rawOf 0xC4#8 g (encZmovF dir 0#2 o.amax.isSome o.z) 0#11 (encA o.ptr) (encAmaxS o.amax)).withExt (0#55 ++ o.off)
def encSvc (n : BitVec 11) (g : Guard) (o : SvcOp) : Raw := rawOf 0xF1#8 g n (encS o.d) (encSOp o.a) 0#11
def encRdsrD : RdsrDest → BitVec 11
  | .v n => n
  | .s i => encS i

/-- The word and extension word of an instruction of programs; none for a step of the part. -/
def encodeRaw : Instr → Option Raw
  | .nop g => some (rawOf 0x00#8 g 0#11 0#11 0#11 0#11)
  | .unassignedOpcode w => some (Raw.ofWords w 0#64)
  | .sadd g o => some (encSBin 0x01#8 g o)
  | .ssub g o => some (encSBin 0x02#8 g o)
  | .smul g o => some (encSBin 0x03#8 g o)
  | .smulh g o => some (encSBin 0x04#8 g o)
  | .sdiv g la o => some ((encSBin 0x05#8 g o).withLa la)
  | .srem g la o => some ((encSBin 0x06#8 g o).withLa la)
  | .sand g o => some (encSBin 0x07#8 g o)
  | .sor g o => some (encSBin 0x08#8 g o)
  | .sxor g o => some (encSBin 0x09#8 g o)
  | .sshl g o => some (encSBin 0x0A#8 g o)
  | .sshr g o => some (encSBin 0x0B#8 g o)
  | .ssra g o => some (encSBin 0x0C#8 g o)
  | .smin g o => some (encSBin 0x0D#8 g o)
  | .smax g o => some (encSBin 0x0E#8 g o)
  | .scmp g o =>
    some (rawOf 0x0F#8 g (encArF ⟨encCmp o.cond, false, false, 0#2, encIntTy o.ty⟩) (encS o.d) (encSOp o.a) (encSOp o.b))
  | .ssel g o => some (encSBin 0x10#8 g o)
  | .smov g o => some (encSUn 0x11#8 g o)
  | .sli g o => some (encSli g o)
  | .sbfx g o => some (encSBf 0x13#8 g o)
  | .sbfi g o => some (encSBf 0x14#8 g o)
  | .spopc g o => some (rawOf 0x15#8 g (encTy (encIntTy o.ty)) (encS o.d) (encSPOp o.a) 0#11)
  | .sclz g o => some (encSUn 0x16#8 g o)
  | .br g off => some ((rawOf 0x20#8 g 0#11 0#11 0#11 0#11).withExt (encLo off))
  | .brc g o => some (encBrc g o)
  | .brv g o => some ((rawOf 0x22#8 g 0#11 0#11 0#11 0#11).withExt (o.join ++ o.off))
  | .join => some (rawOf 0x23#8 .always 0#11 0#11 0#11 0#11)
  | .jtab g o => some ((rawOf 0x24#8 g 0#11 0#11 o.a (encA o.ptr)).withExt (encLo o.join))
  | .call g o => some ((rawOf 0x25#8 g (0#3 ++ o.slide) 0#11 0#11 0#11).withExt (encLo o.off))
  | .callInd g o => some ((rawOf 0x25#8 g (0#2 ++ 1#1 ++ o.slide) 0#11 (encS o.a) 0#11).withExt 0#64)
  | .ret g => some (rawOf 0x26#8 g 0#11 0#11 0#11 0#11)
  | .exit g => some (rawOf 0x27#8 g 0#11 0#11 0#11 0#11)
  | .loop g o => some ((rawOf 0x28#8 g 0#11 0#11 (encS o.a) 0#11).withExt (encLo o.off))
  | .plog g o => some (rawOf 0x30#8 g (0#7 ++ o.tt) (encP o.d) (encP o.a) (encP o.b))
  | .pmov g o => some (encPmov g o)
  | .pred g o => some (rawOf 0x32#8 g (encPredK o.op ++ 0#8) (encS o.d) (encP o.a) 0#11)
  | .pder g o => some (encPder g o)
  | .pclass g o => some (rawOf 0x35#8 g (0#9 ++ o.cls) (encA o.d) (encA o.a) 0#11)
  | .narrow g o => some (rawOf 0x36#8 g (0#8 ++ o.scp) (encA o.d) (encA o.a) 0#11)
  | .widen g o => some (encWiden g o)
  | .pqry g o => some (rawOf 0x38#8 g (0#7 ++ o.fld) (encS o.d) (encA o.a) 0#11)
  | .alloc g o => some (rawOf 0x39#8 g (0#5 ++ o.fmt) (encA o.d) (encA o.a) (encSOp o.b))
  | .vadd g o => some (encVBin 0x40#8 g o)
  | .vsub g o => some (encVBin 0x41#8 g o)
  | .vmul g o => some (encVBin 0x42#8 g o)
  | .vmulh g o => some (encVBin 0x43#8 g o)
  | .vmad g o => some (encVBin 0x44#8 g o)
  | .vdiv g la o => some ((encVBin 0x45#8 g o).withLa la)
  | .vrem g la o => some ((encVBin 0x46#8 g o).withLa la)
  | .vand g o => some (encVBin 0x47#8 g o)
  | .vor g o => some (encVBin 0x48#8 g o)
  | .vxor g o => some (encVBin 0x49#8 g o)
  | .vshl g o => some (encVBin 0x4A#8 g o)
  | .vshr g o => some (encVBin 0x4B#8 g o)
  | .vsra g o => some (encVBin 0x4C#8 g o)
  | .vmin g o => some (encVBin 0x4D#8 g o)
  | .vmax g o => some (encVBin 0x4E#8 g o)
  | .vabs g o => some (encVUn 0x4F#8 g o)
  | .vcmp g o =>
    some (rawOf 0x50#8 g (encArF ⟨encCmp o.cond, false, o.b.isSc, 0#2, encIntTy o.ty⟩) (encP o.d) o.a (encVB o.b))
  | .vsel g o => some (encVBin 0x51#8 g o)
  | .vmov g o => some (rawOf 0x52#8 g (encTy (encATy o.ty)) o.d o.a 0#11)
  | .vbcast g o => some (rawOf 0x53#8 g (encTy (encATy o.ty)) o.d (encSOp o.a) 0#11)
  | .vbfx g o =>
    some (rawOf 0x54#8 g (encArF ⟨0#3, false, o.b.isSc, 0#2, encIntTy o.ty⟩) o.d o.a (encVSrc o.b))
  | .vpopc g o => some (encVUn 0x55#8 g o)
  | .vclz g o => some (encVUn 0x56#8 g o)
  | .fadd g o => some (encFBin 0x70#8 g o)
  | .fsub g o => some (encFBin 0x71#8 g o)
  | .fmul g o => some (encFBin 0x72#8 g o)
  | .ffma g o => some (encFBin 0x73#8 g o)
  | .fmin g o => some (encFPair 0x74#8 g o)
  | .fmax g o => some (encFPair 0x75#8 g o)
  | .fsgn g o =>
    some (rawOf 0x76#8 g (encArF ⟨encSgn o.op, false, o.b.isSc, 0#2, encFTy o.ty⟩) o.d o.a (encVB o.b))
  | .fdiv g la o => some ((encFBin 0x77#8 g o).withLa la)
  | .fsqrt g la o => some ((encFUn 0x78#8 g o).withLa la)
  | .frcp g la o => some ((encFUn 0x79#8 g o).withLa la)
  | .frsq g la o => some ((encFUn 0x7A#8 g o).withLa la)
  | .fexp2 g la o => some ((encFUn 0x7B#8 g o).withLa la)
  | .flog2 g la o => some ((encFUn 0x7C#8 g o).withLa la)
  | .ftrig g la o =>
    some ((rawOf 0x7D#8 g (encArF ⟨0#2 ++ b1 o.cosine, false, false, encRnd o.rnd, encFTy o.ty⟩) o.d o.a 0#11).withLa la)
  | .fcmp g o =>
    some (rawOf 0x7E#8 g (encArF ⟨encFCond o.cond, false, o.b.isSc, 0#2, encFTy o.ty⟩) (encP o.d) o.a (encVB o.b))
  | .fclass g o => some (rawOf 0x7F#8 g (encTy (encFTy o.ty)) o.d o.a 0#11)
  | .cvt g o =>
    some (rawOf 0x90#8 g (encArF ⟨0#3, o.sat, false, encRnd o.rnd, encATy o.dst⟩) o.d o.a (encTy (encATy o.src)))
  | .qnt g o =>
    some (rawOf 0x91#8 g (encArF ⟨encQCode o.dst, o.sat, o.b.isSc, encRnd o.rnd, encFTy o.src⟩) o.d o.a (encVB o.b))
  | .dqnt g o => some (rawOf 0x92#8 g (encArF ⟨encQCode o.src, false, o.b.isSc, 0#2, 4#4⟩) o.d o.a (encVB o.b))
  | .amax g la o => some ((encAmax g o).withLa la)
  | .vperm g la o =>
    some ((rawOf 0x94#8 g (encArF ⟨0#3, false, o.b.isSc, 0#2, encATy o.ty⟩) o.d o.a (encVB o.b)).withLa la)
  | .vrot g o =>
    some (rawOf 0x95#8 g (encArF ⟨0#2 ++ b1 o.shift, false, true, 0#2, encATy o.ty⟩) o.d o.a (encSOp o.b))
  | .vscan g la o =>
    some ((rawOf 0x96#8 g (encArF ⟨encRdcK o.op, o.sat, o.excl, encRnd o.rnd, encATy o.ty⟩) o.d o.a 0#11).withLa la)
  | .vrdc g la o =>
    some ((rawOf 0x97#8 g (encArF ⟨encRdcK o.op, o.sat, false, encRnd o.rnd, encATy o.ty⟩) (encS o.d) o.a 0#11).withLa la)
  | .vconf g o => some (rawOf 0x98#8 g (if o.wide then 3#11 else 1#11) (encP o.d) o.a 0#11)
  | .velect g o => some (rawOf 0x99#8 g (if o.wide then 3#11 else 1#11) o.d o.a 0#11)
  | .ld g la o => some ((encMem 0xA0#8 g o).withLa la)
  | .st g o => some (encMem 0xA1#8 g o)
  | .atom g la o => some ((encAtom g o).withLa la)
  | .sgen g o => some (rawOf 0xA3#8 g (0#4 ++ o.k ++ o.ptr) 0#11 (encSOp o.a) 0#11)
  | .xfer g o => some (rawOf 0xB0#8 g 0#11 (encA o.d) (encA o.a) (encS o.b))
  | .xchain g o => some (rawOf 0xB1#8 g (0#9 ++ o.ch) 0#11 (encS o.a) 0#11)
  | .wait g o => some (rawOf 0xB2#8 g (0#9 ++ o.cls) 0#11 (encSOp o.a) 0#11)
  | .bari g o => some (rawOf 0xB3#8 g (0#7 ++ o.b) 0#11 (encSOp o.a) 0#11)
  | .bara g b => some (rawOf 0xB4#8 g (0#7 ++ b) 0#11 0#11 0#11)
  | .barw g o => some (rawOf 0xB5#8 g (0#6 ++ b1 o.arrive ++ o.b) 0#11 0#11 0#11)
  | .syncw g o => some (rawOf 0xB6#8 g 0#11 (encS o.d) (encA o.a) (encSOp o.b))
  | .mma g o => some (encMma g o)
  | .mmas g o => some (encMmas g o)
  | .mmab g o => some (encMmab g o)
  | .scacc g o => some (encScacc g o)
  | .zmovZ2v g la o => some ((rawOf 0xC4#8 g (encZmovF 0#2 o.cv o.amax.isSome o.z) o.v 0#11 (encAmaxS o.amax)).withLa la)
  | .zmovV2z g la o => some ((rawOf 0xC4#8 g (encZmovF 1#2 o.cv o.amax.isSome o.z) 0#11 o.v (encAmaxS o.amax)).withLa la)
  | .zmovZ2m g la o => some ((encZmovM 2#2 g o).withLa la)
  | .zmovM2z g la o => some ((encZmovM 3#2 g o).withLa la)
  | .zclr g o => some (rawOf 0xC5#8 g (0#5 ++ encKind o.kind ++ o.z) 0#11 0#11 0#11)
  | .xsect g la o => some ((rawOf 0xC6#8 g (0#7 ++ o.k ++ o.j) o.d 0#11 0#11).withLa la)
  | .spx g o => some (encSpx g o)
  | .xformFwd g o => some (encXform false g o)
  | .xformInv g o => some (encXform true g o)
  | .mjoin g o => some (rawOf 0xD0#8 g 0#11 (encS o.d) (encA o.a) (encSOp o.b))
  | .meet g o => some (rawOf 0xD1#8 g 0#11 o.d (encA o.a) (encS o.b))
  | .mwait g o => some (rawOf 0xD2#8 g 0#11 o.d (encA o.a) (encS o.b))
  | .mqry g o => some (rawOf 0xD3#8 g (0#7 ++ o.fld) (encS o.d) (encA o.a) 0#11)
  | .rdcn g o => some (rawOf 0xD4#8 g (encRd o.ty o.op o.m1) o.d (encS o.a) 0#11)
  | .rdget g o => some (rawOf 0xD5#8 g (encRd o.ty o.op o.m1) o.d (encS o.a) (encS o.b))
  | .rsamp o => some (rawOf 0xE0#8 .always 0#11 o.d o.a (encSOp o.b))
  | .rng g la o => some ((rawOf 0xE1#8 g 0#11 o.d (encS o.a) (encS o.b)).withLa la)
  | .reord g o => some (rawOf 0xE2#8 g (0#8 ++ o.p) o.d o.a 0#11)
  | .launch g o => some (rawOf 0xE3#8 g 0#11 (encS o.d) (encA o.a) 0#11)
  | .lwait g o => some (rawOf 0xE4#8 g 0#11 (encS o.d) (encSOp o.a) 0#11)
  | .trap g a => some (rawOf 0xF0#8 g 0#11 0#11 (encSOp a) 0#11)
  | .svcProbe g o => some (encSvc 0#11 g o)
  | .svcLock g o => some (encSvc 1#11 g o)
  | .svcUnlock g o => some (encSvc 2#11 g o)
  | .svcTrylock g o => some (encSvc 3#11 g o)
  | .svcLog g o => some (encSvc 4#11 g o)
  | .rdsr g o => some (rawOf 0xF2#8 g (0#3 ++ o.num) (encRdsrD o.d) 0#11 0#11)
  | .wrsr g o => some (rawOf 0xF3#8 g (0#3 ++ o.num) 0#11 (encS o.a) 0#11)
  | .yield g d => some (rawOf 0xF4#8 g 0#11 (encS d) 0#11 0#11)
  | _ => none

/-- The words of an instruction, the instruction word first. -/
def encode (i : Instr) : List (BitVec 64) :=
  match encodeRaw i with
  | none => []
  | some r => if r.l = 1#1 then (match i with | .unassignedOpcode w => [w] | _ => [r.word, r.ext]) else [r.word]

end Sys2Proof
end

