-- ==== Sys2Proof/Machine/Fetch.lean ====
section
/-! DEFINITION. The slots that hold strands, and the fetch of an instruction (R40, R69, R70, R445). -/

namespace Sys2Proof.Machine

/-- The slots that hold a strand of a resident group. -/
def State.slots (s : State) : List (Nat × Nat) :=
  s.groups.flatMap fun g =>
    if g.resident && !g.retired then
      (if g.slot0.strand.isSome then [(g.gid, 0)] else []) ++ (if g.slot1.strand.isSome then [(g.gid, 1)] else [])
    else []

/-- What a fetch gives. -/
inductive Fetched where
  | words (w ext : W64)
  | miss (va : Nat)
  | bad (va reason : Nat)
  deriving DecidableEq, Repr

/-- One instruction word at a virtual address, from its home: of a word that was written there after the team started, R445 leaves open
whether the old or the new value is fetched, and the value fetched is always the new one. (DESIGN CHOICE, unsafe: log entry 19.) -/
def State.fetchWord (s : State) (c : Ctx) (dom va : Nat) : Fetched :=
  match s.xlateFetch c dom va with
  | .miss v _ => .miss v
  | .bad v r => .bad v r
  | .ok pa =>
    if s.poisoned (pa / 4) || s.poisoned (pa / 4 + 1) then .bad va 6
    else .words (BitVec.ofNat 64 (leNat (s.mem.bytes c.aesKey pa 8))) 0

/-- R69: the word at the program counter and, if its L is 1, its extension word. -/
def State.fetch (s : State) (g : Group) (pc : W64) : Fetched :=
  let c := (s.ctxOf g).getD emptyCtx
  let dom := Config.memDomain s.boot.sku (s.dieNum g.core)
  match s.fetchWord c dom pc.toNat with
  | .words w _ =>
    if hasExt w then
      match s.fetchWord c dom (pc + 8).toNat with
      | .words e _ => .words w e
      | e => e
    else .words w 0
  | e => e

end Sys2Proof.Machine
end

