-- ==== Sys2Proof/Machine/Schedule.lean ====
section
/-! DEFINITION. Which slot issues (R65, R115, R116, R125): ready slots, their waits, the idle counts of the engine classes, the two
issue places of a core's cycle, and the issue itself. Which core is next is data: that of the environment's pick, else the cores in turn;
which of its slots issues follows R116. (DESIGN CHOICE, safe: log entry 1.) -/

namespace Sys2Proof.Machine

/-- Table 4-2: the engine class of an instruction; none is the scalar unit. -/
inductive EngClass where
  | vector | special | memory | matrix | copy
  deriving DecidableEq, Repr
def engClass (i : Instr) : Option EngClass :=
  match i with
  | .vdiv .. | .vrem .. | .fdiv .. | .fsqrt .. | .frcp .. | .frsq .. | .fexp2 .. | .flog2 .. | .ftrig .. => some .special
  | .vadd .. | .vsub .. | .vmul .. | .vmulh .. | .vmad .. | .vand .. | .vor .. | .vxor .. | .vshl .. | .vshr .. | .vsra .. | .vmin ..
  | .vmax .. | .vabs .. | .vcmp .. | .vsel .. | .vmov .. | .vbcast .. | .vbfx .. | .vpopc .. | .vclz .. | .fadd .. | .fsub ..
  | .fmul .. | .ffma .. | .fmin .. | .fmax .. | .fsgn .. | .fcmp .. | .fclass .. | .cvt .. | .qnt .. | .dqnt .. | .amax ..
  | .vperm .. | .vrot .. | .vscan .. | .vrdc .. | .vconf .. | .velect .. | .rng .. => some .vector
  | .ld .. | .st .. | .atom .. | .sgen .. | .xsect .. => some .memory
  | .mma .. | .mmas .. | .mmab .. | .scacc .. | .zmovZ2v .. | .zmovV2z .. | .zmovZ2m .. | .zmovM2z .. | .zclr .. | .spx ..
  | .xformFwd .. | .xformInv .. => some .matrix
  | .xfer .. | .xchain .. => some .copy
  | _ => none
/-- The place of a class in the idle counts of a core. -/
def EngClass.pos (c : EngClass) : Nat :=
  match c with
  | .vector => 0 | .special => 1 | .memory => 2 | .matrix => 3 | .copy => 4

/-- The instruction at the program counter of a slot, if its words can be fetched and are one. -/
def State.nextInstr (s : State) (gid k : Nat) : Option Instr :=
  (s.group? gid).bind fun g =>
    match s.fetch g (g.pc k) with
    | .words w e => (match Sys2Proof.decode w e with
      | .ok i => some i
      | .ill _ => none)
    | _ => none

/-- The slot is about to issue: its waits are marked, so that an instruction which issues, and so ends them, can be told. -/
def State.probe (s : State) (gid k : Nat) : State :=
  let s := s.updGroup gid fun g => g.setSlot k { g.slot k with waits := 1 }
  { s with run := { s.run with cur := some (gid, k) } }
/-- Whether an instruction of a slot issues now (R115): its meaning ends the slot's waits, as taking a trap does. -/
def State.issues (s : State) (gid k : Nat) (i : Instr) : Bool :=
  match exec i (s.probe gid k) with
  | .next t => !((t.group? gid).any fun g => (g.slot k).waits == 1)
  | _ => false
/-- R115: whether a slot is ready. -/
def State.ready (s : State) (gid k : Nat) : Bool :=
  (s.group? gid).any fun g => (g.slot k).strand.isSome && (g.slot k).park.isNone &&
    (match s.fetch g (g.pc k) with
     | .miss _ => false
     | .bad _ _ => true
     | .words w e => (match Sys2Proof.decode w e with
       | .ill _ => true
       | .ok i => s.issues gid k i))

/-- R125: the core's counter advances, by a free value. -/
def advanceCycles (cs : List (Nat × W64)) (core n : Nat) : List (Nat × W64) :=
  match cs with
  | [] => [(core, BitVec.ofNat 64 n)]
  | (c, v) :: rest => if c = core then (c, v + BitVec.ofNat 64 n) :: rest else (c, v) :: advanceCycles rest core n

/-- R116: the idle counts of a core. -/
def State.idleOf (s : State) (core : Nat) : List Nat := (kvGet s.idle core).getD [0, 0, 0, 0, 0]
/-- The place of the class of a slot's next instruction, 5 for none. -/
def State.classPos (s : State) (gid k : Nat) : Nat := (((s.nextInstr gid k).bind engClass).map EngClass.pos).getD 5

/-! ## The choice -/

/-- The slots of a core, in the order of the residency of their groups. -/
def State.coreSlots (s : State) (core : Nat) : List (Nat × Nat × Slot) :=
  s.groups.flatMap fun g =>
    if g.core = core ∧ g.resident ∧ g.retired = false then
      (if g.slot0.strand.isSome then [(g.gid, 0, g.slot0)] else []) ++
      (if g.slot1.strand.isSome then [(g.gid, 1, g.slot1)] else [])
    else []
/-- R115: the slots of a core that are ready. -/
def State.readySlots (s : State) (core : Nat) : List (Nat × Nat) :=
  ((s.coreSlots core).map fun x => (x.1, x.2.1)).filter fun x => s.ready x.1 x.2
/-- The first entry with the greatest key. -/
def greatest {α : Type} (key : α → Nat) (xs : List α) : Option α :=
  xs.foldl (fun best x => match best with
    | none => some x
    | some y => if key y < key x then some x else some y) none

/-- What has issued in the present cycle of a core. -/
def State.issued (s : State) (core : Nat) : List (Nat × Nat × Nat) := (kvGet s.placed core).getD []
/-- R115, R116: of the ready slots of a core those that may take its next place in this cycle: two instructions issue at most, of
different groups, and no two go to a class that has one instance (the special-function unit, load/store). -/
def State.mayIssue (s : State) (core : Nat) (ready : List (Nat × Nat)) : List (Nat × Nat × Slot) :=
  let done := s.issued core
  if 2 ≤ done.length then []
  else (s.coreSlots core).filter fun x => ready.contains (x.1, x.2.1) && done.all fun y =>
    y.1 != x.1 && !((y.2.2 == EngClass.special.pos || y.2.2 == EngClass.memory.pos) && s.classPos x.1 x.2.1 == y.2.2)
/-- R65, R116, rule 1: the slot that has waited 1,024 cycles or more, the longest first. -/
def guardDue (xs : List (Nat × Nat × Slot)) : Option (Nat × Nat) :=
  (greatest (·.2.2.waits) (xs.filter fun x => decide (1024 ≤ x.2.2.waits))).map fun x => (x.1, x.2.1)
/-- R116, rules 2 and 3: the slot whose class has been idle longest; among those, the one that became ready first with its present
instruction. -/
def State.engineChoice (s : State) (core : Nat) (xs : List (Nat × Nat × Slot)) : Option (Nat × Nat) :=
  let idle := s.idleOf core
  let rank (x : Nat × Nat × Slot) : Nat := idle.getD (s.classPos x.1 x.2.1) (idle.foldl max 0)
  let top := (xs.map rank).foldl max 0
  (greatest (·.2.2.age) (xs.filter fun x => rank x == top)).map fun x => (x.1, x.2.1)
/-- R116: the slot that takes the next place of a core. -/
def State.choice (s : State) (core : Nat) (ready : List (Nat × Nat)) : Option (Nat × Nat) :=
  let xs := s.mayIssue core ready
  (guardDue xs).orElse fun _ => s.engineChoice core xs

/-! ## The cycle -/

/-- Change the slots of a core. -/
def State.updSlots (s : State) (core : Nat) (f : Nat × Nat → Slot → Slot) : State :=
  { s with groups := s.groups.map fun g =>
    if g.core = core ∧ g.resident then { g with slot0 := f (g.gid, 0) g.slot0, slot1 := f (g.gid, 1) g.slot1 } else g }
/-- R116: a slot that is not ready has not become so with its present instruction. -/
def State.markReady (s : State) (core : Nat) (ready : List (Nat × Nat)) : State :=
  s.updSlots core fun x t => { t with age := if ready.contains x then t.age else 0 }
/-- R116: a cycle of a core ends: the ready slots that did not issue in it have waited and are older by it, and the idle counts of the
classes that took no instruction rise. -/
def State.endCycle (s : State) (core : Nat) (ready : List (Nat × Nat)) : State :=
  let done := s.issued core
  let s := s.updSlots core fun x t =>
    if ready.contains x && !(done.any fun y => (y.1, y.2.1) == x) then { t with waits := t.waits + 1, age := t.age + 1 } else t
  { s with
    idle := kvSet s.idle core ((s.idleOf core).zipIdx.map fun x => if done.any fun y => y.2.2 == x.2 then x.1 else x.1 + 1)
    placed := s.placed.filter fun x => x.1 != core }
/-- R116, R125: a slot takes a place of a core's cycle: the idle count of its class falls to 0, and time passes on the core. -/
def State.takePlace (s : State) (core gid k : Nat) : State :=
  let pos := s.classPos gid k
  let s := s.updSlots core fun x t => if x = (gid, k) then { t with age := 0 } else t
  { s with
    cycles := advanceCycles s.cycles core (Config.cyclesTaken s.run.free)
    idle := kvSet s.idle core ((s.idleOf core).zipIdx.map fun x => if x.2 = pos then 0 else x.1)
    placed := kvSet s.placed core (s.issued core ++ [(gid, k, pos)])
    run := { s.run with free := s.run.free + 1, turn := s.run.turn + 1 } }

/-! ## The issue -/

/-- Slot k of group gid tries the instruction at its program counter (Table 3-6, steps 1 and 2); one that is not ready does what its
stall lets it do. A slot that is parked on a page fault waits. -/
def State.trySlot (s : State) (gid k : Nat) : Out :=
  let s : State := { s with run := { s.run with cur := some (gid, k) } }
  match s.group? gid with
  | none => .fault .noIssuer
  | some g =>
    if (g.slot k).park.isSome then .next s
    else
      match s.fetch g (g.pc k) with
      | .miss va => .next (s.parkSlot g k va false (g.active k))
      | .bad va reason => .next (s.takeTrap gid (g.trapAt k cAccess reason (g.active k) va))
      | .words w e =>
        match Sys2Proof.decode w e with
        | .ill reason => .next (s.takeTrap gid (g.illegal k reason))
        | .ok i => exec i s

/-- R115, R116: the next place of a core is filled; where its cycle has no slot for it, a new cycle begins. -/
def State.issueOn (s : State) (core : Nat) : Out :=
  let ready := s.readySlots core
  let s := s.markReady core ready
  match s.choice core ready with
  | some (gid, k) => (s.takePlace core gid k).trySlot gid k
  | none =>
    let s := s.endCycle core ready
    match s.choice core ready with
    | some (gid, k) => (s.takePlace core gid k).trySlot gid k
    | none => .next s

/-- What follows a pick of the environment: a slot that is not ready is tried, and for one that is ready its core issues by R116. -/
def State.issuePick (s : State) (gid k : Nat) : Out :=
  let s : State := { s with run := { s.run with picks := s.run.picks.drop 1 } }
  if s.ready gid k then s.issueOn (((s.group? gid).map (·.core)).getD 0) else s.trySlot gid k

/-- R116: the cores on which a slot is due by the guard. -/
def State.starved (s : State) : List Nat :=
  (distinct (s.slots.filterMap fun x => (s.group? x.1).map (·.core))).filter fun c =>
    (s.coreSlots c).any fun x => decide (1024 ≤ x.2.2.waits) && s.ready x.1 x.2.1
/-- Without a pick, a slot that is not ready and whose trial changes the state: it parks, arrives at a barrier, or joins a queue. -/
def State.nextTrial (s : State) : Option (Nat × Nat) :=
  s.slots.find? fun x => !s.ready x.1 x.2 && (match s.trySlot x.1 x.2 with
    | .next t => t != { s with run := { s.run with cur := some x } }
    | _ => false)
/-- Without a pick, the core whose turn it is among those on which a slot is ready. -/
def State.nextCore (s : State) : Option Nat :=
  let cores := distinct ((s.slots.filter fun x => s.ready x.1 x.2).filterMap fun x => (s.group? x.1).map (·.core))
  cores[s.run.turn % cores.length]?

end Sys2Proof.Machine
end

