-- ==== Sys2Proof/Machine/Background.lean ====
section
/-! DEFINITION. The steps of the part that are due by themselves: those that need no time and no choice of the environment. The
default order takes the first that changes the state (DESIGN CHOICE, safe: log entry 1). Steps that a time-out, an error or the host sets off come
from the agenda alone. -/

namespace Sys2Proof.Machine

/-- Snoops, page faults and what waited on them. -/
def State.dueMemory (s : State) : List Instr :=
  s.mem.snoops.map (fun n => .snoopAnswer n.k) ++
  (s.mem.faults.filter fun f => !f.done).map (fun f => .pageFault f.k (s.defaultFrame f)) ++
  s.groups.flatMap fun g => g.flight.map fun f =>
    if f.parked.isSome then .replay g.gid f.fid else .longLatencyResult g.gid f.fid

/-- The engines and the routers. -/
def State.dueEngines (s : State) : List Instr :=
  s.groups.flatMap (fun g => (g.mq.filter (·.started)).map fun o => .matrixOpComplete g.gid o.id) ++
  (distinct ((s.groups.filter fun g => !g.mq.isEmpty).map fun g => g.core / 8)).map (fun c => .arrayTakeWork c) ++
  (s.groups.filter fun g => !g.mq.isEmpty).map (fun g => .transformStart g.gid) ++
  s.groups.flatMap (fun g => ((List.range 4).filter fun k => ((g.streams.getD k Stream.fresh).req).isSome).map fun k =>
    .streamRecordRead g.gid k) ++
  s.sys.copies.map (fun c => match c.body with
    | none => .copyRecordCheck c.cid
    | some r => if c.closed.isNone && c.chain && decide (c.moved + progressSpan < r.bytes) then .progressUpdate c.cid else .copyRecordComplete c.cid) ++
  s.sys.hostCopies.map (fun h => .packageCopyRequest h.slot h.record) ++
  s.sys.sent.map (fun e => match e.what with
    | .meet .. => .mereContribution e.id
    | .reduce .. => .routerContribution e.id) ++
  (List.range s.sys.meres.length).map (fun n => .mereUnbind n) ++
  (s.sys.chunks.filter fun k => k.st == .started).map fun k => .collectiveComplete k.grid k.chunk

/-- The distributor, pre-emption and the firmware. -/
def State.dueUnits (s : State) : List Instr :=
  (if s.boot.st == .verify then [.imageVerifyComplete] else []) ++
  s.sys.teams.flatMap (fun t => if t.runs.isEmpty then [] else t.cores.map fun c => .sluiceRelaunch t.tid c) ++
  (s.sys.grids.filter fun x => !x.arrivals.isEmpty).map (fun x => .resample x.id) ++
  (s.sys.saved.filter fun v => !v.saved).map (fun v =>
    .preEmptionSave v.grid (((s.grid? v.grid).map fun x => x.haltTeam v.unit).getD 0)) ++
  (s.sys.grids.filter fun x => s.gridOver x || s.gridCarries x).map (fun x => .completionEvent x.id) ++
  (if s.sys.grids.any fun x => x.st == .waiting then [.dependenceRecheck] else []) ++
  (s.sys.inlets.filter s.mayTake).map (fun i => .inletEntryTake i.n) ++
  (s.sys.saved.filter (·.saved)).map (fun v => .restore v.id []) ++
  s.sys.dies.map (fun d => .diePull d.num []) ++
  s.sys.ctxs.flatMap fun c => (c.locks.filter fun l => l.holder.isNone).flatMap fun l => l.queue.filterMap fun h =>
    match h with
    | .host n => some (.hostLockRequest c.slot ⟨n, l.n⟩ true)
    | .group .. => none

/-- Whether a step of the part changes the state. -/
def State.moves (s : State) (i : Instr) : Bool :=
  match exec i s with
  | .next t => t != s
  | _ => false

/-- The step that is due. -/
def State.nextEvent (s : State) : Option Instr :=
  match s.starved with
  | c :: _ => some (.issueGuard c)
  | [] => (s.dueMemory ++ s.dueEngines ++ s.dueUnits).find? s.moves

end Sys2Proof.Machine
end

