-- ==== Sys2Proof/Machine/Step.lean ====
section
/-! DEFINITION. One step of the part: the next entry of the agenda, else the pick of the environment, else a step of the engines, the
distributor or the firmware that is due, else what a slot that is not ready does while it waits, else an issue on the core whose turn it
is; with nothing to do the part is idle (DESIGN CHOICE, safe: log entry 1). -/

namespace Sys2Proof.Machine

def step (s : State) : Host.Outcome State Fault Refusal :=
  match s.run.agenda with
  | i :: rest => exec i { s with run := { s.run with agenda := rest, cur := none } }
  | [] =>
    match s.run.picks with
    | (gid, k) :: rest =>
      if s.slots.contains (gid, k) then s.issuePick gid k else .next { s with run := { s.run with picks := rest } }
    | [] =>
      match s.nextEvent with
      | some i => exec i { s with run := { s.run with cur := none } }
      | none =>
        match s.nextTrial with
        | some (gid, k) => s.trySlot gid k
        | none =>
          match s.nextCore with
          | some core => s.issueOn core
          | none => .next s

/-! ## Placing a program (DESIGN CHOICE, safe: log entry 16) -/

/-- The context, with a page of the program and the STACK region of one group mapped, and the group of 96 lanes that withFetchWord
loads when nothing can issue. -/
def loadedCtx : Ctx :=
  { emptyCtx with
    id := 1, keysErased := false, stackVa := 0x2000000, stackGroups := 1, stackUse := [(3, 0)], ended := false
    maps := ⟨0x10000, 0, 0x10000, .device, true, true, false⟩ ::
      (List.range 16).map fun i => ⟨0x2000000 + i * 0x200000, 0x2000000 + i * 0x200000, 0x200000, .device, true, false, false⟩ }
def loadedGroup : Group where
  gid := 3
  grid := 2
  tid := 4
  idx := 0
  core := 0
  resident := true
  launched := ~~~0#96
  live := ~~~0#96
  v := []
  s := []
  p := []
  a := []
  wbase := 0
  depth := 0
  slot0 := { Slot.empty with strand := some ⟨0x10000, ~~~0#96, ~~~0#96, none⟩ }
  slot1 := Slot.empty
  eddy := []
  lineage := []
  parent := []
  pslot := []
  tlane := SMap.ofFn 96 fun l => BitVec.ofNat 32 l
  flight := []
  cntCopy := 0
  cntMx := 0
  cntStream := 0
  cntColl := 0
  seen := [0, 0, 0, 0]
  latch := none
  tiles := []
  mq := []
  streams := [Stream.fresh, Stream.fresh, Stream.fresh, Stream.fresh]
  interval := 0
  retired := false
def loadedLaunch : LaunchRec where
  entry := 0x10000
  x := 1
  y := 1
  z := 1
  groups := 1
  lastLanes := 96
  window := 16
  tiles := 0
  cls := 0
  prio := 0
  affinity := 15
  race := 0
  flags := 0
  tarn := 0
  gang := 0
  done := 0
  dep := 0
  depVal := 0
  depth := 16
  rtClass := 0
  args := []
  sargs := []
  coll := 0
  chunk := 0
  resTile := 0
  thresh := 0
  key := 0
  popCap := 0
  portV := 0
  portS := 0
  reorder := 0
  childLimit := 0
def loadedGrid : Grid :=
  ⟨2, 1, loadedLaunch, 0, none, none, 0, 15, 0, .admitted, 1, [], 1, 0, none, none, 0, 96, 0, [], 0, [], true, none, 1, []⟩
def loadedTeam : Team := ⟨4, 2, 0, [0], [], List.replicate 16 Barrier.fresh, [], [], 0, [], true, false⟩

/-- A state in which a group can issue: s itself, or s with a program loaded. -/
def State.loaded (s : State) : State :=
  match s.slots with
  | _ :: _ => s
  | [] =>
    { s with
      groups := loadedGroup :: s.groups
      run := { s.run with nextId := s.run.nextId + 5 }
      sys := { s.sys with
        ctxs := loadedCtx :: s.sys.ctxs
        grids := loadedGrid :: s.sys.grids
        teams := loadedTeam :: s.sys.teams } }

/-- The slot has waited longest on its core, and the core's cycle has place for it: R116 lets it issue next. -/
def State.favour (s : State) (gid k : Nat) : State :=
  let s := s.updGroup gid fun g => g.setSlot k { g.slot k with
    waits := (s.groups.map fun g => max g.slot0.waits g.slot1.waits).foldl max 1023 + 1 }
  { s with placed := [], run := { s.run with agenda := [], picks := [(gid, k)] } }

/-- s with an instruction placed where step fetches next. -/
def State.withFetchWord (s : State) (_nbits w : Nat) : State :=
  let s := s.loaded
  match s.slots with
  | [] => s
  | (gid, k) :: _ =>
    match s.group? gid with
    | none => s
    | some g =>
      let c := (s.ctxOf g).getD emptyCtx
      let place (s : State) (va x : Nat) : State :=
        match s.xlateFetch c (Config.memDomain s.boot.sku (s.dieNum g.core)) va with
        | .ok pa => { s with mem := s.mem.setBytes c.aesKey pa (leBytes 8 x) }
        | _ => s
      let s := place s (g.pc k).toNat w
      let s := place s (g.pc k + 8).toNat (w / 2 ^ 64)
      s.favour gid k

end Sys2Proof.Machine
end

