-- ==== Sys2Proof/Safety.lean ====
section
/-! DEFINITION. What a safe run is, and the terms that the statements use: when a strand may issue, what an instruction leaves
alone, and what stands of a group afterwards. A trap of a program is no fault of the model: it ends the grid (R60) and the run
goes on. -/

namespace Sys2Proof

/-- One step answers a next state. -/
def Steps (s t : Machine.State) : Prop := Machine.step s = .next t

/-- k steps from s end in t. -/
def Runs (k : Nat) (s t : Machine.State) : Prop := core.run k s = .next t

/-- No run from s stops. -/
def Safe (s : Machine.State) : Prop := ∀ k, ∃ t, Runs k s t

namespace Machine

/-- The strand of slot k of group gid, which is g alone, is the one that issues; no lookahead window of the slot is open (R84), the
entries in flight are older than the next identity, nothing that i needs is pending or parked, and the guard lets i act. -/
structure Ready (s : State) (i : Instr) (gid k : Nat) (g : Group) : Prop where
  cur : s.run.cur = some (gid, k)
  present : s.group? gid = some g
  alone : ∀ h ∈ s.groups, h.gid = gid → h = g
  slot : k < 2
  strand : (g.slot k).strand.isSome
  quiet : ∀ f ∈ g.flight, f.slot = k → f.window = 0
  older : ∀ f ∈ g.flight, f.fid < s.run.nextId
  free : s.holds g k i = false
  acts : g.acts k i = true

/-- The strand of slot k of group gid, which is g alone, is the one that issues, and no lookahead window of the slot is open (R84). -/
structure Standing (s : State) (gid k : Nat) (g : Group) : Prop where
  cur : s.run.cur = some (gid, k)
  present : s.group? gid = some g
  alone : ∀ h ∈ s.groups, h.gid = gid → h = g
  slot : k < 2
  strand : (g.slot k).strand.isSome
  quiet : ∀ f ∈ g.flight, f.slot = k → f.window = 0

/-- Group g with slot k at another program counter: what an issue changes in the group besides its effect. -/
def Group.stepTo (g : Group) (k : Nat) (pc : W64) : Group :=
  g.setSlot k { g.slot k with
    strand := (g.slot k).strand.map fun t => { t with pc := pc }, arrived := false, barWait := none, lockWait := none, waits := 0 }

/-- t is s in which group gid is h, and everything outside that group is as it was. -/
structure OnlyGroup (s t : State) (gid : Nat) (h : Group) : Prop where
  group : t.group? gid = some h
  others : ∀ j, j ≠ gid → t.group? j = s.group? j
  boot : t.boot = s.boot
  sys : t.sys = s.sys
  mem : t.mem = s.mem
  cycles : t.cycles = s.cycles
  idle : t.idle = s.idle
  placed : t.placed = s.placed

/-- The lanes that i selects in slot k. -/
def Group.picked (g : Group) (k : Nat) (i : Instr) : LaneMask := g.select k (guardOf i)

/-- The instruction issues: the next state is s with the group that becomes h, moved on to the address pc, and nothing else; what acquires
have read stays from a release on (Group.noted; log entry 74). -/
def IssuesTo (i : Instr) (s : State) (k : Nat) (h : Group) (pc : W64) : Prop := exec i s = .next (s.setGroup ((h.noted i).stepTo k pc))

/-- The bits of a register or of a pair. -/
def bitsWide (wide : Bool) : Nat := if wide then 64 else 32

/-- h is g after lane results: the lanes of sel hold the values of f in name d (a pair when wide, R71), every other lane and
register is as it was, and the flags of the lanes are ORed into s3 (R206). -/
structure LanesSet (g h : Group) (d : BitVec 11) (wide : Bool) (sel : LaneMask) (f : Nat → Val) : Prop where
  value : ∀ l, l < 96 → sel.getLsbD l = true → h.vnum d wide l = (f l).1 % 2 ^ bitsWide wide
  kept : ∀ n l, l < 96 → ¬(sel.getLsbD l = true ∧ (n = g.absV d ∨ (wide = true ∧ n = g.absV d + 1))) → h.vAt n l = g.vAt n l
  flags : ∀ i, (SMap.get h.s 3).getLsbD i = true ↔
    (SMap.get g.s 3).getLsbD i = true ∨ ∃ l, l < 96 ∧ sel.getLsbD l = true ∧ (f l).2.getLsbD i = true
  scalars : ∀ i, i ≠ 3 → SMap.get h.s i = SMap.get g.s i
  rest : { h with v := g.v, s := g.s } = g

/-- h is g after a test of lanes: the lanes of sel hold f in predicate d, the other lanes keep their bits, and the flags of the
lanes are ORed into s3. -/
structure PredSet (g h : Group) (d : BitVec 6) (sel : LaneMask) (f : Nat → Bool × W8) : Prop where
  value : ∀ l, l < 96 → sel.getLsbD l = true → (h.getP d).getLsbD l = (f l).1
  others : ∀ l, sel.getLsbD l = false → (h.getP d).getLsbD l = (g.getP d).getLsbD l
  kept : ∀ i, i ≠ d → h.getP i = g.getP i
  flags : ∀ i, (SMap.get h.s 3).getLsbD i = true ↔
    (SMap.get g.s 3).getLsbD i = true ∨ ∃ l, l < 96 ∧ sel.getLsbD l = true ∧ (f l).2.getLsbD i = true
  scalars : ∀ i, i ≠ 3 → SMap.get h.s i = SMap.get g.s i
  rest : { h with p := g.p, s := g.s } = g

/-- h is g after a scalar result: v goes to sD (a pair when wide), and its flags are ORed into s3. -/
def ScalarSet (g h : Group) (k : Nat) (d : BitVec 9) (wide : Bool) (v : Val) : Prop :=
  h = (g.writeS k (swords d.toNat wide v.1)).orFlags v.2

/-- The entry of a result that the core computes: w is written to the destinations when it arrives (R83, R92). -/
def Group.owed (g : Group) (fid k : Nat) (la : BitVec 4) (dests : List Reg) (lanes : LaneMask) (w : Writes) : Flight :=
  ⟨fid, k, g.pc k, la.toNat, dests.filter pendable, lanes, g.active k, .ready w, none, none, false, none⟩

/-- The state with one identity taken. -/
def State.took (s : State) : State := { s with run := { s.run with nextId := s.run.nextId + 1 } }

/-- The instruction issues and its result is in flight: the destinations are pending, w arrives later, nothing else changes but
the program counter. -/
def IssuesLater (i : Instr) (s : State) (k : Nat) (g : Group) (la : BitVec 4) (dests : List Reg) (w : Writes) : Prop :=
  exec i s = .next (s.took.setGroup
    (({ g with flight := g.flight ++ [g.owed s.run.nextId k la dests (g.select k (guardOf i)) w] }).stepTo k (nextPc (g.pc k) i)))

/-- The address after instruction i of slot k. -/
def Group.after (g : Group) (k : Nat) (i : Instr) : W64 := nextPc (g.pc k) i

/-- Group h with slot k marked as having issued: what an issue changes besides an effect that has placed the strands itself. -/
def Group.rested (h : Group) (k : Nat) : Group :=
  h.setSlot k { h.slot k with arrived := false, barWait := none, lockWait := none, waits := 0 }

/-- The instruction issues and its effect has placed the strands: the next state is s with the group that becomes h, and nothing
else. -/
def IssuesInto (i : Instr) (s : State) (k : Nat) (h : Group) : Prop := exec i s = .next (s.setGroup ((h.noted i).rested k))

/-- The instruction issues over the state s1 that its effect leaves, in which the group becomes h, moved on to pc. -/
def IssuesOver (i : Instr) (s s1 : State) (k : Nat) (h : Group) (pc : W64) : Prop :=
  exec i s = .next (s1.setGroup ((h.noted i).stepTo k pc))

/-- The instruction is not ready: the step changes nothing. -/
def Waits (i : Instr) (s : State) : Prop := exec i s = .next s

/-- R313: the target of an offset in 8-byte units. -/
def Group.jump (g : Group) (k : Nat) (off : BitVec 32) : W64 := g.pc k + BitVec.ofInt 64 (8 * off.toInt)

/-- The instruction traps with t: the answer is the state that taking the trap leaves. -/
def Traps (i : Instr) (s : State) (gid : Nat) (t : Trap) : Prop := exec i s = .next (s.takeTrap gid t)

/-! ## Accesses -/

/-- R150, R151, R182: an access whose checks at issue pass for every lane, that waits for no queued ZMOV, and that the race detector does
not watch: its operands leave state s1 and group h1, and x holds its lanes with their addresses. -/
structure Accesses (s : State) (g : Group) (p : Ptr) (n : Nat) (a : State × Group × Sorted) (s1 : State) (h1 : Group) (x : Sorted) :
    Prop where
  addressed : a = (s1, h1, x)
  inside : x.out = []
  aligned : x.mis = []
  read : x.bad = [] ∧ x.late = []
  unwatched : s1.raceMode h1 = 0
  unqueued : s.zmovCovers g p n (x.ok.map (·.2)) = false
  older : ∀ f ∈ g.flight, f.fid < s1.run.nextId

/-- The element part of an LD or ST. -/
def reachOf (o : MemOp) (s : State) (g : Group) (k : Nat) (sel : LaneMask) : State × Group × Sorted :=
  let p := Ptr.ofBits (g.getA o.ptr)
  s.address g k p o.off o.ext (elemsOf p.fmt o.rsf) (widthOf p.fmt o.rsf) (accessAlign p.fmt o.rsf) (accessLanes o.data.uniform sel)

/-- The element part of an ATOM. -/
def reachOfAtom (o : AtomOp) (s : State) (g : Group) (k : Nat) (sel : LaneMask) : State × Group × Sorted :=
  let p := Ptr.ofBits (g.getA o.ptr)
  let n := atomBytes o.rsf o.wide p.fmt
  s.address g k p o.off (some o.ext) (if p.fmt = fmtBytes then n else 1) n (if p.fmt = fmtBytes then n else alignOf p.fmt) (lanesOf sel)

/-- R336, R382: the data operand of an LD or ST is no odd name of a pair. -/
def PairFits (o : MemOp) (p : Ptr) : Prop :=
  dataWide o.rsf p.fmt = true → (match o.data with | .v n => n.toNat % 2 = 0 | .s i => i.toNat % 2 = 0 | .a _ => True)

/-- R150, R379: the element index of lane l of an access, with the addend of its extension word, through the entry of its stream where it
has one. -/
def LowestIndex (s : State) (g : Group) (k : Nat) (o : MOff) (ext : Option (BitVec 48)) (l : Nat) (e : Int) : Prop :=
  match streamOf g o with
  | none => e = laneOffset g k o l + extAdd ext
  | some (j, t) => ∃ i, (s.streamEntry g t (g.streamPos j)).2 = .idx i ∧ e = i + extAdd ext

/-- The cell of host or device memory of a word is none that n bytes at the addresses reach through a port. -/
def Untouched (s : State) (q : Port) (n : Nat) (addrs : List Nat) (wa : Nat) : Prop :=
  ∀ a ∈ addrs, ∀ xs, Port.plan s q true (pieces n a n) = .ok xs → ∀ y ∈ xs, cellOf y.1 / 4 ≠ cellOf (4 * wa) / 4

/-- A word reads in t as in s, at its home under a key and in every cache. -/
def SameWord (s t : State) (key wa : Nat) : Prop :=
  (∀ i < 4, t.mem.byte key (4 * wa + i) = s.mem.byte key (4 * wa + i)) ∧
  t.mem.l1.filter (fun c => c.wa == wa) = s.mem.l1.filter (fun c => c.wa == wa) ∧
  t.mem.basin.filter (fun c => c.wa == wa) = s.mem.basin.filter (fun c => c.wa == wa)

/-- R271: no basin holds a mirror copy of the line of a word; a store of another word could free its way. -/
def Unmirrored (s : State) (wa : Nat) : Prop := ∀ c ∈ s.mem.basin, c.wa / 32 = wa / 32 → c.mirror = false

/-! ## Matrix operations -/

/-- The instruction enters the matrix queue over s1, with the operands as they were captured, and the matrix counter rises when it
counts; h is the group but for the queue, the counter and the program counter. -/
def Queued (i : Instr) (s s1 : State) (k : Nat) (g h : Group) (a : SMap 32) (scal : List W32) (ptrs : List W128) (counts : Bool) :
    Prop :=
  IssuesOver i s s1.took k
    { h with
      mq := h.mq ++ [⟨s.run.nextId, k, g.pc k, g.active k, i, a, scal, ptrs, 0, false, 0, none⟩]
      cntMx := if counts then h.cntMx + 1 else h.cntMx } (g.after k i)

/-- A ZMOV enters the matrix queue, and the registers that it writes, if any, are pending. -/
def MoveQueued (i : Instr) (s : State) (k : Nat) (g : Group) (la : BitVec 4) (a : SMap 32) (scal : List W32) (ptrs : List W128)
    (counts : Bool) : Prop :=
  let dests := (regsOf g i).2
  let f : Flight := ⟨s.run.nextId + 1, k, g.pc k, la.toNat, dests.filter pendable, g.active k, g.active k, .zmov s.run.nextId, none, none,
    false, none⟩
  IssuesOver i s s.took.took k
    { g with
      flight := if dests = [] then g.flight else g.flight ++ [f]
      mq := g.mq ++ [⟨s.run.nextId, k, g.pc k, g.active k, i, a, scal, ptrs, 0, false, 0,
        if dests = [] then none else some (s.run.nextId + 1)⟩]
      cntMx := if counts then g.cntMx + 1 else g.cntMx } (g.after k i)

/-- R217, R220 to R222, R227 to R231, R345: a multiply of format f on tile z. ready says that the queue takes it, off and n are the
offset and the bytes of its B operand, and further its checks besides the pointer's. -/
def Multiplies (i : Instr) (s : State) (gid k : Nat) (g : Group) (f : MFmt) (z regs : Nat) (a : BitVec 11) (clr reuse : Bool)
    (off n : Nat) (ptr : W128) (scal : List W32) (ready : Bool) (further : Prop) : Prop :=
  let bad (reason : Nat) : Trap := g.trapAt k 0x10 reason (g.active k) 0
  let fits := z < g.tiles.length ∧ s.mxPointer g k bSpace (Ptr.ofBits ptr) off n = none ∧ further
  let s1 := s.freshFree.2
  (ready = false → Waits i s) ∧
  (clr = false → (g.tileAfter z).1 = none → Waits i s) ∧
  (ready = true → g.kindKnown z clr = true → g.tiles.length ≤ z → Traps i s gid (bad 1)) ∧
  (∀ t, ready = true → g.kindKnown z clr = true → z < g.tiles.length → s.mxPointer g k bSpace (Ptr.ofBits ptr) off n = some t →
    Traps i s gid t) ∧
  (∀ kind, ready = true → fits → clr = false → (g.tileAfter z).1 = some kind → kind ≠ f.kind → Traps i s gid (bad 8)) ∧
  (ready = true → fits → (clr = true ∨ (g.tileAfter z).1 = some f.kind) →
    (∀ d latch, g.takeA a f regs reuse s.run.free = some (d, latch) → Queued i s s1 k g { g with latch := latch } d scal [ptr] true) ∧
    (g.takeA a f regs reuse s.run.free = none → exec i s = .next (s1.takeTrap gid (bad 2))))

/-- R245: the mere of a pointer, if it is bound, is held by a group of a live grid, so that it does not unbind first. -/
def InUse (s : State) (g : Group) (p : Ptr) : Prop :=
  ∀ m, s.mere? ((s.ctxOf g).getD emptyCtx).id p.base = some m → s.mereIdle m = false

/-! ## Results in exact integers -/

/-- The least and the greatest value of an integer type. -/
def IntTy.low (t : IntTy) : Int := if t.signed then -(2 ^ (t.bits - 1)) else 0
def IntTy.high (t : IntTy) : Int := if t.signed then 2 ^ (t.bits - 1) - 1 else 2 ^ t.bits - 1

/-- R207: v is the result of the exact value x: reduced mod 2^w without a flag, or, with the saturate bit, the nearest value of the
type, with IOV when that is not x. -/
def Exactly (t : IntTy) (sat : Bool) (x : Int) (v : Val) : Prop :=
  v.1 < 2 ^ t.bits ∧
  (sat = false → (v.1 : Int) = x % 2 ^ t.bits ∧ v.2 = 0#8) ∧
  (sat = true →
    (IntTy.low t ≤ x → x ≤ IntTy.high t → t.val v.1 = x ∧ v.2 = 0#8) ∧
    (x < IntTy.low t → t.val v.1 = IntTy.low t ∧ v.2 = fIOV) ∧
    (IntTy.high t < x → t.val v.1 = IntTy.high t ∧ v.2 = fIOV))

/-- R207, R370, R393: a left shift. Without the saturate bit a shift by the width or more gives 0. -/
def ShiftsLeft (t : IntTy) (sat : Bool) (a b : Nat) (v : Val) : Prop :=
  if sat then Exactly t true (t.val a * 2 ^ b) v else Exactly t false ((a : Int) * 2 ^ b) v

/-- R370, R393: floor(a / 2^b), with a read unsigned. -/
def ShiftsRight (a b : Nat) (v : Val) : Prop := v.1 = a / 2 ^ b ∧ v.2 = 0#8

/-- R370, R393: floor(a / 2^b), with a read signed, mod 2^w. -/
def ShiftsSigned (t : IntTy) (a b : Nat) (v : Val) : Prop :=
  v.1 < 2 ^ t.bits ∧ signExt v.1 t.bits = signExt a t.bits / 2 ^ b ∧ v.2 = 0#8

/-- R208, Table 7-8: x / y truncated toward zero, and its corners. -/
def Divides (t : IntTy) (x y : Nat) (v : Val) : Prop :=
  v.1 < 2 ^ t.bits ∧
  (t.val y = 0 → t.val v.1 = (if t.val x < 0 then IntTy.low t else IntTy.high t) ∧ v.2 = fIDZ) ∧
  (t.val y = -1 → t.val x = IntTy.low t → t.val v.1 = IntTy.low t ∧ v.2 = fIOV) ∧
  (t.val y ≠ 0 → ¬(t.val y = -1 ∧ t.val x = IntTy.low t) → t.val v.1 = Int.tdiv (t.val x) (t.val y) ∧ v.2 = 0#8)

/-- R208, Table 7-8: the remainder, with the sign of the dividend. -/
def Remains (t : IntTy) (x y : Nat) (v : Val) : Prop :=
  v.1 < 2 ^ t.bits ∧
  (t.val y = 0 → t.val v.1 = t.val x ∧ v.2 = fIDZ) ∧
  (t.val y = -1 → t.val x = IntTy.low t → v.1 = 0 ∧ v.2 = fIOV) ∧
  (t.val y ≠ 0 → ¬(t.val y = -1 ∧ t.val x = IntTy.low t) → t.val v.1 = Int.tmod (t.val x) (t.val y) ∧ v.2 = 0#8)

/-! ## Classes of floating values -/

/-- R329: the bit of FCLASS for a pattern x of a format: the NaNs, the infinities, the zeros, the subnormal and the normal values of
each sign. -/
def ClassBit (f : Fmt) (x c : Nat) : Prop :=
  let m := x % 2 ^ f.mbits
  let e := x / 2 ^ f.mbits % 2 ^ f.ebits
  let neg := x.testBit (f.ebits + f.mbits)
  (c = 0 ↔ e = 2 ^ f.ebits - 1 ∧ m ≠ 0 ∧ m.testBit (f.mbits - 1) = false) ∧
  (c = 1 ↔ e = 2 ^ f.ebits - 1 ∧ m.testBit (f.mbits - 1) = true) ∧
  (c = 2 ↔ e = 2 ^ f.ebits - 1 ∧ m = 0 ∧ neg = true) ∧
  (c = 3 ↔ e ≠ 2 ^ f.ebits - 1 ∧ e ≠ 0 ∧ neg = true) ∧
  (c = 4 ↔ e = 0 ∧ m ≠ 0 ∧ neg = true) ∧
  (c = 5 ↔ e = 0 ∧ m = 0 ∧ neg = true) ∧
  (c = 6 ↔ e = 0 ∧ m = 0 ∧ neg = false) ∧
  (c = 7 ↔ e = 0 ∧ m ≠ 0 ∧ neg = false) ∧
  (c = 8 ↔ e ≠ 2 ^ f.ebits - 1 ∧ e ≠ 0 ∧ neg = false) ∧
  (c = 9 ↔ e = 2 ^ f.ebits - 1 ∧ m = 0 ∧ neg = false)

/-! ## Rounding -/

/-- a * 2^t - m * 2^e, in units that make it an integer. -/
def cut (m : Nat) (e : Int) (a : Nat) (t : Int) : Int :=
  Int.ofNat (a * 2 ^ (t - min t e).toNat) - Int.ofNat (m * 2 ^ (e - min t e).toNat)

/-- Whether a rounding mode moves the magnitude of a value of that sign toward zero, and whether it moves it away (R200). -/
def towardZero (mode : Rnd) (neg : Bool) : Prop := mode = .rtz ∨ (mode = .rup ∧ neg = true) ∨ (mode = .rdn ∧ neg = false)
def awayFromZero (mode : Rnd) (neg : Bool) : Prop := (mode = .rup ∧ neg = false) ∨ (mode = .rdn ∧ neg = true)

/-- R200: with the exponent unbounded, an exact magnitude rounds beyond the largest finite value of a format. The magnitude is given by
the sign of its difference from any a * 2^t. -/
def Overflows (f : Fmt) (mode : Rnd) (neg : Bool) (above : Nat → Int → Int) : Prop :=
  (towardZero mode neg → above (f.maxSig + 1) (f.emax - f.mbits) ≤ 0) ∧
  (awayFromZero mode neg → above f.maxSig (f.emax - f.mbits) < 0) ∧
  (mode = .rne → above (2 * f.maxSig + 1) (f.emax - f.mbits - 1) < 0 ∨
    (above (2 * f.maxSig + 1) (f.emax - f.mbits - 1) = 0 ∧ f.maxSig % 2 = 1))

/-- R201: with the exponent unbounded, an exact magnitude rounds below the smallest normal of a format. -/
def Tiny (f : Fmt) (mode : Rnd) (neg : Bool) (above : Nat → Int → Int) : Prop :=
  (towardZero mode neg → 0 < above 1 f.emin) ∧
  (awayFromZero mode neg → 0 ≤ above (2 ^ (f.mbits + 1) - 1) (f.emin - 1 - f.mbits)) ∧
  (mode = .rne → 0 < above (2 ^ (f.mbits + 2) - 1) (f.emin - 2 - f.mbits))

/-- R200: a pattern is an exact magnitude rounded once to the spacing 2^q that the format has there, its subnormal spacing at least: to
n * 2^q, the multiple on the side of the mode, or the nearest one, with n even at a tie. inexact says that it differs. -/
def Rounds (f : Fmt) (mode : Rnd) (neg : Bool) (above : Nat → Int → Int) (bits : Nat) (inexact : Bool) : Prop :=
  ∃ (q : Int) (n m : Nat) (e : Int),
    f.emin - f.mbits ≤ q ∧ (q = f.emin - f.mbits ∨ above (2 ^ f.mbits) q ≤ 0) ∧ 0 < above (2 ^ (f.mbits + 1)) q ∧
    FVal.decode f bits = .fin neg m e ∧ cut m e n q = 0 ∧ (inexact = true ↔ above n q ≠ 0) ∧
    (towardZero mode neg → above n q ≤ 0 ∧ 0 < above (n + 1) q) ∧
    (awayFromZero mode neg → 0 ≤ above n q ∧ 0 < n ∧ above (n - 1) q < 0) ∧
    (mode = .rne → 0 ≤ above (2 * n + 1) (q - 1) ∧ (0 < n → above (2 * n - 1) (q - 1) ≤ 0) ∧
      ((above (2 * n + 1) (q - 1) = 0 ∨ (0 < n ∧ above (2 * n - 1) (q - 1) = 0)) → n % 2 = 0))

/-- R200, R201: r is the result of an exact nonzero value, given by its sign and its magnitude, in a format, over flags w. -/
def RoundedOnce (f : Fmt) (mode : Rnd) (neg : Bool) (above : Nat → Int → Int) (w : W8) (r : Val) : Prop :=
  (Overflows f mode neg above →
    r.2 = w ||| (fFIN ||| fFOF) ∧ (towardZero mode neg → r.1 = f.maxBits neg) ∧ (¬towardZero mode neg → r.1 = f.infBits neg)) ∧
  (¬Overflows f mode neg above → ∃ inexact, Rounds f mode neg above r.1 inexact ∧
    (inexact = false → r.2 = w) ∧ (inexact = true → Tiny f mode neg above → r.2 = w ||| (fFIN ||| fFUF)) ∧
    (inexact = true → ¬Tiny f mode neg above → r.2 = w ||| fFIN))

/-- The formats of R193. -/
def floatFormats : List Fmt := [fp64, fp32, fp16, bf16, fp8e4m3, fp8e5m2]

/-! ## Shapes of instructions -/

/-- An instruction of two scalar operands gives sD a value that R holds of, and its flags. b32 says that operand b is 32 bits wide. -/
def ScalarPair (i : Guard → SBin → Instr) (b32 : Bool) (R : SBin → Nat → Nat → Val → Prop) : Prop :=
  ∀ gd o s gid k g, Ready s (i gd o) gid k g →
    ∃ v h, R o (g.sop k o.a o.ty.wide) (g.sop k o.b (o.ty.wide && !b32)) v ∧ ScalarSet g h k o.d o.ty.wide v ∧
      IssuesTo (i gd o) s k h (g.after k (i gd o))

/-- An instruction of two vector operands gives each selected lane of vD a value that R holds of; R also sees the old vD. -/
def LanePair (i : Guard → VBin → Instr) (b32 : Bool) (R : VBin → Nat → Nat → Nat → Val → Prop) : Prop :=
  ∀ gd o s gid k g, Ready s (i gd o) gid k g →
    ∃ (f : Nat → Val) (h : Group),
      (∀ l, R o (g.vnum o.d o.ty.wide l) (g.vnum o.a o.ty.wide l) (g.vbInt k o.b (o.ty.wide && !b32) l) (f l)) ∧
      LanesSet g h o.d o.ty.wide (g.picked k (i gd o)) f ∧ IssuesTo (i gd o) s k h (g.after k (i gd o))

/-- The same for floating operands, whose values are read at 96 lanes. -/
def FloatPair (i : Guard → FBin → Instr) (f : FBin → Nat → Nat → Nat → Val) : Prop :=
  ∀ gd o s gid k g, Ready s (i gd o) gid k g →
    ∃ h, LanesSet g h o.d o.ty.wide (g.picked k (i gd o))
        (fun l => f o (g.vnum o.d o.ty.wide l) (g.vnum o.a o.ty.wide l) (g.vbFlt k o.ty o.b l)) ∧
      IssuesTo (i gd o) s k h (g.after k (i gd o))

end Machine

end Sys2Proof
end

