-- ==== Sys2Proof/Certificates/Slice0/Obligations.lean ====
section
/-! DEFINITION. The statements about the model, which follow the numbered rules of the spec. -/

open Sys2Proof Sys2Proof.Machine

/-! ## Scalar and vector integer instructions -/

/-- R207, R370: SADD, SSUB and SMUL give the exact result mod 2^w, or clamped with IOV; SMULH gives bits [2w-1:w] of the exact
product. -/
def Obligations.ScalarArithmetic : Prop :=
  ScalarPair .sadd false (fun o a b => Exactly o.ty o.sat (o.ty.val a + o.ty.val b)) ∧
  ScalarPair .ssub false (fun o a b => Exactly o.ty o.sat (o.ty.val a - o.ty.val b)) ∧
  ScalarPair .smul false (fun o a b => Exactly o.ty o.sat (o.ty.val a * o.ty.val b)) ∧
  ScalarPair .smulh false (fun o a b => Exactly o.ty false (o.ty.val a * o.ty.val b / 2 ^ o.ty.bits))

/-- R370: SAND, SOR and SXOR act bit by bit, and the shifts are exact. -/
def Obligations.ScalarBits : Prop :=
  ScalarPair .sand false (fun _ a b v => (∀ i, v.1.testBit i = (a.testBit i && b.testBit i)) ∧ v.2 = 0#8) ∧
  ScalarPair .sor false (fun _ a b v => (∀ i, v.1.testBit i = (a.testBit i || b.testBit i)) ∧ v.2 = 0#8) ∧
  ScalarPair .sxor false (fun _ a b v => (∀ i, v.1.testBit i = Bool.xor (a.testBit i) (b.testBit i)) ∧ v.2 = 0#8) ∧
  ScalarPair .sshl true (fun o a b => ShiftsLeft o.ty o.sat a b) ∧
  ScalarPair .sshr true (fun _ a b => ShiftsRight a b) ∧
  ScalarPair .ssra true (fun o a b => ShiftsSigned o.ty a b)

/-- R370, R373: SMIN and SMAX give the lesser and the greater operand by type; SSEL tests the whole old sD; R371 to R373: SCMP
writes 1 or 0, SLI its immediate mod 2^w, SBFX and SBFI a field of the position and length in s[B], SPOPC the count of 1 bits (over
all 96 lanes of a predicate) and SCLZ the leading zeros in w bits. -/
def Obligations.ScalarChoice : Prop :=
  (ScalarPair .smin false (fun o a b v => (v.1 = a ∨ v.1 = b) ∧ o.ty.val v.1 ≤ o.ty.val a ∧ o.ty.val v.1 ≤ o.ty.val b ∧ v.2 = 0#8) ∧
  ScalarPair .smax false (fun o a b v => (v.1 = a ∨ v.1 = b) ∧ o.ty.val a ≤ o.ty.val v.1 ∧ o.ty.val b ≤ o.ty.val v.1 ∧ v.2 = 0#8) ∧
  (∀ gd o s gid k g, Ready s (.ssel gd o) gid k g →
    ∃ h, ScalarSet g h k o.d o.ty.wide
        (if g.snum k o.d o.ty.wide = 0 then g.sop k o.b o.ty.wide else g.sop k o.a o.ty.wide, 0#8) ∧
      IssuesTo (.ssel gd o) s k h (g.after k (.ssel gd o))) ∧
  (∀ gd o s gid k g, Ready s (.smov gd o) gid k g →
    ∃ h, ScalarSet g h k o.d o.ty.wide (g.sop k o.a o.ty.wide, 0#8) ∧ IssuesTo (.smov gd o) s k h (g.after k (.smov gd o)))) ∧
  (∀ gd (o : SCmpOp) s gid k g, Ready s (.scmp gd o) gid k g →
    ∃ (r : Bool) (h : Group), (r = true ↔
        let a := o.ty.val (g.sop k o.a o.ty.wide)
        let b := o.ty.val (g.sop k o.b o.ty.wide)
        match o.cond with
        | .eq => a = b | .ne => a ≠ b | .lt => a < b | .le => a ≤ b | .gt => a > b | .ge => a ≥ b) ∧
      ScalarSet g h k o.d false (if r then 1 else 0, 0#8) ∧ IssuesTo (.scmp gd o) s k h (g.after k (.scmp gd o))) ∧
  (∀ gd (o : SliOp) s gid k g, Ready s (.sli gd o) gid k g →
    ∃ (v : Nat) (h : Group), v < 2 ^ o.ty.bits ∧
      (match o.v with
        | .short x => (v : Int) = x.toInt % 2 ^ o.ty.bits
        | .long x => v = x.toNat % 2 ^ o.ty.bits) ∧
      ScalarSet g h k o.d o.ty.wide (v, 0#8) ∧ IssuesTo (.sli gd o) s k h (g.after k (.sli gd o))) ∧
  (∀ gd (o : SBfOp) s gid k g, Ready s (.sbfx gd o) gid k g →
    let pos := (g.snum k o.b false) % 64 % o.ty.bits
    let len := (g.snum k o.b false) / 256 % 64 % o.ty.bits + 1
    ∃ (v : Nat) (h : Group), v < 2 ^ o.ty.bits ∧
      (o.ty.signed = false → v = g.sop k o.a o.ty.wide / 2 ^ pos % 2 ^ len) ∧
      (o.ty.signed = true → signExt v o.ty.bits = signExt (g.sop k o.a o.ty.wide / 2 ^ pos) len) ∧
      ScalarSet g h k o.d o.ty.wide (v, 0#8) ∧ IssuesTo (.sbfx gd o) s k h (g.after k (.sbfx gd o))) ∧
  (∀ gd (o : SBfOp) s gid k g, Ready s (.sbfi gd o) gid k g →
    let pos := (g.snum k o.b false) % 64 % o.ty.bits
    let len := (g.snum k o.b false) / 256 % 64 % o.ty.bits + 1
    ∃ (v : Nat) (h : Group), (∀ j, v.testBit j = (decide (j < o.ty.bits) &&
        (if pos ≤ j ∧ j < pos + len then (g.sop k o.a o.ty.wide).testBit (j - pos) else (g.snum k o.d o.ty.wide).testBit j))) ∧
      ScalarSet g h k o.d o.ty.wide (v, 0#8) ∧ IssuesTo (.sbfi gd o) s k h (g.after k (.sbfi gd o))) ∧
  (∀ gd (o : SPopcOp) s gid k g, Ready s (.spopc gd o) gid k g →
    ∃ h, ScalarSet g h k o.d false
        (match o.a with
          | .so x => ((List.range o.ty.bits).filter fun j => (g.sop k x o.ty.wide).testBit j).length
          | .p i => ((List.range 96).filter fun j => (g.getP i).getLsbD j).length, 0#8) ∧
      IssuesTo (.spopc gd o) s k h (g.after k (.spopc gd o))) ∧
  (∀ gd (o : SUn) s gid k g, Ready s (.sclz gd o) gid k g →
    ∃ (n : Nat) (h : Group), n ≤ o.ty.bits ∧
      (∀ j, o.ty.bits - n ≤ j → j < o.ty.bits → (g.sop k o.a o.ty.wide).testBit j = false) ∧
      (n < o.ty.bits → (g.sop k o.a o.ty.wide).testBit (o.ty.bits - 1 - n) = true) ∧
      ScalarSet g h k o.d false (n, 0#8) ∧ IssuesTo (.sclz gd o) s k h (g.after k (.sclz gd o)))

/-- R207, R392, R393: VADD, VSUB, VMUL, VMAD and VABS give each selected lane the exact result, reduced or clamped; VMULH bits
[2w-1:w] of the exact product. -/
def Obligations.VectorArithmetic : Prop :=
  LanePair .vadd false (fun o _ a b => Exactly o.ty o.sat (o.ty.val a + o.ty.val b)) ∧
  LanePair .vsub false (fun o _ a b => Exactly o.ty o.sat (o.ty.val a - o.ty.val b)) ∧
  LanePair .vmul false (fun o _ a b => Exactly o.ty o.sat (o.ty.val a * o.ty.val b)) ∧
  LanePair .vmulh false (fun o _ a b => Exactly o.ty false (o.ty.val a * o.ty.val b / 2 ^ o.ty.bits)) ∧
  LanePair .vmad false (fun o d a b => Exactly o.ty o.sat (o.ty.val a * o.ty.val b + o.ty.val d)) ∧
  (∀ gd (o : VUn) s gid k g, Ready s (.vabs gd o) gid k g →
    ∃ (f : Nat → Val) (h : Group),
      (∀ l, Exactly o.ty o.sat ((o.ty.val (g.vnum o.a o.ty.wide l)).natAbs : Nat) (f l)) ∧
      LanesSet g h o.d o.ty.wide (g.picked k (.vabs gd o)) f ∧ IssuesTo (.vabs gd o) s k h (g.after k (.vabs gd o)))

/-- R393 to R396: VMIN, VMAX, VSEL, VCMP, VMOV, VBCAST, VBFX, VPOPC and VCLZ in each selected lane; an unselected lane of a
predicate keeps its bit; R393: VAND, VOR and VXOR act bit by bit in each selected lane, and the shifts are exact. -/
def Obligations.VectorChoice : Prop :=
  (LanePair .vmin false (fun o _ a b v => (v.1 = a ∨ v.1 = b) ∧ o.ty.val v.1 ≤ o.ty.val a ∧ o.ty.val v.1 ≤ o.ty.val b ∧ v.2 = 0#8) ∧
  LanePair .vmax false (fun o _ a b v => (v.1 = a ∨ v.1 = b) ∧ o.ty.val a ≤ o.ty.val v.1 ∧ o.ty.val b ≤ o.ty.val v.1 ∧ v.2 = 0#8) ∧
  LanePair .vsel false (fun _ d a b v => v = (if d = 0 then b else a, 0#8)) ∧
  (∀ gd (o : VCmpOp) s gid k g, Ready s (.vcmp gd o) gid k g →
    ∃ (f : Nat → Bool × W8) (h : Group),
      (∀ l, (f l).2 = 0#8 ∧ ((f l).1 = true ↔
        let a := o.ty.val (g.vnum o.a o.ty.wide l)
        let b := o.ty.val (g.vbInt k o.b o.ty.wide l)
        match o.cond with
        | .eq => a = b | .ne => a ≠ b | .lt => a < b | .le => a ≤ b | .gt => a > b | .ge => a ≥ b)) ∧
      PredSet g h o.d (g.picked k (.vcmp gd o)) f ∧ IssuesTo (.vcmp gd o) s k h (g.after k (.vcmp gd o))) ∧
  (∀ gd (o : VMovOp) s gid k g, Ready s (.vmov gd o) gid k g →
    ∃ h, LanesSet g h o.d o.ty.wide (g.picked k (.vmov gd o)) (fun l => (g.vnum o.a o.ty.wide l, 0#8)) ∧
      IssuesTo (.vmov gd o) s k h (g.after k (.vmov gd o))) ∧
  (∀ gd (o : VBcastOp) s gid k g, Ready s (.vbcast gd o) gid k g →
    ∃ h, LanesSet g h o.d o.ty.wide (g.picked k (.vbcast gd o)) (fun _ => (bcastVal g k o.ty o.a, 0#8)) ∧
      IssuesTo (.vbcast gd o) s k h (g.after k (.vbcast gd o))) ∧
  (∀ gd (o : VBfxOp) s gid k g, Ready s (.vbfx gd o) gid k g →
    ∃ (f : Nat → Val) (h : Group),
      (∀ l,
        let d := (match o.b with
          | .v n => g.vnum n false l
          | .s i => g.snum k i false)
        let pos := d % 64 % o.ty.bits
        let len := d / 256 % 64 % o.ty.bits + 1
        (f l).2 = 0#8 ∧ (f l).1 < 2 ^ o.ty.bits ∧
        (o.ty.signed = false → (f l).1 = g.vnum o.a o.ty.wide l / 2 ^ pos % 2 ^ len) ∧
        (o.ty.signed = true → signExt (f l).1 o.ty.bits = signExt (g.vnum o.a o.ty.wide l / 2 ^ pos) len)) ∧
      LanesSet g h o.d o.ty.wide (g.picked k (.vbfx gd o)) f ∧ IssuesTo (.vbfx gd o) s k h (g.after k (.vbfx gd o))) ∧
  (∀ gd (o : VUn) s gid k g, Ready s (.vpopc gd o) gid k g →
    ∃ h, LanesSet g h o.d false (g.picked k (.vpopc gd o))
        (fun l => (((List.range o.ty.bits).filter fun j => (g.vnum o.a o.ty.wide l).testBit j).length, 0#8)) ∧
      IssuesTo (.vpopc gd o) s k h (g.after k (.vpopc gd o))) ∧
  (∀ gd (o : VUn) s gid k g, Ready s (.vclz gd o) gid k g →
    ∃ (f : Nat → Val) (h : Group),
      (∀ l, (f l).2 = 0#8 ∧ (f l).1 ≤ o.ty.bits ∧
        (∀ j, o.ty.bits - (f l).1 ≤ j → j < o.ty.bits → (g.vnum o.a o.ty.wide l).testBit j = false) ∧
        ((f l).1 < o.ty.bits → (g.vnum o.a o.ty.wide l).testBit (o.ty.bits - 1 - (f l).1) = true)) ∧
      LanesSet g h o.d false (g.picked k (.vclz gd o)) f ∧ IssuesTo (.vclz gd o) s k h (g.after k (.vclz gd o)))) ∧
  (LanePair .vand false (fun _ _ a b v => (∀ i, v.1.testBit i = (a.testBit i && b.testBit i)) ∧ v.2 = 0#8) ∧
  LanePair .vor false (fun _ _ a b v => (∀ i, v.1.testBit i = (a.testBit i || b.testBit i)) ∧ v.2 = 0#8) ∧
  LanePair .vxor false (fun _ _ a b v => (∀ i, v.1.testBit i = Bool.xor (a.testBit i) (b.testBit i)) ∧ v.2 = 0#8) ∧
  LanePair .vshl true (fun o _ a b => ShiftsLeft o.ty o.sat a b) ∧
  LanePair .vshr true (fun _ _ a b => ShiftsRight a b) ∧
  LanePair .vsra true (fun o _ a b => ShiftsSigned o.ty a b))

/-- R208, Table 7-8: SDIV, SREM, VDIV and VREM go in flight with the truncated quotient or the remainder, or a corner's value and
flag; nothing but the in-flight list and the program counter changes at issue. -/
def Obligations.Division : Prop :=
  (∀ gd la (o : SBin) s gid k g, Ready s (.sdiv gd la o) gid k g →
    ∃ v, Divides o.ty (g.sop k o.a o.ty.wide) (g.sop k o.b o.ty.wide) v ∧
      IssuesLater (.sdiv gd la o) s k g la (regsOf g (.sdiv gd la o)).2 ⟨[], swords o.d.toNat o.ty.wide v.1, [], v.2⟩) ∧
  (∀ gd la (o : SBin) s gid k g, Ready s (.srem gd la o) gid k g →
    ∃ v, Remains o.ty (g.sop k o.a o.ty.wide) (g.sop k o.b o.ty.wide) v ∧
      IssuesLater (.srem gd la o) s k g la (regsOf g (.srem gd la o)).2 ⟨[], swords o.d.toNat o.ty.wide v.1, [], v.2⟩) ∧
  (∀ gd la (o : VBin) s gid k g, Ready s (.vdiv gd la o) gid k g →
    ∃ f : Nat → Val, (∀ l, Divides o.ty (g.vnum o.a o.ty.wide l) (g.vbInt k o.b o.ty.wide l) (f l)) ∧
      IssuesLater (.vdiv gd la o) s k g la (regsOf g (.vdiv gd la o)).2
        (g.laneWrites o.d o.ty.wide (laneVals (g.picked k (.vdiv gd la o)) f))) ∧
  (∀ gd la (o : VBin) s gid k g, Ready s (.vrem gd la o) gid k g →
    ∃ f : Nat → Val, (∀ l, Remains o.ty (g.vnum o.a o.ty.wide l) (g.vbInt k o.b o.ty.wide l) (f l)) ∧
      IssuesLater (.vrem gd la o) s k g la (regsOf g (.vrem gd la o)).2
        (g.laneWrites o.d o.ty.wide (laneVals (g.picked k (.vrem gd la o)) f)))

/-! ## Floating instructions and conversions -/

/-- R322 to R325, R328, R329: FADD, FSUB, FMUL and FFMA round the exact result once; FMIN, FMAX and FSGN; FCMP sets predicate bits
and FCLASS the one bit of the operand's class. R200, R201: a finite value is rounded once, to the spacing of the format or to what Table
7-4 gives an overflow, with the flags of that; sums and products of finite values are exact, and an exact zero sum is +0, or -0 under
RDN, but keeps the sign of two like zeros. -/
def Obligations.FloatArithmetic : Prop :=
  (∀ f ∈ floatFormats, ∀ mode neg m e w, 0 < m → RoundedOnce f mode neg (cut m e) w (finish f mode false (.fin neg m e, w))) ∧
  (∀ f ∈ floatFormats, ∀ mode neg e w, finish f mode false (.fin neg 0 e, w) = (f.signBit neg, w)) ∧
  (∀ mode n1 m1 e1 n2 m2 e2, ∃ n m e, addEx mode (.fin n1 m1 e1) (.fin n2 m2 e2) = (.fin n m e, 0#8) ∧
    (m = 0 → n = if m1 = 0 ∧ m2 = 0 ∧ n1 = n2 then n1 else decide (mode = .rdn)) ∧
    let s := min e1 e2
    let scaled (neg : Bool) (m : Nat) (e : Int) : Int := (if neg then -1 else 1) * Int.ofNat (m * 2 ^ (e - s).toNat)
    scaled n m e = scaled n1 m1 e1 + scaled n2 m2 e2) ∧
  (∀ n1 m1 e1 n2 m2 e2, mulEx (.fin n1 m1 e1) (.fin n2 m2 e2) = (.fin (Bool.xor n1 n2) (m1 * m2) (e1 + e2), 0#8)) ∧
  FloatPair .fadd (fun o _ a b => finish o.ty.fmt o.rnd.rnd o.sat (addEx o.rnd.rnd (o.ty.val a) (o.ty.val b))) ∧
  FloatPair .fsub (fun o _ a b => finish o.ty.fmt o.rnd.rnd o.sat (addEx o.rnd.rnd (o.ty.val a) (o.ty.val b).negate)) ∧
  FloatPair .fmul (fun o _ a b => finish o.ty.fmt o.rnd.rnd o.sat (mulEx (o.ty.val a) (o.ty.val b))) ∧
  FloatPair .ffma (fun o d a b => finish o.ty.fmt o.rnd.rnd o.sat (fmaEx o.rnd.rnd (o.ty.val a) (o.ty.val b) (o.ty.val d))) ∧
  (∀ gd (o : FPair) s gid k g, Ready s (.fmin gd o) gid k g →
    ∃ h, LanesSet g h o.d o.ty.wide (g.picked k (.fmin gd o))
        (fun l => fltMax o.ty false (g.vnum o.a o.ty.wide l) (g.vbFlt k o.ty o.b l)) ∧
      IssuesTo (.fmin gd o) s k h (g.after k (.fmin gd o))) ∧
  (∀ gd (o : FPair) s gid k g, Ready s (.fmax gd o) gid k g →
    ∃ h, LanesSet g h o.d o.ty.wide (g.picked k (.fmax gd o))
        (fun l => fltMax o.ty true (g.vnum o.a o.ty.wide l) (g.vbFlt k o.ty o.b l)) ∧
      IssuesTo (.fmax gd o) s k h (g.after k (.fmax gd o))) ∧
  (∀ gd (o : FSgnOp) s gid k g, Ready s (.fsgn gd o) gid k g →
    ∃ (f : Nat → Val) (h : Group),
      (∀ l,
        let w := o.ty.fmt.width
        let a := g.vnum o.a o.ty.wide l % 2 ^ w
        let b := g.vbFlt k o.ty o.b l % 2 ^ w
        (f l).2 = 0#8 ∧
        ((o.ty.val a).isNaN = true → (f l).1 = o.ty.fmt.canonNaN) ∧
        ((o.ty.val a).isNaN = false →
          (f l).1 % 2 ^ (w - 1) = a % 2 ^ (w - 1) ∧
          (f l).1.testBit (w - 1) = (match o.op with
            | .copy => b.testBit (w - 1)
            | .neg => !b.testBit (w - 1)
            | .xor => Bool.xor (a.testBit (w - 1)) (b.testBit (w - 1))))) ∧
      LanesSet g h o.d o.ty.wide (g.picked k (.fsgn gd o)) f ∧ IssuesTo (.fsgn gd o) s k h (g.after k (.fsgn gd o))) ∧
  (∀ gd (o : FCmpOp) s gid k g, Ready s (.fcmp gd o) gid k g →
    ∃ h, PredSet g h o.d (g.picked k (.fcmp gd o))
        (fun l => fltCmp o.ty o.cond (g.vnum o.a o.ty.wide l) (g.vbFlt k o.ty o.b l)) ∧
      IssuesTo (.fcmp gd o) s k h (g.after k (.fcmp gd o))) ∧
  (∀ gd (o : FClassOp) s gid k g, Ready s (.fclass gd o) gid k g →
    ∃ (f : Nat → Val) (h : Group),
      (∀ l, (f l).2 = 0#8 ∧ ∃ c, c < 10 ∧ (f l).1 = 2 ^ c ∧ ClassBit o.ty.fmt (g.vnum o.a o.ty.wide l % 2 ^ o.ty.fmt.width) c) ∧
      LanesSet g h o.d false (g.picked k (.fclass gd o)) f ∧ IssuesTo (.fclass gd o) s k h (g.after k (.fclass gd o)))

/-- R326, R327: FDIV, FSQRT, FRCP, FRSQ, FEXP2, FLOG2 and FTRIG go in flight with the rounded results of their selected lanes.
R200, R201, R326: the quotient, the square root and its reciprocal of finite nonzero values of FP32 and FP64 are the exact ones, rounded
once. The precision to which the transcendental functions are computed before their one rounding is the model's choice (log entry 8).
-/
def Obligations.FloatLater : Prop :=
  (∀ f, (f = fp32 ∨ f = fp64) → ∀ mode x y n1 m1 e1 n2 m2 e2,
    FVal.decode f x = .fin n1 m1 e1 → FVal.decode f y = .fin n2 m2 e2 → 0 < m1 → 0 < m2 →
    RoundedOnce f mode (Bool.xor n1 n2) (fun a t => cut m1 (e1 - e2) (a * m2) t) 0#8
      (finish f mode false (divEx (.fin n1 m1 e1) (.fin n2 m2 e2)))) ∧
  (∀ f, (f = fp32 ∨ f = fp64) → ∀ mode x m e, FVal.decode f x = .fin false m e → 0 < m →
    RoundedOnce f mode false (fun a t => cut m e (a * a) (2 * t)) 0#8 (finish f mode false (sqrtEx (.fin false m e))) ∧
    RoundedOnce f mode false (fun a t => cut 1 (-e) (a * a * m) (2 * t)) 0#8 (finish f mode false (rsqrtEx (.fin false m e)))) ∧
  (∀ gd la (o : FBin) s gid k g, Ready s (.fdiv gd la o) gid k g →
    IssuesLater (.fdiv gd la o) s k g la (regsOf g (.fdiv gd la o)).2
      (g.laneWrites o.d o.ty.wide (laneVals (g.picked k (.fdiv gd la o)) fun l =>
        finish o.ty.fmt o.rnd.rnd o.sat (divEx (o.ty.val (g.vnum o.a o.ty.wide l)) (o.ty.val (g.vbFlt k o.ty o.b l)))))) ∧
  (∀ gd la (o : FUn) s gid k g, Ready s (.fsqrt gd la o) gid k g →
    IssuesLater (.fsqrt gd la o) s k g la (regsOf g (.fsqrt gd la o)).2
      (g.laneWrites o.d o.ty.wide (laneVals (g.picked k (.fsqrt gd la o)) fun l =>
        finish o.ty.fmt o.rnd.rnd false (sqrtEx (o.ty.val (g.vnum o.a o.ty.wide l)))))) ∧
  (∀ gd la (o : FUn) s gid k g, Ready s (.frcp gd la o) gid k g →
    IssuesLater (.frcp gd la o) s k g la (regsOf g (.frcp gd la o)).2
      (g.laneWrites o.d o.ty.wide (laneVals (g.picked k (.frcp gd la o)) fun l =>
        finish o.ty.fmt o.rnd.rnd o.sat (divEx (FVal.ofInt 1) (o.ty.val (g.vnum o.a o.ty.wide l)))))) ∧
  (∀ gd la (o : FUn) s gid k g, Ready s (.frsq gd la o) gid k g →
    IssuesLater (.frsq gd la o) s k g la (regsOf g (.frsq gd la o)).2
      (g.laneWrites o.d o.ty.wide (laneVals (g.picked k (.frsq gd la o)) fun l =>
        finish o.ty.fmt o.rnd.rnd false (rsqrtEx (o.ty.val (g.vnum o.a o.ty.wide l)))))) ∧
  (∀ gd la (o : FUn) s gid k g, Ready s (.fexp2 gd la o) gid k g →
    IssuesLater (.fexp2 gd la o) s k g la (regsOf g (.fexp2 gd la o)).2
      (g.laneWrites o.d o.ty.wide (laneVals (g.picked k (.fexp2 gd la o)) fun l =>
        finish o.ty.fmt o.rnd.rnd o.sat (exp2Ex (o.ty.val (g.vnum o.a o.ty.wide l)))))) ∧
  (∀ gd la (o : FUn) s gid k g, Ready s (.flog2 gd la o) gid k g →
    IssuesLater (.flog2 gd la o) s k g la (regsOf g (.flog2 gd la o)).2
      (g.laneWrites o.d o.ty.wide (laneVals (g.picked k (.flog2 gd la o)) fun l =>
        finish o.ty.fmt o.rnd.rnd false (log2Ex (o.ty.val (g.vnum o.a o.ty.wide l)))))) ∧
  (∀ gd la (o : FTrigOp) s gid k g, Ready s (.ftrig gd la o) gid k g →
    IssuesLater (.ftrig gd la o) s k g la (regsOf g (.ftrig gd la o)).2
      (g.laneWrites o.d o.ty.wide (laneVals (g.picked k (.ftrig gd la o)) fun l =>
        finish o.ty.fmt o.rnd.rnd false (trigEx o.cosine (o.ty.val (g.vnum o.a o.ty.wide l))))))

/-- R319, R320, R357, R358, R300, R301: CVT converts each selected lane (between equal types it changes only a NaN), QNT packs the
scaled and converted codes of consecutive names, DQNT unpacks them, and AMAX goes in flight with the maximum magnitude. -/
def Obligations.Conversions : Prop :=
  (∀ gd (o : CvtOp) s gid k g, Ready s (.cvt gd o) gid k g →
    ∃ h, LanesSet g h o.d o.dst.wide (g.picked k (.cvt gd o))
        (fun l => convert (o.src.num.decode (atyIn o.src (g.vnum o.a o.src.wide l))) o.dst.num o.rnd.rnd
          (o.sat && decide (o.src ≠ o.dst))) ∧
      IssuesTo (.cvt gd o) s k h (g.after k (.cvt gd o))) ∧
  (∀ gd (o : QntOp) s gid k g, Ready s (.qnt gd o) gid k g →
    ∃ (f : Nat → Val) (h : Group),
      (∀ l, ∀ p < o.dst.count,
        let x := o.src.num.decode ((g.vAt (g.absV o.a + p) l).toNat % 2 ^ o.src.fmt.width)
        let y := finish fp32 .rne false (mulEx x (FVal.decode fp32 (g.vbFlt k .fp32 o.b l)))
        let c := convert (FVal.decode fp32 y.1) (qTy o.dst) o.rnd.rnd o.sat
        (f l).1 / 2 ^ (qBits o.dst * p) % 2 ^ qBits o.dst = c.1 % 2 ^ qBits o.dst) ∧
      (∀ l i, (f l).2.getLsbD i = true ↔ ∃ p < o.dst.count,
        let x := o.src.num.decode ((g.vAt (g.absV o.a + p) l).toNat % 2 ^ o.src.fmt.width)
        let y := finish fp32 .rne false (mulEx x (FVal.decode fp32 (g.vbFlt k .fp32 o.b l)))
        let c := convert (FVal.decode fp32 y.1) (qTy o.dst) o.rnd.rnd o.sat
        y.2.getLsbD i = true ∨ c.2.getLsbD i = true) ∧
      LanesSet g h o.d false (g.picked k (.qnt gd o)) f ∧ IssuesTo (.qnt gd o) s k h (g.after k (.qnt gd o))) ∧
  (∀ gd (o : DqntOp) s gid k g, Ready s (.dqnt gd o) gid k g →
    ∃ h, (∀ l p, l < 96 → (g.picked k (.dqnt gd o)).getLsbD l = true → p < o.src.count →
        (h.vAt (g.absV o.d + p) l).toNat =
          (dequantCode o (g.getV o.a l).toNat (g.vbFlt k .fp32 o.b l) p).1 % 2 ^ 32) ∧
      (∀ n l, l < 96 → ((g.picked k (.dqnt gd o)).getLsbD l = false ∨ n < g.absV o.d ∨ g.absV o.d + o.src.count ≤ n) →
        h.vAt n l = g.vAt n l) ∧
      (∀ i, (SMap.get h.s 3).getLsbD i = true ↔ (SMap.get g.s 3).getLsbD i = true ∨
        ∃ l p, l < 96 ∧ (g.picked k (.dqnt gd o)).getLsbD l = true ∧ p < o.src.count ∧
          (dequantCode o (g.getV o.a l).toNat (g.vbFlt k .fp32 o.b l) p).2.getLsbD i = true) ∧
      { h with v := g.v, s := g.s } = g ∧ (∀ i, i ≠ 3 → SMap.get h.s i = SMap.get g.s i) ∧
      IssuesTo (.dqnt gd o) s k h (g.after k (.dqnt gd o))) ∧
  (∀ gd la t d a s gid k g, Ready s (.amax gd la (.lanes t d a)) gid k g →
    let r := maxAbs32 ((lanesOf (g.picked k (.amax gd la (.lanes t d a)))).map fun l => FTy.val t (g.vnum a t.wide l))
    IssuesLater (.amax gd la (.lanes t d a)) s k g la (regsOf g (.amax gd la (.lanes t d a))).2
      ⟨[], [(d.toNat, BitVec.ofNat 32 r.1)], [], r.2⟩) ∧
  (∀ gd la d z s gid k g, Ready s (.amax gd la (.row d z)) gid k g → z.toNat < g.tiles.length → g.tileBusy z.toNat = false →
    IssuesLater (.amax gd la (.row d z)) s k g la (regsOf g (.amax gd la (.row d z))).2
      (g.laneWrites d false (laneVals (g.picked k (.amax gd la (.row d z))) fun l =>
        maxAbs32 ((g.tiles.getD z.toNat Tile.fresh).row l)))) ∧
  (∀ gd la d z s gid k g, Ready s (.amax gd la (.tile d z)) gid k g → z.toNat < g.tiles.length → g.tileBusy z.toNat = false →
    let r := maxAbs32 (g.tiles.getD z.toNat Tile.fresh).all
    IssuesLater (.amax gd la (.tile d z)) s k g la (regsOf g (.amax gd la (.tile d z))).2
      ⟨[], [(d.toNat, BitVec.ofNat 32 r.1)], [], r.2⟩) ∧
  (∀ gd la d z s gid k g, Ready s (.amax gd la (.tile d z)) gid k g →
    (g.tiles.length ≤ z.toNat → Traps (.amax gd la (.tile d z)) s gid (g.trapAt k 0x10 1 (g.active k) 0)) ∧
    (z.toNat < g.tiles.length → g.tileBusy z.toNat = true → Waits (.amax gd la (.tile d z)) s)) ∧
  (∀ gd la d z s gid k g, Ready s (.amax gd la (.row d z)) gid k g →
    (g.tiles.length ≤ z.toNat →
      Traps (.amax gd la (.row d z)) s gid (g.trapAt k 0x10 1 (g.picked k (.amax gd la (.row d z))) 0)) ∧
    (z.toNat < g.tiles.length → g.tileBusy z.toNat = true → Waits (.amax gd la (.row d z)) s))

/-- R397 to R404, R234: VPERM and VROT read other lanes (0 outside the 96), VSCAN and VRDC fold the selected lanes in their fixed
orders and write a NaN as the canonical one (R194), VCONF marks first and repeated values, and VELECT names the lowest lane of equal value. -/
def Obligations.CrossLane : Prop :=
  (∀ gd la (o : VPermOp) s gid k g, Ready s (.vperm gd la o) gid k g →
    IssuesLater (.vperm gd la o) s k g la (regsOf g (.vperm gd la o)).2
      (g.laneWrites o.d o.ty.wide (laneVals (g.picked k (.vperm gd la o)) fun l =>
        (if g.vbInt k o.b false l < 96 then g.vnum o.a o.ty.wide (g.vbInt k o.b false l) else 0, 0#8)))) ∧
  (∀ gd (o : VRotOp) s gid k g, Ready s (.vrot gd o) gid k g →
    ∃ (f : Nat → Val) (h : Group),
      (∀ l, (f l).2 = 0#8 ∧
        (∀ m : Nat, m < 96 → (m : Int) = (if o.shift then (l : Int) + rotAmount g k o.b else ((l : Int) + rotAmount g k o.b) % 96) →
          (f l).1 = g.vnum o.a o.ty.wide m) ∧
        (o.shift = true → ((l : Int) + rotAmount g k o.b < 0 ∨ 96 ≤ (l : Int) + rotAmount g k o.b) → (f l).1 = 0)) ∧
      LanesSet g h o.d o.ty.wide (g.picked k (.vrot gd o)) f ∧ IssuesTo (.vrot gd o) s k h (g.after k (.vrot gd o))) ∧
  (∀ gd la (o : VRdcOp) s gid k g, Ready s (.vrdc gd la o) gid k g →
    ∃ v, rdcTree (rdcVal o.ty o.op o.rnd o.sat) (g.picked k (.vrdc gd la o))
        (fun l => atyIn o.ty (g.vnum o.a o.ty.wide l)) = some v ∧
      IssuesLater (.vrdc gd la o) s k g la (regsOf g (.vrdc gd la o)).2
        ⟨[], swords o.d.toNat o.ty.wide (canonOf o.ty v.1), [], v.2⟩) ∧
  (∀ gd la (o : VScanOp) s gid k g, Ready s (.vscan gd la o) gid k g →
    IssuesLater (.vscan gd la o) s k g la (regsOf g (.vscan gd la o)).2
      (g.laneWrites o.d o.ty.wide ((scanLanes (rdcVal o.ty o.op o.rnd o.sat) o.excl (rdcIdentity o.ty o.op)
        (fun l => atyIn o.ty (g.vnum o.a o.ty.wide l)) none (lanesOf (g.picked k (.vscan gd la o)))).map
        fun v => (v.1, canonOf o.ty v.2.1, v.2.2)))) ∧
  (∀ gd (o : VConfOp) s gid k g, Ready s (.vconf gd o) gid k g → o.d.toNat + 1 < 48 →
    let sel := g.picked k (.vconf gd o)
    ∃ h, (∀ l, l < 96 → sel.getLsbD l = true →
        ((h.getP o.d).getLsbD l = true ↔ ∀ m < l, sel.getLsbD m = true → g.vnum o.a o.wide m ≠ g.vnum o.a o.wide l) ∧
        ((h.getP (o.d + 1)).getLsbD l = true ↔
          ∃ m < 96, m ≠ l ∧ sel.getLsbD m = true ∧ g.vnum o.a o.wide m = g.vnum o.a o.wide l)) ∧
      (∀ l i, sel.getLsbD l = false → (h.getP i).getLsbD l = (g.getP i).getLsbD l) ∧
      (∀ i, i ≠ o.d → i ≠ o.d + 1 → h.getP i = g.getP i) ∧ { h with p := g.p } = g ∧
      IssuesTo (.vconf gd o) s k h (g.after k (.vconf gd o))) ∧
  (∀ gd (o : VElectOp) s gid k g, Ready s (.velect gd o) gid k g →
    let sel := g.picked k (.velect gd o)
    ∃ (f : Nat → Val) (h : Group),
      (∀ l, l < 96 → sel.getLsbD l = true → (f l).2 = 0#8 ∧ sel.getLsbD (f l).1 = true ∧
        g.vnum o.a o.wide (f l).1 = g.vnum o.a o.wide l ∧
        ∀ m < (f l).1, sel.getLsbD m = true → g.vnum o.a o.wide m ≠ g.vnum o.a o.wide l) ∧
      LanesSet g h o.d false sel f ∧ IssuesTo (.velect gd o) s k h (g.after k (.velect gd o)))

/-! ## Predicates, control flow and pointers -/

/-- R353, R354, R356: PLOG applies its truth table lane by lane, PMOV moves masks, and PRED tests or counts a predicate over the
active lanes (0xFFFF_FFFF for no lane). -/
def Obligations.Predicates : Prop :=
  (∀ gd (o : PlogOp) s gid k g, Ready s (.plog gd o) gid k g →
    ∃ h, PredSet g h o.d (g.picked k (.plog gd o))
        (fun l => (o.tt.getLsbD ((if (g.getP o.a).getLsbD l then 2 else 0) + (if (g.getP o.b).getLsbD l then 1 else 0)), 0#8)) ∧
      IssuesTo (.plog gd o) s k h (g.after k (.plog gd o))) ∧
  (∀ gd d a s gid k g, Ready s (.pmov gd (.pp d a)) gid k g →
    ∃ h, PredSet g h d (g.picked k (.pmov gd (.pp d a))) (fun l => ((g.getP a).getLsbD l, 0#8)) ∧
      IssuesTo (.pmov gd (.pp d a)) s k h (g.after k (.pmov gd (.pp d a)))) ∧
  (∀ gd d a s gid k g, Ready s (.pmov gd (.ps d a)) gid k g →
    ∃ h, PredSet g h d (g.picked k (.pmov gd (.ps d a)))
        (fun l => ((g.getS k (a.toNat + l / 32)).getLsbD (l % 32), 0#8)) ∧
      IssuesTo (.pmov gd (.ps d a)) s k h (g.after k (.pmov gd (.ps d a)))) ∧
  (∀ gd d b s gid k g, Ready s (.pmov gd (.pi d b)) gid k g →
    ∃ h, PredSet g h d (g.picked k (.pmov gd (.pi d b))) (fun _ => (b, 0#8)) ∧
      IssuesTo (.pmov gd (.pi d b)) s k h (g.after k (.pmov gd (.pi d b)))) ∧
  (∀ gd d a s gid k g, Ready s (.pmov gd (.sp d a)) gid k g →
    IssuesTo (.pmov gd (.sp d a)) s k
      (g.writeS k [(d.toNat, (g.getP a).extractLsb' 0 32), (d.toNat + 1, (g.getP a).extractLsb' 32 32),
        (d.toNat + 2, (g.getP a).extractLsb' 64 32)]) (g.after k (.pmov gd (.sp d a)))) ∧
  (∀ gd (o : PredOp) s gid k g, Ready s (.pred gd o) gid k g →
    ∃ (n : Nat),
      (let on := (List.range 96).filter fun l => (g.getP o.a).getLsbD l && (g.active k).getLsbD l
       match o.op with
       | .any => n = if on = [] then 0 else 1
       | .all => n < 2 ∧ (n = 1 ↔ ∀ l < 96, (g.active k).getLsbD l = true → (g.getP o.a).getLsbD l = true)
       | .cnt => n = on.length
       | .first => n = on.head?.getD 0xFFFFFFFF
       | .last => n = on.getLast?.getD 0xFFFFFFFF) ∧
      IssuesTo (.pred gd o) s k (g.writeS k [(o.d.toNat, BitVec.ofNat 32 n)]) (g.after k (.pred gd o)))

/-- R314, R315, R340, R75: NOP only moves on, BR continues at its target, BRC there when its condition holds, and LOOP counts s[A]
down and continues at the target until it is 0. -/
def Obligations.Branches : Prop :=
  (∀ gd s gid k g, Ready s (.nop gd) gid k g → IssuesTo (.nop gd) s k g (g.after k (.nop gd))) ∧
  (∀ gd off s gid k g, Ready s (.br gd off) gid k g → IssuesTo (.br gd off) s k g (g.jump k off)) ∧
  (∀ gd (o : BrcOp) s gid k g, Ready s (.brc gd o) gid k g →
    ∃ b : Bool, (b = true ↔
        match o.test with
        | .cmp c w x y =>
          let n := bitsWide w
          let a := g.sop k x w
          let b := g.sop k y w
          (match c with
            | .eq => a = b | .ne => a ≠ b | .lt => signExt a n < signExt b n | .ge => signExt a n ≥ signExt b n
            | .ltu => a < b | .geu => a ≥ b)
        | .anyS zero w i => (g.snum k i w = 0 ↔ zero = true)
        | .anyP zero i => ((∀ l < 96, (g.active k).getLsbD l = true → (g.getP i).getLsbD l = false) ↔ zero = true)) ∧
      IssuesTo (.brc gd o) s k g (if b then g.jump k o.off else g.after k (.brc gd o))) ∧
  (∀ gd (o : LoopOp) s gid k g, Ready s (.loop gd o) gid k g →
    let n := g.getS k o.a.toNat - 1#32
    IssuesTo (.loop gd o) s k (g.setS k o.a.toNat n) (if n = 0#32 then g.after k (.loop gd o) else g.jump k o.off))

/-- R96, R317, R318, R366, Table 3-13: CALL writes its frame to the STACK region, slides the window and jumps; RET reads it back and
undoes it; a page of the spill area that the slide touches, if it is missing, parks the slot. Both trap ILLEGAL_INSTRUCTION reason 8
beside another strand, and WINDOW_FAULT with auxiliary 1 to 3; an indirect target that is no multiple of 8 traps MISALIGNED. -/
def Obligations.Calls : Prop :=
  (∀ gd (o : CallOp) s gid k g, Ready s (.call gd o) gid k g →
    let alone := (g.slot (1 - k)).strand = none ∧ ∀ e ∈ g.eddy, isStrandEntry e = false
    let n := 8 * o.slide.toNat
    let put := s.partPut ((s.ctxOf g).getD emptyCtx) (s.frameAddr g g.depth) (frameBytes (g.pc k + 16) n) none
    (∀ s1 x, alone → g.wbase + n ≤ 30720 → g.depth ≠ 253952 → s.spillMiss g (s.slidNames g g.wbase n) = none → put = (s1, .ok x) →
      IssuesOver (.call gd o) s s1 k { g with wbase := g.wbase + n, depth := g.depth + 1 } (g.jump k o.off)) ∧
    (∀ va, alone → g.wbase + n ≤ 30720 → g.depth ≠ 253952 → s.spillMiss g (s.slidNames g g.wbase n) = some va →
      exec (.call gd o) s = .next (s.parkSlot g k va true (g.active k))) ∧
    (¬alone → Traps (.call gd o) s gid (g.trapAt k 1 8 (g.active k) 0)) ∧
    (alone → 30720 < g.wbase + n → Traps (.call gd o) s gid (g.trapAt k 0x0F 1 (g.active k) 0)) ∧
    (alone → g.wbase + n ≤ 30720 → g.depth = 253952 → Traps (.call gd o) s gid (g.trapAt k 0x0F 2 (g.active k) 0))) ∧
  (∀ gd (o : CallIndOp) s gid k g, Ready s (.callInd gd o) gid k g →
    let alone := (g.slot (1 - k)).strand = none ∧ ∀ e ∈ g.eddy, isStrandEntry e = false
    let n := 8 * o.slide.toNat
    let dest := g.snum k o.a true
    let put := s.partPut ((s.ctxOf g).getD emptyCtx) (s.frameAddr g g.depth) (frameBytes (g.pc k + 16) n) none
    (∀ s1 x, alone → dest % 8 = 0 → g.wbase + n ≤ 30720 → g.depth ≠ 253952 → s.spillMiss g (s.slidNames g g.wbase n) = none →
      put = (s1, .ok x) →
      IssuesOver (.callInd gd o) s s1 k { g with wbase := g.wbase + n, depth := g.depth + 1 } (BitVec.ofNat 64 dest)) ∧
    (∀ va, alone → dest % 8 = 0 → g.wbase + n ≤ 30720 → g.depth ≠ 253952 → s.spillMiss g (s.slidNames g g.wbase n) = some va →
      exec (.callInd gd o) s = .next (s.parkSlot g k va true (g.active k))) ∧
    (alone → dest % 8 ≠ 0 → Traps (.callInd gd o) s gid (g.trapAt k 0x0C 0 (g.active k) dest)) ∧
    (alone → dest % 8 = 0 → 30720 < g.wbase + n → Traps (.callInd gd o) s gid (g.trapAt k 0x0F 1 (g.active k) 0)) ∧
    (alone → dest % 8 = 0 → g.wbase + n ≤ 30720 → g.depth = 253952 →
      Traps (.callInd gd o) s gid (g.trapAt k 0x0F 2 (g.active k) 0)) ∧
    (¬alone → Traps (.callInd gd o) s gid (g.trapAt k 1 8 (g.active k) 0))) ∧
  (∀ gd s gid k g, Ready s (.ret gd) gid k g →
    let alone := (g.slot (1 - k)).strand = none ∧ ∀ e ∈ g.eddy, isStrandEntry e = false
    (∀ bs, alone → g.depth ≠ 0 → s.homeRead ((s.ctxOf g).getD emptyCtx) (s.frameAddr g (g.depth - 1)) 16 = .ok bs →
      let n := leNat ((bs.drop 8).take 4)
      n ≤ g.wbase → s.spillMiss g (s.slidNames g (g.wbase - n) n) = none →
      IssuesTo (.ret gd) s k { g with wbase := g.wbase - n, depth := g.depth - 1 } (BitVec.ofNat 64 (leNat (bs.take 8)))) ∧
    (∀ va w, alone → g.depth ≠ 0 → s.homeRead ((s.ctxOf g).getD emptyCtx) (s.frameAddr g (g.depth - 1)) 16 = .miss va w →
      exec (.ret gd) s = .next (s.parkSlot g k va false (g.active k))) ∧
    (alone → g.depth = 0 → Traps (.ret gd) s gid (g.trapAt k 0x0F 3 (g.active k) 0)) ∧
    (¬alone → Traps (.ret gd) s gid (g.trapAt k 1 8 (g.active k) 0))) ∧
  (∀ (s : State) (g : Group) n c, s.ctxOf g = some c → s.frameAddr g n = c.stackBase g.gid + 0x0C20000 + 16 * n) ∧
  (∀ (ra : W64) n, n < 2 ^ 32 → (frameBytes ra n).length = 16 ∧ leNat ((frameBytes ra n).take 8) = ra.toNat ∧
    leNat (((frameBytes ra n).drop 8).take 4) = n ∧ leNat ((frameBytes ra n).drop 12) = 0)

/-- R42, R316, R439: BRV moves the whole strand, or splits it in two below the depth limit, or traps EDDY_OVERFLOW. -/
def Obligations.Splits : Prop :=
  ∀ gd (o : BrvOp) s gid k g, Ready s (.brv gd o) gid k g →
    let t := g.strand k
    let sel := g.picked k (.brv gd o)
    let need := if (g.slot (1 - k)).strand = none then 1 else 2
    (sel = t.members → IssuesTo (.brv gd o) s k g (g.jump k o.off)) ∧
    (sel ≠ t.members → g.eddy.length + need ≤ s.depthLimit g →
      ∃ h : Group, (h.slot k).strand =
          some ⟨g.after k (.brv gd o), t.members &&& ~~~sel, t.active &&& ~~~sel, some (g.jump k o.join)⟩ ∧
        (h.slot (1 - k)).strand = (match (g.slot (1 - k)).strand with
          | none => some ⟨g.jump k o.off, sel, sel, some (g.jump k o.join)⟩
          | some x => some x) ∧
        h.eddy = g.eddy ++ Eddy.join (g.jump k o.join) t.join t.members 0#96 ::
          (if need = 1 then [] else [Eddy.strand (g.jump k o.off) (some (g.jump k o.join)) sel false]) ∧
        { h with slot0 := g.slot0, slot1 := g.slot1, eddy := g.eddy } = g ∧ IssuesInto (.brv gd o) s k h) ∧
    (sel ≠ t.members → s.depthLimit g < g.eddy.length + need →
      Traps (.brv gd o) s gid (g.trapAt k 0x0E ((g.eddy.length + need) % 2 ^ 16) sel 0))

/-- R43, R44, R330: JOIN at the strand's join address parks its members in the latest record of that address, or completes the
record and forms the strand; an empty slot takes the latest strand entry. Any other JOIN only moves on. -/
def Obligations.Joins : Prop :=
  ∀ s gid k g, Ready s .join gid k g →
    let t := g.strand k
    let here (e : Eddy) : Prop := ∃ o pending parked, e = .join t.pc o pending parked ∧ t.members &&& pending = t.members
    (t.join ≠ some t.pc → IssuesTo .join s k g (g.after k .join)) ∧
    (∀ old o pending parked new, t.join = some t.pc → g.eddy = old ++ Eddy.join t.pc o pending parked :: new →
      t.members &&& pending = t.members → (∀ e ∈ new, ¬here e) →
      (parked ||| t.members = pending → pending ≠ 0#96 →
        ∃ h : Group, (h.slot k).strand = some ⟨t.pc + 8, pending, pending, o⟩ ∧ h.slot (1 - k) = g.slot (1 - k) ∧ h.eddy = old ++ new ∧
          { h with slot0 := g.slot0, slot1 := g.slot1, eddy := g.eddy } = g ∧ IssuesInto .join s k h) ∧
      ((parked ||| t.members ≠ pending ∨ pending = 0#96) →
        let all := old ++ (if parked ||| t.members = pending then [] else [Eddy.join t.pc o pending (parked ||| t.members)]) ++ new
        ((∀ e ∈ all, isStrandEntry e = false) →
          ∃ h : Group, (h.slot k).strand = none ∧ h.slot (1 - k) = g.slot (1 - k) ∧ h.eddy = all ∧
            { h with slot0 := g.slot0, slot1 := g.slot1, eddy := g.eddy } = g ∧ IssuesInto .join s k h) ∧
        (∀ xs pc j m b ys, all = xs ++ Eddy.strand pc j m b :: ys → (∀ e ∈ ys, isStrandEntry e = false) →
          ∃ h : Group, (h.slot k).strand = some ⟨pc, m, m, j⟩ ∧ h.slot (1 - k) = g.slot (1 - k) ∧ h.eddy = xs ++ ys ∧
            { h with slot0 := g.slot0, slot1 := g.slot1, eddy := g.eddy } = g ∧ IssuesInto .join s k h)))

/-- R331 to R333, R439: JTAB whose reads have all returned continues at the one target, or splits by the targets in ascending order
of the smallest index of each; its checks trap with nothing moved, a target that is no multiple of 8 among them. While an earlier access
of its group, or its class, holds back its reads, it waits; that what acquires have read stays once it has read is the model's choice
(log entry 74). -/
def Obligations.JumpTable : Prop :=
  ∀ gd (o : JtabOp) s gid k g, Ready s (.jtab gd o) gid k g →
    let t := g.strand k
    let sel := g.picked k (.jtab gd o)
    let p := Ptr.ofBits (g.getA o.ptr)
    let idx (l : Nat) : Nat := (g.getV o.a l).toNat
    let first := p.elemAddr (Int.ofNat (idx ((lanesOf sel).headD 0)))
    let x := s.sortLanes g p 1 4 4 ((lanesOf sel).map fun l => (l, some (Int.ofNat (idx l))))
    (s.domainBad g p = true → Traps (.jtab gd o) s gid (g.trapAt k 6 0 sel first)) ∧
    (s.domainBad g p = false → p.fmt ≠ 5 → Traps (.jtab gd o) s gid (g.trapAt k 8 0 sel first)) ∧
    (∀ l rest, s.domainBad g p = false → p.fmt = 5 → ((lanesOf sel).filter fun l => decide (p.count ≤ idx l)) = l :: rest →
      Traps (.jtab gd o) s gid
        (g.trapAt k 0x0D (idx l) (maskOf (l :: rest)) (modPow (Int.ofNat p.base + 4 * Int.ofNat (idx l)) 64))) ∧
    (s.domainBad g p = false → p.fmt = 5 → (∀ l ∈ lanesOf sel, idx l < p.count) → x.out = [] → x.mis = [] →
      s.readWaits g p 4 (x.ok.map (·.2)) = true → Waits (.jtab gd o) s) ∧
    (∀ s1 got, s.domainBad g p = false → p.fmt = 5 → (∀ l ∈ lanesOf sel, idx l < p.count) → x.out = [] → x.mis = [] →
      s.readWaits g p 4 (x.ok.map (·.2)) = false → loadLanes (s.port g p) 4 x.ok s = (s1, got, [], []) →
      let s2 := if p.cls = clSync then s1.acquire g p.scope else s1
      let xs := got.map fun y => (y.1, idx y.1, g.pc k + BitVec.ofInt 64 (signExt (leNat y.2) 32))
      (∀ l i dest rest, xs.filter (fun y => decide (y.2.2.toNat % 8 ≠ 0)) = (l, i, dest) :: rest →
        exec (.jtab gd o) s = .next (s2.takeTrap gid (g.trapAt k 0x0C 0 (maskOf (l :: rest.map (·.1))) dest.toNat))) ∧
      ((∀ y ∈ xs, y.2.2.toNat % 8 = 0) →
      (∀ dest m, jtabTargets xs = [(dest, m)] →
        exec (.jtab gd o) s =
          .next (s2.setGroup (((g.setStrand k (some { t with pc := dest, active := m })).noted (.jtab gd o)).rested k))) ∧
      (∀ dest m dest' m' others, jtabTargets xs = (dest, m) :: (dest', m') :: others →
        let pushed := if (g.slot (1 - k)).strand = none then others else (dest', m') :: others
        let join := some (g.jump k o.join)
        (g.eddy.length + 1 + pushed.length ≤ s2.depthLimit g →
          ∃ h : Group, (h.slot k).strand = some ⟨dest, m ||| (t.members &&& ~~~sel), m, join⟩ ∧
            (h.slot (1 - k)).strand = (match (g.slot (1 - k)).strand with
              | none => some ⟨dest', m', m', join⟩
              | some x => some x) ∧
            h.eddy = g.eddy ++ Eddy.join (g.jump k o.join) t.join t.members 0#96 ::
              (pushed.map fun y => Eddy.strand y.1 join y.2 true).reverse ∧
            { h with slot0 := g.slot0, slot1 := g.slot1, eddy := g.eddy } = g ∧
            exec (.jtab gd o) s = .next (s2.setGroup ((h.noted (.jtab gd o)).rested k))) ∧
        (s2.depthLimit g < g.eddy.length + 1 + pushed.length →
          exec (.jtab gd o) s = .next (s2.takeTrap gid (g.trapAt k 0x0E ((g.eddy.length + 1 + pushed.length) % 2 ^ 16) sel 0))))))

/-- R39, R45, R321: the selected lanes exit: they are live no more and no join record waits for them; the rest of the strand goes
on at the next instruction. The group retires when its last lane exits. -/
def Obligations.Exits : Prop :=
  ∀ gd s gid k g, Ready s (.exit gd) gid k g →
    let t := g.strand k
    let sel := g.picked k (.exit gd)
    (g.live &&& ~~~sel ≠ 0#96 →
      ∃ h, h.live = g.live &&& ~~~sel ∧
        (∀ a o pending parked, Eddy.join a o pending parked ∈ h.eddy → pending &&& sel = 0#96 ∧ pending ≠ parked) ∧
        (t.members &&& ~~~sel ≠ 0#96 →
          (h.slot k).strand = some ⟨g.after k (.exit gd), t.members &&& ~~~sel, t.active &&& ~~~sel, t.join⟩) ∧
        { h with slot0 := g.slot0, slot1 := g.slot1, eddy := g.eddy, live := g.live } = g ∧ IssuesInto (.exit gd) s k h) ∧
    (g.live &&& ~~~sel = 0#96 →
      ∃ u h, exec (.exit gd) s = .next u ∧ u.group? gid = some h ∧ h.retired = true ∧ h.live = 0#96 ∧
        h.slot0.strand = none ∧ h.slot1.strand = none ∧ h.eddy = [])

/-- R144, R145, R148, R149, R299, R351, R352, R355, R407: PDER, PCLASS, NARROW, WIDEN and ALLOC derive a pointer that keeps
every other field, with its seal recomputed, and PQRY writes one field; NARROW discards the clean words of the range and
WIDEN writes its dirty words back; a result that breaks Table 5-2 traps POINTER_FORMAT. That WIDEN waits for earlier accesses of its
group to the range, and that its pointer waits in an entry for the acknowledgement of the homes, is the model's choice (log entry 21); so
are the POINTER_FORMAT of a count that PDER's result cannot hold (log entry 28), and a base at the end of the space, which is kept modulo
2^52 (log entry 70). -/
def Obligations.Pointers : Prop :=
  (∀ gd (o : PderOp) s gid k g, Ready s (.pder gd o) gid k g →
    let p := Ptr.ofBits (g.getA o.a)
    let nf := (match o.fmt with | some f => f.toNat | none => p.fmt)
    let off := (match o.src with | .quad i => g.snum k i true | .tail x => g.sop k x false)
    let start := p.base + off * Machine.sizeOf p.fmt
    let stop := p.base + p.count * Machine.sizeOf p.fmt
    let cnt := (match o.src with
      | .quad i => (g.getS k (i.toNat + 2)).toNat + 2 ^ 32 * (g.getS k (i.toNat + 3)).toNat
      | .tail _ => (stop - start) / Machine.sizeOf nf)
    let q := { p with base := start, count := cnt, fmt := nf }
    (off ≤ p.count → start + cnt * Machine.sizeOf nf ≤ stop → start % alignOf nf = 0 → q.valid = true →
      IssuesTo (.pder gd o) s k (g.setA o.d (q.sealed (s.sealKey g))) (g.after k (.pder gd o))) ∧
    ((p.count < off ∨ stop < start + cnt * Machine.sizeOf nf) → Traps (.pder gd o) s gid (g.trapAt k 4 0 (g.active k) (start % 2 ^ 64))) ∧
    (off ≤ p.count → start + cnt * Machine.sizeOf nf ≤ stop → start % alignOf nf ≠ 0 →
      Traps (.pder gd o) s gid (g.trapAt k 0x0C 0 (g.active k) (start % 2 ^ 64))) ∧
    (off ≤ p.count → start + cnt * Machine.sizeOf nf ≤ stop → start % alignOf nf = 0 → q.valid = false →
      Traps (.pder gd o) s gid (g.trapAt k 8 0 (g.active k) start))) ∧
  (∀ gd (o : PclassOp) s gid k g, Ready s (.pclass gd o) gid k g →
    let p := Ptr.ofBits (g.getA o.a)
    let q := { p with cls := o.cls.toNat }
    let permitted := p.cls = o.cls.toNat ∨ (p.cls = 0 ∧ (o.cls.toNat = 2 ∨ o.cls.toNat = 1)) ∨ (p.cls = 2 ∧ o.cls.toNat = 1)
    (permitted → q.valid = true →
      IssuesTo (.pclass gd o) s k (g.setA o.d (q.sealed (s.sealKey g))) (g.after k (.pclass gd o))) ∧
    (permitted → q.valid = false → Traps (.pclass gd o) s gid (g.trapAt k 8 0 (g.active k) p.base)) ∧
    (¬permitted → Traps (.pclass gd o) s gid (g.trapAt k 5 0 (g.active k) p.base))) ∧
  (∀ gd (o : NarrowOp) s gid k g, Ready s (.narrow gd o) gid k g →
    let p := Ptr.ofBits (g.getA o.a)
    let q := { p with scope := o.scp.toNat, domain := s.domainAt g p.space o.scp.toNat }
    (o.scp.toNat ≤ p.scope → q.valid = true →
      IssuesOver (.narrow gd o) s
        (s.discardClean (s.whoOf ((s.ctxOf g).getD emptyCtx) g.core) (decide (3 ≤ p.scope)) (s.rangeTest g p)) k
        (g.setA o.d (q.sealed (s.sealKey g))) (g.after k (.narrow gd o))) ∧
    (o.scp.toNat ≤ p.scope → q.valid = false → Traps (.narrow gd o) s gid (g.trapAt k 8 0 (g.active k) p.base)) ∧
    (p.scope < o.scp.toNat → Traps (.narrow gd o) s gid (g.trapAt k 1 8 (g.active k) 0))) ∧
  (∀ gd (o : WidenOp) s gid k g, Ready s (.widen gd o) gid k g →
    let p := Ptr.ofBits (g.getA o.a)
    let nc := (match o.cls with | some c => c.toNat | none => p.cls)
    let q := { p with scope := o.scp.toNat, cls := nc, domain := s.domainAt g p.space o.scp.toNat }
    let permitted := p.cls = nc ∨ (p.cls = 0 ∧ (nc = 2 ∨ nc = 1)) ∨ (p.cls = 2 ∧ nc = 1)
    let s1 := ((s.writeBack (s.whoOf ((s.ctxOf g).getD emptyCtx) g.core) o.scp.toNat (s.rangeTest g p) (some gid)).mergeSnoops
      s.run.nextId).publish g p o.scp.toNat
    let x := q.sealed (s.sealKey g)
    let fits := p.scope ≤ o.scp.toNat ∧ o.scp.toNat ≤ p.ceiling ∧ permitted ∧ q.valid = true
    (fits → s.owedInRange g p = true → Waits (.widen gd o) s) ∧
    (fits → s.owedInRange g p = false → (∀ n ∈ s1.mem.snoops, n.gid ≠ some gid) →
      IssuesOver (.widen gd o) s s1 k { g.setA o.d x with interval := g.interval + 1 } (g.after k (.widen gd o))) ∧
    (fits → s.owedInRange g p = false → (∃ n ∈ s1.mem.snoops, n.gid = some gid) →
      IssuesOver (.widen gd o) s s1.took k
        { g with
          interval := g.interval + 1
          flight := g.flight ++ [⟨s1.run.nextId, k, g.pc k, 0, [.a o.d.toNat], 0#96, g.active k, .ready ⟨[], [], [(o.d.toNat, x)], 0#8⟩,
            none, none, true, none⟩] } (g.after k (.widen gd o))) ∧
    (p.scope ≤ o.scp.toNat → o.scp.toNat ≤ p.ceiling → permitted → q.valid = false →
      Traps (.widen gd o) s gid (g.trapAt k 8 0 (g.active k) p.base)) ∧
    (o.scp.toNat < p.scope → Traps (.widen gd o) s gid (g.trapAt k 1 8 (g.active k) 0)) ∧
    (p.scope ≤ o.scp.toNat → p.ceiling < o.scp.toNat → Traps (.widen gd o) s gid (g.trapAt k 7 0 (g.active k) p.base)) ∧
    (p.scope ≤ o.scp.toNat → o.scp.toNat ≤ p.ceiling → ¬permitted → Traps (.widen gd o) s gid (g.trapAt k 5 0 (g.active k) p.base))) ∧
  (∀ gd (o : PqryOp) s gid k g, Ready s (.pqry gd o) gid k g →
    let x := g.getA o.a
    let v : W32 := (match o.fld.toNat with
      | 0 => x.extractLsb' 0 32
      | 1 => (x.extractLsb' 32 20).setWidth 32
      | 2 => x.extractLsb' 52 32
      | 3 => (x.extractLsb' 84 4).setWidth 32
      | 4 => (x.extractLsb' 88 6).setWidth 32
      | 5 => (x.extractLsb' 94 3).setWidth 32
      | 6 => (x.extractLsb' 97 2).setWidth 32
      | 7 => (x.extractLsb' 99 3).setWidth 32
      | 8 => (x.extractLsb' 102 3).setWidth 32
      | 9 => (x.extractLsb' 105 11).setWidth 32
      | 10 => (x.extractLsb' 116 12).setWidth 32
      | _ => BitVec.ofNat 32 (Machine.sizeOf (Ptr.ofBits x).fmt))
    IssuesTo (.pqry gd o) s k (g.writeS k [(o.d.toNat, v)]) (g.after k (.pqry gd o))) ∧
  (∀ gd (o : AllocOp) s gid k g, Ready s (.alloc gd o) gid k g →
    let z := Ptr.ofBits (g.getA o.a)
    let m := max 16 (alignOf o.fmt.toNat)
    ∃ start, z.base ≤ start ∧ start < z.base + m ∧ start % m = 0 ∧
      (let stop := start + g.sop k o.b false * Machine.sizeOf o.fmt.toNat
       let key := s.sealKey g
       (z.fmt = 0x3F → z.space ≠ 2 → stop ≤ z.base + z.count →
        IssuesTo (.alloc gd o) s k
          ((g.setA o.d ({ z with base := start, count := g.sop k o.b false, fmt := o.fmt.toNat }.sealed key)).setA o.a
            ({ z with base := stop, count := z.base + z.count - stop }.sealed key)) (g.after k (.alloc gd o))) ∧
       (z.fmt = 0x3F → z.space ≠ 2 → z.base + z.count < stop →
        IssuesTo (.alloc gd o) s k (g.setA o.d (Ptr.null.rebind g.core (s.teamIdx g) key)) (g.after k (.alloc gd o))) ∧
       ((z.fmt ≠ 0x3F ∨ z.space = 2) → Traps (.alloc gd o) s gid (g.trapAt k 8 0 (g.active k) z.base))))

/-! ## Memory accesses -/

/-- R150, R132, R134: a lane with element index e reaches the byte address base + e x Size(format), and an access of w elements
and n bytes is sorted by its checks: in bounds, inside its space and aligned, or not. The order of ACCESS reasons within one
lane is the model's choice (log entry 23). -/
def Obligations.ElementAddresses : Prop :=
  ∀ (s : State) (g : Group) (p : Ptr) (w n align : Nat) (xs : List (Nat × Option Int)), 0 < align →
    let x := s.sortLanes g p w n align xs
    let addr (e : Int) : Nat := ((Int.ofNat p.base + e * Int.ofNat (Machine.sizeOf p.fmt)) % 2 ^ 64).toNat
    let bounded (e : Int) : Prop := 0 ≤ e ∧ e + Int.ofNat w - 1 < Int.ofNat p.count
    (∀ l a, (l, a) ∈ x.ok ↔ ∃ e, (l, some e) ∈ xs ∧ bounded e ∧ s.outside g p (addr e) n = false ∧ addr e % align = 0 ∧ a = addr e) ∧
    (∀ l a, (l, a) ∈ x.mis ↔ ∃ e, (l, some e) ∈ xs ∧ bounded e ∧ s.outside g p (addr e) n = false ∧ addr e % align ≠ 0 ∧ a = addr e) ∧
    (∀ l a, (l, a) ∈ x.out ↔ ((l, none) ∈ xs ∧ a = 0) ∨
      ∃ e, (l, some e) ∈ xs ∧ (¬bounded e ∨ s.outside g p (addr e) n = true) ∧ a = addr e)

/-- R135, R139, R434: an ST through READSHARED traps CLASS_VIOLATION, as an ATOM does, and an LD, ST or ATOM whose pointer's domain
does not match traps SCOPE_DOMAIN, with the selected lanes (the active ones of a uniform access), the address that the lowest of them
would access and auxiliary word 0; one whose guard selects no lane raises neither. -/
def Obligations.AccessChecks : Prop :=
  (∀ gd la (o : MemOp) s gid k g e, Ready s (.ld gd la o) gid k g →
    let p := Ptr.ofBits (g.getA o.ptr)
    let sel := g.picked k (.ld gd la o)
    s.streamWaits g o.off (accessLanes o.data.uniform sel) = false → PairFits o p →
      LowestIndex s g k o.off o.ext ((accessLanes o.data.uniform sel).headD 0) e → s.domainBad g p = true →
      Traps (.ld gd la o) s gid (g.trapAt k 6 0 (if o.data.uniform then g.active k else sel)
        ((Int.ofNat p.base + e * Int.ofNat (Machine.sizeOf p.fmt)) % 2 ^ 64).toNat)) ∧
  (∀ gd (o : MemOp) s gid k g e, Ready s (.st gd o) gid k g →
    let p := Ptr.ofBits (g.getA o.ptr)
    let sel := g.picked k (.st gd o)
    s.streamWaits g o.off (accessLanes o.data.uniform sel) = false → PairFits o p →
      LowestIndex s g k o.off o.ext ((accessLanes o.data.uniform sel).headD 0) e → (p.cls = 1 ∨ s.domainBad g p = true) →
      Traps (.st gd o) s gid (g.trapAt k (if p.cls = 1 then 5 else 6) 0 (if o.data.uniform then g.active k else sel)
        ((Int.ofNat p.base + e * Int.ofNat (Machine.sizeOf p.fmt)) % 2 ^ 64).toNat)) ∧
  (∀ gd la (o : AtomOp) s gid k g e, Ready s (.atom gd la o) gid k g →
    let p := Ptr.ofBits (g.getA o.ptr)
    let sel := g.picked k (.atom gd la o)
    s.streamWaits g o.off (lanesOf sel) = false → o.vb.toNat % (atomBytes o.rsf o.wide p.fmt / 4) = 0 → LowestIndex s g k o.off (some o.ext) ((lanesOf sel).headD 0) e →
      (p.cls = 1 ∨ s.domainBad g p = true) →
      Traps (.atom gd la o) s gid (g.trapAt k (if p.cls = 1 then 5 else 6) 0 sel
        ((Int.ofNat p.base + e * Int.ofNat (Machine.sizeOf p.fmt)) % 2 ^ 64).toNat)) ∧
  (∀ (i : Instr) s gid k (g : Group), ((∃ gd la o, i = .ld gd la o) ∨ (∃ gd o, i = .st gd o) ∨ ∃ gd la o, i = .atom gd la o) →
    Standing s gid k g → s.holds g k i = false → g.acts k i = false → IssuesTo i s k g (g.after k i))

/-- R336, R337, R84, R87: an LD that passes its checks enters the in-flight list with the addresses of its lanes; its
destination is pending, and memory is not changed; R337, R338, R142, R203, R87: the result of an LD whose reads all succeed is
written to its pending lanes or scalars, or held while its window is open; a pointer is written only when its seal and Table 5-2
hold. That an LD reads memory when its result arrives, and a THROUGH read takes the L1 copy only while it is dirty, is the
model's choice (log entries 14 and 17), and so is what earlier entries of the group keep of their reads from then on (State.performing;
log entry 74). -/
def Obligations.Loads : Prop :=
  (∀ gd la (o : MemOp) s gid k g s1 h1 x, Ready s (.ld gd la o) gid k g →
    let sel := g.picked k (.ld gd la o)
    let bits := g.getA o.ptr
    let p := Ptr.ofBits bits
    s.streamWaits g o.off (accessLanes o.data.uniform sel) = false → s.memChecks g k false sel o = none →
    Accesses s g p (widthOf p.fmt o.rsf) (reachOf o s g k sel) s1 h1 x →
    let dst := (match o.data with | .v i => Dst.v (g.absV i) | .s i => Dst.s i.toNat | .a i => Dst.a i.toNat)
    let f : Flight := ⟨s1.run.nextId, k, g.pc k, la.toNat, (dataRegs g o).filter pendable,
      if o.data.uniform then g.active k else sel, g.active k, .load bits o.rsf dst x.ok x.ok Writes.none, none, none, p.cls == 2,
      (streamOf g o.off).map (·.1)⟩
    IssuesOver (.ld gd la o) s s1.took k { h1 with flight := h1.flight ++ [f] } (g.after k (.ld gd la o)) ∧
    ((∀ i, o.off ≠ .stream i) → s1 = s ∧ h1 = g)) ∧
  (∀ gd la (o : MemOp) s gid k g, Ready s (.ld gd la o) gid k g →
    s.streamWaits g o.off (accessLanes o.data.uniform (g.picked k (.ld gd la o))) = true → Waits (.ld gd la o) s) ∧
  (∀ s gid fid (g : Group) (f : Flight) bits rsf dst all lanes done s1 got,
    s.group? gid = some g → g.flightOf fid = some f → f.held = none → f.parked = none → g.resident = true →
    s.inTurn g f = true → f.pend = .load bits rsf dst all lanes done →
    let p := Ptr.ofBits bits
    let s0 := s.performing g fid none
    let s2 := if p.cls = 2 then s1.acquire g p.scope else s1
    let wide := dataWide rsf p.fmt
    let flagged (w : Writes) : Prop := ∀ i, w.flags.getLsbD i = true ↔
      done.flags.getLsbD i = true ∨ ∃ l bs, (l, bs) ∈ got ∧ (loadVal p.fmt rsf bs).2.getLsbD i = true
    let arrived (w : Writes) : Out := .next (s2.updGroup gid fun h =>
      if f.window = 0 then (h.applyWrites f.slot f.dests w).dropFlight f.fid
      else h.putFlight { f with held := some w, acquire := false })
    loadLanes (s0.port g p) (widthOf p.fmt rsf) lanes s0 = (s1, got, [], []) →
    (∀ n, dst = .v n → ∃ w : Writes, w.sw = done.sw ∧ w.aw = done.aw ∧ flagged w ∧
      (∀ c, c ∈ w.vw ↔ c ∈ done.vw ∨ ∃ l bs, (l, bs) ∈ got ∧ c ∈ vwords n wide l (loadVal p.fmt rsf bs).1) ∧
      exec (.longLatencyResult gid fid) s = arrived w) ∧
    (∀ n, dst = .s n → ∃ w : Writes, w.vw = done.vw ∧ w.aw = done.aw ∧ flagged w ∧
      (∀ c, c ∈ w.sw ↔ c ∈ done.sw ∨ ∃ l bs, (l, bs) ∈ got ∧ c ∈ swords n wide (loadVal p.fmt rsf bs).1) ∧
      exec (.longLatencyResult gid fid) s = arrived w) ∧
    (∀ n l a bs, dst = .a n → done = Writes.none → lanes = [(l, a)] → got = [(l, bs)] →
      let x : W128 := BitVec.ofNat 128 (loadVal p.fmt rsf bs).1
      let fault (c : Nat) : Trap := ⟨c, 0, f.active, a, 0, f.slot, f.pc⟩
      (sealOk (s1.sealKey g) x = true → (Ptr.ofBits x).valid = true →
        ∃ w : Writes, w.vw = [] ∧ w.sw = [] ∧ w.aw = [(n, x)] ∧ exec (.longLatencyResult gid fid) s = arrived w) ∧
      (sealOk (s1.sealKey g) x = false → exec (.longLatencyResult gid fid) s = .next ((s1.endFlight gid fid).takeTrap gid (fault 3))) ∧
      (sealOk (s1.sealKey g) x = true → (Ptr.ofBits x).valid = false →
        exec (.longLatencyResult gid fid) s = .next ((s1.endFlight gid fid).takeTrap gid (fault 8)))))

/-- R382, R383, R203, R206, R189: an ST that passes its checks writes the converted value of each lane, ascending, at the
address of the lane; its flags are ORed into s3, and through a SYNC pointer it is a release; one that an earlier access of its group
keeps waiting (R166, R170) enters the in-flight list, and one to a word that an earlier LD, ATOM, XSECT or MMAB has still to read waits
(R166, R379); R383, R25, R132: an ST leaves every
word that it does not store to as it was, at its home and in every cache, where no basin holds a mirror copy of its line, and every byte
of every tarn that it does not store to. That an ST acts at issue, and that one with a missing page writes nothing, is the model's choice (log entries 15 and
17), and so is what earlier entries of the group keep of their reads (log entry 74). -/
def Obligations.Stores : Prop :=
  (∀ gd (o : MemOp) s gid k g s1 h1 x s3, Ready s (.st gd o) gid k g →
    let sel := g.picked k (.st gd o)
    let bits := g.getA o.ptr
    let p := Ptr.ofBits bits
    let n := widthOf p.fmt o.rsf
    s.streamWaits g o.off (accessLanes o.data.uniform sel) = false → s.memChecks g k true sel o = none →
    Accesses s g p n (reachOf o s g k sel) s1 h1 x → s.owesWord g p n (x.ok.map (·.2)) = false →
    let vals := x.ok.map fun y => (y, storeVal p.fmt o.rsf (storeSource g k o (dataWide o.rsf p.fmt) y.1))
    let lanes := vals.map fun v => (v.1.1, v.1.2, leBytes n v.2.1)
    let h2 := h1.orFlags (vals.foldl (fun f v => f ||| v.2.2) 0#8)
    let f : Flight := ⟨s1.run.nextId, k, g.pc k, 0, [], if o.data.uniform then g.active k else sel, g.active k,
      .store bits o.data.uniform lanes, none, none, false, (streamOf g o.off).map (·.1)⟩
    let h3 := { h2 with flight := h2.flight ++ [f] }
    let s2 := s1.took.setGroup h3
    (s2.inTurn h3 f = false → IssuesOver (.st gd o) s s1.took k h3 (g.after k (.st gd o))) ∧
    (s2.inTurn h3 f = true →
      let u := s2.performing h3 f.fid f.work
      let h4 := s2.keptBy h3 f.fid f.work h2
      storeLanes (u.port h3 p) gid lanes u = (s3, [], []) →
      IssuesOver (.st gd o) s ((s3.mergeSnoops u.run.nextId).noteWrites h3 p n (x.ok.map (·.2))) k
        (if p.cls = 2 then { h4 with interval := h4.interval + 1 } else h4) (g.after k (.st gd o)))) ∧
  (∀ gd (o : MemOp) s gid k g, Ready s (.st gd o) gid k g →
    s.streamWaits g o.off (accessLanes o.data.uniform (g.picked k (.st gd o))) = true → Waits (.st gd o) s) ∧
  (∀ gd (o : MemOp) s gid k g s1 h1 x, Ready s (.st gd o) gid k g →
    let p := Ptr.ofBits (g.getA o.ptr)
    let sel := g.picked k (.st gd o)
    s.streamWaits g o.off (accessLanes o.data.uniform sel) = false → s.memChecks g k true sel o = none →
    reachOf o s g k sel = (s1, h1, x) → s.owesWord g p (widthOf p.fmt o.rsf) (x.ok.map (·.2)) = true → Waits (.st gd o) s) ∧
  (∀ (s : State) (g : Group) (p q : Ptr) n addrs (o : MxOp) gd m j a w, o ∈ g.mq → o.op = .mmab gd m → j ≤ m.n1.toNat →
    g.queue? m.stream.toNat = some q →
    (g.streams.getD m.stream.toNat Stream.fresh).entryAddr ((g.streams.getD m.stream.toNat Stream.fresh).pos + j) = some a →
    w ∈ s.wordKeys g q 4 [a] → w ∈ s.wordKeys g p n addrs → s.owesWord g p n addrs = true) ∧
  (∀ gd (o : MemOp) s gid k g s1 h1 x t, Ready s (.st gd o) gid k g →
    let sel := g.picked k (.st gd o)
    let p := Ptr.ofBits (g.getA o.ptr)
    let n := widthOf p.fmt o.rsf
    let q := s.port g p
    s.streamWaits g o.off (accessLanes o.data.uniform sel) = false → s.memChecks g k true sel o = none →
    Accesses s g p n (reachOf o s g k sel) s1 h1 x → s.owesWord g p n (x.ok.map (·.2)) = false → exec (.st gd o) s = .next t → (∃ h, t.group? gid = some h ∧ h.retired = false) →
    (p.space ≠ 1 → (∀ wa, Untouched s q n (x.ok.map (·.2)) wa → Unmirrored s1 wa → SameWord s1 t q.ctx.aesKey wa) ∧
      t.sys.teams.map (·.tarn) = s1.sys.teams.map (·.tarn)) ∧
    (p.space = 1 → t.mem.home = s1.mem.home ∧ t.mem.l1 = s1.mem.l1 ∧ t.mem.basin = s1.mem.basin ∧
      ∀ b, (∀ y ∈ x.ok, b < y.2 ∨ y.2 + n ≤ b) →
        t.sys.teams.map (fun u => (u.tid, SMap.get u.tarn b)) = s1.sys.teams.map (fun u => (u.tid, SMap.get u.tarn b))))


/-- R304, R305, R83, R206: an ATOM that passes its checks performs its lanes in ascending order; the old values, converted as a
load's, wait in its in-flight entry, and through a SYNC pointer it is a release and an acquire. The new value of each operation
on integers and raw bits, and the order of lanes in every space: a lane converts its operands and acts on what the lanes before it left,
and its flags are raised with it. That an ATOM acts at issue, and what earlier entries of the group keep of their reads from then on, is
the model's choice (log entries 17 and 74). -/
def Obligations.AtomicIssues : Prop :=
  (∀ gd la (o : AtomOp) s gid k g s1 h1 x s3 w, Ready s (.atom gd la o) gid k g →
    let sel := g.picked k (.atom gd la o)
    let bits := g.getA o.ptr
    let p := Ptr.ofBits bits
    let n := atomBytes o.rsf o.wide p.fmt
    s.streamWaits g o.off (lanesOf sel) = false → s.atomChecks g k sel o = none →
    Accesses s g p n (reachOfAtom o s g k sel) s1 h1 x → s.owesWord g p n (x.ok.map (·.2)) = false →
    let base := g.absV (o.vb.setWidth 11)
    let vals := x.ok.map fun y =>
      (y.1, y.2, atomOperand g base n y.1, if o.op = .cas then atomOperand g (base + n / 4) n y.1 else 0)
    let f : Flight := ⟨s1.run.nextId, k, g.pc k, la.toNat + 1, atomDests g o, sel, g.active k,
      .atom bits o.op n o.rsf base vals Writes.none, none, none, p.cls == 2, (streamOf g o.off).map (·.1)⟩
    let h3 := { h1 with flight := h1.flight ++ [f] }
    let s2 := s1.took.setGroup h3
    let u := s2.performing h3 f.fid f.work
    let h4 := s2.keptBy h3 f.fid f.work h1
    s2.inTurn h3 f = true →
    atomLanes (u.portAt h3 h3.core p.space p.atomTy (u.tarnTeam h3 p)) gid o.op p.fmt n o.rsf base vals u = (s3, w, [], []) →
    let s4 := (s3.mergeSnoops u.run.nextId).noteWrites h3 p n (x.ok.map (·.2))
    let h2 := if p.cls = 2 then { h4 with interval := h4.interval + 1 } else h4
    IssuesOver (.atom gd la o) s (if p.cls = 2 then s4.acquire h3 p.scope else s4) k
      { h2 with flight := h2.flight ++ [{ f with
        window := la.toNat, owed := 0#96, acquire := false, pend := .atom bits o.op n o.rsf base [] (Writes.none.join w) }] }
      (g.after k (.atom gd la o))) ∧
  (∀ gd la (o : AtomOp) s gid k g, Ready s (.atom gd la o) gid k g → s.streamWaits g o.off (lanesOf (g.picked k (.atom gd la o))) = true →
    Waits (.atom gd la o) s) ∧
  (∀ gd la (o : AtomOp) s gid k g s1 h1 x, Ready s (.atom gd la o) gid k g →
    let p := Ptr.ofBits (g.getA o.ptr)
    let sel := g.picked k (.atom gd la o)
    s.streamWaits g o.off (lanesOf sel) = false → s.atomChecks g k sel o = none → reachOfAtom o s g k sel = (s1, h1, x) →
    s.owesWord g p (atomBytes o.rsf o.wide p.fmt) (x.ok.map (·.2)) = true → Waits (.atom gd la o) s) ∧
  (∀ (f n old x v : Nat), f ≠ 0x0A → f ≠ 0x0B → old < 2 ^ (8 * n) → x < 2 ^ (8 * n) →
    let signed := f = 0x05 ∨ f = 0x07
    let val (y : Nat) : Int := if signed then signExt y (8 * n) else y
    (atomNew .add f n old x v).1 = (old + x) % 2 ^ (8 * n) ∧
    ((atomNew .min f n old x v).1 = old ∨ (atomNew .min f n old x v).1 = x) ∧
    val (atomNew .min f n old x v).1 ≤ val old ∧ val (atomNew .min f n old x v).1 ≤ val x ∧
    ((atomNew .max f n old x v).1 = old ∨ (atomNew .max f n old x v).1 = x) ∧
    val old ≤ val (atomNew .max f n old x v).1 ∧ val x ≤ val (atomNew .max f n old x v).1 ∧
    (∀ i, (atomNew .and f n old x v).1.testBit i = (old.testBit i && x.testBit i)) ∧
    (∀ i, (atomNew .or f n old x v).1.testBit i = (old.testBit i || x.testBit i)) ∧
    (∀ i, (atomNew .xor f n old x v).1.testBit i = Bool.xor (old.testBit i) (x.testBit i)) ∧
    (atomNew .xchg f n old x v).1 = x ∧ (atomNew .cas f n old x v).1 = (if old = x then v else old)) ∧
  (∀ (s s1 : State) (q : Port) gid op f n rsf dst l a x v rest bs plan, (q.space = 4 → s.denied.2 = false) →
    Port.plan s q true (if q.space = 1 then [] else pieces n a n) = .ok plan →
    q.read (if q.space = 4 then s.denied.1 else s) a n = (s1, .ok bs) →
    let conv (y : Nat) : Val := if rsf = .fp32 ∨ rsf = .fp64 then memConvert (rsfTy rsf) (memTy f) y else (y, 0#8)
    let back : Val := if rsf = .fp32 ∨ rsf = .fp64 then memConvert (memTy f) (rsfTy rsf) (leNat bs) else (leNat bs, 0#8)
    let new := atomNew op f n (leNat bs) (conv x).1 (conv v).1
    let one := atomLanes q gid op f n rsf dst ((l, a, x, v) :: rest) s
    let others := atomLanes q gid op f n rsf dst rest (q.write s1 a (leBytes n new.1) (some gid)).1
    one.1 = others.1 ∧ one.2.2 = others.2.2 ∧ one.2.1.vw = atomWrites dst n l back.1 ++ others.2.1.vw ∧
    ∀ i, one.2.1.flags.getLsbD i = true ↔ (conv x).2.getLsbD i = true ∨ (conv v).2.getLsbD i = true ∨ new.2.getLsbD i = true ∨
      back.2.getLsbD i = true ∨ others.2.1.flags.getLsbD i = true)

/-- R376, R377, R115, R444: SGEN checks its pointer in order, a trap naming the pointer's base (the model's choice, log entry 60),
raises the stream counter and leaves the record to be read; while the stream is not ready, or the counter is 255, it waits. That
an SGEN waits while an earlier record is unread is the model's choice (log entry 27). -/
def Obligations.StreamSetup : Prop :=
  ∀ gd (o : SgenOp) s gid k g, Ready s (.sgen gd o) gid k g →
    let p := Ptr.ofBits (g.getA o.ptr)
    let off := g.sop k o.a false
    let t (c : Nat) : Trap := g.trapAt k c 0 (g.active k) p.base
    let inside := off + 64 ≤ p.count ∧ s.outside g p (p.base + off) 64 = false
    let ready := g.streamFree o.k.toNat = true ∧ g.cntStream ≠ 255
    (¬ready → Waits (.sgen gd o) s) ∧
    (ready → p.fmt ≠ 0x3F → Traps (.sgen gd o) s gid (t 8)) ∧
    (ready → p.fmt = 0x3F → s.domainBad g p = true → Traps (.sgen gd o) s gid (t 6)) ∧
    (ready → p.fmt = 0x3F → s.domainBad g p = false → off % 64 ≠ 0 → Traps (.sgen gd o) s gid (t 0x0C)) ∧
    (ready → p.fmt = 0x3F → s.domainBad g p = false → off % 64 = 0 → ¬inside → Traps (.sgen gd o) s gid (t 4)) ∧
    (ready → p.fmt = 0x3F → s.domainBad g p = false → off % 64 = 0 → inside →
      IssuesTo (.sgen gd o) s k
        { g with
          streams := setAt g.streams o.k.toNat ⟨none, some ⟨g.getA o.ptr, p.base + off, k, g.pc k, g.active k⟩, true, 0⟩
          cntStream := g.cntStream + 1 } (g.after k (.sgen gd o)))

/-! ## Copies, barriers and counters -/

/-- R409, R411, R412, R414, R416, R417: the elements that a record's walk visits, with their source and destination offsets; XFER and XCHAIN take a channel, raise the copy counter and are a release; a record that fails its checks
traps, a head of 0 or off its alignment traps, and a busy channel or a full counter makes them wait. -/
def Obligations.Copies : Prop :=
  (∀ gd (o : XferOp) s gid k g, Ready s (.xfer gd o) gid k g →
    let r := xferRec (g.getA o.a) (g.getA o.d) fun i => (g.getS k (o.b.toNat + i)).toNat
    let c := (s.ctxOf g).getD emptyCtx
    (∀ ch, g.cntCopy ≠ 255 → s.freeChannel g.core = some ch → s.copyFails g false r = none →
      IssuesOver (.xfer gd o) s
        { s.took with sys := { s.sys with copies := s.sys.copies ++
          [⟨s.run.nextId, gid, c.id, g.tid, g.core, ch, false, k, g.pc k, g.active k, 0, some r, 0, false, c.stackBase gid, none, none,
            none, none⟩] } } k
        { g with interval := g.interval + 1, cntCopy := g.cntCopy + 1 } (g.after k (.xfer gd o))) ∧
    (∀ ch e aux w, g.cntCopy ≠ 255 → s.freeChannel g.core = some ch → s.copyFails g false r = some (e, aux, w) →
      Traps (.xfer gd o) s gid (g.trapAt k e aux (g.active k) (if w = 1 then r.srcP.base else if w = 2 then r.dstP.base else 0))) ∧
    ((g.cntCopy = 255 ∨ s.freeChannel g.core = none) → Waits (.xfer gd o) s)) ∧
  (∀ gd (o : XchainOp) s gid k g, Ready s (.xchain gd o) gid k g →
    let head := g.snum k o.a true
    let c := (s.ctxOf g).getD emptyCtx
    (head ≠ 0 → head % 64 = 0 → g.cntCopy ≠ 255 → s.channelBusy g.core o.ch.toNat = false →
      IssuesOver (.xchain gd o) s
        { s.took with sys := { s.sys with copies := s.sys.copies ++
          [⟨s.run.nextId, gid, c.id, g.tid, g.core, o.ch.toNat, true, k, g.pc k, g.active k, head, none, 0, false, c.stackBase gid,
            none, none, none, none⟩] } } k
        { g with interval := g.interval + 1, cntCopy := g.cntCopy + 1 } (g.after k (.xchain gd o))) ∧
    (g.cntCopy ≠ 255 → s.channelBusy g.core o.ch.toNat = false → head = 0 →
      Traps (.xchain gd o) s gid (g.trapAt k 1 8 (g.active k) 0)) ∧
    (g.cntCopy ≠ 255 → s.channelBusy g.core o.ch.toNat = false → head % 64 ≠ 0 →
      Traps (.xchain gd o) s gid (g.trapAt k 0x0C 0 (g.active k) head)) ∧
    ((g.cntCopy = 255 ∨ s.channelBusy g.core o.ch.toNat = true) → Waits (.xchain gd o) s)) ∧
  (∀ (r : CopyRec) j, r.geo = 0 → r.walk j = (j, j)) ∧
  (∀ (r : CopyRec) y c, c < r.w →
    (r.geo = 1 → r.walk (y * r.w + c) = (y * r.sstride + c, y * r.dstride + c)) ∧
    (r.geo = 2 → r.walk (y * r.w + c) = (y * r.sstride + c, morton c y)) ∧
    (r.geo = 3 → r.walk (y * r.w + c) = (morton c y, y * r.dstride + c))) ∧
  (∀ x y i, x < 2 ^ 13 → y < 2 ^ 13 →
    (morton x y).testBit (2 * i) = x.testBit i ∧ (morton x y).testBit (2 * i + 1) = y.testBit i) ∧
  (∀ (r : CopyRec) j, r.limits = true → j < r.count → (r.walk j).1 < r.extent.1 ∧ (r.walk j).2 < r.extent.2)

/-- R308 to R311, R51, R179: BARI sets the count and starts a phase, BARA arrives and is a release, and BARW arrives once when
it is asked to and then issues, an acquire, when the phase of the latest arrival has completed; until then it waits, with the arrival
made, or with the count of completed phases that it found. The phases count modulo 2^16 (log entry 40). -/
def Obligations.Barriers : Prop :=
  (∀ gd (o : BariOp) s gid k g, Ready s (.bari gd o) gid k g →
    let n := g.sop k o.a false
    let b := s.barOf g.tid o.b.toNat
    let fits := n ≠ 0 ∧ n ≤ 65535 ∧ b.count = 0 ∧ s.gangBar g.tid o.b.toNat = false
    (fits → IssuesOver (.bari gd o) s
      (s.setBar g.tid o.b.toNat { b with init := true, expect := n, count := 0, phase := b.phase + 1 }) k g (g.after k (.bari gd o))) ∧
    (¬fits → Traps (.bari gd o) s gid (g.trapAt k 1 8 (g.active k) 0))) ∧
  (∀ gd b s gid k g, Ready s (.bara gd b) gid k g →
    ((s.barOf g.tid b.toNat).init = true → IssuesOver (.bara gd b) s (s.arriveBar g.tid b.toNat (some gid)) k
      { g with interval := g.interval + 1 } (g.after k (.bara gd b))) ∧
    ((s.barOf g.tid b.toNat).init = false → Traps (.bara gd b) s gid (g.trapAt k 1 8 (g.active k) 0))) ∧
  (∀ gd (o : BarwOp) s gid k g, Ready s (.barw gd o) gid k g →
    let b := o.b.toNat
    let scope := if s.gangBar g.tid b then 3 else 2
    let first := o.arrive = true ∧ (g.slot k).arrived = false
    let s1 := if first then s.arriveBar g.tid b (some gid) else s
    let h1 := if first then { g with interval := g.interval + 1 } else g
    let x := s1.barOf g.tid b
    ((s.barOf g.tid b).init = false → Traps (.barw gd o) s gid (g.trapAt k 1 8 (g.active k) 0)) ∧
    (∀ y, (s.barOf g.tid b).init = true → x.latest.find? (fun y => y.1 == gid) = some y → y.2 ≠ x.phase →
      IssuesOver (.barw gd o) s (s1.acquire g scope) k h1 (g.after k (.barw gd o))) ∧
    (∀ y, (s.barOf g.tid b).init = true → x.latest.find? (fun y => y.1 == gid) = some y → y.2 = x.phase → ¬first →
      Waits (.barw gd o) s) ∧
    (∀ y, (s.barOf g.tid b).init = true → x.latest.find? (fun y => y.1 == gid) = some y → y.2 = x.phase → first →
      exec (.barw gd o) s = .next (s1.setGroup
        ({ g.setSlot k { g.slot k with arrived := true } with interval := g.interval + 1 }.noted (.barw gd o)))) ∧
    ((s.barOf g.tid b).init = true → x.latest.find? (fun y => y.1 == gid) = none → ¬first → (g.slot k).barWait = none →
      exec (.barw gd o) s = .next (s.setGroup (g.setSlot k { g.slot k with barWait := some x.dones }))) ∧
    (∀ n, (s.barOf g.tid b).init = true → x.latest.find? (fun y => y.1 == gid) = none → (g.slot k).barWait = some n → x.dones ≠ n →
      IssuesOver (.barw gd o) s (s1.acquire g scope) k h1 (g.after k (.barw gd o))) ∧
    (∀ n, (s.barOf g.tid b).init = true → x.latest.find? (fun y => y.1 == gid) = none → ¬first → (g.slot k).barWait = some n →
      x.dones = n → Waits (.barw gd o) s)) ∧
  (∀ (b : Barrier) gid, 0 < b.expect → b.init = true →
    let c := b.arrive (some gid)
    c.expect = b.expect ∧ c.init = true ∧ c.latest.find? (fun y => y.1 == gid) = some (gid, b.phase) ∧
    (b.count + 1 < b.expect → c.count = b.count + 1 ∧ c.phase = b.phase) ∧
    (b.expect ≤ b.count + 1 → c.count = 0 ∧ c.phase = b.phase + 1))

/-- R178, R388, R390, R405, R444: WAIT issues, an acquire at the widest scope of the completions of its class, once the counter of its class is at most the operand; SYNCW issues once the phase of
the sync word differs from sD, and writes that phase to sD; an earlier access of its group to the word goes first (R166). That a trap of SYNCW names the
pointer's base is the model's choice (log entry 60). -/
def Obligations.CounterWaits : Prop :=
  (∀ gd (o : WaitOp) s gid k g, Ready s (.wait gd o) gid k g →
    let n := (match o.cls.toNat with | 0 => g.cntCopy | 1 => g.cntMx | 2 => g.cntStream | _ => g.cntColl)
    (n ≤ g.sop k o.a false → IssuesOver (.wait gd o) s (s.acquire g (g.seen.getD o.cls.toNat 0)) k g (g.after k (.wait gd o))) ∧
    (g.sop k o.a false < n → Waits (.wait gd o) s)) ∧
  (∀ gd (o : SyncwOp) s gid k g u, Ready s (.syncw gd o) gid k g →
    let p := Ptr.ofBits (g.getA o.a)
    let off := g.sop k o.b false
    let t (c : Nat) : Trap := g.trapAt k c 0 (g.active k) p.base
    let fits := p.space = 1 ∧ p.fmt = 0x3F
    let inside := off + 16 ≤ p.count ∧ s.outside g p (p.base + off) 16 = false
    (¬fits → Traps (.syncw gd o) s gid (g.trapAt k 1 8 (g.active k) 0)) ∧
    (fits → s.domainBad g p = true → Traps (.syncw gd o) s gid (t 6)) ∧
    (fits → s.domainBad g p = false → off % 16 ≠ 0 → Traps (.syncw gd o) s gid (t 0x0C)) ∧
    (fits → s.domainBad g p = false → off % 16 = 0 → ¬inside → Traps (.syncw gd o) s gid (t 4)) ∧
    (fits → s.domainBad g p = false → off % 16 = 0 → inside → s.readWaits g p 4 [p.base + off + 8] = true → Waits (.syncw gd o) s) ∧
    (fits → s.domainBad g p = false → off % 16 = 0 → inside → s.readWaits g p 4 [p.base + off + 8] = false →
      s.team? (s.tarnTeam g p) = some u →
      let phase := leNat ((List.range 4).map fun i => SMap.get u.tarn (p.base + off + 8 + i))
      (phase = (g.getS k o.d.toNat).toNat → Waits (.syncw gd o) s) ∧
      (phase ≠ (g.getS k o.d.toNat).toNat → IssuesOver (.syncw gd o) s (s.acquire g 2) k
        (g.setS k o.d.toNat (BitVec.ofNat 32 phase)) (g.after k (.syncw gd o)))))

/-! ## Matrix instructions -/

/-- R227 to R231, R345: MMA, MMAS and MMAB pass their checks in order and enter the queue with their A operand, their scalars
and their pointer as they stood at issue; a queue that is full, and an MMAB whose stream is not ready, wait; a reserved pattern of MMAS
and a wrong domain of the Q of MMAB's stream trap. That a stream that is not ready makes its consumer wait is the model's choice (log
entry 27), and so are the extent that a reserved pattern has (log entry 85) and the place of the check of Q (log entry 86). -/
def Obligations.MultiplyIssues : Prop :=
  (∀ gd (o : MmaOp) s gid k g, Ready s (.mma gd o) gid k g →
    let off := g.getS k o.boff.toNat
    let zp := (match o.zp with | some i => g.getS k i.toNat | none => 0#32)
    Multiplies (.mma gd o) s gid k g o.fmt o.z.toNat o.fmt.mmaRegs o.a o.clr o.reuse off.toNat (o.fmt.bytes o.fmt.k o.fmt.cols)
      (g.getA o.ptr) [off, zp] (decide (g.mq.length < 32) && decide (g.cntMx ≠ 255)) True) ∧
  (∀ gd (o : MmasOp) s gid k g, Ready s (.mmas gd o) gid k g →
    let off := g.getS k o.boff.toNat
    let hdr := g.getS k (o.hdr.toNat + 1)
    Multiplies (.mmas gd o) s gid k g o.fmt o.z.toNat 32 o.a o.clr o.reuse off.toNat (masBytes o.fmt (hdr.toNat / 2 ^ 30 == 1))
      (g.getA o.ptr) [off, g.getS k o.hdr.toNat, hdr] (decide (g.mq.length < 32) && decide (g.cntMx ≠ 255)) (hdr.toNat < 2 ^ 31) ∧
    (g.mxFull true = false → g.kindKnown o.z.toNat o.clr = true → o.z.toNat < g.tiles.length →
      s.mxPointer g k bSpace (Ptr.ofBits (g.getA o.ptr)) off.toNat (masBytes o.fmt (hdr.toNat / 2 ^ 30 == 1)) = none →
      2 ^ 31 ≤ hdr.toNat → Traps (.mmas gd o) s gid (g.trapAt k 0x10 6 (g.active k) 0))) ∧
  (∀ gd (o : MmabOp) s gid k g, Ready s (.mmab gd o) gid k g →
    let off := g.getS k o.boff.toNat
    Multiplies (.mmab gd o) s gid k g o.fmt o.z.toNat o.fmt.mmabRegs o.a o.clr o.reuse off.toNat
      ((o.n1.toNat + 1) * (o.fmt.bs * o.fmt.bs * o.fmt.bits / 8)) (g.getA o.ptr) [off, BitVec.ofNat 32 (g.sop k o.win false)]
      (decide (g.mq.length < 32) && decide (g.cntMx ≠ 255) && g.streamReady o.stream.toNat)
      (s.streamDomainBad g (g.streams.getD o.stream.toNat Stream.fresh) = false) ∧
    (∀ r, g.mxFull true = false → g.streamReady o.stream.toNat = true → g.kindKnown o.z.toNat o.clr = true → o.z.toNat < g.tiles.length →
      s.mxPointer g k bSpace (Ptr.ofBits (g.getA o.ptr)) off.toNat ((o.n1.toNat + 1) * (o.fmt.bs * o.fmt.bs * o.fmt.bits / 8)) = none →
      (g.streams.getD o.stream.toNat Stream.fresh).body = some r → r.ind = true → s.domainBad g (Ptr.ofBits r.q) = true →
      Traps (.mmab gd o) s gid (g.trapAt k 6 0 (g.active k) (Ptr.ofBits r.q).base))) ∧
  (∀ (g : Group) a f regs reuse free,
    (g.latch = none → ∃ d : SMap 32, (∀ j l, j < regs → l < 96 → SMap.get d (96 * j + l) = g.vAt (g.absV a + j) l) ∧
      g.takeA a f regs reuse free = some (d, if reuse = true then some ⟨a.toNat, f, regs, d⟩ else none)) ∧
    (∀ l, g.latch = some l → (l.a ≠ a.toNat ∨ l.fmt ≠ f) → g.takeA a f regs reuse free = none) ∧
    (∀ l, g.latch = some l → l.a = a.toNat → l.fmt = f → regs ≤ l.regs →
      ∃ d : SMap 32, (∀ c, c ∈ d ↔ c ∈ l.data ∧ c.1 < 96 * regs) ∧
        g.takeA a f regs reuse free = some (d, if reuse = true then some l else none)))

/-- R217, R221, R226, R232, R238, R345, R375, R381, R418, R422, R444: SCACC, SPX, XFORM and ZCLR enter the queue once their checks pass,
in the order of the checks; a queue that is full, and a kind that an m2z has not read yet, make them wait; each trap with its reason and
address. -/
def Obligations.MatrixIssues : Prop :=
  (∀ gd (o : ScaccOp) s gid k g, Ready s (.scacc gd o) gid k g →
    let off := (g.getS k o.boff.toNat).toNat
    let p := Ptr.ofBits (g.getA o.ptr)
    let n := (o.n1.toNat + 1) * 512
    let parts := (List.range (o.n1.toNat + 1)).map fun q => o.zp.toNat + q
    let known := (o.clr = true ∨ (g.tileAfter o.z.toNat).1 ≠ none) ∧ ∀ z ∈ parts, (g.tileAfter z).1 ≠ none
    let ready := g.mxFull true = false ∧ known
    let held := ∀ z ∈ o.z.toNat :: parts, z < g.tiles.length
    let fits := p.fmt = 0x3F ∧ (p.space = 1 ∨ p.space = 2) ∧ off % 64 = 0
    let inside := off + n ≤ p.count ∧ s.outside g p (p.base + off) n = false
    let folds := ∀ z ∈ parts, z ≠ o.z.toNat ∧ (g.tileAfter z).2 = o.grain.num ∧
      ((g.tileAfter z).1 = some .fp32 ∨ (g.tileAfter z).1 = some .int32)
    let t (c aux a : Nat) : Trap := g.trapAt k c aux (g.active k) a
    (¬ready → Waits (.scacc gd o) s) ∧
    (ready → ¬held → Traps (.scacc gd o) s gid (t 0x10 1 0)) ∧
    (ready → held → ¬fits → Traps (.scacc gd o) s gid (t 0x10 5 p.base)) ∧
    (ready → held → fits → s.domainBad g p = true → Traps (.scacc gd o) s gid (t 6 0 p.base)) ∧
    (ready → held → fits → s.domainBad g p = false → ¬inside → Traps (.scacc gd o) s gid (t 4 0 (p.base + off))) ∧
    (ready → held → fits → s.domainBad g p = false → inside → ¬folds → Traps (.scacc gd o) s gid (t 0x10 9 0)) ∧
    (ready → held → fits → s.domainBad g p = false → inside → folds → o.clr = false → (g.tileAfter o.z.toNat).1 ≠ some .fp32 →
      Traps (.scacc gd o) s gid (t 0x10 8 0)) ∧
    (ready → held → fits → s.domainBad g p = false → inside → folds → (o.clr = true ∨ (g.tileAfter o.z.toNat).1 = some .fp32) →
      Queued (.scacc gd o) s s k g g (g.capture o.a (o.n1.toNat + 1)) [g.getS k o.boff.toNat] [g.getA o.ptr] true)) ∧
  (∀ gd (o : SpxOp) s gid k g, Ready s (.spx gd o) gid k g →
    let xo := (g.getS k o.xoff.toNat).toNat
    let co := (g.getS k o.coff.toNat).toNat
    let x := Ptr.ofBits (g.getA o.ax)
    let c := Ptr.ofBits (g.getA o.ac)
    let ready := g.mxFull true = false ∧ (o.clr = true ∨ (g.tileAfter o.z.toNat).1 ≠ none)
    let fits (p : Ptr) (off : Nat) : Prop := p.fmt = 0x3F ∧ p.space = 1 ∧ off % 64 = 0
    let inside (p : Ptr) (off n : Nat) : Prop := off + n ≤ p.count ∧ s.outside g p (p.base + off) n = false
    let t (c aux a : Nat) : Trap := g.trapAt k c aux (g.active k) a
    let homely := s.domainBad g c = false ∧ s.domainBad g x = false
    let tiled := homely ∧ o.z.toNat < g.tiles.length
    let both := tiled ∧ fits c co ∧ fits x xo
    (¬ready → Waits (.spx gd o) s) ∧
    (ready → s.domainBad g c = true → Traps (.spx gd o) s gid (t 6 0 c.base)) ∧
    (ready → s.domainBad g c = false → s.domainBad g x = true → Traps (.spx gd o) s gid (t 6 0 x.base)) ∧
    (ready → homely → g.tiles.length ≤ o.z.toNat → Traps (.spx gd o) s gid (t 0x10 1 0)) ∧
    (ready → tiled → ¬fits c co → Traps (.spx gd o) s gid (t 0x10 5 c.base)) ∧
    (ready → tiled → fits c co → ¬fits x xo → Traps (.spx gd o) s gid (t 0x10 5 x.base)) ∧
    (ready → both → ¬inside c co 576 → Traps (.spx gd o) s gid (t 4 0 c.base)) ∧
    (ready → both → inside c co 576 → ¬inside x xo 49216 → Traps (.spx gd o) s gid (t 4 0 x.base)) ∧
    (ready → both → inside c co 576 → inside x xo 49216 → o.clr = false → (g.tileAfter o.z.toNat).1 ≠ some .freq →
      Traps (.spx gd o) s gid (t 0x10 8 0)) ∧
    (ready → both → inside c co 576 → inside x xo 49216 → (o.clr = true ∨ (g.tileAfter o.z.toNat).1 = some .freq) →
      Queued (.spx gd o) s s k g g [] [g.getS k o.xoff.toNat, g.getS k o.coff.toNat] [g.getA o.ax, g.getA o.ac] true)) ∧
  (∀ gd (o : XformOp) (inv : Bool) s gid k g, Ready s (if inv then .xformInv gd o else .xformFwd gd o) gid k g →
    let i := if inv then Instr.xformInv gd o else Instr.xformFwd gd o
    let p := Ptr.ofBits (g.getA o.ptr)
    let b := g.sop k o.b false
    let ext := (match o.ext with | some e => e.toNat | none => 0)
    let off := b + ext
    let fits := p.space = 1 ∧ p.fmt = 0x3F ∧ off % 64 = 0
    let inside := off + 64 ≤ p.count ∧ s.outside g p (p.base + off) 64 = false
    (g.mxFull true = true → Waits i s) ∧
    (g.mxFull true = false → ¬fits → Traps i s gid (g.trapAt k 0x10 5 (g.active k) p.base)) ∧
    (g.mxFull true = false → fits → p.cls = 1 → Traps i s gid (g.trapAt k 5 0 (g.active k) p.base)) ∧
    (g.mxFull true = false → fits → p.cls ≠ 1 → s.domainBad g p = true → Traps i s gid (g.trapAt k 6 0 (g.active k) p.base)) ∧
    (g.mxFull true = false → fits → p.cls ≠ 1 → s.domainBad g p = false → ¬inside →
      Traps i s gid (g.trapAt k 4 0 (g.active k) p.base)) ∧
    (g.mxFull true = false → fits → p.cls ≠ 1 → s.domainBad g p = false → inside →
      Queued i s s k g g [] [BitVec.ofNat 32 b, BitVec.ofNat 32 ext] [g.getA o.ptr] true)) ∧
  (∀ gd (o : ZclrOp) s gid k g, Ready s (.zclr gd o) gid k g →
    (32 ≤ g.mq.length → Waits (.zclr gd o) s) ∧
    (g.mq.length < 32 → g.tiles.length ≤ o.z.toNat → Traps (.zclr gd o) s gid (g.trapAt k 0x10 1 (g.active k) 0)) ∧
    (g.mq.length < 32 → o.z.toNat < g.tiles.length → Queued (.zclr gd o) s s k g g [] [] [] false)) ∧
  (∀ g : Group, g.mxFull true = true ↔ 32 ≤ g.mq.length ∨ g.cntMx = 255)

/-- R182, R239, R423 to R426: a ZMOV between a tile and registers or memory enters the queue once its checks pass, and the
registers that it writes are pending; R233, R420, R379: XSECT goes in flight once both of its streams are ready, an acquire through a
SYNC Q, and a Q of the wrong domain traps. Stream readiness, the position from which XSECT walks, that a ZMOV to registers writes every
lane of the active mask, and that a raw FP64 move is queued whatever the parity of its base register, are the model's choice (log entries
27, 39, 66 and 33). -/
def Obligations.TileMoves : Prop :=
  (∀ gd la (o : ZmovVOp) s gid k g, Ready s (.zmovZ2v gd la o) gid k g →
    (∀ kd, o.z.toNat < g.tiles.length → (g.tileAfter o.z.toNat).1 = some kd → g.mq.length < 32 →
      o.v.toNat + (if o.cv ≠ 0#2 ∧ kd = .fp64 then 64 else 128) ≤ 2048 →
      MoveQueued (.zmovZ2v gd la o) s k g la [] [BitVec.ofNat 32 (g.absV o.v)] [] false) ∧
    (∀ kd, o.z.toNat < g.tiles.length → (g.tileAfter o.z.toNat).1 = some kd → g.mq.length < 32 →
      2048 < o.v.toNat + (if o.cv ≠ 0#2 ∧ kd = .fp64 then 64 else 128) →
      Traps (.zmovZ2v gd la o) s gid (g.trapAt k 1 5 (g.active k) 0)) ∧
    (((g.tileAfter o.z.toNat).1 = none ∨ 32 ≤ g.mq.length) → Waits (.zmovZ2v gd la o) s) ∧
    ((g.tileAfter o.z.toNat).1 ≠ none → g.mq.length < 32 → g.tiles.length ≤ o.z.toNat →
      Traps (.zmovZ2v gd la o) s gid (g.trapAt k 0x10 1 (g.active k) 0))) ∧
  (∀ gd la (o : ZmovVOp) s gid k g, Ready s (.zmovV2z gd la o) gid k g →
    (o.z.toNat < g.tiles.length → (o.cv ≠ 0#2 ∨ (g.tileAfter o.z.toNat).1 ≠ none) → g.mq.length < 32 →
      MoveQueued (.zmovV2z gd la o) s k g la (g.capture o.v 128) [] [] false) ∧
    (((o.cv = 0#2 ∧ (g.tileAfter o.z.toNat).1 = none) ∨ 32 ≤ g.mq.length) → Waits (.zmovV2z gd la o) s) ∧
    ((o.cv ≠ 0#2 ∨ (g.tileAfter o.z.toNat).1 ≠ none) → g.mq.length < 32 → g.tiles.length ≤ o.z.toNat →
      Traps (.zmovV2z gd la o) s gid (g.trapAt k 0x10 1 (g.active k) 0))) ∧
  (∀ gd la (o : ZmovMOp) s gid k g, Ready s (.zmovZ2m gd la o) gid k g →
    (s.zmovChecks g k true o = none → (g.tileAfter o.z.toNat).1 ≠ none → g.mxFull true = false →
      MoveQueued (.zmovZ2m gd la o) s k g la [] [g.getS k o.off.toNat] [g.getA o.ptr] true) ∧
    (((g.tileAfter o.z.toNat).1 = none ∨ g.mxFull true = true) → Waits (.zmovZ2m gd la o) s) ∧
    (∀ t, (g.tileAfter o.z.toNat).1 ≠ none → g.mxFull true = false → s.zmovChecks g k true o = some t →
      Traps (.zmovZ2m gd la o) s gid t)) ∧
  (∀ gd la (o : ZmovMOp) s gid k g, Ready s (.zmovM2z gd la o) gid k g →
    (s.zmovChecks g k false o = none → g.mxFull true = false →
      MoveQueued (.zmovM2z gd la o) s k g la [] [g.getS k o.off.toNat] [g.getA o.ptr] true) ∧
    (g.mxFull true = true → Waits (.zmovM2z gd la o) s) ∧
    (∀ t, g.mxFull true = false → s.zmovChecks g k false o = some t → Traps (.zmovM2z gd la o) s gid t)) ∧
  (∀ gd la (o : XsectOp) s gid k g, Ready s (.xsect gd la o) gid k g →
    let sel := g.picked k (.xsect gd la o)
    let stream (i : Nat) : Stream := g.streams.getD i Stream.fresh
    (g.streamIdle o.j.toNat = true → g.streamIdle o.k.toNat = true → s.streamDomainBad g (stream o.j.toNat) = false →
      s.streamDomainBad g (stream o.k.toNat) = false →
      IssuesOver (.xsect gd la o) s s.took k
        { g with flight := g.flight ++
          [⟨s.run.nextId, k, g.pc k, la.toNat, (regsOf g (.xsect gd la o)).2.filter pendable, sel, g.active k,
            .xsect o.j.toNat o.k.toNat (g.absV o.d) (g.streamPos o.j.toNat, g.streamPos o.k.toNat) none false, none, none,
            ((g.queue? o.j.toNat).toList ++ (g.queue? o.k.toNat).toList).any fun q => q.cls == 2, none⟩] }
        (g.after k (.xsect gd la o))) ∧
    (∀ q, g.streamIdle o.j.toNat = true → g.streamIdle o.k.toNat = true →
      (g.queue? o.j.toNat = some q ∧ s.domainBad g q = true ∨
        s.streamDomainBad g (stream o.j.toNat) = false ∧ g.queue? o.k.toNat = some q ∧ s.domainBad g q = true) →
      Traps (.xsect gd la o) s gid (g.trapAt k 6 0 sel q.base)) ∧
    ((g.streamIdle o.j.toNat = false ∨ g.streamIdle o.k.toNat = false) → Waits (.xsect gd la o) s))

/-! ## Meetings and reductions -/

/-- R244 to R251, R342 to R344, R347, R348: MJOIN joins a member and reads the oldest tag, MEET sends its contribution,
MWAIT takes the result of a closed round, and MQRY reads a field of a bound mere, or of the descriptor of an unbound one, whose last
writes the homes have acknowledged. Which check comes first, what an unbound
mere reads as, the registers that a MEET or MWAIT waits for, that MWAIT writes every lane of the active mask, and that a mere stays
bound by an MJOIN that traps on its member index, are the model's choice (log entries 22, 41, 66 and 87). -/
def Obligations.Meetings : Prop :=
  (∀ gd (o : MjoinOp) s gid k g s1 m, Ready s (.mjoin gd o) gid k g →
    let p := Ptr.ofBits (g.getA o.a)
    let i := g.sop k o.b false
    s.merePointer g k p = none → InUse s g p →
    (s.mere? ((s.ctxOf g).getD emptyCtx).id p.base = none → s.wordsUnacked g p 256 [p.base] = false) → s.bindMere g k p = .ok s1 m →
    (i < m.n → (∀ j ∈ m.joined, j.1 ≠ i) →
      IssuesOver (.mjoin gd o) s (s1.setMere { m with joined := m.joined ++ [(i, g.grid)] }) k (g.setS k o.d.toNat (m.tag.setWidth 32))
        (g.after k (.mjoin gd o))) ∧
    ((m.n ≤ i ∨ ∃ j ∈ m.joined, j.1 = i) →
      exec (.mjoin gd o) s = .next (s1.takeTrap gid (g.trapAt k 0x11 3 (g.active k) p.base)))) ∧
  (∀ gd (o : MeetOp) s gid k g m, Ready s (.meet gd o) gid k g →
    let p := Ptr.ofBits (g.getA o.a)
    let c := (s.ctxOf g).getD emptyCtx
    let x := (g.getS k o.b.toNat).toNat
    let i := x / 2 ^ 16 % 64
    let tag := BitVec.ofNat 16 x
    let d := (tag - m.tag).toNat
    let joined := i < m.n ∧ ∃ j ∈ m.joined, j.1 = i
    (2 ^ 22 ≤ x → Traps (.meet gd o) s gid (g.trapAt k 1 8 (g.active k) 0)) ∧
    (x < 2 ^ 22 → InUse s g p → s.merePointer g k p = none → s.mere? c.id p.base = some m → ¬joined →
      Traps (.meet gd o) s gid (g.trapAt k 0x11 4 (g.active k) p.base)) ∧
    (x < 2 ^ 22 → InUse s g p → s.merePointer g k p = none → s.mere? c.id p.base = some m → joined → runBad o.d m.fp64 m.m = false →
      ((4 ≤ d ∧ d < 2 ^ 15) ∨ g.cntColl = 255) → Waits (.meet gd o) s) ∧
    (x < 2 ^ 22 → InUse s g p → s.merePointer g k p = none → s.mere? c.id p.base = some m → joined → runBad o.d m.fp64 m.m = false →
      (d < 4 ∨ 2 ^ 15 ≤ d) → g.cntColl ≠ 255 →
      IssuesOver (.meet gd o) s
        { s.took with sys := { s.sys with sent := s.sys.sent ++
          [⟨s.run.nextId, c.id, gid, g.core, k, g.pc k, g.active k, .meet p.base i tag (g.payload o.d m.fp64 m.m)⟩] } } k
        { g with interval := g.interval + 1, cntColl := g.cntColl + 1 } (g.after k (.meet gd o)))) ∧
  (∀ gd (o : MeetOp) s gid k g m, Ready s (.mwait gd o) gid k g →
    let p := Ptr.ofBits (g.getA o.a)
    let b := o.b.toNat
    let x := (g.getS k b).toNat
    let tag := BitVec.ofNat 16 x
    s.merePointer g k p = none → InUse s g p → s.mere? ((s.ctxOf g).getD emptyCtx).id p.base = some m → runBad o.d m.fp64 m.m = false →
    ((tag - m.tag).toNat < 2 ^ 15 → Waits (.mwait gd o) s) ∧
    (2 ^ 15 ≤ (tag - m.tag).toNat → (∀ c ∈ m.closed, c.tag ≠ tag) →
      IssuesTo (.mwait gd o) s k (g.putQuad k b x 1 0 0) (g.after k (.mwait gd o))) ∧
    (∀ c, 2 ^ 15 ≤ (tag - m.tag).toNat → m.closed.find? (fun c => c.tag == tag) = some c →
      IssuesOver (.mwait gd o) s (s.acquire g p.scope) k
        (((g.putPayload o.d m.fp64 (g.active k) c.vals).putQuad k b
          (c.folds * 2 ^ 24 + c.ontime * 2 ^ 16 + tag.toNat) 0 (c.mask.toNat % 2 ^ 32) (c.mask.toNat / 2 ^ 32)).orFlags c.flags)
        (g.after k (.mwait gd o)))) ∧
  (∀ gd (o : MqryOp) s gid k g m, Ready s (.mqry gd o) gid k g →
    let p := Ptr.ofBits (g.getA o.a)
    s.merePointer g k p = none → InUse s g p → s.mere? ((s.ctxOf g).getD emptyCtx).id p.base = some m →
    let joined := (memberMask (m.joined.map (·.1))).toNat
    let flagged := (memberMask m.flagged).toNat
    let v := (match o.fld.toNat with
      | 0 => m.tag.toNat
      | 1 => joined % 2 ^ 32
      | 2 => joined / 2 ^ 32
      | 3 => flagged % 2 ^ 32
      | 4 => flagged / 2 ^ 32
      | 5 => m.folded.toNat
      | 6 => m.discarded.toNat
      | 7 => m.rejected.toNat
      | 8 => (m.onTime m.tag).length
      | _ => if m.die.isSome then 1 else 2)
    IssuesTo (.mqry gd o) s k (g.setS k o.d.toNat (BitVec.ofNat 32 v)) (g.after k (.mqry gd o))) ∧
  (∀ gd (o : MqryOp) s gid k g, Ready s (.mqry gd o) gid k g →
    let p := Ptr.ofBits (g.getA o.a)
    (∀ t, s.merePointer g k p = some t → Traps (.mqry gd o) s gid t) ∧
    (s.merePointer g k p = none → s.mere? ((s.ctxOf g).getD emptyCtx).id p.base = none →
      (s.wordsUnacked g p 256 [p.base] = true → Waits (.mqry gd o) s) ∧
      ∀ at_ n s1 bs, (o.fld.toNat, at_, n) ∈ [(0, 0x20, 2), (1, 0x10, 4), (2, 0x14, 4), (3, 0x18, 4), (4, 0x1C, 4), (5, 0x24, 4),
          (6, 0x28, 4), (7, 0x2C, 4), (8, 0x10, 0), (9, 0x22, 2)] →
        s.wordsUnacked g p 256 [p.base] = false → (s.port g p).read s (p.base + at_) n = (s1, .ok bs) →
        IssuesOver (.mqry gd o) s s1 k (g.setS k o.d.toNat (BitVec.ofNat 32 (leNat bs))) (g.after k (.mqry gd o))))

/-- R252 to R259, R359, R360: RDCN sends its contribution with a release; RDGET waits for the outcome, and then takes the
result, or the status of a disagreement or of a time-out; a malformed quad traps ILLEGAL_INSTRUCTION reason 8. What RDGET
waits for, that a disagreement is not a taking, and that RDGET writes every lane of the active mask, are the model's choice
(log entries 22, 42 and 66). -/
def Obligations.Reductions : Prop :=
  (∀ gd (o : RdcnOp) s gid k g, Ready s (.rdcn gd o) gid k g →
    let q := g.quad k o.a.toNat
    let c := (s.ctxOf g).getD emptyCtx
    let die := if 4 ≤ q.tree then some (s.dieNum g.core) else none
    let m := o.m1.toNat + 1
    (q.ok = false → Traps (.rdcn gd o) s gid (g.trapAt k 1 8 (g.active k) 0)) ∧
    (q.ok = true → (s.mayOpen c.id q.tree die q.tag = false ∨ g.cntColl = 255) → Waits (.rdcn gd o) s) ∧
    (q.ok = true → s.mayOpen c.id q.tree die q.tag = true → g.cntColl ≠ 255 →
      IssuesOver (.rdcn gd o) s
        { s.took with sys := { s.sys with sent := s.sys.sent ++
          [⟨s.run.nextId, c.id, gid, g.core, k, g.pc k, g.active k,
            .reduce q.tree die q.tag q.leaf q.mask o.ty o.op m (g.payload o.d (o.ty == .fp64) m)⟩] } } k
        { g with interval := g.interval + 1, cntColl := g.cntColl + 1 } (g.after k (.rdcn gd o)))) ∧
  (∀ gd (o : RdgetOp) s gid k g r, Ready s (.rdget gd o) gid k g →
    let q := g.quad k o.a.toNat
    let c := (s.ctxOf g).getD emptyCtx
    let die := if 4 ≤ q.tree then some (s.dieNum g.core) else none
    let m := o.m1.toNat + 1
    let b := o.b.toNat
    let agree := r.pmask = q.mask ∧ r.ty = o.ty ∧ r.op = o.op ∧ r.m = m
    let missing := r.pmask &&& ~~~(memberMask (r.got.map (·.1)))
    let traps := (s.grid? g.grid).any fun x => x.launch.redtrap
    (q.ok = false → Traps (.rdget gd o) s gid (g.trapAt k 1 8 (g.active k) 0)) ∧
    (q.ok = true → s.mayOpen c.id q.tree die q.tag = true → s.reduct? c.id q.tree die q.tag = some r →
      (r.result = none → r.timedOut = false →
        exec (.rdget gd o) s = .next (s.setReduct { r with waiters := (gid, k) :: r.waiters.filter (· != (gid, k)) })) ∧
      ((r.result ≠ none ∨ r.timedOut = true) → ¬agree →
        IssuesTo (.rdget gd o) s k (g.putQuad k b 1 r.got.length 0 0) (g.after k (.rdget gd o))) ∧
      (∀ x, agree → r.result = some x →
        IssuesOver (.rdget gd o) s ((s.takeOutcome r q.leaf).acquire g (if 4 ≤ q.tree then 2 else 3)) k
          (((g.putPayload o.d (o.ty == .fp64) (g.active k) x.1).putQuad k b 0 r.got.length 0 0).orFlags x.2)
          (g.after k (.rdget gd o))) ∧
      (agree → r.result = none → r.timedOut = true → traps = false →
        IssuesOver (.rdget gd o) s (s.takeOutcome r q.leaf) k
          (g.putQuad k b 0x12 r.got.length (missing.toNat % 2 ^ 32) (missing.toNat / 2 ^ 32)) (g.after k (.rdget gd o))) ∧
      (agree → r.result = none → r.timedOut = true → traps = true →
        let ms := (List.range 64).filter fun i => missing.getLsbD i
        Traps (.rdget gd o) s gid (g.trapAt k 0x12 (ms.headD 0 + 256 * ms.length) (g.active k) 0))))

/-! ## Populations, launches and services -/

/-- R63, R364, R365: REORD deposits each selected lane with its key, its lane index, its lineage and its payload, and the lanes
exit; R289, R290: RSAMP records the lanes of the strand as arrived, and the slot empties; R282, R284, R285, R367: RNG goes in
flight with the four words of the Rill function of its key, its counter and the lane's lineage serial. That an RSAMP waits for
runs of the sluice, and the order of residency, are the model's choice (log entry 43). -/
def Obligations.Populations : Prop :=
  (∀ gd (o : ReordOp) s gid k g, Ready s (.reord gd o) gid k g →
    let sel := g.picked k (.reord gd o)
    let deposit (l : Nat) : Deposit :=
      ⟨(g.getV o.a l).setWidth 16, (SMap.get g.tlane l).toNat, SMap.get g.lineage l, SMap.get g.parent l, SMap.get g.pslot l,
        (List.range o.p.toNat).map fun i => g.vAt (g.absV o.d + i) l⟩
    let refused := (s.grid? g.grid).any fun x => x.launch.reorder == 0
    (refused = true → Traps (.reord gd o) s gid (g.trapAt k 1 8 (g.active k) 0)) ∧
    (refused = false → g.live &&& ~~~sel ≠ 0#96 →
      ∃ h : Group, h.live = g.live &&& ~~~sel ∧
        { h with slot0 := g.slot0, slot1 := g.slot1, eddy := g.eddy, live := g.live } = g ∧
        exec (.reord gd o) s =
          .next ((s.updTeam g.tid fun t => { t with sluice := t.sluice ++ (lanesOf sel).map deposit }).setGroup (h.rested k))) ∧
    (refused = false → g.live &&& ~~~sel = 0#96 →
      ∃ u h, exec (.reord gd o) s = .next u ∧ u.group? gid = some h ∧ h.retired = true ∧ h.live = 0#96)) ∧
  (∀ (o : RsampOp) s gid k g, Ready s (.rsamp o) gid k g →
    let t := g.strand k
    let arrived : List Arrival := (lanesOf t.members).map fun l =>
      ⟨gid, k, l, (SMap.get g.pslot l).toNat, g.getV o.a l, BitVec.ofNat 32 (g.sop k o.b false), t.pc + 8, o.d.toNat⟩
    let refused := (s.grid? g.grid).any (fun x => !x.launch.popn) = true ∨ t.active ≠ t.members ∨ g.wbase ≠ 0
    (refused → Traps (.rsamp o) s gid (g.trapAt k 1 8 (g.active k) 0)) ∧
    (¬refused → ∃ h : Group, { h with slot0 := g.slot0, slot1 := g.slot1, eddy := g.eddy } = g ∧
      h.slot (1 - k) = g.slot (1 - k) ∧
      ((∀ e ∈ g.eddy, isStrandEntry e = false) → (h.slot k).strand = none ∧ h.eddy = g.eddy) ∧
      exec (.rsamp o) s = .next ((s.updGrid g.grid fun x => { x with arrivals := x.arrivals ++ arrived }).setGroup (h.rested k)))) ∧
  (∀ gd la (o : RngOp) s gid k g, Ready s (.rng gd la o) gid k g →
    let b := o.b.toNat
    let x (i : Nat) : Nat := (g.getS k i).toNat
    let y (l : Nat) : Nat × Nat × Nat × Nat :=
      rill (x o.a.toNat) (x (o.a.toNat + 1)) (x b) (x (b + 1)) ((SMap.get g.lineage l).toNat % 2 ^ 32) (x (b + 2))
    (x (b + 3) ≠ 0 → Traps (.rng gd la o) s gid (g.trapAt k 1 8 (g.active k) 0)) ∧
    (x (b + 3) = 0 → IssuesLater (.rng gd la o) s k g la (regsOf g (.rng gd la o)).2
      ⟨(lanesOf (g.picked k (.rng gd la o))).flatMap fun l =>
        [(g.absV o.d, l, BitVec.ofNat 32 (y l).1), (g.absV o.d + 1, l, BitVec.ofNat 32 (y l).2.1),
          (g.absV o.d + 2, l, BitVec.ofNat 32 (y l).2.2.1), (g.absV o.d + 3, l, BitVec.ofNat 32 (y l).2.2.2)], [], [], 0#8⟩))

/-- R54, R107, R108, R334, R335: LAUNCH waits for room, and, its checks passed, for the accesses that its read of the record follows; one
that passes its checks submits the record as a child of the team, writes its handle and is a release; R341: LWAIT writes the status of a
child that has ended. What the read waits for, and the address of LAUNCH_DEPTH, are the model's choice (log entries 17 and 78). -/
def Obligations.Launches : Prop :=
  (∀ gd (o : LaunchOp) s gid k g x t s1 bs, Ready s (.launch gd o) gid k g →
    s.grid? g.grid = some x → s.team? g.tid = some t →
    let p := Ptr.ofBits (g.getA o.a)
    let full := s.full = true
    let tr (c aux : Nat) : Trap := g.trapAt k c aux (g.active k) p.base
    let placed := g.idx = 0 ∧ p.space = 0 ∧ p.fmt = 0x3F
    let waits := s.readWaits g p 512 [p.base] = true
    (full → Waits (.launch gd o) s) ∧
    (¬full → ¬placed → Traps (.launch gd o) s gid (g.trapAt k 1 8 (g.active k) 0)) ∧
    (¬full → placed → x.depth = 10 → Traps (.launch gd o) s gid (tr 0x13 1)) ∧
    (¬full → placed → x.depth ≠ 10 → x.launch.childLimit ≤ x.kidsLive → Traps (.launch gd o) s gid (tr 0x13 2)) ∧
    (¬full → placed → x.depth ≠ 10 → x.kidsLive < x.launch.childLimit → p.count < 512 → Traps (.launch gd o) s gid (tr 4 0)) ∧
    (¬full → placed → x.depth ≠ 10 → x.kidsLive < x.launch.childLimit → 512 ≤ p.count → p.base % 64 ≠ 0 →
      Traps (.launch gd o) s gid (tr 0x0C 0)) ∧
    (¬full → placed → x.depth ≠ 10 → x.kidsLive < x.launch.childLimit → 512 ≤ p.count → p.base % 64 = 0 → waits →
      Waits (.launch gd o) s) ∧
    (¬full → placed → x.depth ≠ 10 → x.kidsLive < x.launch.childLimit → 512 ≤ p.count → p.base % 64 = 0 → ¬waits →
      (s.port g p).read s p.base 512 = (s1, .ok bs) →
      let l := parseLaunch bs
      launchArgBad (s.sealKey g) l = none →
      let h := ({ g with interval := g.interval + 1 } : Group).setS k o.d.toNat (BitVec.ofNat 32 t.kids.length)
      let kid := newGrid s1.run.nextId x.ctx l (x.depth + 1) (some (x.id, t.tid, t.kids.length)) none (min l.prio x.prio) (l.affinity % 16)
      let s2 := ((s1.took.setGroup h).updTeam t.tid fun t => { t with kids := t.kids ++ [⟨s1.run.nextId, none⟩] }).updGrid x.id fun x =>
        { x with kidsLive := x.kidsLive + 1 }
      IssuesOver (.launch gd o) s (s2.submit kid bs) k h (g.after k (.launch gd o)))) ∧
  (∀ gd (o : LwaitOp) s gid k g t, Ready s (.lwait gd o) gid k g → s.team? g.tid = some t →
    let n := g.sop k o.a false
    (t.kids.length ≤ n → Traps (.lwait gd o) s gid (g.trapAt k 1 8 (g.active k) 0)) ∧
    (∀ c, t.kids[n]? = some c → c.status = none → Waits (.lwait gd o) s) ∧
    (∀ c x, t.kids[n]? = some c → c.status = some x →
      IssuesOver (.lwait gd o) s (s.acquire g 3) k (g.setS k o.d.toNat (if n + 4096 < t.kids.length then 0x200#32 else x))
        (g.after k (.lwait gd o))))

/-- R385, R386, R391: TRAP traps SOFTWARE with its operand; SVC writes its status, and LOCK, UNLOCK and TRYLOCK act on the
context's lock: it is taken when it is free and no earlier request can take it, and a LOCK that waits stands in its queue, at the end
unless its group already waits for it. The order in which the lock is granted, and that a group which no longer waits keeps no place, are
the model's choice (log entry 56). -/
def Obligations.Services : Prop :=
  (∀ gd a s gid k g, Ready s (.trap gd a) gid k g →
    Traps (.trap gd a) s gid (g.trapAt k 0x16 (g.sop k a false) (g.active k) 0)) ∧
  (∀ gd (o : SvcOp) s gid k g, Ready s (.svcProbe gd o) gid k g →
    IssuesTo (.svcProbe gd o) s k (g.setS k o.d.toNat 1#32) (g.after k (.svcProbe gd o))) ∧
  (∀ gd (o : SvcOp) s gid k g, Ready s (.svcLog gd o) gid k g →
    let r := s.logEvent g (g.trapAt k 0x16 (g.sop k o.a false) (g.active k) 0)
    IssuesOver (.svcLog gd o) s r.1 k (g.setS k o.d.toNat (if r.2 then 0#32 else 1#32)) (g.after k (.svcLog gd o))) ∧
  (∀ gd (o : SvcOp) s gid k g, Ready s (.svcLock gd o) gid k g →
    let n := g.sop k o.a false
    let c := (s.ctxOf g).getD emptyCtx
    let l := c.lock n
    let me := s.holderOf g
    (256 ≤ n → Traps (.svcLock gd o) s gid (g.trapAt k 1 8 (g.active k) 0)) ∧
    (n < 256 → l.holder = some me → IssuesTo (.svcLock gd o) s k (g.setS k o.d.toNat 2#32) (g.after k (.svcLock gd o))) ∧
    (n < 256 → s.grants l me = true →
      IssuesOver (.svcLock gd o) s
        (s.updCtx c.id fun c => c.setLock { l with holder := some me, queue := l.queue.filter fun x => x != me }) k
        (g.setS k o.d.toNat 0#32) (g.after k (.svcLock gd o))) ∧
    (n < 256 → l.holder ≠ some me → s.grants l me = false →
      exec (.svcLock gd o) s = .next
        ((s.updCtx c.id fun c => c.setLock (l.enqueue me (g.asks n))).updGroup gid fun h =>
          h.setSlot k { h.slot k with lockWait := some (o.a, n) })) ∧
    (∀ waiting, (l.enqueue me waiting).holder = l.holder ∧
      (l.enqueue me waiting).queue = (if waiting = true ∧ me ∈ l.queue then l.queue else l.queue.filter (fun x => x != me) ++ [me]))) ∧
  (∀ gd (o : SvcOp) s gid k g, Ready s (.svcUnlock gd o) gid k g →
    let n := g.sop k o.a false
    let c := (s.ctxOf g).getD emptyCtx
    let l := c.lock n
    let me := s.holderOf g
    (256 ≤ n → Traps (.svcUnlock gd o) s gid (g.trapAt k 1 8 (g.active k) 0)) ∧
    (n < 256 → l.holder = some me →
      IssuesOver (.svcUnlock gd o) s (s.updCtx c.id fun c => c.setLock { l with holder := none }) k
        (g.setS k o.d.toNat 0#32) (g.after k (.svcUnlock gd o))) ∧
    (n < 256 → l.holder ≠ some me →
      IssuesTo (.svcUnlock gd o) s k (g.setS k o.d.toNat 1#32) (g.after k (.svcUnlock gd o)))) ∧
  (∀ gd (o : SvcOp) s gid k g, Ready s (.svcTrylock gd o) gid k g →
    let n := g.sop k o.a false
    let c := (s.ctxOf g).getD emptyCtx
    let l := c.lock n
    let me := s.holderOf g
    (256 ≤ n → Traps (.svcTrylock gd o) s gid (g.trapAt k 1 8 (g.active k) 0)) ∧
    (n < 256 → l.holder = some me → IssuesTo (.svcTrylock gd o) s k (g.setS k o.d.toNat 2#32) (g.after k (.svcTrylock gd o))) ∧
    (n < 256 → s.grants l me = true →
      IssuesOver (.svcTrylock gd o) s
        (s.updCtx c.id fun c => c.setLock { l with holder := some me, queue := l.queue.filter fun x => x != me }) k
        (g.setS k o.d.toNat 0#32) (g.after k (.svcTrylock gd o))) ∧
    (n < 256 → l.holder ≠ some me → s.grants l me = false →
      IssuesTo (.svcTrylock gd o) s k (g.setS k o.d.toNat 1#32) (g.after k (.svcTrylock gd o))))

/-- R361 to R363, R408, R421: RDSR reads a lane or a group special, WRSR moves the position of a stream, at most to its end, and
YIELD writes 0 when nothing waits for the cores, and else halts the team that issues it (R118). The answer of YIELD to a team of class 2 is the model's choice (log entry 55).
-/
def Obligations.Specials : Prop :=
  (∀ gd num d s gid k g, Ready s (.rdsr gd ⟨num, .v d⟩) gid k g →
    let i := Instr.rdsr gd ⟨num, .v d⟩
    let v (l : Nat) : Nat := (match num.toNat with
      | 0 => l
      | 1 => (SMap.get g.tlane l).toNat
      | 2 => (SMap.get g.lineage l).toNat
      | 3 => (SMap.get g.parent l).toNat
      | _ => (SMap.get g.pslot l).toNat)
    ∃ h, LanesSet g h d ((laneSpecial num.toNat).getD false) (g.picked k i) (fun l => (v l, 0#8)) ∧ IssuesTo i s k h (g.after k i)) ∧
  (∀ gd num d s gid k g, Ready s (.rdsr gd ⟨num, .s d⟩) gid k g → ¬(0x18 ≤ num.toNat ∧ num.toNat ≤ 0x1B) →
    let i := Instr.rdsr gd ⟨num, .s d⟩
    IssuesTo i s k (g.writeS k (swords d.toNat ((groupSpecial num.toNat).getD false) (s.special g num.toNat))) (g.after k i)) ∧
  (∀ gd num d s gid k g, Ready s (.rdsr gd ⟨num, .s d⟩) gid k g → 0x18 ≤ num.toNat → num.toNat ≤ 0x1B →
    let i := Instr.rdsr gd ⟨num, .s d⟩
    ∃ x s1, x < 9600 ∧ s1.groups = s.groups ∧ s1.mem = s.mem ∧ s1.boot = s.boot ∧
      IssuesOver i s s1 k (g.writeS k (swords d.toNat ((groupSpecial num.toNat).getD false) x)) (g.after k i)) ∧
  (∀ gd (o : WrsrOp) s gid k g, Ready s (.wrsr gd o) gid k g →
    let i := o.num.toNat - 0x20
    let t := g.streams.getD i Stream.fresh
    (t.everSet = false → Traps (.wrsr gd o) s gid (g.trapAt k 1 8 (g.active k) 0)) ∧
    (t.everSet = true → g.streamIdle i = false → Waits (.wrsr gd o) s) ∧
    (t.everSet = true → g.streamIdle i = true →
      IssuesTo (.wrsr gd o) s k
        { g with streams := setAt g.streams i { t with pos := min (g.snum k o.a true) t.len } } (g.after k (.wrsr gd o)))) ∧
  (∀ gd d s gid k g, Ready s (.yield gd d) gid k g →
    (∀ x t die, s.grid? g.grid = some x → s.team? g.tid = some t → s.dieOfCore g.core = some die →
      ((x.launch.cls = 2 ∨ s.headUnit die = none) →
        IssuesTo (.yield gd d) s k (g.setS k d.toNat 0#32) (g.after k (.yield gd d))) ∧
      (∀ h, x.launch.cls ≠ 2 → s.headUnit die ≠ none →
        (s.requestUnit x.id (x.haltUnit t.t) 2 (some (gid, k, d.toNat))).group? gid = some h →
        IssuesOver (.yield gd d) s (s.requestUnit x.id (x.haltUnit t.t) 2 (some (gid, k, d.toNat))) k h (g.after k (.yield gd d)))))

/-! ## The frame of an issue, the traps and the fault log -/

/-- R75, R84 to R86, R94, R96: an instruction whose registers are pending, or whose slot is parked, waits and changes nothing; one whose
spilled name has no page parks its slot; one whose
guard selects nothing only moves the program counter, for every instruction of programs; R168, R172: a release at a scope wider than
the group's acquires first sends on what they synchronise with, after which the die's basin holds no dirty word of the context. That the
stalls are looked at before the guard, and how the part carries those words, are the model's choice (log entries 22 and 101). -/
def Obligations.GuardedOff : Prop :=
  ∀ (i : Instr) s gid k (g : Group), Standing s gid k g → (g.acts k i = false ∨ s.holds g k i = true) → i.isStep = false →
    (s.holds g k i = true → s.touchSpill g k i = none → s.carryScope g k i = none → Waits i s) ∧
    (∀ n, s.holds g k i = true → s.touchSpill g k i = none → s.carryScope g k i = some n → exec i s = .next (s.carryFor g n gid)) ∧
    (∀ n, 3 ≤ n → let t := s.carryFor g n gid
      let w := s.whoOf ((s.ctxOf g).getD emptyCtx) g.core
      (∀ c ∈ t.mem.basin, c.own = w.die → c.ctx = w.ctx → c.mirror = false → c.dirty = false) ∧
      (∀ y ∈ t.mem.acquired, y.1 ≠ gid) ∧
      (∀ c, kvGet s.mem.acquired gid ≠ some 0 → hostWa c.wa = false → (s.mem.basin.filter fun c => c.leaves w.die w.ctx) = [c] →
        t.mem.word w.key c.wa = c.val)) ∧
    (∀ va, s.holds g k i = true → s.touchSpill g k i = some va → exec i s = .next (s.parkSlot g k va true 0#96)) ∧
    (s.holds g k i = false → g.acts k i = false → IssuesTo i s k g (g.after k i))

/-- R60, R278, R279, R281, R76: taking a trap ends the grid and its children with the cause, leaves none of its groups resident,
and writes one record with the fields of the trap and the image of the group; a full log drops a record, or gives it the place
of the first event that it lists; an opcode that Table 3-3 does not assign traps ILLEGAL_INSTRUCTION reason 1. The cause that the
children end with, and that all groups of the grid stop in this step, are the model's choice (log entries 24 and 77). -/
def Obligations.TrapTaken : Prop :=
  (∀ (s : State) gid g x c (t : Trap), s.group? gid = some g → s.grid? g.grid = some x → s.ctx? x.ctx = some c → x.st ≠ .reported →
    let u := s.takeTrap gid t
    let also := ((s.family x.id).foldl State.saveGrid s).alsoTimedOut gid t
    (∃ y, u.grid? x.id = some y ∧ y.st = .ended ∧ y.cause = some (x.cause.getD (t.cause, t.pc)) ∧ y.teamsLeft = 0) ∧
    (∀ y ∈ s.sys.grids, y.parent.map (·.1) = some x.id → y.st ≠ .reported →
      ∃ z ∈ u.sys.grids, z.id = y.id ∧ z.st = .ended ∧ z.cause = some (y.cause.getD (t.cause, t.pc))) ∧
    (∀ h ∈ u.groups, h.grid = x.id → h.resident = false) ∧
    ((c.logWr - c.logRd).toNat < 4095 → ∃ d, ∃ r ∈ d.logRecs, ∃ i ∈ d.images, u.ctx? x.ctx = some d ∧
      (also = [] → d.logWr = c.logWr + 1) ∧
      r.seq = c.logWr ∧ r.kind = 0 ∧ r.cause = t.cause ∧ r.slot = t.slot ∧ r.source = t.source ∧ r.pc = t.pc ∧ r.mask = t.mask ∧
      r.aux = BitVec.ofNat 32 t.aux ∧ r.addr = BitVec.ofNat 64 t.addr ∧ r.group = g.idx ∧
      r.event = BitVec.ofNat 64 x.launch.done ∧ r.image = BitVec.ofNat 32 i.index ∧ i.seq = r.seq ∧ i.group.gid = gid) ∧
    (∀ w ∈ also, (c.logWr - c.logRd).toNat + also.length < 4095 →
      ∃ d, ∃ r ∈ d.logRecs, ∃ i ∈ d.images, u.ctx? x.ctx = some d ∧ r.kind = 0 ∧ r.cause = 0x12 ∧ r.slot = w.2.slot ∧ r.pc = w.2.pc ∧
        r.mask = w.2.mask ∧ i.seq = r.seq ∧ i.group.gid = w.1)) ∧
  (∀ (s : State) id c r, s.ctx? id = some c →
    let u := (s.logRecord id r).1
    ((c.logWr - c.logRd).toNat < 4095 → (s.logRecord id r).2 = some c.logWr ∧ ∃ d, u.ctx? id = some d ∧ d.logWr = c.logWr + 1 ∧
      d.logDrop = c.logDrop ∧ d.logRecs = c.logRecs ++ [{ r with seq := c.logWr }]) ∧
    (4095 ≤ (c.logWr - c.logRd).toNat → (r.kind = 1 ∨ r.kind = 2 ∨ ∀ y ∈ c.logRecs, y.kind ≠ 1 ∧ y.kind ≠ 2) →
      (s.logRecord id r).2 = none ∧ ∃ d, u.ctx? id = some d ∧ d.logWr = c.logWr ∧ d.logDrop = c.logDrop + 1 ∧
        d.logRecs = c.logRecs) ∧
    (∀ y, 4095 ≤ (c.logWr - c.logRd).toNat → r.kind ≠ 1 → r.kind ≠ 2 →
      (c.logRecs.find? fun y => y.kind == 1 || y.kind == 2) = some y →
      ∃ d, (s.logRecord id r).2 = some y.seq ∧ u.ctx? id = some d ∧
        d.logDrop = c.logDrop + 1 ∧ { r with seq := y.seq } ∈ d.logRecs ∧ (∀ z ∈ c.logRecs, z.seq ≠ y.seq → z ∈ d.logRecs))) ∧
  (∀ w s gid k g, Ready s (.unassignedOpcode w) gid k g →
    Traps (.unassignedOpcode w) s gid ⟨0x01, 1, g.active k, 0, 0, k, g.pc k⟩)

/-- R38, R74, R205: s0 to s2 read as the strand's active mask, and a write sets or clears the lanes of its word that are members, which
stay members; a write of s3 its low 8 bits, s4 to s15 discard what is
written, and every other scalar holds it; s12 to s15 read as zero. -/
def Obligations.ScalarRegisters : Prop :=
  ∀ (g : Group) k i x t, k < 2 → (g.slot k).strand = some t →
    let h := g.setS k i x
    (∀ j b, j < 3 → b < 32 → (g.getS k j).getLsbD b = t.active.getLsbD (32 * j + b)) ∧
    (i < 3 → h.slot (1 - k) = g.slot (1 - k) ∧ ∃ u, (h.slot k).strand = some u ∧ u.members = t.members ∧ u.pc = t.pc ∧ u.join = t.join ∧
      ∀ l, l < 96 → u.active.getLsbD l = if l / 32 = i then x.getLsbD (l % 32) && t.members.getLsbD l else t.active.getLsbD l) ∧
    (i < 3 → h.getS k i = x &&& maskWord t.members i) ∧
    (i = 3 → h.getS k i = x &&& 0xFF#32) ∧
    (4 ≤ i → i < 16 → h = g) ∧
    (16 ≤ i → h.getS k i = x) ∧
    (12 ≤ i → i < 16 → h.getS k i = 0#32) ∧
    (∀ j, j ≠ i → h.getS k j = g.getS k j) ∧
    (3 ≤ i → h.slot0 = g.slot0 ∧ h.slot1 = g.slot1) ∧
    (i < 3 → h.s = g.s) ∧
    { h with s := g.s, slot0 := g.slot0, slot1 := g.slot1 } = g

/-! ## Steps of the memory system -/

/-- R87, R89, R92, R116: a result that the core computed is written when it arrives, or held while its window is open; a parked
access is performed again once its fault is resolved and its turn has come; the slots that have waited 1,024 cycles or more are picked
next, the longest first; R96, R152, R154 to R157, R445: the firmware maps a page of an on-demand range or of the STACK range with a
frame of its kind; a fault whose page is mapped clears; one that no range covers becomes an ACCESS trap of its owner with reason
5, and one that the firmware cannot back with reason 8. Which result or page is
served next, the frames of new pages and their 64 KiB size are the model's choice (log entries 1, 17 and 26). -/
def Obligations.ResultsArrive : Prop :=
  (∀ s gid fid (g : Group) (f : Flight) w, s.group? gid = some g → g.resident = true → g.flightOf fid = some f → f.held = none →
    f.parked = none → f.pend = .ready w → (f.acquire = true → ∀ n ∈ s.mem.snoops, n.gid ≠ some gid) →
    exec (.longLatencyResult gid fid) s = .next (s.setGroup
      (if f.window = 0 then (g.applyWrites f.slot f.dests w).dropFlight f.fid
       else g.putFlight { f with held := some w, acquire := false }))) ∧
  (∀ (g : Group) k dests (w : Writes),
    let h := g.applyWrites k dests w
    (∀ n l, (∀ x ∈ w.vw, .v x.1 ∈ dests → x.1 = n → x.2.1 = l → False) → l < 96 → (∀ x ∈ w.vw, x.2.1 < 96) →
      h.vAt n l = g.vAt n l) ∧
    (∀ n l y, (n, l, y) ∈ w.vw → .v n ∈ dests → l < 96 → (∀ x ∈ w.vw, x.2.1 < 96 ∧ (x.1 = n → x.2.1 = l → x.2.2 = y)) →
      h.vAt n l = y) ∧
    (∀ i, i < 32 → (∀ x ∈ w.aw, x.1 ≠ i ∨ .a x.1 ∉ dests) → SMap.get h.a i = SMap.get g.a i) ∧
    (SMap.get h.s 3 = SMap.get h.s 3 ||| w.flags.setWidth 32)) ∧
  (∀ s gid fid (g : Group) (f : Flight) n s1, s.group? gid = some g → g.resident = true → g.flightOf fid = some f →
    f.parked = some n → (∀ x ∈ s.mem.faults, x.k ≠ n) → s.inTurn g f = true →
    (s.perform g { f with parked := none } = (s1, none) → exec (.replay gid fid) s = .next s1) ∧
    (∀ t, s.perform g { f with parked := none } = (s1, some t) → exec (.replay gid fid) s = .next (s1.takeTrap gid t))) ∧
  (∀ s gid fid (g : Group) (f : Flight) n, s.group? gid = some g → g.flightOf fid = some f → f.parked = some n →
    (∃ x ∈ s.mem.faults, x.k = n) → exec (.replay gid fid) s = .next s) ∧
  (∀ s core, let waiting (g : Group) (k : Nat) : Prop :=
      g ∈ s.groups ∧ g.core = core ∧ g.resident = true ∧ g.retired = false ∧ k < 2 ∧ (g.slot k).strand.isSome = true
    (∀ g k, waiting g k → (g.slot k).waits < 1024) → exec (.issueGuard core) s = .next s) ∧
  (∀ s core, ∃ due : List (Nat × Nat × Nat),
    exec (.issueGuard core) s = .next { s with run := { s.run with picks := due.map (·.2) ++ s.run.picks } } ∧
    due.Pairwise (fun x y => y.1 ≤ x.1) ∧
    ∀ w j n, (w, j, n) ∈ due ↔ 1024 ≤ w ∧ n < 2 ∧ ∃ g ∈ s.groups, g.core = core ∧ g.resident = true ∧ g.retired = false ∧ g.gid = j ∧
      (g.slot n).strand.isSome = true ∧ (g.slot n).waits = w) ∧
  (∀ s n f c pa r, (s.mem.faults.find? fun f => f.k == n && !f.done) = some f → s.ctx? f.ctx = some c →
    c.mapOf f.va = none → c.demandPage f.va = some r → s.demandFrame r pa = true →
    ∃ t d, exec (.pageFault n (some pa)) s = .next t ∧ (∀ y ∈ t.mem.faults, y.k ≠ n) ∧ t.ctx? c.id = some d ∧
      d.maps = c.maps ++ [⟨f.va / 0x10000 * 0x10000, pa, 0x10000, r.kind, r.write, r.exec, r.replicable⟩] ∧
      (∀ gid k owed, f.owner = .slot gid k owed → ∀ h ∈ t.groups, h.gid = gid → (h.slot k).park = none)) ∧
  (∀ s n f c fr m, (s.mem.faults.find? fun f => f.k == n && !f.done) = some f → s.ctx? f.ctx = some c → c.mapOf f.va = some m →
    m.replicable = false → ∃ t, exec (.pageFault n fr) s = .next t ∧ t.sys = s.sys ∧
      t.mem = { s.mem with faults := s.mem.faults.filter fun y => y.k != n }) ∧
  (∀ s n f c fr g gid k owed, (s.mem.faults.find? fun f => f.k == n && !f.done) = some f → s.ctx? f.ctx = some c →
    c.mapOf f.va = none → (c.demandPage f.va = none ∨ fr = none) → f.owner = .slot gid k owed → s.group? gid = some g →
    exec (.pageFault n fr) s =
      .next ((s.clearFault f).takeTrap gid ⟨0x0A, if (c.demandPage f.va).isSome then 8 else 5, owed, f.va, 0, k, g.pc k⟩))

/-! ## Pre-emption -/

/-- R117 to R119, R121 to R124, R186: a request halts every group of the unit, a team or, in class 1, a gang; the priority trigger
asks for units of lower priority on the die, youngest admission first, until the head fits, and counts them against the head; the
save waits for the work that has started, then writes what is dirty home and keeps the unit; the restore moves it to cores of the
dies that it heads, for a gang of class 1 to the first set of dies of its class that has room, adding 1 to s9 and writing the new
core to s10; suspending a context and switching a die ask for its units, and the switch clears the L1s of the die. Where a suspended
context resumes, how saved tarn returns, and that a head waits no set time before it asks, are the model's choice (log entries 1, 35
and 36). -/
def Obligations.PreEmption : Prop :=
  (∀ (s : State) gr t cause x, s.grid? gr = some x → s.causeHolds x (x.haltUnit t) cause = true →
    (∀ v ∈ s.sys.saved, ¬(v.grid = gr ∧ v.unit = x.haltUnit t)) →
    (∃ g ∈ s.groups, s.inUnit x (x.haltUnit t) g = true ∧ g.resident = true ∧ g.retired = false) →
    ∃ u, exec (.preEmptionRequest gr t cause) s = .next u ∧
      u.sys.saved = s.sys.saved ++ [⟨s.run.nextId, gr, x.haltUnit t, cause, none, false⟩] ∧
      u.groups = s.groups.map (fun g => if s.inUnit x (x.haltUnit t) g = true then { g with resident := false } else g) ∧
      u.mem = s.mem ∧ u.boot = s.boot) ∧
  (∀ (s : State) gr t cause x, s.grid? gr = some x → s.causeHolds x (x.haltUnit t) cause = false →
    exec (.preEmptionRequest gr t cause) s = .next s) ∧
  (∀ (s : State) (x : Grid) t g e, s.team? g.tid = some e → e.t = t →
    (s.inUnit x (x.haltUnit t) g = true ↔ g.grid = x.id) ∧
    (x.launch.cls ≠ 1 → ∀ h f, s.team? h.tid = some f → s.inUnit x (x.haltUnit t) h = true → f.t = t)) ∧
  (∀ (s : State) die d h y, s.die? die = some d → s.headUnit d = some h → s.grid? h.grid = some y →
    (y.prio < 2 → exec (.priorityPreemptTrigger die) s = .next s) ∧
    (2 ≤ y.prio → ∃ vs : List (Nat × Nat × Nat),
      let left (vs : List (Nat × Nat × Nat)) : List Nat := vs.flatMap fun v =>
        (s.grid? v.1).elim [] fun x => (s.groups.filter fun g => s.inUnit x v.2.1 g).map (·.gid)
      exec (.priorityPreemptTrigger die) s = .next (if vs = [] then s else
        { s.updGrid h.grid fun y => y.charge h.unit with
          run := { s.run with agenda := (vs.map fun v => .preEmptionRequest v.1 v.2.2 1) ++ s.run.agenda } }) ∧
      (∀ v ∈ vs, ∃ x, s.grid? v.1 = some x ∧ x.id = v.1 ∧ x.prio < y.prio ∧ x.launch.cls ≠ 2 ∧
        ∃ g ∈ s.groups, g.resident = true ∧ g.retired = false ∧ s.dieNum g.core = d.num ∧ s.inUnit x v.2.1 g = true) ∧
      vs.Pairwise (fun a b => ∀ xa xb, s.grid? a.1 = some xa → s.grid? b.1 = some xb → xb.order ≤ xa.order) ∧
      (∀ n, n < vs.length → s.headFits d (left (vs.take n)) = false) ∧
      (s.headFits d (left vs) = true ∨ ∀ g ∈ s.groups, ∀ x t, g.resident = true → g.retired = false → s.dieNum g.core = d.num →
        s.grid? g.grid = some x → s.team? g.tid = some t → x.prio < y.prio → x.launch.cls ≠ 2 → ∃ v ∈ vs, v.1 = x.id ∧
          v.2.1 = x.haltUnit t.t))) ∧
  (∀ (s : State) gr t x c, s.grid? gr = some x → s.ctx? x.ctx = some c →
    let unit := x.haltUnit t
    let mine := s.groups.filter (s.inUnit x unit)
    let busy := s.tarnCopies x unit = true ∨ s.evicting (s.teamCores gr (State.teamInUnit x unit)) = true ∨ ∃ g ∈ mine, (∃ o ∈ g.mq, o.started = true) ∨ ∃ n ∈ s.mem.snoops, n.gid = some g.gid
    (busy → exec (.preEmptionSave gr t) s = .next s) ∧
    (∀ p ∈ s.sys.copies, ∀ g r, s.group? p.gid = some g → s.inUnit x unit g = true → s.copyHeld p = false → p.body = some r →
      (Ptr.ofBits r.src).space = 1 ∨ (Ptr.ofBits r.dst).space = 1 ∨ r.sig = 2 → exec (.preEmptionSave gr t) s = .next s) ∧
    (¬busy → (∃ v ∈ s.sys.saved, v.grid = gr ∧ v.unit = unit ∧ v.saved = false) →
      c.eddyMiss (mine.filter fun g => !g.retired) = none →
      ∃ u, exec (.preEmptionSave gr t) s = .next u ∧ (∀ v ∈ u.sys.saved, v.grid = gr → v.unit = unit → v.saved = true) ∧
        u.groups = s.groups.map (fun g =>
          if s.inUnit x unit g = true then { g.halt with interval := g.halt.interval + 1 } else g) ∧
        ∀ w ∈ u.mem.l1, w.ctx = c.id → w.own ∈ s.teamCores gr (State.teamInUnit x unit) → w.dirty = false)) ∧
  (∀ (s : State) n v x c place es, (s.sys.saved.find? fun v => v.id == n && v.saved) = some v → s.grid? v.grid = some x →
    s.ctx? x.ctx = some c → (∀ g ∈ s.groups, s.inUnit x v.unit g = true → owesAtom g = false) →
    (∀ m ∈ s.mem.snoops, m.gid ≠ some v.id) →
    let heads := s.sys.dies.filter fun d => s.eligible d x && s.headUnit d == some ⟨x.id, v.unit, some v.id⟩
    s.placeBack x v.unit heads s.usage none = some place →
    s.getEddies c ((s.groups.filter (s.inUnit x v.unit)).filter fun g => !g.retired) = .inl es →
    (x.launch.cls = 1 → ∃ ds ∈ dieSets x.launch.rtClass heads, (∀ p ∈ place, ∀ k ∈ p.2, ∃ d ∈ ds, k ∈ d.cores) ∧
      ∀ m : Nat, (∀ j, j ≤ m → (dieSets x.launch.rtClass heads)[j]? ≠ some ds) →
        ∀ fs, (dieSets x.launch.rtClass heads)[m]? = some fs → s.placeSaved x fs none (s.savedTeams x v.unit) s.usage = none) ∧
    (x.launch.cls ≠ 1 → ∃ d ∈ heads, s.gangOn d x ⟨x.id, v.unit, some v.id⟩ = true ∧ ∀ p ∈ place, ∀ k ∈ p.2, k ∈ d.cores) ∧
    ∃ u, exec (.restore n []) s = .next u ∧ (∀ w ∈ u.sys.saved, w.id ≠ n) ∧
      (∀ p ∈ place, ∀ k ∈ p.2, ∃ d ∈ heads, k ∈ d.cores) ∧
      ∀ g ∈ s.groups, ∀ t, g.retired = false → s.team? g.tid = some t → State.teamInUnit x v.unit t = true → t.done = false →
        ∃ cs, ∃ h ∈ u.groups, (g.tid, cs) ∈ place ∧ h.gid = g.gid ∧ h.resident = true ∧
          h.core = cs.getD ((t.cores.findIdx? fun c => c == g.core).getD 0) g.core ∧
          SMap.get h.s 9 = SMap.get g.s 9 + 1 ∧ SMap.get h.s 10 = BitVec.ofNat 32 h.core ∧ h.v = g.v ∧ h.p = g.p ∧
          h.eddy = ((es.find? fun e => e.1 == g.gid).map Prod.snd).getD g.eddy ∧
          (∀ j r, v.yielder = some (g.gid, j, r) → 16 ≤ r → SMap.get h.s r = 1#32) ∧
          ((∀ j r, v.yielder ≠ some (g.gid, j, r)) → h.slot0 = g.slot0 ∧ h.slot1 = g.slot1)) ∧
  (∀ (s : State) sl c, s.ctxAt? sl = some c → ∃ u rs, exec (.hostSuspend sl) s = .next u ∧ u.run.agenda = rs ++ s.run.agenda ∧
    (∀ d ∈ u.sys.ctxs, d.id = c.id → d.suspended = true) ∧
    (∀ i ∈ rs, ∃ gr t, i = .preEmptionRequest gr t 3 ∧ ∃ x, s.grid? gr = some x ∧ x.ctx = c.id) ∧
    (∀ g ∈ s.groups, ∀ x t, g.resident = true → g.retired = false → s.grid? g.grid = some x → x.ctx = c.id →
      s.team? g.tid = some t → Instr.preEmptionRequest g.grid t.t 3 ∈ rs)) ∧
  (∀ (s : State) die sl c d, s.ctxAt? sl = some c → s.die? die = some d → d.ctx ≠ some c.id →
    ∃ u rs e, exec (.contextSwitch die sl) s = .next u ∧ u.run.agenda = rs ++ s.run.agenda ∧ u.die? die = some e ∧
      e.ctx = some c.id ∧ (∀ g ∈ s.groups, ∀ x t, g.resident = true → g.retired = false → s.dieNum g.core = die →
        s.grid? g.grid = some x → x.ctx ≠ c.id → s.team? g.tid = some t → Instr.preEmptionRequest g.grid t.t 4 ∈ rs) ∧
      ∀ w ∈ u.mem.l1, w.own / 128 ≠ d.block)

/-! ## The distributor -/

/-- R29, R30, R102, R105, Tables 1-7 and 4-1: the host's writes of registers. A write of TAIL that would pass the ring's size is
ignored; a write of a word of the event array reaches its home, and a slot that no live context has keeps its words too; other
registers ignore writes, and so does every register but those of BAR0 before an image is accepted. -/
def Obligations.RegisterWrites : Prop :=
  (∀ s n v i, s.boot.accepted = true → s.inlet? n = some i → (v - i.head).toNat ≤ i.size →
    exec (.tailWrite n v) s = .next (s.updInlet n fun i => if i.size < (v - i.head).toNat then i else { i with tail := v }) ∧
    (s.updInlet n fun i => if i.size < (v - i.head).toNat then i else { i with tail := v }).inlet? n = some { i with tail := v }) ∧
  (∀ s n v, (∀ i ∈ s.sys.inlets, i.n = n → i.size < (v - i.head).toNat) → exec (.tailWrite n v) s = .next s) ∧
  (∀ s sl w v, s.boot.accepted = true → sl < 256 → w < 4096 →
    (∀ c, s.ctxAt? sl = some c → exec (.eventWordWrite sl w v) s =
      .next (s.homeStore c (c.eventPa + 4 * w) (leBytes 4 v.toNat) none).recheck) ∧
    (s.ctxAt? sl = none → ∃ t, exec (.eventWordWrite sl w v) s = .next t ∧
      SMap.get t.sys.events (4096 * sl + w) = v ∧ (∀ j, j ≠ 4096 * sl + w → SMap.get t.sys.events j = SMap.get s.sys.events j) ∧
      t.mem = s.mem ∧ t.groups = s.groups)) ∧
  (∀ s, s.boot.accepted = false → (∀ n v, exec (.tailWrite n v) s = .next s) ∧
    (∀ sl w v, exec (.eventWordWrite sl w v) s = .next s) ∧ ∀ off v, exec (.registerWrite 2 off v) s = .next s) ∧
  (∀ s : State, (∀ x ∈ s.sys.grids, x.st ≠ .waiting) → s.recheck = s) ∧
  (∀ s v, exec (.registerWrite 0 0 v) s = exec (.bootGo (v.setWidth 32)) s) ∧
  (∀ s v, exec (.registerWrite 0 8 v) s = .next { s with boot := { s.boot with imgAddr := v } }) ∧
  (∀ s v, exec (.registerWrite 0 0x10 v) s = .next { s with boot := { s.boot with imgLen := v.setWidth 32 } }) ∧
  (∀ s n v, n < 256 → exec (.registerWrite 2 (0x1000 * n + 0x10) v) s = exec (.tailWrite n (v.setWidth 32)) s) ∧
  (∀ s sl w v, sl < 256 → w < 4096 →
    exec (.registerWrite 2 (0x100000 + 0x4000 * sl + 4 * w) v) s = exec (.eventWordWrite sl w (v.setWidth 32)) s) ∧
  (∀ s bar off v, (bar = 0 → off ≠ 0 ∧ off ≠ 8 ∧ off ≠ 0x10) →
    (bar = 2 → off < 0x100000 → off % 0x1000 ≠ 0x10) → (bar = 2 → 0x100000 ≤ off → 0x500000 ≤ off ∨ off % 4 ≠ 0) →
    exec (.registerWrite bar off v) s = .next s)

/-- R102 to R107, R60 to R62: the distributor reads the entry at the head of an inlet and the record that it names; a record
without event words is admitted when its fields are valid and rejected with the lowest offset that fails otherwise, and the
head moves on; an entry that is misaligned or cannot be read stops the inlet; a waiting dependence is met once its word
reaches the value. Which reads stop an inlet, what a dependence page that has gone leaves, and what a rejected copy package
leaves are the model's choice (log entries 53, 68 and 69). -/
def Obligations.RecordsTaken : Prop :=
  (∀ s n i c e bs, s.inlet? n = some i → s.ctx? i.ctx = some c → s.mayTake i = true →
    s.homeRead c (i.base + 8 * (i.head.toNat % i.size)) 8 = .ok e → leNat e % 64 = 0 → s.homeRead c (leNat e) 512 = .ok bs →
    s.grid? s.run.nextId = none →
    let l := parseLaunch bs
    l.done = 0 → l.dep = 0 →
    ∃ t y, exec (.inletEntryTake n) s = .next t ∧ t.grid? s.run.nextId = some y ∧ y.ctx = c.id ∧ y.launch = l ∧ y.parent = none ∧
      y.bad = s.gridBad y bs ∧
      y.prio = min l.prio i.prio ∧ y.affinity = l.affinity % 16 &&& i.affinity.toNat ∧ y.popSize = l.popZero ∧
      (y.bad = [] → fitsEmptyDie l c.bench = true → y.st = .admitted ∧ y.order = s.sys.admitted ∧
        t.sys.admitted = s.sys.admitted + 1 ∧ y.serial = s.boot.lineage.toNat ∧
        t.boot.lineage = s.boot.lineage + BitVec.ofNat 48 l.popZero) ∧
      (y.bad = [] → fitsEmptyDie l c.bench = false → y.st = .ended ∧ y.cause = some (0x100, 0x014#64)) ∧
      (∀ o ∈ y.bad, y.st = .ended ∧ ∃ p ∈ y.bad, p ≤ o ∧ y.cause = some (0x100, BitVec.ofNat 64 p)) ∧
      t.inlet? n = some { i with head := i.head + 1, blocked := false }) ∧
  (∀ s n i c, s.inlet? n = some i → s.ctx? i.ctx = some c → s.mayTake i = true →
    ((∃ a r, s.homeRead c (i.base + 8 * (i.head.toNat % i.size)) 8 = .bad a r) ∨
      (∃ a w, s.homeRead c (i.base + 8 * (i.head.toNat % i.size)) 8 = .miss a w ∧ c.inDemand a = none) ∨
      (∃ e, s.homeRead c (i.base + 8 * (i.head.toNat % i.size)) 8 = .ok e ∧
        (leNat e % 64 ≠ 0 ∨ (∃ a r, s.homeRead c (leNat e) 512 = .bad a r) ∨
          ∃ a w, s.homeRead c (leNat e) 512 = .miss a w ∧ c.inDemand a = none))) →
    exec (.inletEntryTake n) s = .next (s.updInlet n fun i => { i with stopped := true })) ∧
  (∀ s x c bs n i, (s.sys.grids.filter fun x => x.st == .waiting) = [x] → s.grid? x.id = some x → x.checked = true →
    x.launch.dep ≠ 0 → s.ctx? x.ctx = some c → s.homeRead c x.launch.dep 4 = .ok bs → x.inlet = some n → s.inlet? n = some i →
    let met := x.launch.depVal ≤ leNat bs ∧ s.eventSettled x.ctx x.launch.dep = true
    (met → s.full = true → exec .dependenceRecheck s = .next s) ∧
    (met → s.full = false → ∃ t y, exec .dependenceRecheck s = .next t ∧ t.grid? x.id = some y ∧ y.st = .admitted ∧
      y.order = s.sys.admitted ∧ t.sys.admitted = s.sys.admitted + 1 ∧
      t.inlet? n = some { i with head := i.head + 1, blocked := false }) ∧
    (¬met → ∃ t, exec .dependenceRecheck s = .next t ∧ t.sys.grids = s.sys.grids ∧
      t.inlet? n = some { i with blocked := true }))

/-- R59, R64, R109 to R112, R288, R295, Tables 2-4 and 2-8: a die that has room places its first unit: each team starts on its
cores with fresh tarn and barriers, each group at the entry address with its lanes active and its start scalars; a relaunched
group takes a run of the sluice, its keys in v0. The tarn contents and start values that the spec leaves open, and which cores
take a relaunched run, are the model's choice (log entries 10 and 37). -/
def Obligations.UnitsStart : Prop :=
  (∀ (s : State) die d u x cores place, s.die? die = some d → s.headUnit d = some u → u.saved = none → s.grid? u.grid = some x →
    s.reservoirBusy x = false → s.stackRoom x (sumOf ((x.unitTeams u.unit).map (·.2))) = true →
    s.placeUnit d x u (s.freshKeys (x.unitTeams u.unit)) cores = some place → u.unit < x.unitCount → x.seeds = [] →
    ∃ t y, exec (.diePull die cores) s = .next t ∧ t.grid? x.id = some y ∧ y.nextUnit = x.nextUnit + 1 ∧
      (∀ p ∈ (x.unitTeams u.unit).zip place, ∃ e ∈ t.sys.teams, e.grid = x.id ∧ e.t = p.1.1 ∧ e.cores = distinct p.2.2 ∧ e.tarn = [] ∧
        e.bars = List.replicate 16 Barrier.fresh ∧ e.resident = true ∧
        ∀ c ∈ p.2.2.zipIdx, ∃ g ∈ t.groups, g.tid = e.tid ∧ g.grid = x.id ∧ g.idx = c.2 ∧ g.core = c.1 ∧ g.resident = true ∧
          g.live = lowLanes (if c.2 + 1 = x.launch.groups then x.launch.lastLanes else 96) ∧
          g.slot0.strand = some ⟨BitVec.ofNat 64 x.launch.entry, g.live, g.live, none⟩ ∧ g.slot1.strand = none ∧
          SMap.get g.s 10 = BitVec.ofNat 32 c.1 ∧ SMap.get g.s 7 = BitVec.ofNat 32 c.2 ∧ g.v = [] ∧ g.p = [])) ∧
  (∀ (s : State) die d, s.die? die = some d → s.headUnit d = none → ∀ cores, exec (.diePull die cores) s = .next s) ∧
  (∀ (s : State) tid core t run rest x, s.team? tid = some t → t.runs = run :: rest → s.grid? t.grid = some x → t.resident = true →
    t.done = false → (s.groups.filter fun g => g.tid == tid && !g.retired).length < x.launch.groups → core ∈ t.cores →
    s.usage.fits x.launch (((s.ctx? x.ctx).map (·.bench)).getD 0) core tid = true → s.stackRoom x 1 = true → run.length ≤ 96 →
    ∃ u, exec (.sluiceRelaunch tid core) s = .next u ∧ (∀ e ∈ u.sys.teams, e.tid = tid → e.runs = rest) ∧
      ∃ g ∈ u.groups, g.gid = s.run.nextId ∧ g.tid = tid ∧ g.core = core ∧ g.idx = x.launch.groups + t.relaunched ∧
        g.live = lowLanes run.length ∧ g.slot0.strand = some ⟨BitVec.ofNat 64 x.launch.reorder, g.live, g.live, none⟩ ∧
        ∀ e ∈ run.zipIdx, g.vAt 0 e.2 = e.1.key.setWidth 32 ∧ SMap.get g.lineage e.2 = e.1.lineage ∧
          SMap.get g.parent e.2 = e.1.parent ∧ SMap.get g.pslot e.2 = e.1.pslot ∧
          ∀ j, j < e.1.payload.length → g.vAt (1 + j) e.2 = e.1.payload.getD j 0#32)

/-- R55, R60, R61, R341: the completion event of a grid that is over: its status and detail, then, once the homes have acknowledged them,
its count; the grid is reported and its parent's handle takes the status. R290 to R293, R295, R297: a resample raises the round and takes
new lineage serials; lanes resume in strands by their addresses, those of a group that the resample forms with what it gives them; one
whose weights or targets fail traps. Which work a retired group still completes, the order of the
sluice, the status of a grid whose child trapped, the record of an event that is lost, and how the end of a grid, a release, carries
what its groups have acquired, are the model's choice (log entries 29, 43, 67, 68 and 101). -/
def Obligations.GridsEnd : Prop :=
  (∀ (s : State) id x, s.grid? id = some x → s.gridOver x = true → ∃ t y, exec (.completionEvent id) s = .next t ∧
    t.grid? id = some y ∧ y.st = .reported ∧
    ∀ c m, s.ctx? x.ctx = some c → x.launch.done ≠ 0 → x.launch.done % 16 = 0 → c.mapOf x.launch.done = some m → m.write = true →
      let pa := m.pa + (x.launch.done - m.va)
      let count (u : State) : Nat := leNat (u.mem.bytes c.aesKey pa 4)
      pa % 16 = 0 → pa < 2 ^ 51 → backed s.boot.expanders pa = true → s.mem.later = [] → (∀ n ∈ s.mem.snoops, n.k < s.run.nextId) →
      leNat (t.mem.bytes c.aesKey (pa + 4) 4) = x.outcome.1 % 2 ^ 32 ∧
      leNat (t.mem.bytes c.aesKey (pa + 8) 8) = x.outcome.2 % 2 ^ 64 ∧
      (t.mem.later = [] → count t = (count s + 1) % 2 ^ 32) ∧
      (t.mem.later ≠ [] → count t = count s ∧ ∃ ks, t.mem.later = [⟨ks, c.aesKey, pa, none⟩] ∧ ks ≠ [] ∧
        ∀ k ∈ ks, ∃ n ∈ t.mem.snoops, n.k = k) ∧
      ((∀ w ∈ s.mem.basin, w.wa / 32 ≠ pa / 128) → t.mem.later = [])) ∧
  (∀ (s : State) id x p tid h e k y, s.grid? id = some x → s.gridOver x = true → x.parent = some (p, tid, h) → s.team? tid = some e →
    e.kids[h]? = some k → s.grid? p = some y → ∃ t f z, exec (.completionEvent id) s = .next t ∧ t.team? tid = some f ∧
      f.kids[h]? = some { k with status := some (BitVec.ofNat 32 x.outcome.1) } ∧ (∀ j, j ≠ h → f.kids[j]? = e.kids[j]?) ∧
      t.grid? p = some z ∧ z.kidsLive = y.kidsLive - 1) ∧
  (∀ (s : State) id x, s.grid? id = some x →
    (s.gridCarries x = true → s.gridOver x = false ∧ exec (.completionEvent id) s =
      .next ((s.groups.filter fun g => g.grid == x.id && s.groupCarries g 7).foldl (fun t g => t.carryFor g 7 x.id) s)) ∧
    (s.gridOver x = false → s.gridCarries x = false → exec (.completionEvent id) s = .next s)) ∧
  (∀ (s : State) id x, s.grid? id = some x → x.st = .admitted → s.allArrived x = true →
    let arr := sortBy (·.pslot) x.arrivals
    let total := (x.prefixes.getLast?).getD (.fin false 0 0)
    let n := ((arr.head?).map fun a => a.target.toNat).getD 0
    let u := s.resample x arr x.prefixes total n
    let missing := (u.ctx? x.ctx).bind fun c => c.eddyMiss ((u.imaged x).flatMap (·.2))
    (x.resampleBad arr total = none → missing = none → ∃ t y, exec (.resample id) s = .next t ∧ t.grid? id = some y ∧
      y.round = (x.round + 1) % 2 ^ 32 ∧ y.popSize = n ∧ y.arrivals = [] ∧
      t.boot.lineage = s.boot.lineage + BitVec.ofNat 48 n) ∧
    (∀ g va, x.resampleBad arr total = none → missing = some (g, va) → exec (.resample id) s = .next (s.awaitStack x g va true)) ∧
    (∀ cause reason a rest, x.resampleBad arr total = some (cause, reason, a :: rest) →
      exec (.resample id) s = .next (s.takeTrap a.gid
        ⟨cause, reason, maskOf (((a :: rest).filter fun b => b.gid == a.gid).map (·.lane)), 0, 0, a.slot, a.resume - 8⟩))) ∧
  (∀ (g : Group) ls, (∀ x ∈ ls, x.1 < 96) →
    let h := g.resumeAt ls
    { h with slot0 := g.slot0, slot1 := g.slot1, eddy := g.eddy } = g ∧
    (∀ x ∈ ls, ∃ m : LaneMask, (∀ l, l < 96 → (m.getLsbD l = true ↔ (l, x.2) ∈ ls)) ∧
      (h.slot0.strand = some ⟨x.2, m, m, none⟩ ∨ h.slot1.strand = some ⟨x.2, m, m, none⟩ ∨ Eddy.strand x.2 none m false ∈ h.eddy))) ∧
  (∀ (s : State) x tid t idx core (e : Seed), e.lanes.length ≤ 96 →
    ∃ g ∈ (s.startSeed x tid t idx core e).groups, g.gid = s.run.nextId ∧ g.tid = tid ∧ g.idx = idx ∧ g.core = core ∧
      g.live = lowLanes e.lanes.length ∧ g.slot0.strand = some ⟨e.resume, g.live, g.live, none⟩ ∧
      (∀ i, i < e.sregs.length → SMap.get g.s (32 + i) = e.sregs.getD i 0#32) ∧
      ∀ l, l < e.lanes.length → SMap.get g.lineage l = (e.lanes.getD l (0, 0, 0, 0)).1 ∧
        SMap.get g.parent l = (e.lanes.getD l (0, 0, 0, 0)).2.1 ∧ SMap.get g.pslot l = (e.lanes.getD l (0, 0, 0, 0)).2.2.1 ∧
        g.vAt e.vd l = (e.lanes.getD l (0, 0, 0, 0)).2.2.2)

/-! ## Engines and routers -/

/-- R79, R142, R159, R377, R409, R412 to R415, R417, R444: the copy engine checks a chained record when it reaches it, and a check
that fails gives the record's address, or that of the pointer at fault for a seal or a format; it moves the elements in order, a word
of the destination at a time, and rewrites the progress field of a chained record at least every 4 KiB and before it stops; once what
it has moved is acknowledged come the record's own fields, then OWN, then the signals, and it leaves its channel, the copy counter falling
by one; a stream record is read, checked and bound, the stream counter falling by one, and a seal or format of Q that fails gives the
address of Q. The scope of the reads of a chain, the core through which a transfer goes, and how far a save looks ahead for records
through the tarn, are the model's choice (log entries 38, 88 and 102). -/
def Obligations.CopySteps : Prop :=
  (∀ (s s1 : State) cid c bs, s.copy? cid = some c → c.body = none → s.copyHeld c = false → c.ending = false →
    s.engineRead c.gid (s.recordPort c) c.addr 64 = (s1, .ok bs) →
    let r := chainRec bs
    (r.own = false → exec (.copyRecordCheck cid) s = .next (s1.endCopy c)) ∧
    (∀ g, r.own = true → s1.group? c.gid = some g → s1.copyFails { g with core := c.core } true r = none →
      let tarn := (Ptr.ofBits r.src).space = 1 ∨ (Ptr.ofBits r.dst).space = 1 ∨ r.sig = 2
      (¬tarn ∨ s1.tarnSaved g = false → exec (.copyRecordCheck cid) s =
        .next (s1.updCopy cid fun c => { c with body := some r, moved := 0 })) ∧
      (tarn → s1.tarnSaved g = true → exec (.copyRecordCheck cid) s = .next s)) ∧
    (∀ g cause aux w, r.own = true → s1.group? c.gid = some g → s1.copyFails { g with core := c.core } true r = some (cause, aux, w) →
      let pointer := (cause = 3 ∨ cause = 8) ∧ (sealOk (s1.sealKey g) r.src = false ∨ sealOk (s1.sealKey g) r.dst = false ∨
        (Ptr.ofBits r.src).valid = false ∨ (Ptr.ofBits r.dst).valid = false)
      (cause = 1 → exec (.copyRecordCheck cid) s = .next (s1.stopCopy c cause aux 0)) ∧
      (pointer → (w = 1 ∨ w = 2) ∧ exec (.copyRecordCheck cid) s = .next (s1.stopCopy c cause aux (c.addr + 16 * (w - 1)))) ∧
      (cause ≠ 1 → ¬pointer → exec (.copyRecordCheck cid) s = .next (s1.stopCopy c cause aux c.addr)))) ∧
  (∀ (s s1 : State) (c : CopyOp) n seen a bs, a ≠ 0 → a ∉ seen → s.engineRead c.gid (s.recordPort c) a 64 = (s1, .ok bs) →
    let r := chainRec bs
    (r.own = false → s.tarnAhead c (n + 1) seen a = false) ∧
    (r.own = true → (Ptr.ofBits r.src).space = 1 ∨ (Ptr.ofBits r.dst).space = 1 ∨ r.sig = 2 → s.tarnAhead c (n + 1) seen a = true) ∧
    (r.own = true → r.tarn = false → s.tarnAhead c (n + 1) seen a = s.tarnAhead c n (a :: seen) (r.link % 2 ^ 52 / 64 * 64))) ∧
  (∀ (s : State) cid c r, s.copy? cid = some c → c.body = some r →
    (s.copyHeld c = true ∨ (c.chain = true ∧ c.moved + 1024 < r.bytes)) → exec (.copyRecordComplete cid) s = .next s) ∧
  (∀ (s : State) cid c r, s.copy? cid = some c → c.body = some r → s.copyHeld c = false → (c.chain = true → r.bytes ≤ c.moved + 1024) →
    c.closed.isSome = true → exec (.copyRecordComplete cid) s = .next (s.endRecord c r)) ∧
  (∀ (s : State) cid c r, s.copy? cid = some c → c.body = some r → s.copyHeld c = false → c.closed = none →
    let behind := c.chain = true ∧ c.told.getD 0 ≠ c.moved
    (c.halted.isSome = true ∨ behind → exec (.progressUpdate cid) s = .next (s.tellCopy c)) ∧
    (∀ (s1 : State) j x, c.halted = none → ¬behind → s.copySpan c r 1024 = (s1, j, x) →
      exec (.progressUpdate cid) s = .next ((s1.updCopy cid fun _ => c.after j x).tellCopy (c.after j x))) ∧
    (∀ (s1 : State) j x, c.halted = none → ¬behind → (c.chain = true → r.bytes ≤ c.moved + 1024) →
      s.copySpan c r (r.bytes - c.moved) = (s1, j, x) →
      let s2 := s1.updCopy cid fun _ => c.after j x
      (x = .ok () → exec (.copyRecordComplete cid) s = .next (s2.endRecord (c.after j x) r)) ∧
      (x ≠ .ok () → exec (.copyRecordComplete cid) s = .next (s2.tellCopy (c.after j x))))) ∧
  (∀ (c : CopyOp) j, c.after j (.ok ()) = { c with moved := j } ∧ c.after j .wait = { c with moved := j } ∧
    ∀ cause aux a, c.after j (.fail cause aux a) = { c with moved := j, halted := some (cause, aux, a) }) ∧
  (∀ (s : State) (c : CopyOp), let told := c.told = some c.moved ∨ c.chain = false
    (s.copyAcked c = false → s.tellCopy c = s) ∧
    (∀ cause aux a, s.copyAcked c = true → told → c.halted = some (cause, aux, a) → s.tellCopy c = s.stopCopy c cause aux a) ∧
    (∀ (s1 : State) x, s.copyAcked c = true → c.chain = true → c.told ≠ some c.moved →
      s.engineWrite c.gid (s.recordPort c) (c.addr + 0x3C) (leBytes 4 c.moved) (some c.cid) = (s1, x) →
      (x = .wait → s.tellCopy c = s1) ∧
      (∀ cause aux a, x ≠ .wait → c.halted = some (cause, aux, a) → s.tellCopy c = s1.stopCopy c cause aux a) ∧
      (∀ cause aux a, x = .fail cause aux a → c.halted = none → s.tellCopy c = s1.stopCopy c cause aux a) ∧
      (x = .ok () → c.halted = none → s.tellCopy c = s1.updCopy c.cid fun c => { c with told := some c.moved }))) ∧
  (∀ (s : State) c (r : CopyRec), (s.copyAcked c = false → s.endRecord c r = s) ∧
    (s.copyAcked c = true → c.chain = false → s.endRecord c r = (s.copySignal c r).endCopy c) ∧
    (∀ (s1 : State), s.copyAcked c = true → c.chain = true → c.closed = none → r.mcast = false →
      s.engineWrite c.gid (s.recordPort c) (c.addr + 0x3C) (leBytes 4 r.bytes) (some c.cid) = (s1, .ok ()) →
      let s2 := s1.updCopy c.cid fun c => { c with closed := some none }
      s.endRecord c r = (if s2.copyAcked c = true then s2.clearOwn c r else s2)) ∧
    (∀ (s1 s2 : State), s.copyAcked c = true → c.chain = true → c.closed = none → r.mcast = true →
      s.engineWrite c.gid (s.recordPort c) (c.addr + 0x3C) (leBytes 4 r.bytes) (some c.cid) = (s1, .ok ()) →
      s1.engineWrite c.gid (s1.recordPort c) (c.addr + 0x38) (leBytes 4 (s1.undelivered c)) (some c.cid) = (s2, .ok ()) →
      let s3 := s2.updCopy c.cid fun c => { c with closed := some none }
      s.endRecord c r = (if s3.copyAcked c = true then s3.clearOwn c r else s3)) ∧
    (s.copyAcked c = true → c.chain = true → c.closed = some none → s.endRecord c r = s.clearOwn c r) ∧
    (∀ link, s.copyAcked c = true → c.chain = true → c.closed = some (some link) → s.endRecord c r = s.leaveRecord c r link)) ∧
  (∀ (s s1 s2 : State) c (r : CopyRec) bs, s.engineRead c.gid (s.recordPort c) (c.addr + 0x20) 8 = (s1, .ok bs) →
    s1.engineWrite c.gid (s1.recordPort c) (c.addr + 0x20) (leBytes 4 (leNat bs / 2 * 2)) (some c.cid) = (s2, .ok ()) →
    let s3 := s2.updCopy c.cid fun c => { c with closed := some (some (leNat bs)) }
    s.clearOwn c r = (if s3.copyAcked c = true then s3.leaveRecord c r (leNat bs) else s3)) ∧
  (∀ (s : State) c (r : CopyRec) link, let dest := link % 2 ^ 52 / 64 * 64
    ((dest = 0 ∨ c.ending = true) → s.leaveRecord c r link = (s.copySignal c r).endCopy c) ∧
    (dest ≠ 0 → c.ending = false → s.leaveRecord c r link = (s.copySignal c r).updCopy c.cid fun c =>
      { c with addr := dest, body := none, moved := 0, told := none, closed := none })) ∧
  (∀ (s s1 : State) c r n j x, s.copySpan c r n = (s1, j, x) → c.moved ≤ j ∧ j ≤ c.moved + n) ∧
  (∀ (r : CopyRec) i, 0 < r.elem → r.limits = true → i < r.bytes →
    (∀ y ∈ r.runs i, y.1 / 4 = (r.byteAt i).2 / 4 ∧ y.2 ≠ [] ∧ y.1 % 4 + y.2.length ≤ 4 ∧
      ∀ n j, y.2[n]? = some j → j < r.bytes ∧ (r.byteAt j).2 = y.1 + n) ∧
    (∀ j, j < r.bytes → (r.byteAt j).2 / 4 = (r.byteAt i).2 / 4 → ∃ y ∈ r.runs i, y.1 ≤ (r.byteAt j).2 ∧ (r.byteAt j).2 < y.1 + y.2.length)) ∧
  (∀ (s : State) c, (s.endCopy c).copy? c.cid = none ∧
    ∀ h, (s.endCopy c).group? c.gid = some h → ∃ g, s.group? c.gid = some g ∧ h = { g with cntCopy := g.cntCopy - 1 }) ∧
  (∀ (s s1 : State) gid k (g : Group) r b, s.group? gid = some g → (g.streams.getD k Stream.fresh).req = some r →
    let waits := s.zmovCovers g (Ptr.ofBits r.ptr) 64 [r.addr] = true ∨ g.resident = false ∨ ∃ f ∈ g.flight, f.owesWrite = true
    let q := (parseStream b).q
    (waits → exec (.streamRecordRead gid k) s = .next s) ∧
    (¬waits → s.engineRead gid (s.port g (Ptr.ofBits r.ptr)) r.addr 64 = (s1, .ok b) →
      (streamBad (s1.sealKey g) b = none → exec (.streamRecordRead gid k) s = .next (s1.updGroup gid fun h =>
        { h.setStream k { g.streams.getD k Stream.fresh with body := some (parseStream b), req := none } with
          cntStream := h.cntStream - 1 }.saw 2 (Ptr.ofBits r.ptr).scope)) ∧
      (∀ cause aux at_, streamBad (s1.sealKey g) b = some (cause, aux, at_) →
        (cause = 1 ∧ at_ = none ∨ (cause = 3 ∨ cause = 8) ∧
          at_ = some (if sealOk (s1.sealKey g) q = true ∧ (Ptr.ofBits q).valid = true then 0 else 0x30)) ∧
        exec (.streamRecordRead gid k) s =
          .next (s1.engineTrap gid ⟨cause, aux, r.active, at_.elim 0 fun o => r.addr + o, 3, r.slot, r.pc⟩))))

/-- R169, R181, R217, R218, R224, R226, R240, R418: a free array takes the oldest operation of a group whose tiles no older one uses,
once no earlier ST or ATOM of the group stands before it and no page of its B operand is missing; an operation that completes writes
its tiles, raises its flags (with the registers of its flight, where it has one and no counter counts it) and lowers the matrix counter; one that fails raises its cause on its group; an XFORM starts once its header passes. Which operations
of a retired group complete, the address of a row extent beyond the count, and when a B operand is read, are the model's
choice (log entries 29, 44 and 71). -/
def Obligations.MatrixSteps : Prop :=
  (∀ (s : State) cl g o, g ∈ s.groups → g.core / 8 = cl → g.resident = true → nextOp (s.mxReady g) g.mq [] = some o →
    (∀ h ∈ s.groups, h.core / 8 = cl → ∀ p ∈ h.mq, p.started = false ∨ isXform p.op = true) →
    (∀ h ∈ s.groups, h.core / 8 = cl → h.resident = true → h ≠ g → nextOp (s.mxReady h) h.mq [] = none) →
    let t := s.startOp g.gid o.id 0
    (s.missingB g o = none → exec (.arrayTakeWork cl) s =
      .next { t with sys := { t.sys with served := kvSet t.sys.served (4 * cl) g.gid } }) ∧
    (∀ va s1 y, s.missingB g o = some va →
      s.awaitPage (.engine g.gid) ((s.ctxOf g).getD emptyCtx).id g.core va false = (s1, y) →
      exec (.arrayTakeWork cl) s = .next (match y with | none => s1 | some r => s1.failOp g.gid o 0x0A r va))) ∧
  (∀ (s : State) gid id a g, s.group? gid = some g → ∃ h, (s.startOp gid id a).group? gid = some h ∧
    { h with mq := g.mq, flight := g.flight } = g ∧ h.mq = g.mq.map (fun p => if p.id = id then { p with started := true, array := a } else p) ∧
    h.flight.map (·.fid) = g.flight.map (·.fid) ∧ { s.startOp gid id a with groups := s.groups } = s) ∧
  (∀ (s : State) g o, (s.mxReady g o = true → s.mxHeld g o = false) ∧
    ∀ f ∈ g.flight, f.fid < o.id →
      ((∃ a u x l, f.pend = .store a u (x :: l)) ∨ ∃ a b n c d x l w, f.pend = .atom a b n c d (x :: l) w) → s.mxHeld g o = true) ∧
  (∀ ready q o, nextOp ready q [] = some o → o.started = false ∧ isXform o.op = false ∧ ready o = true ∧
    ∃ older younger, q = older ++ o :: younger ∧ ∀ p ∈ older, ∀ z ∈ tilesUsed o.op, z ∉ tilesUsed p.op) ∧
  (∀ (s s1 : State) gid opid g o, s.group? gid = some g → (g.mq.find? fun o => o.id == opid && o.started) = some o →
    (∀ d, s.runOp g o = (s1, .ok d) →
      exec (.matrixOpComplete gid opid) s = .next ((s1.updKept gid fun h => h.finishOp o d).sweep gid)) ∧
    (∀ cause aux a, s.runOp g o = (s1, .fail cause aux a) →
      exec (.matrixOpComplete gid opid) s = .next (s1.failOp gid o cause aux a))) ∧
  (∀ (g : Group) o d, let h := g.finishOp o d
    (∀ p, p ∈ h.mq ↔ p ∈ g.mq ∧ p.id ≠ o.id) ∧
    h.cntMx = (if countsMx o.op then g.cntMx - 1 else g.cntMx) ∧
    (o.fid.bind g.flightOf = none ∨ countsMx o.op = true → SMap.get h.s 3 = SMap.get g.s 3 ||| d.flags.setWidth 32) ∧
    (∀ f, o.fid.bind g.flightOf = some f → countsMx o.op = true → { f with pend := .moved d.regs } ∈ h.flight) ∧
    (∀ f, o.fid.bind g.flightOf = some f → countsMx o.op = false → SMap.get h.s 3 = SMap.get g.s 3 ∧
      { f with pend := .moved { d.regs with flags := d.regs.flags ||| d.flags } } ∈ h.flight) ∧
    (∀ i, i ≠ 3 → SMap.get h.s i = SMap.get g.s i) ∧ h.v = g.v ∧ h.p = g.p ∧ h.a = g.a ∧
    (∀ z t, d.tiles = [(z, t)] → z < g.tiles.length → h.tiles[z]? = some t ∧ ∀ y, y ≠ z → h.tiles[y]? = g.tiles[y]?)) ∧
  (∀ (s s1 : State) gid g o b, s.group? gid = some g → (g.mq.find? fun o => isXform o.op) = some o → g.resident = true →
    o.started = false → o.status = 0 → s.mxHeld g o = false → s.mxRead g (o.p 0) (o.s 0 + o.s 1) 64 = (s1, .ok b) →
    let fwd := (match o.op with | .xformFwd .. => true | _ => false)
    (xformHdrBad fwd (o.p 0) (o.s 0 + o.s 1) (tileHdr b) = none → exec (.transformStart gid) s =
      .next (s1.updGroup gid fun h => { h with mq := h.mq.map fun p =>
        if p.id = o.id then { p with started := true, scal := p.scal.take 2 ++ [BitVec.ofNat 32 (tileHdr b).rows] } else p })) ∧
    (∀ cause aux, xformHdrBad fwd (o.p 0) (o.s 0 + o.s 1) (tileHdr b) = some (cause, aux) →
      exec (.transformStart gid) s = .next (s1.failOp gid o cause aux ((o.p 0).base + (o.s 0 + o.s 1)))))

/-- R242 to R249, R343: the contributions of a group reach a router in issue order; one that reaches the router of its mere enters its round, is folded, discarded or rejected by its
lag, or waits; the collective counter of its group falls; an idle mere unbinds and its part fields go back to its descriptor;
R247 to R249: rounds close in tag order, each when k members are on time: after the closes the oldest round has fewer than k,
and the tag has advanced by the rounds that closed. What becomes of a contribution to an unbound mere is the model's choice (log
entry 41). -/
def Obligations.MereSteps : Prop :=
  (∀ (s : State) id e base i tag pay m older younger, s.sys.sent = older ++ e :: younger → e.id = id → e.what = .meet base i tag pay →
    (∀ x ∈ older, x.id ≠ id) → s.mere? e.ctx base = some m →
    ((∃ x ∈ older, x.gid = e.gid ∧ s.meetRouter x = some m.die) → exec (.mereContribution id) s = .next s) ∧
    ((∀ x ∈ older, x.gid = e.gid → s.meetRouter x ≠ some m.die) →
    let d := (tag - m.tag).toNat
    let lag := 2 ^ 16 - d
    let step (t : State) (n : Mere) : Prop := exec (.mereContribution id) s = .next t ∧ t.mere? e.ctx base = some n ∧
      t.sys.sent = s.sys.sent.filter (fun x => x.id != id) ∧
      ∀ h, t.group? e.gid = some h → ∃ g, s.group? e.gid = some g ∧ h = ({ g with cntColl := g.cntColl - 1 } : Group).saw 3 (s.sentScope e)
    (4 ≤ d → d < 2 ^ 15 → exec (.mereContribution id) s = .next s) ∧
    (d < 4 → i ∉ m.onTime tag → ∃ t, step t (closeRounds 5 (m.put tag i pay) s.run.free).1 ∧
      t.run.free = (closeRounds 5 (m.put tag i pay) s.run.free).2) ∧
    (2 ^ 15 ≤ d → lag ≤ m.lags.getD i 0 → m.rule = 2 → ∃ t, step t { m with discarded := m.discarded + 1 }) ∧
    (2 ^ 15 ≤ d → lag ≤ m.lags.getD i 0 → m.rule ≠ 2 → ∃ t, step t (m.fold i lag pay)) ∧
    (d < 4 → i ∈ m.onTime tag → exec (.mereContribution id) s = .next ((s.accepted e).meetReject e 5 base)) ∧
    (2 ^ 15 ≤ d → m.lags.getD i 0 < lag → exec (.mereContribution id) s = .next (((s.accepted e).setMere { m with
      rejected := m.rejected + 1, flagged := if i ∈ m.flagged then m.flagged else m.flagged ++ [i] }).meetReject e 6 base)))) ∧
  (∀ (m : Mere) i lag pay, (∀ f ∈ m.folds, f.member ≠ i) → (m.rule ≠ 1 ∨ m.op = 2) →
    ∃ f ∈ (m.fold i lag pay).folds, f.member = i ∧ f.acc = pay ∧ (m.fold i lag pay).folded = m.folded + 1) ∧
  (∀ (s : State) n m c, s.sys.meres[n]? = some m → s.mereIdle m = true → s.ctx? m.ctx = some c →
    (∀ s1, s.partPut c (m.base + 0x10) m.partFields none = (s1, .ok ()) → exec (.mereUnbind n) s = .next (s1.dropMere m)) ∧
    (∀ s1 a r, s.partPut c (m.base + 0x10) m.partFields none = (s1, .bad a r) → exec (.mereUnbind n) s = .next (s1.dropMere m)) ∧
    (∀ s1 a w, s.partPut c (m.base + 0x10) m.partFields none = (s1, .miss a w) → c.inDemand a = none →
      exec (.mereUnbind n) s = .next (s1.dropMere m)) ∧
    ∀ s1 : State, (s1.dropMere m).mere? m.ctx m.base = none) ∧
  (∀ (s : State) n m, s.sys.meres[n]? = some m → s.mereIdle m = false → exec (.mereUnbind n) s = .next s) ∧
  (∀ (m : Mere) free, 0 < m.k → (∀ r ∈ m.rounds, (r.tag - m.tag).toNat < 4) →
    let r := (closeRounds 5 m free).1
    ∃ n, n ≤ 4 ∧ r.tag = m.tag + BitVec.ofNat 16 n ∧ (closeRounds 5 m free).2 = free + n ∧
      (∀ j < n, m.k ≤ (m.onTime (m.tag + BitVec.ofNat 16 j)).length) ∧ (m.onTime r.tag).length < m.k ∧
      r.onTime r.tag = m.onTime r.tag ∧ r.joined = m.joined ∧ (0 < n → r.folds = []))

/-- R252, R253, R255 to R257: a contribution that agrees with its reduction enters it; the last one of the participants sets the result;
one that disagrees is dropped; a reduction times out before its result or not at all, and is freed after its outcome. -/
def Obligations.RouterSteps : Prop :=
  (∀ (s : State) id e tree die tag leaf mask ty op m pay r, (s.sys.sent.find? fun e => e.id == id) = some e →
    e.what = .reduce tree die tag leaf mask ty op m pay → s.reduct? e.ctx tree die tag = some r →
    (r.timedOut = false → r.agrees mask ty op m = true → (∀ x ∈ r.got, x.1 ≠ leaf) →
      let q := { r with got := r.got ++ [(leaf, pay)] }
      exec (.routerContribution id) s = .next ((s.accepted e).setReduct { q with result := if q.missing = 0 then q.combine else none })) ∧
    ((r.timedOut = true ∨ r.agrees mask ty op m = false ∨ ∃ x ∈ r.got, x.1 = leaf) →
      exec (.routerContribution id) s = .next (s.accepted e))) ∧
  (∀ (s : State) id e tree die tag leaf mask ty op m pay, (s.sys.sent.find? fun e => e.id == id) = some e →
    e.what = .reduce tree die tag leaf mask ty op m pay → s.reduct? e.ctx tree die tag = none →
    (s.sys.reducts.filter fun r => r.ctx == e.ctx && r.tree == tree && r.die == die).length < 16 →
    ∃ t r, exec (.routerContribution id) s = .next t ∧ r ∈ t.sys.reducts ∧ r.named e.ctx tree die tag = true ∧ r.got = [(leaf, pay)] ∧
      r.pmask = mask ∧ r.ty = ty ∧ r.op = op ∧ r.m = m) ∧
  (∀ (s : State) n r, (s.sys.reducts.find? fun r => r.id == n) = some r →
    (r.result = none → exec (.reduceTimeout n) s = .next (s.setReduct { r with timedOut := true })) ∧
    (r.result.isSome = true → exec (.reduceTimeout n) s = .next s) ∧
    ((r.result.isSome = true ∨ r.timedOut = true) → exec (.instanceFreeTimeout n) s = .next (s.freeReduct n)) ∧
    (r.result = none → r.timedOut = false → exec (.instanceFreeTimeout n) s = .next s))

/-- R260 to R266, Table 10-4: a chunk that every rank has fired starts once the writes of its teams have been performed, and reads
its own values; each good block that it awaits, of every other rank or of the slices of R263, is taken once, and the eighth bad copy
in succession or the loss of every route fails the chunk; a block with poison is sent with a check that fails; when every block has
come the results are written in the order of the ranks; a chunk that some rank never fires fails, and so does one with a poisoned block
of its own; with one rank a chunk completes once the writes of its teams stand at the home. The block exchange, what fails a
chunk on its own die, the cut of unequal slices, and what a poisoned block is taken for are the model's choice (log entries 46 and 57). -/
def Obligations.CollectiveSteps : Prop :=
  (∀ (s : State) gr ch x k c, s.grid? gr = some x → s.chunk? gr ch = some k → k.st = .fired → s.ctx? x.ctx = some c →
    let n := x.chunkLen
    let sz := Machine.sizeOf x.resPtr.fmt
    let s1 := s.flushVa c (x.chunkAddr ch) (n * sz) gr
    let read (b : Nat) : Acc (List W8) := s1.homeRead c (x.chunkAddr ch + 128 * sz * b) (128 * sz)
    let mine := (List.range n).map fun i =>
      BitVec.ofNat 64 (leNat ((List.range sz).map fun j => s1.homeByte c (x.chunkAddr ch + sz * i + j)))
    (s.chunkOwed x ch = true → exec (.collectiveStart gr ch) s = .next s) ∧
    (s.chunkOwed x ch = false → s.ranks x = 1 → exec (.collectiveStart gr ch) s = .next (s1.endChunk x ch true)) ∧
    (s.chunkOwed x ch = false → s.ranks x ≠ 1 → (∀ b < n / 128, (∃ bs, read b = .ok bs) ∨ ∃ a, read b = .bad a 6) → ∃ p,
      exec (.collectiveStart gr ch) s = .next (s1.updChunk gr ch fun k => { k with st := .started, own := mine, poison := p }) ∧
      ∀ b, b ∈ p ↔ b < n / 128 ∧ ∃ a, read b = .bad a 6) ∧
    (s.chunkOwed x ch = false → s.ranks x ≠ 1 → (∀ b < n / 128, ∀ a w, read b ≠ .miss a w) → (∃ b a r, b < n / 128 ∧ read b = .bad a r ∧ r ≠ 6) →
      exec (.collectiveStart gr ch) s = .next (s1.endChunk x ch false))) ∧
  (∀ (s : State) bg ch rank idx block x k, s.boundGrid bg = some x → s.chunk? x.id ch = some k →
    let key := 2 ^ 32 * rank + idx
    ((s.ranks x ≤ rank ∨ rank = s.rankOf x) → ∀ route, exec (.wireBlockReceive bg ch rank idx block route) s = .next s) ∧
    ((k.st ≠ .started ∨ s.awaited x idx rank = false) → exec (.wireBlockReceive bg ch rank idx block true) s = .next s) ∧
    (rank < s.ranks x → rank ≠ s.rankOf x → (k.st = .fired ∨ k.st = .started) →
      exec (.wireBlockReceive bg ch rank idx block false) s = .next (s.endChunk x ch false)) ∧
    (k.st = .started → rank < s.ranks x → s.awaited x idx rank = true → 128 * idx < x.chunkLen → (∀ y ∈ k.got, y.1 ≠ key) →
      (∀ vs, wireDecode x.resPtr.fmt block = some vs → exec (.wireBlockReceive bg ch rank idx block true) s =
        .next (s.updChunk x.id ch fun k => { k with
          got := kvSet k.got key (vs.map (BitVec.ofNat 64)), bad := k.bad.filter fun b => b.1 != key })) ∧
      (∀ n', wireDecode x.resPtr.fmt block = none → (kvGet k.bad key).getD 0 = n' → n' < 7 →
        exec (.wireBlockReceive bg ch rank idx block true) s =
          .next (s.updChunk x.id ch fun k => { k with bad := kvSet k.bad key (n' + 1) })) ∧
      (wireDecode x.resPtr.fmt block = none → 7 ≤ (kvGet k.bad key).getD 0 →
        exec (.wireBlockReceive bg ch rank idx block true) s = .next (s.endChunk x ch false)))) ∧
  (∀ (s : State) x b r, s.sliced x = false → (s.awaited x b r = true ↔ r ≠ s.rankOf x)) ∧
  (∀ fmt xs, (fmt = fmtFp32 ∨ fmt = fmtFp64 ∨ fmt = fmtBf16) → xs.length = 128 →
    (∀ x ∈ xs, x < 2 ^ (8 * Machine.sizeOf fmt)) → wireDecode fmt (wireEncode fmt xs) = some xs) ∧
  (∀ (k : Chunk) fmt b, b ∈ k.poison → wireDecode fmt (k.sent fmt b) = none) ∧
  (∀ (s : State) gr ch x k c, s.grid? gr = some x → s.chunk? gr ch = some k → k.st = .started → s.ctx? x.ctx = some c →
    let out := (List.range x.chunkLen).map fun e => leBytes (Machine.sizeOf x.resPtr.fmt) (s.chunkElem x k e)
    let w := State.partWriteAll c gr (x.chunkAddr ch) (Machine.sizeOf x.resPtr.fmt) out s
    s.chunkFull x k = true →
    (∀ s1, w = (s1, .ok ()) → exec (.collectiveComplete gr ch) s = .next ((s1.mergeSnoops s.run.nextId).endChunk x ch true)) ∧
    (∀ s1 a r, w = (s1, .bad a r) →
      exec (.collectiveComplete gr ch) s = .next ((s1.mergeSnoops s.run.nextId).endChunk x ch false))) ∧
  (∀ (s : State) x k e, (s.sliced x = false ∨ sliceOf (s.ranks x) (x.chunkLen / 128) (e / 128) = s.rankOf x) →
    s.chunkElem x k e = collElem x.resPtr.fmt (x.launch.coll % 256) ((List.range (s.ranks x)).map fun r => k.value (s.rankOf x) r e)) ∧
  (∀ (s : State) gr ch x k, s.grid? gr = some x → s.chunk? gr ch = some k →
    let fails := s.ranks x ≠ 1 ∧ (k.st = .fired ∨ k.st = .started ∧ k.poison ≠ [])
    (fails → exec (.collectiveFailTimeout gr ch) s = .next (s.endChunk x ch false)) ∧
    (¬fails → exec (.collectiveFailTimeout gr ch) s = .next s)) ∧
  (∀ (s : State) x ch good y, x.st = .admitted → s.grid? x.id = some y → ∃ z, (s.endChunk x ch good).grid? x.id = some z ∧
    z.chunksLeft = y.chunksLeft - 1 ∧ (good = true → z.collBad = y.collBad) ∧
    (good = false → ∃ n, z.collBad = some n ∧ n ≤ ch ∧ ∀ m, y.collBad = some m → n ≤ m))

/-! ## Coherence, errors and the clock -/

/-- R20, R161, R188, R267 to R273, R276, R280: a write at a home is read there, and the dies that hold a word of its lines are sent
snoops; the host's stores and compare and swaps reach its own memory, and a memory die in reset takes none; an answered snoop has discarded its words and woken the link, and the writes of the
control die that waited for it follow; an unanswered one is logged once, and then relayed; evicted lines
leave the L1 or the basin with their dirty words; refresh and scrubbing change no value. The moment of a snoop, and the record
of a link that wakes, are the model's choice (log entries 21 and 47). -/
def Obligations.CoherenceSteps : Prop :=
  (∀ s die bank, exec (.refreshWindow die bank) s = .next s) ∧
  (∀ s m, exec (.scrub m) s = .next s) ∧
  (∀ (s : State) die m, m < 4 → (∀ n ∈ s.mem.snoops, n.die = die → ∀ wa ∈ n.words, memDieOf wa ≠ m) →
    exec (.linkSleep die m) s =
      .next { s with mem := { s.mem with asleep := s.mem.asleep.filter (fun x => x != (die, m)) ++ [(die, m)] } }) ∧
  (∀ (s : State) die m n, n ∈ s.mem.snoops → n.die = die → (∃ wa ∈ n.words, memDieOf wa = m) → exec (.linkSleep die m) s = .next s) ∧
  (∀ (s : State) pa data key who, s.boot.memReset = true → pa < 2 ^ 51 → exec (.homeWrite pa data key who) s = .next s) ∧
  (∀ (s : State) pa data key src, s.boot.memReset = false → pa + data.length ≤ 2 ^ 51 → (∀ i < data.length, backed s.boot.expanders (pa + i) = true) → pa < 2 ^ 51 →
    ∃ t, exec (.homeWrite pa data key (.store src)) s = .next t ∧
      (∀ i < data.length, t.mem.byte key (pa + i) = data.getD i 0#8) ∧
      (∀ a j, (a < pa ∨ pa + data.length ≤ a) → (∀ i < data.length, a / 128 ≠ (pa + i) / 128 ∨ kvGet s.mem.keys (a / 128) = some key) →
        t.mem.byte j a = s.mem.byte j a) ∧
      (∀ i < data.length, ∀ d ∈ s.sys.dies, (∀ e ∈ s.sys.dies, e.num = d.num → e = d) → some d.num ≠ src → d.alive = true →
        d.inReset = false → (∃ c ∈ s.mem.basin, c.own = d.num ∧ c.wa / 32 = (pa + i) / 128) →
        ∃ n ∈ t.mem.snoops, n.die = d.num ∧ (pa + i) / 4 ∈ n.words)) ∧
  (∀ (s : State) pa data key, 2 ^ 51 ≤ pa → 0 < data.length → data.length ≤ 2 ^ 50 →
    let old := s.hostRead pa data.length true
    (∀ who, (who = .swap old.2 ∨ ∃ src, who = .store src) → ∃ t, exec (.homeWrite pa data key who) s = .next t ∧
      ∀ i < data.length, t.mem.byte 0 (pa + i) = data.getD i 0#8) ∧
    (∀ c, c ≠ old.2 → exec (.homeWrite pa data key (.swap c)) s = .next old.1)) ∧
  (∀ (s : State) k n d, (s.mem.snoops.find? fun n => n.k == k) = some n → s.die? n.die = some d → d.alive = true → d.inReset = false →
    ∃ t : State, exec (.snoopAnswer k) s = .next t.settleLater ∧ (∀ x, x ∈ t.mem.snoops ↔ x ∈ s.mem.snoops ∧ x.k ≠ k) ∧
      (∀ c, c ∈ t.mem.basin ↔ c ∈ s.mem.basin ∧ ¬(c.own = n.die ∧ c.wa ∈ n.words)) ∧ t.mem.home = s.mem.home ∧
      t.mem.later = s.mem.later ∧ ∀ wa ∈ n.words, (n.die, memDieOf wa) ∉ t.mem.asleep) ∧
  (∀ s : State, (s.mem.later = [] → s.settleLater = s) ∧ ∀ w rest, s.mem.later = w :: rest →
    ((∃ n ∈ s.mem.snoops, n.k ∈ w.waits) → s.settleLater = s) ∧
    ((∀ n ∈ s.mem.snoops, n.k ∉ w.waits) → s.settleLater = State.runLater rest (w.perform s))) ∧
  (∀ (s : State) k n, (s.mem.snoops.find? fun n => n.k == k) = some n →
    ∃ t x, exec (.linkWakeTimeout k) s = .next t ∧ (t.mem.snoops.find? fun n => n.k == k) = some x ∧ x.tries = n.tries + 1 ∧
      (n.tries = 0 → t.boot.pevCount = s.boot.pevCount + 1 ∧ x.entry = some s.boot.pevCount ∧
        ∃ r ∈ t.boot.pevLog, r.seq = s.boot.pevCount ∧ r.kind = 1 ∧ r.cause = 0x1B ∧ r.slot = 0xFF ∧ r.source = 6 ∧
          r.aux.getLsbD 9 = n.awake) ∧
      (1 ≤ n.tries → t.boot = s.boot ∧ x.relayed = true)) ∧
  (∀ (s : State) core line, ∃ t, exec (.l1Eviction core line) s = .next t ∧
    (∀ c ∈ t.mem.l1, c.own = core → c.wa / 32 = line → c.mirror = true) ∧
    (∀ c, c ∈ s.mem.l1 → ¬(c.own = core ∧ c.wa / 32 = line) → c ∈ t.mem.l1) ∧
    (∀ c, (s.mem.l1.filter fun c => c.own == core && c.wa / 32 == line) = [c] → c.dirty = true → hostWa c.wa = false →
      s.basinRoom (s.dieNum core) c.ctx c.wa false = true →
      ∃ b ∈ t.mem.basin, b.own = s.dieNum core ∧ b.ctx = c.ctx ∧ b.wa = c.wa ∧ b.val = c.val ∧ b.dirty = true)) ∧
  (∀ (s : State) die line, ∃ t, exec (.basinEviction die line) s = .next t ∧
    (∀ c ∈ t.mem.basin, c.own = die → c.wa / 32 = line → c.mirror = true) ∧ t.mem.l1 = s.mem.l1 ∧
    (∀ c, (s.mem.basin.filter fun c => c.own == die && c.wa / 32 == line && !c.mirror) = [c] → c.dirty = true → hostWa c.wa = false →
      t.mem.word (((s.ctx? c.ctx).map (·.aesKey)).getD 0) c.wa = c.val)) ∧
  (∀ (s : State) pa inv, pa < 2 ^ 51 → exec (.cxlCacheSnoop pa inv) s = .next s) ∧
  (∀ (s : State) pa inv, 2 ^ 51 ≤ pa → ∃ t, exec (.cxlCacheSnoop pa inv) s = .next t ∧ t.mem.basin = s.mem.basin ∧
    (∀ c ∈ t.mem.l1, c.wa / 32 = pa / 128 → c.dirty = true → c.mirror = true ∨ c.own = 2 ^ 20) ∧
    (inv = true → ∀ c ∈ t.mem.l1, c.wa / 32 = pa / 128 → c.own = 2 ^ 20))

/-- R13, R15, R36, R60, R265, R274 to R277, R279, R280, Table 10-4: a die that has been silent for 50 µs is declared dead before the
next heartbeat, and its teams end with DIE_LOST, as does every grid once no die is left; a reset of a die takes its teams in the same
way; an error is recorded in the log of the context that owns it, with its physical address for a memory die or a link, poisons its
word, times a reduction out, or traps the group whose core holds it; a link that does not train goes; the clock steps down to 1,200 MHz, and then new teams are held. The moments of a
heartbeat and of a death within their bounds, the records' slots and the clock's return are the model's choice (log entries 48
to 51). -/
def Obligations.FailureSteps : Prop :=
  (∀ (s : State) die d, s.die? die = some d → d.alive = true → d.inReset = false →
    let now := max s.boot.now (d.lastBeat + 2)
    let late := s.sys.dies.filter fun e => e.alive && !e.inReset && e.num != die && decide (e.lastBeat + 50 ≤ now)
    (d.lastBeat + 50 ≤ now → exec (.heartbeat die) s = .next s) ∧
    (now < d.lastBeat + 50 → late = [] → ∃ t e, exec (.heartbeat die) s = .next t ∧ t.die? die = some e ∧ e.lastBeat = now ∧
      t.boot.now = now ∧ e.alive = true ∧ t.mem = s.mem ∧ t.groups = s.groups) ∧
    (now < d.lastBeat + 50 → late ≠ [] → exec (.heartbeat die) s =
      .next { s with run := { s.run with agenda := (late.map fun e => .dieDeath e.num) ++ .heartbeat die :: s.run.agenda } })) ∧
  (∀ (s : State) die d, s.die? die = some d → d.alive = true → d.inReset = false →
    (∃ t e, exec (.dieDeath die) s = .next t ∧ t.die? die = some e ∧ e.alive = false ∧ e.inReset = true ∧
      d.lastBeat + 50 ≤ t.boot.now ∧ (∀ c ∈ t.mem.l1, c.own / 128 ≠ d.block) ∧ (∀ c ∈ t.mem.basin, c.own ≠ d.num) ∧
      (∀ n ∈ t.mem.snoops, n.die ≠ d.num) ∧ (∀ m ∈ t.sys.meres, m.die ≠ some d.num) ∧
      (∀ u ∈ s.lostTeams d, (∀ v ∈ t.sys.teams, v.tid ≠ u.tid) ∧
        ∀ x ∈ s.sys.grids, x.id = u.grid → x.cause = none → ∃ y ∈ t.sys.grids, y.id = x.id ∧ ∃ pc, y.cause = some (0x1A, pc)) ∧
      (∀ g ∈ t.groups, g.core / 128 = d.block → ∃ u ∈ s.sys.teams, u.tid = g.tid ∧ u.done = false) ∧
      ((∀ f ∈ s.sys.dies, f.num ≠ die → f.alive = false ∨ f.inReset = true) → ∀ x ∈ s.sys.grids, x.st = .admitted →
        ∃ y ∈ t.sys.grids, y.id = x.id ∧ y.st = .ended)) ∧
    (∃ t e, exec (.computeDieReset die) s = .next t ∧ t.die? die = some e ∧ e.alive = true ∧ e.ctx = none ∧
      (∀ c ∈ t.mem.l1, c.own / 128 ≠ d.block) ∧ (∀ c ∈ t.mem.basin, c.own ≠ d.num) ∧
      (∀ g ∈ t.groups, g.core / 128 = d.block → ∃ u ∈ s.sys.teams, u.tid = g.tid ∧ u.done = false) ∧
      ∀ u ∈ s.lostTeams d, ∀ v ∈ t.sys.teams, v.tid ≠ u.tid)) ∧
  (∀ (s : State) die d, s.die? die = some d → (d.alive = false ∨ d.inReset = true) →
    exec (.heartbeat die) s = .next s ∧ exec (.dieDeath die) s = .next s ∧ exec (.computeDieReset die) s = .next s) ∧
  (∀ (s : State) e n, e ≠ .router →
    (∀ c, s.ownerAt e n = some c →
      exec (.correctedError e n) s = .next (s.logRecord c (plainRec 2 0 (errAt e n).1 0 (errAt e n).2)).1) ∧
    (s.ownerAt e n = none → ∃ t : State, exec (.correctedError e n) s = .next t ∧ t.mem = s.mem ∧ t.sys = s.sys ∧ t.groups = s.groups ∧
      t.boot.pevCount = s.boot.pevCount + 1 ∧ ∃ r ∈ t.boot.pevLog, r.seq = s.boot.pevCount ∧ r.kind = 2 ∧ r.source = (errAt e n).1 ∧
        r.addr = BitVec.ofNat 64 (errAt e n).2)) ∧
  (∀ pa, errAt .memory pa = (5, pa) ∧ errAt .link pa = (6, pa)) ∧
  (∀ (s : State) id, exec (.correctedError .router id) s = .next s) ∧
  (∀ (s : State) gid g, s.group? gid = some g → g.resident = true → g.retired = false →
    exec (.uncorrectableError .core gid) s = .next (s.takeTrap gid ⟨0x0A, 7, g.live, 0, 0, 0xFF, 0⟩)) ∧
  (∀ (s : State) pa, pa < 2 ^ 51 → ∃ t : State, t.poisoned (pa / 4) = true ∧ (∀ wa, wa ≠ pa / 4 → t.poisoned wa = s.poisoned wa) ∧
    t.mem.home = s.mem.home ∧ t.groups = s.groups ∧
    exec (.uncorrectableError .memory pa) s = .next (t.errorRecord .memory pa (plainRec 3 0 5 0 pa))) ∧
  (∀ (s : State) own wa, (∃ t : State, (∀ c ∈ t.mem.l1, c.own = own → c.wa = wa → c.poison = true) ∧ t.mem.basin = s.mem.basin ∧
      exec (.uncorrectableError (.l1 own) wa) s = .next (t.errorRecord (.l1 own) wa (plainRec 3 0 0 0 0))) ∧
    (∃ t : State, (∀ c ∈ t.mem.basin, c.wa = wa → c.own = own → c.mirror = false → c.poison = true) ∧ t.mem.l1 = s.mem.l1 ∧
      exec (.uncorrectableError (.basin own) wa) s = .next (t.errorRecord (.basin own) wa (plainRec 3 0 0 0 0)))) ∧
  (∀ (s : State) pa, exec (.uncorrectableError .link pa) s = .next (s.errorRecord .link pa (plainRec 3 0 6 0 pa))) ∧
  (∀ (s : State) id, ∃ t : State, (∀ r ∈ t.sys.reducts, r.id = id → r.result = none → r.timedOut = true) ∧ t.mem = s.mem ∧
    exec (.uncorrectableError .router id) s = .next (t.errorRecord .router id (plainRec 3 0 4 0 0))) ∧
  (∀ (s : State) e n r, (∀ c, s.ownerAt e n = some c → s.errorRecord e n r = (s.logRecord c r).1) ∧
    (s.ownerAt e n = none → ∃ y ∈ (s.errorRecord e n r).boot.pevLog, y.seq = s.boot.pevCount ∧ y.kind = r.kind ∧ y.source = r.source ∧
      y.addr = r.addr)) ∧
  (∀ (s : State) port, exec (.linkRetrain port true) s = .next s ∧
    (port < 16 → ∃ t : State, exec (.linkRetrain port false) s = .next t ∧ t.boot.ports = s.boot.ports &&& ~~~(1#16 <<< port) ∧
      ∃ r ∈ t.boot.pevLog, r.seq = s.boot.pevCount ∧ r.kind = 3 ∧ r.source = 6) ∧
    (16 ≤ port → ∃ t, exec (.linkRetrain port false) s = .next t ∧ port ∈ t.boot.lostLinks ∧ t.boot.ports = s.boot.ports ∧
      ∃ r ∈ t.boot.pevLog, r.seq = s.boot.pevCount ∧ r.kind = 3 ∧ r.source = 6)) ∧
  (∀ s : State, (1200 < s.boot.mhz → exec .thermalThrottle s = .next { s with boot := { s.boot with mhz := s.boot.mhz - 100 } }) ∧
    (s.boot.mhz ≤ 1200 → exec .thermalThrottle s = .next { s with boot := { s.boot with held := true } }) ∧
    exec .throttleCauseClears s = .next { s with boot := { s.boot with held := false } } ∧
    (s.boot.held = true → ∀ x, (s.gridUnits x).all (fun u => u.saved.isSome) = true))

/-! ## Boot and the host -/

/-- R13, R14, R28 to R33, R137, Tables 1-7 to 1-9: power-up puts the boot block in state 0 and keeps the fuses; GO starts the fetch,
or rejects bad parameters, and is ignored in any other state; the image is fetched and checked, its first failing check is the
reason; the firmware's steps build the scope table, make the part ready and certify an attestation key with one identity leaf, which
a failure after the fuse or a loss of power uses up. That a new fetch clears the old reason, the order of the image checks, and what a
failing step leaves, are the model's choice (log entries 45, 58 and 62). -/
def Obligations.BootSteps : Prop :=
  (∀ s : State, ∃ t, exec .powerUp s = .next t ∧ exec (.powerLoss false) s = .next t ∧ t.boot.st = .waitImage ∧ t.boot.reason = 0#8 ∧
    t.boot.leaf = s.boot.leaf ∧ t.boot.secver = s.boot.secver ∧ t.boot.sku = s.boot.sku ∧ t.boot.attest = none ∧ t.groups = [] ∧ t.sys.ctxs = [] ∧
    t.sys.grids = [] ∧ t.mem.l1 = [] ∧ t.mem.basin = [] ∧ ∀ a key, 2 ^ 51 ≤ a → t.mem.byte key a = s.mem.byte key a) ∧
  (∀ s : State, ∃ t, exec (.powerLoss true) s = .next t ∧ t.boot.st = .waitImage ∧ t.boot.leaf =
    (if s.boot.st = .firmware ∧ s.boot.ctl.getLsbD 1 = false ∧ s.boot.leaf < 16384 then s.boot.leaf + 1 else s.boot.leaf)) ∧
  (∀ (s : State) v, v.getLsbD 0 = true → (s.boot.st = .waitImage ∨ s.boot.st = .rejected) →
    let good := s.boot.imgAddr.toNat % 4096 = 0 ∧ 64 + 2692 ≤ s.boot.imgLen.toNat ∧ s.boot.imgLen.toNat ≤ 2 ^ 24
    (good → exec (.bootGo v) s = .next { s with boot := { s.boot with ctl := v &&& 3#32, st := .fetch, reason := 0#8 } }) ∧
    (¬good → exec (.bootGo v) s = .next { s with boot := { s.boot with ctl := v &&& 3#32, st := .rejected, reason := 6#8 } })) ∧
  (∀ (s : State) v, v.getLsbD 0 = false → exec (.bootGo v) s = .next { s with boot := { s.boot with ctl := v &&& 3#32 } }) ∧
  (∀ (s : State) v, v.getLsbD 0 = true → s.boot.st ≠ .waitImage → s.boot.st ≠ .rejected → exec (.bootGo v) s = .next s) ∧
  (∀ (s : State) bs, s.boot.st = .fetch → bs.length = s.boot.imgLen.toNat → exec (.imageFetchComplete (some bs)) s =
    .next { s with boot := { s.boot with st := .verify, image := bs } }) ∧
  (∀ s : State, s.boot.st = .fetch → exec (.imageFetchComplete none) s =
    .next { s with boot := { s.boot with st := .rejected, reason := 5#8 } }) ∧
  (∀ s : State, s.boot.st = .verify →
    let b := s.boot.image
    let u (o n : Nat) : Nat := leNat ((b.drop o).take n)
    let header := u 0 4 = 0x46524E4C ∧ u 4 4 = 1 ∧ u 0x0C 4 = 0 ∧ u 0x20 32 = 0
    let sizes := 64 + u 0x10 8 = u 0x18 8 ∧ u 0x18 8 + 2692 = s.boot.imgLen.toNat
    let bad (r : W8) : Out := .next { s with boot := { s.boot with st := .rejected, reason := r, image := [] } }
    (¬header → exec .imageVerifyComplete s = bad 1#8) ∧
    (header → ¬sizes → exec .imageVerifyComplete s = bad 2#8) ∧
    (header → sizes → u 8 4 < s.boot.secver.toNat → exec .imageVerifyComplete s = bad 3#8) ∧
    (header → sizes → s.boot.secver.toNat ≤ u 8 4 → Config.xmssVerifies b = false → exec .imageVerifyComplete s = bad 4#8) ∧
    (header → sizes → s.boot.secver.toNat ≤ u 8 4 → Config.xmssVerifies b = true →
      ∃ t, exec .imageVerifyComplete s = .next t ∧ t.boot = { s.boot with st := .firmware, memReset := false } ∧
        (∀ d ∈ t.sys.dies, d.inReset = false ∧ d.lastBeat = s.boot.now) ∧ t.groups = s.groups ∧ t.mem = s.mem)) ∧
  (∀ (s : State) done fuse (r : FirmwareReport), s.boot.st = .firmware → s.blocksOk r.blocks = true →
    let b := s.boot
    let certifies := b.ctl.getLsbD 1 = false ∧ b.leaf < 16384
    let ver := leNat ((b.image.drop 8).take 4)
    (6 ≤ done → ∃ t, exec (.firmwareStepsComplete done fuse r) s = .next t ∧ t.boot.st = .ready ∧ t.boot.ports = r.ports ∧
      t.boot.number = r.number ∧ t.boot.expanders = r.expanders ∧ t.boot.antiReplay = [0, 0, 0, 0] ∧
      t.boot.scopes = scopeTable ((s.sys.dies.filter (·.alive)).map (·.num)) r.ports r.packages ∧ t.sys.dies.map (·.block) = r.blocks ∧
      t.boot.secver.toNat = max b.secver.toNat (ver % 2 ^ 32) ∧
      (certifies → t.boot.attest = some (b.certify s.run.free) ∧ t.boot.leaf = b.leaf + 1) ∧
      (¬certifies → t.boot.attest = none ∧ t.boot.leaf = b.leaf)) ∧
    (done < 6 → ∃ t, exec (.firmwareStepsComplete done fuse r) s = .next t ∧ t.boot.st = .failed ∧ t.boot.secver = b.secver ∧
      t.boot.leaf = (if certifies ∧ (done = 5 ∨ (done = 4 ∧ fuse = true)) then b.leaf + 1 else b.leaf) ∧
      (done < 5 → t.boot.attest = none))) ∧
  (∀ (s : State) done fuse r, (s.boot.st ≠ .firmware ∨ s.blocksOk r.blocks = false) → exec (.firmwareStepsComplete done fuse r) s = .next s) ∧
  (∀ s : State, s.boot.st = .ready → ∃ t r, exec .attestationRequest s = .next t ∧ t.sys.replies = s.sys.replies ++ [r] ∧
    (∀ k, s.boot.attest = some k → r = ⟨0, leBytes 1952 k.publicKey.toNat ++ k.signature, none, none⟩) ∧
    (s.boot.attest = none → r = ⟨2, [], none, none⟩))

/-- R21, R23, R27, R29, R34, R101, R103, R105, R152, R154, R158, R159, R177, R260, R269, R278, R281, R386: the requests that the
firmware accepts, with their effects and their replies, a write being answered once its snoops are; others get an error, and before
an image is accepted none is answered. The bench and the keys of a new context, what goes with a context or an inlet that ends, the
validation of a mapping request, the formats of the replies, how a lock is asked for, and which context owns a page that several map, are
the model's choice (log entries 32, 61, 52, 53, 54, 56 and 81). -/
def Obligations.HostRequests : Prop :=
  (∀ (s : State) c, s.ctxOk c = true → ∃ t d, exec (.contextCreate c) s = .next t ∧ t.ctxAt? c.slot = some d ∧ d.id = s.run.nextId ∧
    d.sealKey = Config.sealKey s.run.free ∧ d.aesPair = Config.aesPair s.run.free ∧ d.keysErased = false ∧ d.bench = c.bench.getD 8 ∧
    d.logWr = 0 ∧ d.logRd = 0 ∧
    t.sys.inlets = s.sys.inlets ++ c.inlets.map (fun i =>
      ⟨i.n, s.run.nextId, i.ringBase, i.ringSize, i.prio, i.affinity, 0, 0, true, false, false⟩) ∧
    t.sys.replies = s.sys.replies ++
      [⟨0, leBytes 4 c.slot ++ leBytes 8 c.faultLogVa ++ leBytes 8 c.eventVa, none, some s.run.nextId⟩]) ∧
  (∀ s : State, s.boot.accepted = false → (∀ c, exec (.contextCreate c) s = .next s) ∧ (∀ sl, exec (.contextEnd sl) s = .next s) ∧
    (∀ sl r, exec (.mappingRequest sl r) s = .next s) ∧ (∀ n, exec (.inletDestroy n) s = .next s) ∧
    (∀ sl i m r, exec (.communicatorCreate sl i m r) s = .next s) ∧ (∀ sl n, exec (.faultLogReadAdvance sl n) s = .next s) ∧
    (∀ sl n, exec (.inspectionRequest sl n) s = .next s) ∧ (∀ sl a b, exec (.hostLockRequest sl a b) s = .next s) ∧
    (∀ r, exec (.cxlMemAccess r) s = .next s) ∧ ∀ sl r, exec (.packageCopyRequest sl r) s = .next s) ∧
  ∀ s : State, s.boot.accepted = true →
  (∀ c, s.ctxOk c = false → exec (.contextCreate c) s = .next (s.reply 1 [])) ∧
  (∀ sl c, s.ctxAt? sl = some c → ∃ t, exec (.contextEnd sl) s = .next t ∧
    (∀ d ∈ t.sys.ctxs, d.id = c.id → d.ended = true ∧ d.keysErased = true ∧ d.sealKey = 0 ∧ d.aesPair = 0 ∧ d.maps = []) ∧
    (∀ x ∈ t.sys.grids, x.ctx ≠ c.id) ∧ (∀ i ∈ t.sys.inlets, i.ctx ≠ c.id) ∧ (∀ w ∈ t.mem.basin, w.ctx ≠ c.id) ∧
    (∀ w ∈ t.mem.l1, w.ctx ≠ c.id) ∧ (∀ g ∈ t.groups, ∀ x ∈ s.sys.grids, x.id = g.grid → x.ctx ≠ c.id)) ∧
  (∀ sl c m, s.ctxAt? sl = some c → s.mapOk c m = true → ∃ t, ∃ d ∈ t.sys.ctxs, exec (.mappingRequest sl (.map m)) s = .next t ∧
    d.id = c.id ∧ d.slot = sl ∧ d.maps = (c.maps.filter fun x => x.va != m.va) ++ [m] ∧
    t.sys.replies = s.sys.replies ++ [⟨0, [], none, none⟩]) ∧
  (∀ sl c m, s.ctxAt? sl = some c → s.mapOk c m = false → exec (.mappingRequest sl (.map m)) s = .next (s.reply 1 [])) ∧
  (∀ sl c va, s.ctxAt? sl = some c → (∃ x ∈ c.maps, x.va = va) → ∃ t, ∃ d ∈ t.sys.ctxs,
    exec (.mappingRequest sl (.unmap va)) s = .next t ∧
    d.id = c.id ∧ d.slot = sl ∧ d.maps = (c.maps.filter fun x => x.va != va) ∧ d.replicas = c.replicas.filter fun r => r.va != va) ∧
  (∀ n i, s.inlet? n = some i → ∃ t, exec (.inletDestroy n) s = .next t ∧ t.inlet? n = none ∧
    t.sys.replies = s.sys.replies ++ [⟨0, [], none, none⟩] ∧
    ∀ x, x ∈ t.sys.grids ↔ x ∈ s.sys.grids ∧ ¬(x.st = .waiting ∧ x.inlet = some n)) ∧
  (∀ sl c index ranks rank, s.ctxAt? sl = some c → index < 2 ^ 16 → 0 < ranks → ranks ≤ 4096 → rank < ranks →
    (∀ m ∈ s.sys.comms, m.ctx = c.id → m.index ≠ index) → exec (.communicatorCreate sl index ranks rank) s =
      .next { s with sys := { s.sys with comms := s.sys.comms ++ [⟨c.id, index, ranks, rank, 0⟩]
                                         replies := s.sys.replies ++ [⟨0, [], none, none⟩] } }) ∧
  (∀ sl c n, s.ctxAt? sl = some c → (n - c.logRd).toNat ≤ (c.logWr - c.logRd).toNat → ∃ t, ∃ d ∈ t.sys.ctxs,
    exec (.faultLogReadAdvance sl n) s = .next t ∧ d.id = c.id ∧ d.slot = sl ∧ d.logRd = n ∧ d.logWr = c.logWr ∧
    (∀ i, i ∈ d.images ↔ i ∈ c.images ∧ (n - c.logRd).toNat ≤ (i.seq - c.logRd).toNat)) ∧
  (∀ sl c n, s.ctxAt? sl = some c → (c.logWr - c.logRd).toNat < (n - c.logRd).toNat →
    exec (.faultLogReadAdvance sl n) s = .next (s.reply 1 [])) ∧
  (∀ sl c n i, s.ctxAt? sl = some c → (c.images.find? fun i => i.index == n) = some i →
    exec (.inspectionRequest sl n) s =
      .next { s with sys := { s.sys with replies := s.sys.replies ++ [⟨0, [], some i, none⟩] } }) ∧
  (∀ sl c stream n, s.ctxAt? sl = some c → n < 256 →
    let l := c.lock n
    let me := Holder.host stream
    (l.holder ≠ some me → s.grants l me = true → exec (.hostLockRequest sl ⟨stream, n⟩ true) s =
      .next ((s.updCtx c.id fun c => c.setLock { l with holder := some me, queue := l.queue.filter fun x => x != me }).reply 0 [])) ∧
    (l.holder ≠ some me → s.grants l me = false → exec (.hostLockRequest sl ⟨stream, n⟩ true) s =
      .next (s.updCtx c.id fun c => c.setLock (if me ∈ l.queue then l else { l with queue := l.queue ++ [me] }))) ∧
    (l.holder = some me → exec (.hostLockRequest sl ⟨stream, n⟩ false) s =
      .next ((s.updCtx c.id fun c => c.setLock { l with holder := none }).reply 0 [])) ∧
    (l.holder ≠ some me → exec (.hostLockRequest sl ⟨stream, n⟩ false) s = .next (s.reply 1 []))) ∧
  (∀ pa n, exec (.cxlMemAccess (.read pa n)) s = .next (s.reply 0 ((List.range n).map fun i =>
    match s.ownerOf (pa + i) with | none => 0xFF#8 | some o => s.mem.byte o.1.aesKey (pa + i)))) ∧
  (∀ pa b, ∃ t, exec (.cxlMemAccess (.write pa [b])) s = .next t ∧
    t.sys.replies = s.sys.replies ++ [⟨0, [], none, some s.run.nextId⟩] ∧ (s.ownerOf pa = none → t.mem = s.mem) ∧
    ∀ c m, s.ownerOf pa = some (c, m) → t.mem.byte c.aesKey pa = b) ∧
  (∀ (s1 : State) sl c record j, s.ctxAt? sl = some c → (∀ h ∈ s.sys.hostCopies, h.ctx = c.id → h.record ≠ record) →
    let r := chainRec record
    let id := s.run.nextId
    let s0 : State := { s.took with sys := { s.sys with hostCopies := s.sys.hostCopies ++ [⟨id, sl, c.id, record, 0⟩] } }
    (∀ e, s.hostCopyFails c.id r = e → e ≠ 0 → exec (.packageCopyRequest sl record) s = .next (s.reply e (leBytes 4 0))) ∧
    (s.hostCopyFails c.id r = 0 → State.packMove c.id id r r.bytes 0 s0 = (s1, j, .ok ()) →
      ∃ t, exec (.packageCopyRequest sl record) s = .next t ∧ t.mem = (s1.mergeSnoops s0.run.nextId).mem ∧
        (s1.acknowledged id = true → t.sys.replies = s1.sys.replies ++ [⟨0, leBytes 4 j, none, some id⟩] ∧
          ∀ h ∈ t.sys.hostCopies, h.id ≠ id) ∧
        (s1.acknowledged id = false → t.sys.replies = s1.sys.replies ∧ ∀ h ∈ t.sys.hostCopies, h.id = id → h.moved = j)))

/-! ## The encoding and the step -/

/-- The worked encodings of the spec (03, 05, 08, 09, 11 to 16), one or more for each row of the opcode map that has one, decode to the
instructions that the spec writes beside them, and an unassigned opcode, a reserved guard and a reserved type to their reasons of
Table 3-5. -/
def Obligations.DecodeWords : Prop :=
  decode 0x0000000000000000 0 = .ok (.nop (.pred 0 false)) ∧
  decode 0x000000000007E000 0 = .ok (.nop .always) ∧
  decode 0x000000000007E027 0 = .ok (.exit .always) ∧
  decode 0x001814148287E001 0 = .ok (.sadd .always ⟨.i32, false, 40, .s 41, .imm 5⟩) ∧
  decode 0x0008_0400_8007_E124 0x0000_0000_0000_000F = .ok (.jtab .always ⟨1, 1, 15⟩) ∧
  decode 0x0000000000002122 0x0000002000000008 = .ok (.brv (.pred 1 false) ⟨8, 32⟩) ∧
  decode 0x0540_0102_A057_E037 0 = .ok (.widen .always ⟨2, some 2, 5, 5⟩) ∧
  decode 0x0000_0102_2057_E036 0 = .ok (.narrow .always ⟨0, 5, 4⟩) ∧
  decode 0x0159_0101_2077_E039 0 = .ok (.alloc .always ⟨0x0A, 7, 2, .imm 64⟩) ∧
  decode 0x0000_2004_0097_E040 0 = .ok (.vadd .always ⟨.i32, false, 9, 8, .v 8⟩) ∧
  decode 0x0A80_A005_80A8_6070 0 = .ok (.fadd (.pred 3 true) ⟨.fp32, .rtz, false, 10, 11, .sc (.s 40)⟩) ∧
  decode 0x5899_000A_01E7_E091 0 = .ok (.qnt .always ⟨.i8, .fp32, .rne, true, 30, 20, .sc (.imm 64)⟩) ∧
  decode 0x0020_2404_0147_E494 0 = .ok (.vperm .always 2 ⟨.int .u32, 20, 8, .v 9⟩) ∧
  decode 0x1450_0002_0087_E6A0 0 = .ok (.ld .always 3 ⟨.fp32, 2, .v 8, .vec 4, none⟩) ∧
  decode 0x1410_0000_0027_E0A1 0 = .ok (.st .always ⟨.fp32, 0, .v 2, .vec 0, none⟩) ∧
  decode 0x1080_0014_7887_E1A2 0 = .ok (.atom .always 0 ⟨.u64, 4, .sc (.s 40), 0, .cas, true, 8⟩) ∧
  decode 0x04A0_0014_0007_E0A3 0 = .ok (.sgen .always ⟨1, 5, .s 40⟩) ∧
  decode 0x0000_C101_2067_E0B0 0 = .ok (.xfer .always ⟨6, 2, 48⟩) ∧
  decode 0x0020_0300_0007_E0B2 0 = .ok (.wait .always ⟨1, .imm 0⟩) ∧
  decode 0x0200_0010_0007_E1C0 0x0000_0000_0005_0301 = .ok (.mma .always ⟨.bf16, true, false, none, 32, 40, 3, 1⟩) ∧
  decode 0x0140_0102_0007_E1C4 0x0000_0000_0000_0028 = .ok (.zmovZ2m .always 0 ⟨none, 2, 4, 40⟩) ∧
  decode 0x0400_0000_0007_E1C7 0x0000_0001_4105_2402 = .ok (.spx .always ⟨true, 40, 4, 41, 4, 2⟩) ∧
  decode 0x0000_A502_0007_E0C8 0 = .ok (.xformFwd .always ⟨4, .s 41, none⟩) ∧
  decode 0x0020_A102_0007_E0C8 0 = .ok (.xformInv .always ⟨4, .s 40, none⟩) ∧
  decode 0x0080_0020_0287_E0D4 0 = .ok (.rdcn .always ⟨.fp32, .sum, 0, 40, 64⟩) ∧
  decode 0x0081_1020_0297_E0D5 0 = .ok (.rdget .always ⟨.fp32, .sum, 0, 41, 64, 68⟩) ∧
  decode 0x0000_A01E_0327_E0E0 0 = .ok (.rsamp ⟨50, 60, .s 40⟩) ∧
  decode 0x0000_9010_0287_E4E1 0 = .ok (.rng .always 2 ⟨40, 32, 36⟩) ∧
  decode 0x0000_0303_8007_E0F0 0 = .ok (.trap .always (.imm 7)) ∧
  decode 0x0020_0301_8287_E0F1 0 = .ok (.svcLock .always ⟨40, .imm 3⟩) ∧
  decode 0x0200_0000_0287_E0F2 0 = .ok (.rdsr .always ⟨0x10, .s 40⟩) ∧
  decode 0x000000000007E0FF 0 = .ok (.unassignedOpcode 0x000000000007E0FF) ∧
  decode 0x00000000000FE000 0 = .ill 4 ∧
  decode 0x000000000007E100 0 = .ill 2 ∧
  decode 0x011814148287E001 0 = .ill 6

/-- R68 to R77 and the reference entries: for every instruction that the encoding admits, decoding its words gives it back, with every
operand at every value; and whatever decodes is admitted, and its words are those that it was read from. -/
def Obligations.DecodeEncode : Prop :=
  (∀ i : Instr, i.isStep = false → i.wf = true →
    ∃ w, (encode i = [w] ∧ ∀ e, decode w e = .ok i) ∨ ∃ e, encode i = [w, e] ∧ hasExt w = true ∧ decode w e = .ok i) ∧
  (∀ w e i, decode w e = .ok i → i.isStep = false ∧ i.wf = true ∧ (encode i = [w] ∨ (encode i = [w, e] ∧ hasExt w = true)))

/-- R65, R69, R76, R78, R79, R115, R116, R445, Table 3-6: when the bytes at the program counter of the slot that issues decode to an
instruction, the step is that instruction's; a word that does not decode traps ILLEGAL_INSTRUCTION with its reason, a fetch that fails
traps ACCESS or parks the slot. On a core a ready slot issues that has place in the cycle: the one that has waited 1,024 cycles or more,
the longest first, else one whose class has been idle longest, among those the first that became ready; two of a cycle are of different
groups, and not both special functions or memory accesses. A step of the part that is due or chosen is run in the same way, and a part
with nothing to do stands still. Which part of the machine moves next, and that a fetch reads the bytes that the home holds, are the
model's choice (log entries 1 and 19). -/
def Obligations.StepRuns : Prop :=
  (∀ (s : State) gid k g, s.group? gid = some g →
    let s1 : State := { s with run := { s.run with cur := some (gid, k) } }
    ((g.slot k).park.isSome = true → s.trySlot gid k = .next s1) ∧
    ((g.slot k).park = none →
      (∀ w e i, s1.fetch g (g.pc k) = .words w e → decode w e = .ok i → s.trySlot gid k = exec i s1) ∧
      (∀ w e r, s1.fetch g (g.pc k) = .words w e → decode w e = .ill r →
        s.trySlot gid k = .next (s1.takeTrap gid ⟨0x01, r, g.active k, 0, 0, k, g.pc k⟩)) ∧
      (∀ va r, s1.fetch g (g.pc k) = .bad va r →
        s.trySlot gid k = .next (s1.takeTrap gid ⟨0x0A, r, g.active k, va, 0, k, g.pc k⟩)) ∧
      (∀ va, s1.fetch g (g.pc k) = .miss va → s.trySlot gid k = .next (s1.parkSlot g k va false (g.active k))))) ∧
  (∀ (s : State) gid k rest, s.run.agenda = [] → s.run.picks = (gid, k) :: rest → (gid, k) ∈ s.slots →
    let s0 : State := { s with run := { s.run with picks := rest } }
    (s0.ready gid k = false → step s = s0.trySlot gid k) ∧
    (∀ g, s0.group? gid = some g → s0.ready gid k = true → step s = s0.issueOn g.core)) ∧
  (∀ (s : State), s.run.agenda = [] → s.run.picks = [] → s.nextEvent = none →
    (∀ x, s.nextTrial = some x → step s = s.trySlot x.1 x.2) ∧
    (∀ core, s.nextTrial = none → s.nextCore = some core → step s = s.issueOn core) ∧
    (s.nextTrial = none → s.nextCore = none → step s = .next s)) ∧
  (∀ (s : State) core,
    let ready := s.readySlots core
    let s1 := s.markReady core ready
    let s2 := s1.endCycle core ready
    (∀ x, s1.choice core ready = some x → s.issueOn core = (s1.takePlace core x.1 x.2).trySlot x.1 x.2) ∧
    (∀ x, s1.choice core ready = none → s2.choice core ready = some x → s.issueOn core = (s2.takePlace core x.1 x.2).trySlot x.1 x.2) ∧
    (s1.choice core ready = none → s2.choice core ready = none → s.issueOn core = .next s2) ∧
    (∀ x ∈ ready, s.ready x.1 x.2 = true)) ∧
  (∀ (s t : State) core ready gid k, (t = s.takePlace core gid k ∨ t = s.markReady core ready ∨ t = s.endCycle core ready) →
    t.mem = s.mem ∧ t.sys = s.sys ∧ t.boot = s.boot ∧ ∀ j h, t.group? j = some h → ∃ g, s.group? j = some g ∧
      { h with slot0 := g.slot0, slot1 := g.slot1 } = g ∧ ∀ n, { h.slot n with waits := (g.slot n).waits, age := (g.slot n).age } = g.slot n) ∧
  (∀ (s : State) core ready x, s.choice core ready = some x →
    let xs := s.mayIssue core ready
    let idle (y : Nat × Nat × Slot) : Nat := (s.idleOf core).getD (s.classPos y.1 y.2.1) ((s.idleOf core).foldl max 0)
    ∃ t, (x.1, x.2, t) ∈ xs ∧
      ((∃ y ∈ xs, 1024 ≤ y.2.2.waits) → ∀ y ∈ xs, y.2.2.waits ≤ t.waits) ∧
      ((∀ y ∈ xs, y.2.2.waits < 1024) → ∀ y ∈ xs, idle y ≤ idle (x.1, x.2, t) ∧
        (idle y = idle (x.1, x.2, t) → y.2.2.age ≤ t.age))) ∧
  (∀ (s : State) core ready, ∀ y ∈ s.mayIssue core ready, y ∈ s.coreSlots core ∧ (y.1, y.2.1) ∈ ready ∧ (s.issued core).length < 2 ∧
    ∀ z ∈ s.issued core, z.1 ≠ y.1 ∧ (z.2.2 = 1 ∨ z.2.2 = 2 → s.classPos y.1 y.2.1 ≠ z.2.2)) ∧
  (∀ (s : State) i rest, s.run.agenda = i :: rest →
    step s = exec i { s with run := { s.run with agenda := rest, cur := none } }) ∧
  (∀ (s : State) i, s.run.agenda = [] → s.run.picks = [] → s.nextEvent = some i →
    step s = exec i { s with run := { s.run with cur := none } }) ∧
  (∀ (s : State) p rest, s.run.agenda = [] → s.run.picks = p :: rest → p ∉ s.slots →
    step s = .next { s with run := { s.run with picks := rest } }) ∧
  (∀ (s : State), s.run.agenda = [] → s.run.picks = [] → s.nextEvent = none → s.slots = [] → step s = .next s) ∧
  (∀ (s : State) g c m (pc : W64), s.ctxOf g = some c → c.mapOf pc.toNat = some m → c.mapOf (pc.toNat + 8) = some m →
    pc.toNat + 16 ≤ m.va + m.sz → pc.toNat + 16 ≤ 2 ^ 52 → m.exec = true → m.kind = .device → m.replicable = false →
    c.inStack pc.toNat = false → c.inStack (pc.toNat + 8) = false →
    let pa := m.pa + (pc.toNat - m.va)
    pa % 8 = 0 → backed s.boot.expanders pa = true → backed s.boot.expanders (pa + 8) = true →
    (∀ i < 4, s.poisoned (pa / 4 + i) = false) →
    let w := BitVec.ofNat 64 (leNat (s.mem.bytes c.aesKey pa 8))
    s.fetch g pc = .words w (if hasExt w = true then BitVec.ofNat 64 (leNat (s.mem.bytes c.aesKey (pa + 8) 8)) else 0#64))

/-- R13, R29, Tables 1-7 and 1-9: after reset the boot block waits for an image with its registers zero, the dies are held in reset, no
context, inlet, grid, team or group exists, memory lists nothing, and the part stands still until the host
writes BOOTCTL; the SKU and the clock are the model's choice (log entries 2 and 3). -/
def Obligations.ResetState : Prop :=
  let s := State.reset
  s.boot.st = .waitImage ∧ s.boot.reason = 0#8 ∧ s.boot.ctl = 0#32 ∧ s.boot.imgAddr = 0#64 ∧ s.boot.imgLen = 0#32 ∧
  s.bar0 0x0000 = 0#32 ∧ s.bar0 0x0004 = 0#32 ∧ s.bar0 0x0010 = 0#32 ∧
  (∀ d ∈ s.sys.dies, d.inReset = true ∧ d.ctx = none) ∧ s.sys.ctxs = [] ∧ s.sys.inlets = [] ∧ s.sys.grids = [] ∧ s.sys.teams = [] ∧
  s.groups = [] ∧ s.mem.home = [] ∧ s.mem.l1 = [] ∧ s.mem.basin = [] ∧ s.mem.faults = [] ∧ step s = .next s

/-- The canonical form of memory holds at reset. -/
def Obligations.ResetForm : Prop := State.reset.mem.wf = true

/-- Every step keeps the canonical form of memory: the bytes that are listed and the keys of the lines, each once, in rising order, and no
byte listed that an unlisted one would read as. -/
def Obligations.StepKeepsForm : Prop := ∀ s t, s.mem.wf = true → step s = .next t → t.mem.wf = true
end

