-- ==== Sys2Proof/Laws/Dispatch.lean ====
section
/-! SUPPORT. Every instruction of programs runs in the one frame of an issue. -/

namespace Sys2Proof.Machine

/-- The meaning of an instruction of programs is an effect in the frame of an issue: stalls, guard, claims and program counter are
the same for all of them. -/
theorem exec_is_issue (i : Instr) (h : i.isStep = false) : ∃ body, ∀ s, exec i s = issue i s body := by
  cases i with
  | nop _ => exact ⟨_, fun s => by show execNop _ _ = _; unfold execNop; rfl⟩
  | unassignedOpcode _ => exact ⟨_, fun s => by show execUnassignedOpcode _ _ = _; unfold execUnassignedOpcode; rfl⟩
  | sadd _ _ => exact ⟨_, fun s => by show execSadd _ _ _ = _; unfold execSadd; rfl⟩
  | ssub _ _ => exact ⟨_, fun s => by show execSsub _ _ _ = _; unfold execSsub; rfl⟩
  | smul _ _ => exact ⟨_, fun s => by show execSmul _ _ _ = _; unfold execSmul; rfl⟩
  | smulh _ _ => exact ⟨_, fun s => by show execSmulh _ _ _ = _; unfold execSmulh; rfl⟩
  | sdiv _ _ _ => exact ⟨_, fun s => by show execSdiv _ _ _ _ = _; unfold execSdiv; rfl⟩
  | srem _ _ _ => exact ⟨_, fun s => by show execSrem _ _ _ _ = _; unfold execSrem; rfl⟩
  | sand _ _ => exact ⟨_, fun s => by show execSand _ _ _ = _; unfold execSand; rfl⟩
  | sor _ _ => exact ⟨_, fun s => by show execSor _ _ _ = _; unfold execSor; rfl⟩
  | sxor _ _ => exact ⟨_, fun s => by show execSxor _ _ _ = _; unfold execSxor; rfl⟩
  | sshl _ _ => exact ⟨_, fun s => by show execSshl _ _ _ = _; unfold execSshl; rfl⟩
  | sshr _ _ => exact ⟨_, fun s => by show execSshr _ _ _ = _; unfold execSshr; rfl⟩
  | ssra _ _ => exact ⟨_, fun s => by show execSsra _ _ _ = _; unfold execSsra; rfl⟩
  | smin _ _ => exact ⟨_, fun s => by show execSmin _ _ _ = _; unfold execSmin; rfl⟩
  | smax _ _ => exact ⟨_, fun s => by show execSmax _ _ _ = _; unfold execSmax; rfl⟩
  | scmp _ _ => exact ⟨_, fun s => by show execScmp _ _ _ = _; unfold execScmp; rfl⟩
  | ssel _ _ => exact ⟨_, fun s => by show execSsel _ _ _ = _; unfold execSsel; rfl⟩
  | smov _ _ => exact ⟨_, fun s => by show execSmov _ _ _ = _; unfold execSmov; rfl⟩
  | sli _ _ => exact ⟨_, fun s => by show execSli _ _ _ = _; unfold execSli; rfl⟩
  | sbfx _ _ => exact ⟨_, fun s => by show execSbfx _ _ _ = _; unfold execSbfx; rfl⟩
  | sbfi _ _ => exact ⟨_, fun s => by show execSbfi _ _ _ = _; unfold execSbfi; rfl⟩
  | spopc _ _ => exact ⟨_, fun s => by show execSpopc _ _ _ = _; unfold execSpopc; rfl⟩
  | sclz _ _ => exact ⟨_, fun s => by show execSclz _ _ _ = _; unfold execSclz; rfl⟩
  | br _ _ => exact ⟨_, fun s => by show execBr _ _ _ = _; unfold execBr; rfl⟩
  | brc _ _ => exact ⟨_, fun s => by show execBrc _ _ _ = _; unfold execBrc; rfl⟩
  | brv _ _ => exact ⟨_, fun s => by show execBrv _ _ _ = _; unfold execBrv; rfl⟩
  | join => exact ⟨_, fun s => by show execJoin _ = _; unfold execJoin; rfl⟩
  | jtab _ _ => exact ⟨_, fun s => by show execJtab _ _ _ = _; unfold execJtab; rfl⟩
  | call _ _ => exact ⟨_, fun s => by show execCall _ _ _ = _; unfold execCall; rfl⟩
  | callInd _ _ => exact ⟨_, fun s => by show execCallInd _ _ _ = _; unfold execCallInd; rfl⟩
  | ret _ => exact ⟨_, fun s => by show execRet _ _ = _; unfold execRet; rfl⟩
  | exit _ => exact ⟨_, fun s => by show execExit _ _ = _; unfold execExit; rfl⟩
  | loop _ _ => exact ⟨_, fun s => by show execLoop _ _ _ = _; unfold execLoop; rfl⟩
  | plog _ _ => exact ⟨_, fun s => by show execPlog _ _ _ = _; unfold execPlog; rfl⟩
  | pmov _ _ => exact ⟨_, fun s => by show execPmov _ _ _ = _; unfold execPmov; rfl⟩
  | pred _ _ => exact ⟨_, fun s => by show execPred _ _ _ = _; unfold execPred; rfl⟩
  | pder _ _ => exact ⟨_, fun s => by show execPder _ _ _ = _; unfold execPder; rfl⟩
  | pclass _ _ => exact ⟨_, fun s => by show execPclass _ _ _ = _; unfold execPclass; rfl⟩
  | narrow _ _ => exact ⟨_, fun s => by show execNarrow _ _ _ = _; unfold execNarrow; rfl⟩
  | widen _ _ => exact ⟨_, fun s => by show execWiden _ _ _ = _; unfold execWiden; rfl⟩
  | pqry _ _ => exact ⟨_, fun s => by show execPqry _ _ _ = _; unfold execPqry; rfl⟩
  | alloc _ _ => exact ⟨_, fun s => by show execAlloc _ _ _ = _; unfold execAlloc; rfl⟩
  | vadd _ _ => exact ⟨_, fun s => by show execVadd _ _ _ = _; unfold execVadd; rfl⟩
  | vsub _ _ => exact ⟨_, fun s => by show execVsub _ _ _ = _; unfold execVsub; rfl⟩
  | vmul _ _ => exact ⟨_, fun s => by show execVmul _ _ _ = _; unfold execVmul; rfl⟩
  | vmulh _ _ => exact ⟨_, fun s => by show execVmulh _ _ _ = _; unfold execVmulh; rfl⟩
  | vmad _ _ => exact ⟨_, fun s => by show execVmad _ _ _ = _; unfold execVmad; rfl⟩
  | vdiv _ _ _ => exact ⟨_, fun s => by show execVdiv _ _ _ _ = _; unfold execVdiv; rfl⟩
  | vrem _ _ _ => exact ⟨_, fun s => by show execVrem _ _ _ _ = _; unfold execVrem; rfl⟩
  | vand _ _ => exact ⟨_, fun s => by show execVand _ _ _ = _; unfold execVand; rfl⟩
  | vor _ _ => exact ⟨_, fun s => by show execVor _ _ _ = _; unfold execVor; rfl⟩
  | vxor _ _ => exact ⟨_, fun s => by show execVxor _ _ _ = _; unfold execVxor; rfl⟩
  | vshl _ _ => exact ⟨_, fun s => by show execVshl _ _ _ = _; unfold execVshl; rfl⟩
  | vshr _ _ => exact ⟨_, fun s => by show execVshr _ _ _ = _; unfold execVshr; rfl⟩
  | vsra _ _ => exact ⟨_, fun s => by show execVsra _ _ _ = _; unfold execVsra; rfl⟩
  | vmin _ _ => exact ⟨_, fun s => by show execVmin _ _ _ = _; unfold execVmin; rfl⟩
  | vmax _ _ => exact ⟨_, fun s => by show execVmax _ _ _ = _; unfold execVmax; rfl⟩
  | vabs _ _ => exact ⟨_, fun s => by show execVabs _ _ _ = _; unfold execVabs; rfl⟩
  | vcmp _ _ => exact ⟨_, fun s => by show execVcmp _ _ _ = _; unfold execVcmp; rfl⟩
  | vsel _ _ => exact ⟨_, fun s => by show execVsel _ _ _ = _; unfold execVsel; rfl⟩
  | vmov _ _ => exact ⟨_, fun s => by show execVmov _ _ _ = _; unfold execVmov; rfl⟩
  | vbcast _ _ => exact ⟨_, fun s => by show execVbcast _ _ _ = _; unfold execVbcast; rfl⟩
  | vbfx _ _ => exact ⟨_, fun s => by show execVbfx _ _ _ = _; unfold execVbfx; rfl⟩
  | vpopc _ _ => exact ⟨_, fun s => by show execVpopc _ _ _ = _; unfold execVpopc; rfl⟩
  | vclz _ _ => exact ⟨_, fun s => by show execVclz _ _ _ = _; unfold execVclz; rfl⟩
  | fadd _ _ => exact ⟨_, fun s => by show execFadd _ _ _ = _; unfold execFadd; rfl⟩
  | fsub _ _ => exact ⟨_, fun s => by show execFsub _ _ _ = _; unfold execFsub; rfl⟩
  | fmul _ _ => exact ⟨_, fun s => by show execFmul _ _ _ = _; unfold execFmul; rfl⟩
  | ffma _ _ => exact ⟨_, fun s => by show execFfma _ _ _ = _; unfold execFfma; rfl⟩
  | fmin _ _ => exact ⟨_, fun s => by show execFmin _ _ _ = _; unfold execFmin; rfl⟩
  | fmax _ _ => exact ⟨_, fun s => by show execFmax _ _ _ = _; unfold execFmax; rfl⟩
  | fsgn _ _ => exact ⟨_, fun s => by show execFsgn _ _ _ = _; unfold execFsgn; rfl⟩
  | fdiv _ _ _ => exact ⟨_, fun s => by show execFdiv _ _ _ _ = _; unfold execFdiv; rfl⟩
  | fsqrt _ _ _ => exact ⟨_, fun s => by show execFsqrt _ _ _ _ = _; unfold execFsqrt; rfl⟩
  | frcp _ _ _ => exact ⟨_, fun s => by show execFrcp _ _ _ _ = _; unfold execFrcp; rfl⟩
  | frsq _ _ _ => exact ⟨_, fun s => by show execFrsq _ _ _ _ = _; unfold execFrsq; rfl⟩
  | fexp2 _ _ _ => exact ⟨_, fun s => by show execFexp2 _ _ _ _ = _; unfold execFexp2; rfl⟩
  | flog2 _ _ _ => exact ⟨_, fun s => by show execFlog2 _ _ _ _ = _; unfold execFlog2; rfl⟩
  | ftrig _ _ _ => exact ⟨_, fun s => by show execFtrig _ _ _ _ = _; unfold execFtrig; rfl⟩
  | fcmp _ _ => exact ⟨_, fun s => by show execFcmp _ _ _ = _; unfold execFcmp; rfl⟩
  | fclass _ _ => exact ⟨_, fun s => by show execFclass _ _ _ = _; unfold execFclass; rfl⟩
  | cvt _ _ => exact ⟨_, fun s => by show execCvt _ _ _ = _; unfold execCvt; rfl⟩
  | qnt _ _ => exact ⟨_, fun s => by show execQnt _ _ _ = _; unfold execQnt; rfl⟩
  | dqnt _ _ => exact ⟨_, fun s => by show execDqnt _ _ _ = _; unfold execDqnt; rfl⟩
  | amax _ _ _ => exact ⟨_, fun s => by show execAmax _ _ _ _ = _; unfold execAmax; rfl⟩
  | vperm _ _ _ => exact ⟨_, fun s => by show execVperm _ _ _ _ = _; unfold execVperm; rfl⟩
  | vrot _ _ => exact ⟨_, fun s => by show execVrot _ _ _ = _; unfold execVrot; rfl⟩
  | vscan _ _ _ => exact ⟨_, fun s => by show execVscan _ _ _ _ = _; unfold execVscan; rfl⟩
  | vrdc _ _ _ => exact ⟨_, fun s => by show execVrdc _ _ _ _ = _; unfold execVrdc; rfl⟩
  | vconf _ _ => exact ⟨_, fun s => by show execVconf _ _ _ = _; unfold execVconf; rfl⟩
  | velect _ _ => exact ⟨_, fun s => by show execVelect _ _ _ = _; unfold execVelect; rfl⟩
  | ld _ _ _ => exact ⟨_, fun s => by show execLd _ _ _ _ = _; unfold execLd; rfl⟩
  | st _ _ => exact ⟨_, fun s => by show execSt _ _ _ = _; unfold execSt; rfl⟩
  | atom _ _ _ => exact ⟨_, fun s => by show execAtom _ _ _ _ = _; unfold execAtom; rfl⟩
  | sgen _ _ => exact ⟨_, fun s => by show execSgen _ _ _ = _; unfold execSgen; rfl⟩
  | xfer _ _ => exact ⟨_, fun s => by show execXfer _ _ _ = _; unfold execXfer; rfl⟩
  | xchain _ _ => exact ⟨_, fun s => by show execXchain _ _ _ = _; unfold execXchain; rfl⟩
  | wait _ _ => exact ⟨_, fun s => by show execWait _ _ _ = _; unfold execWait; rfl⟩
  | bari _ _ => exact ⟨_, fun s => by show execBari _ _ _ = _; unfold execBari; rfl⟩
  | bara _ _ => exact ⟨_, fun s => by show execBara _ _ _ = _; unfold execBara; rfl⟩
  | barw _ _ => exact ⟨_, fun s => by show execBarw _ _ _ = _; unfold execBarw; rfl⟩
  | syncw _ _ => exact ⟨_, fun s => by show execSyncw _ _ _ = _; unfold execSyncw; rfl⟩
  | mma _ _ => exact ⟨_, fun s => by show execMma _ _ _ = _; unfold execMma; rfl⟩
  | mmas _ _ => exact ⟨_, fun s => by show execMmas _ _ _ = _; unfold execMmas; rfl⟩
  | mmab _ _ => exact ⟨_, fun s => by show execMmab _ _ _ = _; unfold execMmab; rfl⟩
  | scacc _ _ => exact ⟨_, fun s => by show execScacc _ _ _ = _; unfold execScacc; rfl⟩
  | zmovZ2v _ _ _ => exact ⟨_, fun s => by show execZmovZ2v _ _ _ _ = _; unfold execZmovZ2v; rfl⟩
  | zmovV2z _ _ _ => exact ⟨_, fun s => by show execZmovV2z _ _ _ _ = _; unfold execZmovV2z; rfl⟩
  | zmovZ2m _ _ _ => exact ⟨_, fun s => by show execZmovZ2m _ _ _ _ = _; unfold execZmovZ2m; rfl⟩
  | zmovM2z _ _ _ => exact ⟨_, fun s => by show execZmovM2z _ _ _ _ = _; unfold execZmovM2z; rfl⟩
  | zclr _ _ => exact ⟨_, fun s => by show execZclr _ _ _ = _; unfold execZclr; rfl⟩
  | xsect _ _ _ => exact ⟨_, fun s => by show execXsect _ _ _ _ = _; unfold execXsect; rfl⟩
  | spx _ _ => exact ⟨_, fun s => by show execSpx _ _ _ = _; unfold execSpx; rfl⟩
  | xformFwd _ _ => exact ⟨_, fun s => by show execXformFwd _ _ _ = _; unfold execXformFwd; rfl⟩
  | xformInv _ _ => exact ⟨_, fun s => by show execXformInv _ _ _ = _; unfold execXformInv; rfl⟩
  | mjoin _ _ => exact ⟨_, fun s => by show execMjoin _ _ _ = _; unfold execMjoin; rfl⟩
  | meet _ _ => exact ⟨_, fun s => by show execMeet _ _ _ = _; unfold execMeet; rfl⟩
  | mwait _ _ => exact ⟨_, fun s => by show execMwait _ _ _ = _; unfold execMwait; rfl⟩
  | mqry _ _ => exact ⟨_, fun s => by show execMqry _ _ _ = _; unfold execMqry; rfl⟩
  | rdcn _ _ => exact ⟨_, fun s => by show execRdcn _ _ _ = _; unfold execRdcn; rfl⟩
  | rdget _ _ => exact ⟨_, fun s => by show execRdget _ _ _ = _; unfold execRdget; rfl⟩
  | rsamp _ => exact ⟨_, fun s => by show execRsamp _ _ = _; unfold execRsamp; rfl⟩
  | rng _ _ _ => exact ⟨_, fun s => by show execRng _ _ _ _ = _; unfold execRng; rfl⟩
  | reord _ _ => exact ⟨_, fun s => by show execReord _ _ _ = _; unfold execReord; rfl⟩
  | launch _ _ => exact ⟨_, fun s => by show execLaunch _ _ _ = _; unfold execLaunch; rfl⟩
  | lwait _ _ => exact ⟨_, fun s => by show execLwait _ _ _ = _; unfold execLwait; rfl⟩
  | trap _ _ => exact ⟨_, fun s => by show execTrap _ _ _ = _; unfold execTrap; rfl⟩
  | svcProbe _ _ => exact ⟨_, fun s => by show execSvcProbe _ _ _ = _; unfold execSvcProbe; rfl⟩
  | svcLock _ _ => exact ⟨_, fun s => by show execSvcLock _ _ _ = _; unfold execSvcLock; rfl⟩
  | svcUnlock _ _ => exact ⟨_, fun s => by show execSvcUnlock _ _ _ = _; unfold execSvcUnlock; rfl⟩
  | svcTrylock _ _ => exact ⟨_, fun s => by show execSvcTrylock _ _ _ = _; unfold execSvcTrylock; rfl⟩
  | svcLog _ _ => exact ⟨_, fun s => by show execSvcLog _ _ _ = _; unfold execSvcLog; rfl⟩
  | rdsr _ _ => exact ⟨_, fun s => by show execRdsr _ _ _ = _; unfold execRdsr; rfl⟩
  | wrsr _ _ => exact ⟨_, fun s => by show execWrsr _ _ _ = _; unfold execWrsr; rfl⟩
  | yield _ _ => exact ⟨_, fun s => by show execYield _ _ _ = _; unfold execYield; rfl⟩
  | longLatencyResult _ _ => exact Bool.noConfusion (show true = false from h)
  | issueGuard _ => exact Bool.noConfusion (show true = false from h)
  | pageFault _ _ => exact Bool.noConfusion (show true = false from h)
  | replay _ _ => exact Bool.noConfusion (show true = false from h)
  | preEmptionRequest _ _ _ => exact Bool.noConfusion (show true = false from h)
  | priorityPreemptTrigger _ => exact Bool.noConfusion (show true = false from h)
  | preEmptionSave _ _ => exact Bool.noConfusion (show true = false from h)
  | restore _ _ => exact Bool.noConfusion (show true = false from h)
  | tailWrite _ _ => exact Bool.noConfusion (show true = false from h)
  | eventWordWrite _ _ _ => exact Bool.noConfusion (show true = false from h)
  | registerWrite _ _ _ => exact Bool.noConfusion (show true = false from h)
  | inletEntryTake _ => exact Bool.noConfusion (show true = false from h)
  | dependenceRecheck => exact Bool.noConfusion (show true = false from h)
  | diePull _ _ => exact Bool.noConfusion (show true = false from h)
  | completionEvent _ => exact Bool.noConfusion (show true = false from h)
  | sluiceRelaunch _ _ => exact Bool.noConfusion (show true = false from h)
  | resample _ => exact Bool.noConfusion (show true = false from h)
  | copyRecordCheck _ => exact Bool.noConfusion (show true = false from h)
  | copyRecordComplete _ => exact Bool.noConfusion (show true = false from h)
  | progressUpdate _ => exact Bool.noConfusion (show true = false from h)
  | streamRecordRead _ _ => exact Bool.noConfusion (show true = false from h)
  | arrayTakeWork _ => exact Bool.noConfusion (show true = false from h)
  | matrixOpComplete _ _ => exact Bool.noConfusion (show true = false from h)
  | transformStart _ => exact Bool.noConfusion (show true = false from h)
  | mereContribution _ => exact Bool.noConfusion (show true = false from h)
  | mereUnbind _ => exact Bool.noConfusion (show true = false from h)
  | routerContribution _ => exact Bool.noConfusion (show true = false from h)
  | reduceTimeout _ => exact Bool.noConfusion (show true = false from h)
  | instanceFreeTimeout _ => exact Bool.noConfusion (show true = false from h)
  | collectiveStart _ _ => exact Bool.noConfusion (show true = false from h)
  | wireBlockReceive _ _ _ _ _ _ => exact Bool.noConfusion (show true = false from h)
  | collectiveComplete _ _ => exact Bool.noConfusion (show true = false from h)
  | collectiveFailTimeout _ _ => exact Bool.noConfusion (show true = false from h)
  | refreshWindow _ _ => exact Bool.noConfusion (show true = false from h)
  | linkSleep _ _ => exact Bool.noConfusion (show true = false from h)
  | homeWrite _ _ _ _ => exact Bool.noConfusion (show true = false from h)
  | snoopAnswer _ => exact Bool.noConfusion (show true = false from h)
  | linkWakeTimeout _ => exact Bool.noConfusion (show true = false from h)
  | l1Eviction _ _ => exact Bool.noConfusion (show true = false from h)
  | basinEviction _ _ => exact Bool.noConfusion (show true = false from h)
  | heartbeat _ => exact Bool.noConfusion (show true = false from h)
  | dieDeath _ => exact Bool.noConfusion (show true = false from h)
  | scrub _ => exact Bool.noConfusion (show true = false from h)
  | correctedError _ _ => exact Bool.noConfusion (show true = false from h)
  | uncorrectableError _ _ => exact Bool.noConfusion (show true = false from h)
  | linkRetrain _ _ => exact Bool.noConfusion (show true = false from h)
  | thermalThrottle => exact Bool.noConfusion (show true = false from h)
  | powerUp => exact Bool.noConfusion (show true = false from h)
  | computeDieReset _ => exact Bool.noConfusion (show true = false from h)
  | bootGo _ => exact Bool.noConfusion (show true = false from h)
  | imageFetchComplete _ => exact Bool.noConfusion (show true = false from h)
  | imageVerifyComplete => exact Bool.noConfusion (show true = false from h)
  | firmwareStepsComplete _ _ _ => exact Bool.noConfusion (show true = false from h)
  | attestationRequest => exact Bool.noConfusion (show true = false from h)
  | contextCreate _ => exact Bool.noConfusion (show true = false from h)
  | contextEnd _ => exact Bool.noConfusion (show true = false from h)
  | hostSuspend _ => exact Bool.noConfusion (show true = false from h)
  | contextSwitch _ _ => exact Bool.noConfusion (show true = false from h)
  | mappingRequest _ _ => exact Bool.noConfusion (show true = false from h)
  | inletDestroy _ => exact Bool.noConfusion (show true = false from h)
  | communicatorCreate _ _ _ _ => exact Bool.noConfusion (show true = false from h)
  | faultLogReadAdvance _ _ => exact Bool.noConfusion (show true = false from h)
  | inspectionRequest _ _ => exact Bool.noConfusion (show true = false from h)
  | hostLockRequest _ _ _ => exact Bool.noConfusion (show true = false from h)
  | cxlMemAccess _ => exact Bool.noConfusion (show true = false from h)
  | packageCopyRequest _ _ => exact Bool.noConfusion (show true = false from h)
  | powerLoss _ => exact Bool.noConfusion (show true = false from h)
  | throttleCauseClears => exact Bool.noConfusion (show true = false from h)
  | cxlCacheSnoop _ _ => exact Bool.noConfusion (show true = false from h)

end Sys2Proof.Machine
end

