-- ==== Sys2Proof/Laws/State.lean ====
section
/-! SUPPORT. What each named update of the state leaves alone and what it sets, field by field, so that no later proof unfolds a
record update; and looking a group up after an update. -/

namespace Sys2Proof.Machine

@[simp] theorem State.setGroup_boot (s : State) (g : Group) : (s.setGroup g).boot = s.boot := rfl
@[simp] theorem State.setGroup_sys (s : State) (g : Group) : (s.setGroup g).sys = s.sys := rfl
@[simp] theorem State.setGroup_mem (s : State) (g : Group) : (s.setGroup g).mem = s.mem := rfl
@[simp] theorem State.setGroup_cycles (s : State) (g : Group) : (s.setGroup g).cycles = s.cycles := rfl
@[simp] theorem State.setGroup_idle (s : State) (g : Group) : (s.setGroup g).idle = s.idle := rfl
@[simp] theorem State.setGroup_placed (s : State) (g : Group) : (s.setGroup g).placed = s.placed := rfl
@[simp] theorem State.setGroup_run (s : State) (g : Group) : (s.setGroup g).run = s.run := rfl
@[simp] theorem State.updGroup_boot (s : State) (gid : Nat) (f : Group → Group) : (s.updGroup gid f).boot = s.boot := rfl
@[simp] theorem State.updGroup_sys (s : State) (gid : Nat) (f : Group → Group) : (s.updGroup gid f).sys = s.sys := rfl
@[simp] theorem State.updGroup_mem (s : State) (gid : Nat) (f : Group → Group) : (s.updGroup gid f).mem = s.mem := rfl
@[simp] theorem State.updGroup_cycles (s : State) (gid : Nat) (f : Group → Group) : (s.updGroup gid f).cycles = s.cycles := rfl
@[simp] theorem State.updGroup_idle (s : State) (gid : Nat) (f : Group → Group) : (s.updGroup gid f).idle = s.idle := rfl
@[simp] theorem State.updGroup_placed (s : State) (gid : Nat) (f : Group → Group) : (s.updGroup gid f).placed = s.placed := rfl
@[simp] theorem State.updGroup_run (s : State) (gid : Nat) (f : Group → Group) : (s.updGroup gid f).run = s.run := rfl
@[simp] theorem State.updTeam_boot (s : State) (tid : Nat) (f : Team → Team) : (s.updTeam tid f).boot = s.boot := rfl
@[simp] theorem State.updTeam_mem (s : State) (tid : Nat) (f : Team → Team) : (s.updTeam tid f).mem = s.mem := rfl
@[simp] theorem State.updTeam_groups (s : State) (tid : Nat) (f : Team → Team) : (s.updTeam tid f).groups = s.groups := rfl
@[simp] theorem State.updTeam_cycles (s : State) (tid : Nat) (f : Team → Team) : (s.updTeam tid f).cycles = s.cycles := rfl
@[simp] theorem State.updTeam_idle (s : State) (tid : Nat) (f : Team → Team) : (s.updTeam tid f).idle = s.idle := rfl
@[simp] theorem State.updTeam_placed (s : State) (tid : Nat) (f : Team → Team) : (s.updTeam tid f).placed = s.placed := rfl
@[simp] theorem State.updTeam_run (s : State) (tid : Nat) (f : Team → Team) : (s.updTeam tid f).run = s.run := rfl
@[simp] theorem State.updTeam_sys_dies (s : State) (tid : Nat) (f : Team → Team) : (s.updTeam tid f).sys.dies = s.sys.dies := rfl
@[simp] theorem State.updTeam_sys_memCycles (s : State) (tid : Nat) (f : Team → Team) : (s.updTeam tid f).sys.memCycles = s.sys.memCycles := rfl
@[simp] theorem State.updTeam_sys_ctxs (s : State) (tid : Nat) (f : Team → Team) : (s.updTeam tid f).sys.ctxs = s.sys.ctxs := rfl
@[simp] theorem State.updTeam_sys_inlets (s : State) (tid : Nat) (f : Team → Team) : (s.updTeam tid f).sys.inlets = s.sys.inlets := rfl
@[simp] theorem State.updTeam_sys_grids (s : State) (tid : Nat) (f : Team → Team) : (s.updTeam tid f).sys.grids = s.sys.grids := rfl
@[simp] theorem State.updTeam_sys_gangs (s : State) (tid : Nat) (f : Team → Team) : (s.updTeam tid f).sys.gangs = s.sys.gangs := rfl
@[simp] theorem State.updTeam_sys_saved (s : State) (tid : Nat) (f : Team → Team) : (s.updTeam tid f).sys.saved = s.sys.saved := rfl
@[simp] theorem State.updTeam_sys_copies (s : State) (tid : Nat) (f : Team → Team) : (s.updTeam tid f).sys.copies = s.sys.copies := rfl
@[simp] theorem State.updTeam_sys_hostCopies (s : State) (tid : Nat) (f : Team → Team) : (s.updTeam tid f).sys.hostCopies = s.sys.hostCopies := rfl
@[simp] theorem State.updTeam_sys_meres (s : State) (tid : Nat) (f : Team → Team) : (s.updTeam tid f).sys.meres = s.sys.meres := rfl
@[simp] theorem State.updTeam_sys_sent (s : State) (tid : Nat) (f : Team → Team) : (s.updTeam tid f).sys.sent = s.sys.sent := rfl
@[simp] theorem State.updTeam_sys_reducts (s : State) (tid : Nat) (f : Team → Team) : (s.updTeam tid f).sys.reducts = s.sys.reducts := rfl
@[simp] theorem State.updTeam_sys_comms (s : State) (tid : Nat) (f : Team → Team) : (s.updTeam tid f).sys.comms = s.sys.comms := rfl
@[simp] theorem State.updTeam_sys_chunks (s : State) (tid : Nat) (f : Team → Team) : (s.updTeam tid f).sys.chunks = s.sys.chunks := rfl
@[simp] theorem State.updTeam_sys_replies (s : State) (tid : Nat) (f : Team → Team) : (s.updTeam tid f).sys.replies = s.sys.replies := rfl
@[simp] theorem State.updTeam_sys_events (s : State) (tid : Nat) (f : Team → Team) : (s.updTeam tid f).sys.events = s.sys.events := rfl
@[simp] theorem State.updTeam_sys_admitted (s : State) (tid : Nat) (f : Team → Team) : (s.updTeam tid f).sys.admitted = s.sys.admitted := rfl
@[simp] theorem State.updTeam_sys_served (s : State) (tid : Nat) (f : Team → Team) : (s.updTeam tid f).sys.served = s.sys.served := rfl
@[simp] theorem State.updGrid_boot (s : State) (id : Nat) (f : Grid → Grid) : (s.updGrid id f).boot = s.boot := rfl
@[simp] theorem State.updGrid_mem (s : State) (id : Nat) (f : Grid → Grid) : (s.updGrid id f).mem = s.mem := rfl
@[simp] theorem State.updGrid_groups (s : State) (id : Nat) (f : Grid → Grid) : (s.updGrid id f).groups = s.groups := rfl
@[simp] theorem State.updGrid_cycles (s : State) (id : Nat) (f : Grid → Grid) : (s.updGrid id f).cycles = s.cycles := rfl
@[simp] theorem State.updGrid_idle (s : State) (id : Nat) (f : Grid → Grid) : (s.updGrid id f).idle = s.idle := rfl
@[simp] theorem State.updGrid_placed (s : State) (id : Nat) (f : Grid → Grid) : (s.updGrid id f).placed = s.placed := rfl
@[simp] theorem State.updGrid_run (s : State) (id : Nat) (f : Grid → Grid) : (s.updGrid id f).run = s.run := rfl
@[simp] theorem State.updGrid_sys_dies (s : State) (id : Nat) (f : Grid → Grid) : (s.updGrid id f).sys.dies = s.sys.dies := rfl
@[simp] theorem State.updGrid_sys_memCycles (s : State) (id : Nat) (f : Grid → Grid) : (s.updGrid id f).sys.memCycles = s.sys.memCycles := rfl
@[simp] theorem State.updGrid_sys_ctxs (s : State) (id : Nat) (f : Grid → Grid) : (s.updGrid id f).sys.ctxs = s.sys.ctxs := rfl
@[simp] theorem State.updGrid_sys_inlets (s : State) (id : Nat) (f : Grid → Grid) : (s.updGrid id f).sys.inlets = s.sys.inlets := rfl
@[simp] theorem State.updGrid_sys_teams (s : State) (id : Nat) (f : Grid → Grid) : (s.updGrid id f).sys.teams = s.sys.teams := rfl
@[simp] theorem State.updGrid_sys_gangs (s : State) (id : Nat) (f : Grid → Grid) : (s.updGrid id f).sys.gangs = s.sys.gangs := rfl
@[simp] theorem State.updGrid_sys_saved (s : State) (id : Nat) (f : Grid → Grid) : (s.updGrid id f).sys.saved = s.sys.saved := rfl
@[simp] theorem State.updGrid_sys_copies (s : State) (id : Nat) (f : Grid → Grid) : (s.updGrid id f).sys.copies = s.sys.copies := rfl
@[simp] theorem State.updGrid_sys_hostCopies (s : State) (id : Nat) (f : Grid → Grid) : (s.updGrid id f).sys.hostCopies = s.sys.hostCopies := rfl
@[simp] theorem State.updGrid_sys_meres (s : State) (id : Nat) (f : Grid → Grid) : (s.updGrid id f).sys.meres = s.sys.meres := rfl
@[simp] theorem State.updGrid_sys_sent (s : State) (id : Nat) (f : Grid → Grid) : (s.updGrid id f).sys.sent = s.sys.sent := rfl
@[simp] theorem State.updGrid_sys_reducts (s : State) (id : Nat) (f : Grid → Grid) : (s.updGrid id f).sys.reducts = s.sys.reducts := rfl
@[simp] theorem State.updGrid_sys_comms (s : State) (id : Nat) (f : Grid → Grid) : (s.updGrid id f).sys.comms = s.sys.comms := rfl
@[simp] theorem State.updGrid_sys_chunks (s : State) (id : Nat) (f : Grid → Grid) : (s.updGrid id f).sys.chunks = s.sys.chunks := rfl
@[simp] theorem State.updGrid_sys_replies (s : State) (id : Nat) (f : Grid → Grid) : (s.updGrid id f).sys.replies = s.sys.replies := rfl
@[simp] theorem State.updGrid_sys_events (s : State) (id : Nat) (f : Grid → Grid) : (s.updGrid id f).sys.events = s.sys.events := rfl
@[simp] theorem State.updGrid_sys_admitted (s : State) (id : Nat) (f : Grid → Grid) : (s.updGrid id f).sys.admitted = s.sys.admitted := rfl
@[simp] theorem State.updGrid_sys_served (s : State) (id : Nat) (f : Grid → Grid) : (s.updGrid id f).sys.served = s.sys.served := rfl
@[simp] theorem State.updCtx_boot (s : State) (id : Nat) (f : Ctx → Ctx) : (s.updCtx id f).boot = s.boot := rfl
@[simp] theorem State.updCtx_mem (s : State) (id : Nat) (f : Ctx → Ctx) : (s.updCtx id f).mem = s.mem := rfl
@[simp] theorem State.updCtx_groups (s : State) (id : Nat) (f : Ctx → Ctx) : (s.updCtx id f).groups = s.groups := rfl
@[simp] theorem State.updCtx_cycles (s : State) (id : Nat) (f : Ctx → Ctx) : (s.updCtx id f).cycles = s.cycles := rfl
@[simp] theorem State.updCtx_idle (s : State) (id : Nat) (f : Ctx → Ctx) : (s.updCtx id f).idle = s.idle := rfl
@[simp] theorem State.updCtx_placed (s : State) (id : Nat) (f : Ctx → Ctx) : (s.updCtx id f).placed = s.placed := rfl
@[simp] theorem State.updCtx_run (s : State) (id : Nat) (f : Ctx → Ctx) : (s.updCtx id f).run = s.run := rfl
@[simp] theorem State.updCtx_sys_dies (s : State) (id : Nat) (f : Ctx → Ctx) : (s.updCtx id f).sys.dies = s.sys.dies := rfl
@[simp] theorem State.updCtx_sys_memCycles (s : State) (id : Nat) (f : Ctx → Ctx) : (s.updCtx id f).sys.memCycles = s.sys.memCycles := rfl
@[simp] theorem State.updCtx_sys_inlets (s : State) (id : Nat) (f : Ctx → Ctx) : (s.updCtx id f).sys.inlets = s.sys.inlets := rfl
@[simp] theorem State.updCtx_sys_grids (s : State) (id : Nat) (f : Ctx → Ctx) : (s.updCtx id f).sys.grids = s.sys.grids := rfl
@[simp] theorem State.updCtx_sys_teams (s : State) (id : Nat) (f : Ctx → Ctx) : (s.updCtx id f).sys.teams = s.sys.teams := rfl
@[simp] theorem State.updCtx_sys_gangs (s : State) (id : Nat) (f : Ctx → Ctx) : (s.updCtx id f).sys.gangs = s.sys.gangs := rfl
@[simp] theorem State.updCtx_sys_saved (s : State) (id : Nat) (f : Ctx → Ctx) : (s.updCtx id f).sys.saved = s.sys.saved := rfl
@[simp] theorem State.updCtx_sys_copies (s : State) (id : Nat) (f : Ctx → Ctx) : (s.updCtx id f).sys.copies = s.sys.copies := rfl
@[simp] theorem State.updCtx_sys_hostCopies (s : State) (id : Nat) (f : Ctx → Ctx) : (s.updCtx id f).sys.hostCopies = s.sys.hostCopies := rfl
@[simp] theorem State.updCtx_sys_meres (s : State) (id : Nat) (f : Ctx → Ctx) : (s.updCtx id f).sys.meres = s.sys.meres := rfl
@[simp] theorem State.updCtx_sys_sent (s : State) (id : Nat) (f : Ctx → Ctx) : (s.updCtx id f).sys.sent = s.sys.sent := rfl
@[simp] theorem State.updCtx_sys_reducts (s : State) (id : Nat) (f : Ctx → Ctx) : (s.updCtx id f).sys.reducts = s.sys.reducts := rfl
@[simp] theorem State.updCtx_sys_comms (s : State) (id : Nat) (f : Ctx → Ctx) : (s.updCtx id f).sys.comms = s.sys.comms := rfl
@[simp] theorem State.updCtx_sys_chunks (s : State) (id : Nat) (f : Ctx → Ctx) : (s.updCtx id f).sys.chunks = s.sys.chunks := rfl
@[simp] theorem State.updCtx_sys_replies (s : State) (id : Nat) (f : Ctx → Ctx) : (s.updCtx id f).sys.replies = s.sys.replies := rfl
@[simp] theorem State.updCtx_sys_events (s : State) (id : Nat) (f : Ctx → Ctx) : (s.updCtx id f).sys.events = s.sys.events := rfl
@[simp] theorem State.updCtx_sys_admitted (s : State) (id : Nat) (f : Ctx → Ctx) : (s.updCtx id f).sys.admitted = s.sys.admitted := rfl
@[simp] theorem State.updCtx_sys_served (s : State) (id : Nat) (f : Ctx → Ctx) : (s.updCtx id f).sys.served = s.sys.served := rfl
@[simp] theorem State.updInlet_boot (s : State) (n : Nat) (f : Inlet → Inlet) : (s.updInlet n f).boot = s.boot := rfl
@[simp] theorem State.updInlet_mem (s : State) (n : Nat) (f : Inlet → Inlet) : (s.updInlet n f).mem = s.mem := rfl
@[simp] theorem State.updInlet_groups (s : State) (n : Nat) (f : Inlet → Inlet) : (s.updInlet n f).groups = s.groups := rfl
@[simp] theorem State.updInlet_cycles (s : State) (n : Nat) (f : Inlet → Inlet) : (s.updInlet n f).cycles = s.cycles := rfl
@[simp] theorem State.updInlet_idle (s : State) (n : Nat) (f : Inlet → Inlet) : (s.updInlet n f).idle = s.idle := rfl
@[simp] theorem State.updInlet_placed (s : State) (n : Nat) (f : Inlet → Inlet) : (s.updInlet n f).placed = s.placed := rfl
@[simp] theorem State.updInlet_run (s : State) (n : Nat) (f : Inlet → Inlet) : (s.updInlet n f).run = s.run := rfl
@[simp] theorem State.updInlet_sys_dies (s : State) (n : Nat) (f : Inlet → Inlet) : (s.updInlet n f).sys.dies = s.sys.dies := rfl
@[simp] theorem State.updInlet_sys_memCycles (s : State) (n : Nat) (f : Inlet → Inlet) : (s.updInlet n f).sys.memCycles = s.sys.memCycles := rfl
@[simp] theorem State.updInlet_sys_ctxs (s : State) (n : Nat) (f : Inlet → Inlet) : (s.updInlet n f).sys.ctxs = s.sys.ctxs := rfl
@[simp] theorem State.updInlet_sys_grids (s : State) (n : Nat) (f : Inlet → Inlet) : (s.updInlet n f).sys.grids = s.sys.grids := rfl
@[simp] theorem State.updInlet_sys_teams (s : State) (n : Nat) (f : Inlet → Inlet) : (s.updInlet n f).sys.teams = s.sys.teams := rfl
@[simp] theorem State.updInlet_sys_gangs (s : State) (n : Nat) (f : Inlet → Inlet) : (s.updInlet n f).sys.gangs = s.sys.gangs := rfl
@[simp] theorem State.updInlet_sys_saved (s : State) (n : Nat) (f : Inlet → Inlet) : (s.updInlet n f).sys.saved = s.sys.saved := rfl
@[simp] theorem State.updInlet_sys_copies (s : State) (n : Nat) (f : Inlet → Inlet) : (s.updInlet n f).sys.copies = s.sys.copies := rfl
@[simp] theorem State.updInlet_sys_hostCopies (s : State) (n : Nat) (f : Inlet → Inlet) : (s.updInlet n f).sys.hostCopies = s.sys.hostCopies := rfl
@[simp] theorem State.updInlet_sys_meres (s : State) (n : Nat) (f : Inlet → Inlet) : (s.updInlet n f).sys.meres = s.sys.meres := rfl
@[simp] theorem State.updInlet_sys_sent (s : State) (n : Nat) (f : Inlet → Inlet) : (s.updInlet n f).sys.sent = s.sys.sent := rfl
@[simp] theorem State.updInlet_sys_reducts (s : State) (n : Nat) (f : Inlet → Inlet) : (s.updInlet n f).sys.reducts = s.sys.reducts := rfl
@[simp] theorem State.updInlet_sys_comms (s : State) (n : Nat) (f : Inlet → Inlet) : (s.updInlet n f).sys.comms = s.sys.comms := rfl
@[simp] theorem State.updInlet_sys_chunks (s : State) (n : Nat) (f : Inlet → Inlet) : (s.updInlet n f).sys.chunks = s.sys.chunks := rfl
@[simp] theorem State.updInlet_sys_replies (s : State) (n : Nat) (f : Inlet → Inlet) : (s.updInlet n f).sys.replies = s.sys.replies := rfl
@[simp] theorem State.updInlet_sys_events (s : State) (n : Nat) (f : Inlet → Inlet) : (s.updInlet n f).sys.events = s.sys.events := rfl
@[simp] theorem State.updInlet_sys_admitted (s : State) (n : Nat) (f : Inlet → Inlet) : (s.updInlet n f).sys.admitted = s.sys.admitted := rfl
@[simp] theorem State.updInlet_sys_served (s : State) (n : Nat) (f : Inlet → Inlet) : (s.updInlet n f).sys.served = s.sys.served := rfl
@[simp] theorem State.updDie_boot (s : State) (n : Nat) (f : Die → Die) : (s.updDie n f).boot = s.boot := rfl
@[simp] theorem State.updDie_mem (s : State) (n : Nat) (f : Die → Die) : (s.updDie n f).mem = s.mem := rfl
@[simp] theorem State.updDie_groups (s : State) (n : Nat) (f : Die → Die) : (s.updDie n f).groups = s.groups := rfl
@[simp] theorem State.updDie_cycles (s : State) (n : Nat) (f : Die → Die) : (s.updDie n f).cycles = s.cycles := rfl
@[simp] theorem State.updDie_idle (s : State) (n : Nat) (f : Die → Die) : (s.updDie n f).idle = s.idle := rfl
@[simp] theorem State.updDie_placed (s : State) (n : Nat) (f : Die → Die) : (s.updDie n f).placed = s.placed := rfl
@[simp] theorem State.updDie_run (s : State) (n : Nat) (f : Die → Die) : (s.updDie n f).run = s.run := rfl
@[simp] theorem State.updDie_sys_memCycles (s : State) (n : Nat) (f : Die → Die) : (s.updDie n f).sys.memCycles = s.sys.memCycles := rfl
@[simp] theorem State.updDie_sys_ctxs (s : State) (n : Nat) (f : Die → Die) : (s.updDie n f).sys.ctxs = s.sys.ctxs := rfl
@[simp] theorem State.updDie_sys_inlets (s : State) (n : Nat) (f : Die → Die) : (s.updDie n f).sys.inlets = s.sys.inlets := rfl
@[simp] theorem State.updDie_sys_grids (s : State) (n : Nat) (f : Die → Die) : (s.updDie n f).sys.grids = s.sys.grids := rfl
@[simp] theorem State.updDie_sys_teams (s : State) (n : Nat) (f : Die → Die) : (s.updDie n f).sys.teams = s.sys.teams := rfl
@[simp] theorem State.updDie_sys_gangs (s : State) (n : Nat) (f : Die → Die) : (s.updDie n f).sys.gangs = s.sys.gangs := rfl
@[simp] theorem State.updDie_sys_saved (s : State) (n : Nat) (f : Die → Die) : (s.updDie n f).sys.saved = s.sys.saved := rfl
@[simp] theorem State.updDie_sys_copies (s : State) (n : Nat) (f : Die → Die) : (s.updDie n f).sys.copies = s.sys.copies := rfl
@[simp] theorem State.updDie_sys_hostCopies (s : State) (n : Nat) (f : Die → Die) : (s.updDie n f).sys.hostCopies = s.sys.hostCopies := rfl
@[simp] theorem State.updDie_sys_meres (s : State) (n : Nat) (f : Die → Die) : (s.updDie n f).sys.meres = s.sys.meres := rfl
@[simp] theorem State.updDie_sys_sent (s : State) (n : Nat) (f : Die → Die) : (s.updDie n f).sys.sent = s.sys.sent := rfl
@[simp] theorem State.updDie_sys_reducts (s : State) (n : Nat) (f : Die → Die) : (s.updDie n f).sys.reducts = s.sys.reducts := rfl
@[simp] theorem State.updDie_sys_comms (s : State) (n : Nat) (f : Die → Die) : (s.updDie n f).sys.comms = s.sys.comms := rfl
@[simp] theorem State.updDie_sys_chunks (s : State) (n : Nat) (f : Die → Die) : (s.updDie n f).sys.chunks = s.sys.chunks := rfl
@[simp] theorem State.updDie_sys_replies (s : State) (n : Nat) (f : Die → Die) : (s.updDie n f).sys.replies = s.sys.replies := rfl
@[simp] theorem State.updDie_sys_events (s : State) (n : Nat) (f : Die → Die) : (s.updDie n f).sys.events = s.sys.events := rfl
@[simp] theorem State.updDie_sys_admitted (s : State) (n : Nat) (f : Die → Die) : (s.updDie n f).sys.admitted = s.sys.admitted := rfl
@[simp] theorem State.updDie_sys_served (s : State) (n : Nat) (f : Die → Die) : (s.updDie n f).sys.served = s.sys.served := rfl
@[simp] theorem State.fresh_boot (s : State) : s.fresh.2.boot = s.boot := rfl
@[simp] theorem State.freshFree_boot (s : State) : s.freshFree.2.boot = s.boot := rfl
@[simp] theorem State.fresh_sys (s : State) : s.fresh.2.sys = s.sys := rfl
@[simp] theorem State.freshFree_sys (s : State) : s.freshFree.2.sys = s.sys := rfl
@[simp] theorem State.fresh_mem (s : State) : s.fresh.2.mem = s.mem := rfl
@[simp] theorem State.freshFree_mem (s : State) : s.freshFree.2.mem = s.mem := rfl
@[simp] theorem State.fresh_groups (s : State) : s.fresh.2.groups = s.groups := rfl
@[simp] theorem State.freshFree_groups (s : State) : s.freshFree.2.groups = s.groups := rfl
@[simp] theorem State.fresh_cycles (s : State) : s.fresh.2.cycles = s.cycles := rfl
@[simp] theorem State.freshFree_cycles (s : State) : s.freshFree.2.cycles = s.cycles := rfl
@[simp] theorem State.fresh_idle (s : State) : s.fresh.2.idle = s.idle := rfl
@[simp] theorem State.fresh_placed (s : State) : s.fresh.2.placed = s.placed := rfl
@[simp] theorem State.freshFree_idle (s : State) : s.freshFree.2.idle = s.idle := rfl
@[simp] theorem State.freshFree_placed (s : State) : s.freshFree.2.placed = s.placed := rfl
@[simp] theorem State.fresh_id (s : State) : s.fresh.1 = s.run.nextId := rfl
@[simp] theorem Group.setSlot_gid (g : Group) (k : Nat) (x : Slot) : (g.setSlot k x).gid = g.gid := by unfold Group.setSlot; split <;> rfl
@[simp] theorem Group.setSlot_grid (g : Group) (k : Nat) (x : Slot) : (g.setSlot k x).grid = g.grid := by unfold Group.setSlot; split <;> rfl
@[simp] theorem Group.setSlot_tid (g : Group) (k : Nat) (x : Slot) : (g.setSlot k x).tid = g.tid := by unfold Group.setSlot; split <;> rfl
@[simp] theorem Group.setSlot_idx (g : Group) (k : Nat) (x : Slot) : (g.setSlot k x).idx = g.idx := by unfold Group.setSlot; split <;> rfl
@[simp] theorem Group.setSlot_core (g : Group) (k : Nat) (x : Slot) : (g.setSlot k x).core = g.core := by unfold Group.setSlot; split <;> rfl
@[simp] theorem Group.setSlot_resident (g : Group) (k : Nat) (x : Slot) : (g.setSlot k x).resident = g.resident := by unfold Group.setSlot; split <;> rfl
@[simp] theorem Group.setSlot_launched (g : Group) (k : Nat) (x : Slot) : (g.setSlot k x).launched = g.launched := by unfold Group.setSlot; split <;> rfl
@[simp] theorem Group.setSlot_live (g : Group) (k : Nat) (x : Slot) : (g.setSlot k x).live = g.live := by unfold Group.setSlot; split <;> rfl
@[simp] theorem Group.setSlot_v (g : Group) (k : Nat) (x : Slot) : (g.setSlot k x).v = g.v := by unfold Group.setSlot; split <;> rfl
@[simp] theorem Group.setSlot_s (g : Group) (k : Nat) (x : Slot) : (g.setSlot k x).s = g.s := by unfold Group.setSlot; split <;> rfl
@[simp] theorem Group.setSlot_p (g : Group) (k : Nat) (x : Slot) : (g.setSlot k x).p = g.p := by unfold Group.setSlot; split <;> rfl
@[simp] theorem Group.setSlot_a (g : Group) (k : Nat) (x : Slot) : (g.setSlot k x).a = g.a := by unfold Group.setSlot; split <;> rfl
@[simp] theorem Group.setSlot_wbase (g : Group) (k : Nat) (x : Slot) : (g.setSlot k x).wbase = g.wbase := by unfold Group.setSlot; split <;> rfl
@[simp] theorem Group.setSlot_depth (g : Group) (k : Nat) (x : Slot) : (g.setSlot k x).depth = g.depth := by unfold Group.setSlot; split <;> rfl
@[simp] theorem Group.setSlot_eddy (g : Group) (k : Nat) (x : Slot) : (g.setSlot k x).eddy = g.eddy := by unfold Group.setSlot; split <;> rfl
@[simp] theorem Group.setSlot_lineage (g : Group) (k : Nat) (x : Slot) : (g.setSlot k x).lineage = g.lineage := by unfold Group.setSlot; split <;> rfl
@[simp] theorem Group.setSlot_parent (g : Group) (k : Nat) (x : Slot) : (g.setSlot k x).parent = g.parent := by unfold Group.setSlot; split <;> rfl
@[simp] theorem Group.setSlot_pslot (g : Group) (k : Nat) (x : Slot) : (g.setSlot k x).pslot = g.pslot := by unfold Group.setSlot; split <;> rfl
@[simp] theorem Group.setSlot_tlane (g : Group) (k : Nat) (x : Slot) : (g.setSlot k x).tlane = g.tlane := by unfold Group.setSlot; split <;> rfl
@[simp] theorem Group.setSlot_flight (g : Group) (k : Nat) (x : Slot) : (g.setSlot k x).flight = g.flight := by unfold Group.setSlot; split <;> rfl
@[simp] theorem Group.setSlot_cntCopy (g : Group) (k : Nat) (x : Slot) : (g.setSlot k x).cntCopy = g.cntCopy := by unfold Group.setSlot; split <;> rfl
@[simp] theorem Group.setSlot_cntMx (g : Group) (k : Nat) (x : Slot) : (g.setSlot k x).cntMx = g.cntMx := by unfold Group.setSlot; split <;> rfl
@[simp] theorem Group.setSlot_cntStream (g : Group) (k : Nat) (x : Slot) : (g.setSlot k x).cntStream = g.cntStream := by unfold Group.setSlot; split <;> rfl
@[simp] theorem Group.setSlot_cntColl (g : Group) (k : Nat) (x : Slot) : (g.setSlot k x).cntColl = g.cntColl := by unfold Group.setSlot; split <;> rfl
@[simp] theorem Group.setSlot_seen (g : Group) (k : Nat) (x : Slot) : (g.setSlot k x).seen = g.seen := by unfold Group.setSlot; split <;> rfl
@[simp] theorem Group.setSlot_latch (g : Group) (k : Nat) (x : Slot) : (g.setSlot k x).latch = g.latch := by unfold Group.setSlot; split <;> rfl
@[simp] theorem Group.setSlot_tiles (g : Group) (k : Nat) (x : Slot) : (g.setSlot k x).tiles = g.tiles := by unfold Group.setSlot; split <;> rfl
@[simp] theorem Group.setSlot_mq (g : Group) (k : Nat) (x : Slot) : (g.setSlot k x).mq = g.mq := by unfold Group.setSlot; split <;> rfl
@[simp] theorem Group.setSlot_streams (g : Group) (k : Nat) (x : Slot) : (g.setSlot k x).streams = g.streams := by unfold Group.setSlot; split <;> rfl
@[simp] theorem Group.setSlot_interval (g : Group) (k : Nat) (x : Slot) : (g.setSlot k x).interval = g.interval := by unfold Group.setSlot; split <;> rfl
@[simp] theorem Group.setSlot_retired (g : Group) (k : Nat) (x : Slot) : (g.setSlot k x).retired = g.retired := by unfold Group.setSlot; split <;> rfl
@[simp] theorem Group.setVAt_gid (g : Group) (n l : Nat) (x : W32) : (g.setVAt n l x).gid = g.gid := rfl
@[simp] theorem Group.setVAt_grid (g : Group) (n l : Nat) (x : W32) : (g.setVAt n l x).grid = g.grid := rfl
@[simp] theorem Group.setVAt_tid (g : Group) (n l : Nat) (x : W32) : (g.setVAt n l x).tid = g.tid := rfl
@[simp] theorem Group.setVAt_idx (g : Group) (n l : Nat) (x : W32) : (g.setVAt n l x).idx = g.idx := rfl
@[simp] theorem Group.setVAt_core (g : Group) (n l : Nat) (x : W32) : (g.setVAt n l x).core = g.core := rfl
@[simp] theorem Group.setVAt_resident (g : Group) (n l : Nat) (x : W32) : (g.setVAt n l x).resident = g.resident := rfl
@[simp] theorem Group.setVAt_launched (g : Group) (n l : Nat) (x : W32) : (g.setVAt n l x).launched = g.launched := rfl
@[simp] theorem Group.setVAt_live (g : Group) (n l : Nat) (x : W32) : (g.setVAt n l x).live = g.live := rfl
@[simp] theorem Group.setVAt_s (g : Group) (n l : Nat) (x : W32) : (g.setVAt n l x).s = g.s := rfl
@[simp] theorem Group.setVAt_p (g : Group) (n l : Nat) (x : W32) : (g.setVAt n l x).p = g.p := rfl
@[simp] theorem Group.setVAt_a (g : Group) (n l : Nat) (x : W32) : (g.setVAt n l x).a = g.a := rfl
@[simp] theorem Group.setVAt_wbase (g : Group) (n l : Nat) (x : W32) : (g.setVAt n l x).wbase = g.wbase := rfl
@[simp] theorem Group.setVAt_depth (g : Group) (n l : Nat) (x : W32) : (g.setVAt n l x).depth = g.depth := rfl
@[simp] theorem Group.setVAt_slot0 (g : Group) (n l : Nat) (x : W32) : (g.setVAt n l x).slot0 = g.slot0 := rfl
@[simp] theorem Group.setVAt_slot1 (g : Group) (n l : Nat) (x : W32) : (g.setVAt n l x).slot1 = g.slot1 := rfl
@[simp] theorem Group.setVAt_eddy (g : Group) (n l : Nat) (x : W32) : (g.setVAt n l x).eddy = g.eddy := rfl
@[simp] theorem Group.setVAt_lineage (g : Group) (n l : Nat) (x : W32) : (g.setVAt n l x).lineage = g.lineage := rfl
@[simp] theorem Group.setVAt_parent (g : Group) (n l : Nat) (x : W32) : (g.setVAt n l x).parent = g.parent := rfl
@[simp] theorem Group.setVAt_pslot (g : Group) (n l : Nat) (x : W32) : (g.setVAt n l x).pslot = g.pslot := rfl
@[simp] theorem Group.setVAt_tlane (g : Group) (n l : Nat) (x : W32) : (g.setVAt n l x).tlane = g.tlane := rfl
@[simp] theorem Group.setVAt_flight (g : Group) (n l : Nat) (x : W32) : (g.setVAt n l x).flight = g.flight := rfl
@[simp] theorem Group.setVAt_cntCopy (g : Group) (n l : Nat) (x : W32) : (g.setVAt n l x).cntCopy = g.cntCopy := rfl
@[simp] theorem Group.setVAt_cntMx (g : Group) (n l : Nat) (x : W32) : (g.setVAt n l x).cntMx = g.cntMx := rfl
@[simp] theorem Group.setVAt_cntStream (g : Group) (n l : Nat) (x : W32) : (g.setVAt n l x).cntStream = g.cntStream := rfl
@[simp] theorem Group.setVAt_cntColl (g : Group) (n l : Nat) (x : W32) : (g.setVAt n l x).cntColl = g.cntColl := rfl
@[simp] theorem Group.setVAt_seen (g : Group) (n l : Nat) (x : W32) : (g.setVAt n l x).seen = g.seen := rfl
@[simp] theorem Group.setVAt_latch (g : Group) (n l : Nat) (x : W32) : (g.setVAt n l x).latch = g.latch := rfl
@[simp] theorem Group.setVAt_tiles (g : Group) (n l : Nat) (x : W32) : (g.setVAt n l x).tiles = g.tiles := rfl
@[simp] theorem Group.setVAt_mq (g : Group) (n l : Nat) (x : W32) : (g.setVAt n l x).mq = g.mq := rfl
@[simp] theorem Group.setVAt_streams (g : Group) (n l : Nat) (x : W32) : (g.setVAt n l x).streams = g.streams := rfl
@[simp] theorem Group.setVAt_interval (g : Group) (n l : Nat) (x : W32) : (g.setVAt n l x).interval = g.interval := rfl
@[simp] theorem Group.setVAt_retired (g : Group) (n l : Nat) (x : W32) : (g.setVAt n l x).retired = g.retired := rfl
@[simp] theorem Group.writeV_gid (g : Group) (ws : List (Nat × Nat × W32)) : (g.writeV ws).gid = g.gid := rfl
@[simp] theorem Group.writeV_grid (g : Group) (ws : List (Nat × Nat × W32)) : (g.writeV ws).grid = g.grid := rfl
@[simp] theorem Group.writeV_tid (g : Group) (ws : List (Nat × Nat × W32)) : (g.writeV ws).tid = g.tid := rfl
@[simp] theorem Group.writeV_idx (g : Group) (ws : List (Nat × Nat × W32)) : (g.writeV ws).idx = g.idx := rfl
@[simp] theorem Group.writeV_core (g : Group) (ws : List (Nat × Nat × W32)) : (g.writeV ws).core = g.core := rfl
@[simp] theorem Group.writeV_resident (g : Group) (ws : List (Nat × Nat × W32)) : (g.writeV ws).resident = g.resident := rfl
@[simp] theorem Group.writeV_launched (g : Group) (ws : List (Nat × Nat × W32)) : (g.writeV ws).launched = g.launched := rfl
@[simp] theorem Group.writeV_live (g : Group) (ws : List (Nat × Nat × W32)) : (g.writeV ws).live = g.live := rfl
@[simp] theorem Group.writeV_s (g : Group) (ws : List (Nat × Nat × W32)) : (g.writeV ws).s = g.s := rfl
@[simp] theorem Group.writeV_p (g : Group) (ws : List (Nat × Nat × W32)) : (g.writeV ws).p = g.p := rfl
@[simp] theorem Group.writeV_a (g : Group) (ws : List (Nat × Nat × W32)) : (g.writeV ws).a = g.a := rfl
@[simp] theorem Group.writeV_wbase (g : Group) (ws : List (Nat × Nat × W32)) : (g.writeV ws).wbase = g.wbase := rfl
@[simp] theorem Group.writeV_depth (g : Group) (ws : List (Nat × Nat × W32)) : (g.writeV ws).depth = g.depth := rfl
@[simp] theorem Group.writeV_slot0 (g : Group) (ws : List (Nat × Nat × W32)) : (g.writeV ws).slot0 = g.slot0 := rfl
@[simp] theorem Group.writeV_slot1 (g : Group) (ws : List (Nat × Nat × W32)) : (g.writeV ws).slot1 = g.slot1 := rfl
@[simp] theorem Group.writeV_eddy (g : Group) (ws : List (Nat × Nat × W32)) : (g.writeV ws).eddy = g.eddy := rfl
@[simp] theorem Group.writeV_lineage (g : Group) (ws : List (Nat × Nat × W32)) : (g.writeV ws).lineage = g.lineage := rfl
@[simp] theorem Group.writeV_parent (g : Group) (ws : List (Nat × Nat × W32)) : (g.writeV ws).parent = g.parent := rfl
@[simp] theorem Group.writeV_pslot (g : Group) (ws : List (Nat × Nat × W32)) : (g.writeV ws).pslot = g.pslot := rfl
@[simp] theorem Group.writeV_tlane (g : Group) (ws : List (Nat × Nat × W32)) : (g.writeV ws).tlane = g.tlane := rfl
@[simp] theorem Group.writeV_flight (g : Group) (ws : List (Nat × Nat × W32)) : (g.writeV ws).flight = g.flight := rfl
@[simp] theorem Group.writeV_cntCopy (g : Group) (ws : List (Nat × Nat × W32)) : (g.writeV ws).cntCopy = g.cntCopy := rfl
@[simp] theorem Group.writeV_cntMx (g : Group) (ws : List (Nat × Nat × W32)) : (g.writeV ws).cntMx = g.cntMx := rfl
@[simp] theorem Group.writeV_cntStream (g : Group) (ws : List (Nat × Nat × W32)) : (g.writeV ws).cntStream = g.cntStream := rfl
@[simp] theorem Group.writeV_cntColl (g : Group) (ws : List (Nat × Nat × W32)) : (g.writeV ws).cntColl = g.cntColl := rfl
@[simp] theorem Group.writeV_seen (g : Group) (ws : List (Nat × Nat × W32)) : (g.writeV ws).seen = g.seen := rfl
@[simp] theorem Group.writeV_latch (g : Group) (ws : List (Nat × Nat × W32)) : (g.writeV ws).latch = g.latch := rfl
@[simp] theorem Group.writeV_tiles (g : Group) (ws : List (Nat × Nat × W32)) : (g.writeV ws).tiles = g.tiles := rfl
@[simp] theorem Group.writeV_mq (g : Group) (ws : List (Nat × Nat × W32)) : (g.writeV ws).mq = g.mq := rfl
@[simp] theorem Group.writeV_streams (g : Group) (ws : List (Nat × Nat × W32)) : (g.writeV ws).streams = g.streams := rfl
@[simp] theorem Group.writeV_interval (g : Group) (ws : List (Nat × Nat × W32)) : (g.writeV ws).interval = g.interval := rfl
@[simp] theorem Group.writeV_retired (g : Group) (ws : List (Nat × Nat × W32)) : (g.writeV ws).retired = g.retired := rfl
@[simp] theorem Group.orFlags_gid (g : Group) (f : W8) : (g.orFlags f).gid = g.gid := rfl
@[simp] theorem Group.orFlags_grid (g : Group) (f : W8) : (g.orFlags f).grid = g.grid := rfl
@[simp] theorem Group.orFlags_tid (g : Group) (f : W8) : (g.orFlags f).tid = g.tid := rfl
@[simp] theorem Group.orFlags_idx (g : Group) (f : W8) : (g.orFlags f).idx = g.idx := rfl
@[simp] theorem Group.orFlags_core (g : Group) (f : W8) : (g.orFlags f).core = g.core := rfl
@[simp] theorem Group.orFlags_resident (g : Group) (f : W8) : (g.orFlags f).resident = g.resident := rfl
@[simp] theorem Group.orFlags_launched (g : Group) (f : W8) : (g.orFlags f).launched = g.launched := rfl
@[simp] theorem Group.orFlags_live (g : Group) (f : W8) : (g.orFlags f).live = g.live := rfl
@[simp] theorem Group.orFlags_v (g : Group) (f : W8) : (g.orFlags f).v = g.v := rfl
@[simp] theorem Group.orFlags_p (g : Group) (f : W8) : (g.orFlags f).p = g.p := rfl
@[simp] theorem Group.orFlags_a (g : Group) (f : W8) : (g.orFlags f).a = g.a := rfl
@[simp] theorem Group.orFlags_wbase (g : Group) (f : W8) : (g.orFlags f).wbase = g.wbase := rfl
@[simp] theorem Group.orFlags_depth (g : Group) (f : W8) : (g.orFlags f).depth = g.depth := rfl
@[simp] theorem Group.orFlags_slot0 (g : Group) (f : W8) : (g.orFlags f).slot0 = g.slot0 := rfl
@[simp] theorem Group.orFlags_slot1 (g : Group) (f : W8) : (g.orFlags f).slot1 = g.slot1 := rfl
@[simp] theorem Group.orFlags_eddy (g : Group) (f : W8) : (g.orFlags f).eddy = g.eddy := rfl
@[simp] theorem Group.orFlags_lineage (g : Group) (f : W8) : (g.orFlags f).lineage = g.lineage := rfl
@[simp] theorem Group.orFlags_parent (g : Group) (f : W8) : (g.orFlags f).parent = g.parent := rfl
@[simp] theorem Group.orFlags_pslot (g : Group) (f : W8) : (g.orFlags f).pslot = g.pslot := rfl
@[simp] theorem Group.orFlags_tlane (g : Group) (f : W8) : (g.orFlags f).tlane = g.tlane := rfl
@[simp] theorem Group.orFlags_flight (g : Group) (f : W8) : (g.orFlags f).flight = g.flight := rfl
@[simp] theorem Group.orFlags_cntCopy (g : Group) (f : W8) : (g.orFlags f).cntCopy = g.cntCopy := rfl
@[simp] theorem Group.orFlags_cntMx (g : Group) (f : W8) : (g.orFlags f).cntMx = g.cntMx := rfl
@[simp] theorem Group.orFlags_cntStream (g : Group) (f : W8) : (g.orFlags f).cntStream = g.cntStream := rfl
@[simp] theorem Group.orFlags_cntColl (g : Group) (f : W8) : (g.orFlags f).cntColl = g.cntColl := rfl
@[simp] theorem Group.orFlags_seen (g : Group) (f : W8) : (g.orFlags f).seen = g.seen := rfl
@[simp] theorem Group.orFlags_latch (g : Group) (f : W8) : (g.orFlags f).latch = g.latch := rfl
@[simp] theorem Group.orFlags_tiles (g : Group) (f : W8) : (g.orFlags f).tiles = g.tiles := rfl
@[simp] theorem Group.orFlags_mq (g : Group) (f : W8) : (g.orFlags f).mq = g.mq := rfl
@[simp] theorem Group.orFlags_streams (g : Group) (f : W8) : (g.orFlags f).streams = g.streams := rfl
@[simp] theorem Group.orFlags_interval (g : Group) (f : W8) : (g.orFlags f).interval = g.interval := rfl
@[simp] theorem Group.orFlags_retired (g : Group) (f : W8) : (g.orFlags f).retired = g.retired := rfl
@[simp] theorem Group.setP_gid (g : Group) (i : Nat) (m : LaneMask) : (g.setP i m).gid = g.gid := rfl
@[simp] theorem Group.setP_grid (g : Group) (i : Nat) (m : LaneMask) : (g.setP i m).grid = g.grid := rfl
@[simp] theorem Group.setP_tid (g : Group) (i : Nat) (m : LaneMask) : (g.setP i m).tid = g.tid := rfl
@[simp] theorem Group.setP_idx (g : Group) (i : Nat) (m : LaneMask) : (g.setP i m).idx = g.idx := rfl
@[simp] theorem Group.setP_core (g : Group) (i : Nat) (m : LaneMask) : (g.setP i m).core = g.core := rfl
@[simp] theorem Group.setP_resident (g : Group) (i : Nat) (m : LaneMask) : (g.setP i m).resident = g.resident := rfl
@[simp] theorem Group.setP_launched (g : Group) (i : Nat) (m : LaneMask) : (g.setP i m).launched = g.launched := rfl
@[simp] theorem Group.setP_live (g : Group) (i : Nat) (m : LaneMask) : (g.setP i m).live = g.live := rfl
@[simp] theorem Group.setP_v (g : Group) (i : Nat) (m : LaneMask) : (g.setP i m).v = g.v := rfl
@[simp] theorem Group.setP_s (g : Group) (i : Nat) (m : LaneMask) : (g.setP i m).s = g.s := rfl
@[simp] theorem Group.setP_a (g : Group) (i : Nat) (m : LaneMask) : (g.setP i m).a = g.a := rfl
@[simp] theorem Group.setP_wbase (g : Group) (i : Nat) (m : LaneMask) : (g.setP i m).wbase = g.wbase := rfl
@[simp] theorem Group.setP_depth (g : Group) (i : Nat) (m : LaneMask) : (g.setP i m).depth = g.depth := rfl
@[simp] theorem Group.setP_slot0 (g : Group) (i : Nat) (m : LaneMask) : (g.setP i m).slot0 = g.slot0 := rfl
@[simp] theorem Group.setP_slot1 (g : Group) (i : Nat) (m : LaneMask) : (g.setP i m).slot1 = g.slot1 := rfl
@[simp] theorem Group.setP_eddy (g : Group) (i : Nat) (m : LaneMask) : (g.setP i m).eddy = g.eddy := rfl
@[simp] theorem Group.setP_lineage (g : Group) (i : Nat) (m : LaneMask) : (g.setP i m).lineage = g.lineage := rfl
@[simp] theorem Group.setP_parent (g : Group) (i : Nat) (m : LaneMask) : (g.setP i m).parent = g.parent := rfl
@[simp] theorem Group.setP_pslot (g : Group) (i : Nat) (m : LaneMask) : (g.setP i m).pslot = g.pslot := rfl
@[simp] theorem Group.setP_tlane (g : Group) (i : Nat) (m : LaneMask) : (g.setP i m).tlane = g.tlane := rfl
@[simp] theorem Group.setP_flight (g : Group) (i : Nat) (m : LaneMask) : (g.setP i m).flight = g.flight := rfl
@[simp] theorem Group.setP_cntCopy (g : Group) (i : Nat) (m : LaneMask) : (g.setP i m).cntCopy = g.cntCopy := rfl
@[simp] theorem Group.setP_cntMx (g : Group) (i : Nat) (m : LaneMask) : (g.setP i m).cntMx = g.cntMx := rfl
@[simp] theorem Group.setP_cntStream (g : Group) (i : Nat) (m : LaneMask) : (g.setP i m).cntStream = g.cntStream := rfl
@[simp] theorem Group.setP_cntColl (g : Group) (i : Nat) (m : LaneMask) : (g.setP i m).cntColl = g.cntColl := rfl
@[simp] theorem Group.setP_seen (g : Group) (i : Nat) (m : LaneMask) : (g.setP i m).seen = g.seen := rfl
@[simp] theorem Group.setP_latch (g : Group) (i : Nat) (m : LaneMask) : (g.setP i m).latch = g.latch := rfl
@[simp] theorem Group.setP_tiles (g : Group) (i : Nat) (m : LaneMask) : (g.setP i m).tiles = g.tiles := rfl
@[simp] theorem Group.setP_mq (g : Group) (i : Nat) (m : LaneMask) : (g.setP i m).mq = g.mq := rfl
@[simp] theorem Group.setP_streams (g : Group) (i : Nat) (m : LaneMask) : (g.setP i m).streams = g.streams := rfl
@[simp] theorem Group.setP_interval (g : Group) (i : Nat) (m : LaneMask) : (g.setP i m).interval = g.interval := rfl
@[simp] theorem Group.setP_retired (g : Group) (i : Nat) (m : LaneMask) : (g.setP i m).retired = g.retired := rfl
@[simp] theorem Group.setPIn_gid (g : Group) (i : Nat) (sel bits : LaneMask) : (g.setPIn i sel bits).gid = g.gid := rfl
@[simp] theorem Group.setPIn_grid (g : Group) (i : Nat) (sel bits : LaneMask) : (g.setPIn i sel bits).grid = g.grid := rfl
@[simp] theorem Group.setPIn_tid (g : Group) (i : Nat) (sel bits : LaneMask) : (g.setPIn i sel bits).tid = g.tid := rfl
@[simp] theorem Group.setPIn_idx (g : Group) (i : Nat) (sel bits : LaneMask) : (g.setPIn i sel bits).idx = g.idx := rfl
@[simp] theorem Group.setPIn_core (g : Group) (i : Nat) (sel bits : LaneMask) : (g.setPIn i sel bits).core = g.core := rfl
@[simp] theorem Group.setPIn_resident (g : Group) (i : Nat) (sel bits : LaneMask) : (g.setPIn i sel bits).resident = g.resident := rfl
@[simp] theorem Group.setPIn_launched (g : Group) (i : Nat) (sel bits : LaneMask) : (g.setPIn i sel bits).launched = g.launched := rfl
@[simp] theorem Group.setPIn_live (g : Group) (i : Nat) (sel bits : LaneMask) : (g.setPIn i sel bits).live = g.live := rfl
@[simp] theorem Group.setPIn_v (g : Group) (i : Nat) (sel bits : LaneMask) : (g.setPIn i sel bits).v = g.v := rfl
@[simp] theorem Group.setPIn_s (g : Group) (i : Nat) (sel bits : LaneMask) : (g.setPIn i sel bits).s = g.s := rfl
@[simp] theorem Group.setPIn_a (g : Group) (i : Nat) (sel bits : LaneMask) : (g.setPIn i sel bits).a = g.a := rfl
@[simp] theorem Group.setPIn_wbase (g : Group) (i : Nat) (sel bits : LaneMask) : (g.setPIn i sel bits).wbase = g.wbase := rfl
@[simp] theorem Group.setPIn_depth (g : Group) (i : Nat) (sel bits : LaneMask) : (g.setPIn i sel bits).depth = g.depth := rfl
@[simp] theorem Group.setPIn_slot0 (g : Group) (i : Nat) (sel bits : LaneMask) : (g.setPIn i sel bits).slot0 = g.slot0 := rfl
@[simp] theorem Group.setPIn_slot1 (g : Group) (i : Nat) (sel bits : LaneMask) : (g.setPIn i sel bits).slot1 = g.slot1 := rfl
@[simp] theorem Group.setPIn_eddy (g : Group) (i : Nat) (sel bits : LaneMask) : (g.setPIn i sel bits).eddy = g.eddy := rfl
@[simp] theorem Group.setPIn_lineage (g : Group) (i : Nat) (sel bits : LaneMask) : (g.setPIn i sel bits).lineage = g.lineage := rfl
@[simp] theorem Group.setPIn_parent (g : Group) (i : Nat) (sel bits : LaneMask) : (g.setPIn i sel bits).parent = g.parent := rfl
@[simp] theorem Group.setPIn_pslot (g : Group) (i : Nat) (sel bits : LaneMask) : (g.setPIn i sel bits).pslot = g.pslot := rfl
@[simp] theorem Group.setPIn_tlane (g : Group) (i : Nat) (sel bits : LaneMask) : (g.setPIn i sel bits).tlane = g.tlane := rfl
@[simp] theorem Group.setPIn_flight (g : Group) (i : Nat) (sel bits : LaneMask) : (g.setPIn i sel bits).flight = g.flight := rfl
@[simp] theorem Group.setPIn_cntCopy (g : Group) (i : Nat) (sel bits : LaneMask) : (g.setPIn i sel bits).cntCopy = g.cntCopy := rfl
@[simp] theorem Group.setPIn_cntMx (g : Group) (i : Nat) (sel bits : LaneMask) : (g.setPIn i sel bits).cntMx = g.cntMx := rfl
@[simp] theorem Group.setPIn_cntStream (g : Group) (i : Nat) (sel bits : LaneMask) : (g.setPIn i sel bits).cntStream = g.cntStream := rfl
@[simp] theorem Group.setPIn_cntColl (g : Group) (i : Nat) (sel bits : LaneMask) : (g.setPIn i sel bits).cntColl = g.cntColl := rfl
@[simp] theorem Group.setPIn_seen (g : Group) (i : Nat) (sel bits : LaneMask) : (g.setPIn i sel bits).seen = g.seen := rfl
@[simp] theorem Group.setPIn_latch (g : Group) (i : Nat) (sel bits : LaneMask) : (g.setPIn i sel bits).latch = g.latch := rfl
@[simp] theorem Group.setPIn_tiles (g : Group) (i : Nat) (sel bits : LaneMask) : (g.setPIn i sel bits).tiles = g.tiles := rfl
@[simp] theorem Group.setPIn_mq (g : Group) (i : Nat) (sel bits : LaneMask) : (g.setPIn i sel bits).mq = g.mq := rfl
@[simp] theorem Group.setPIn_streams (g : Group) (i : Nat) (sel bits : LaneMask) : (g.setPIn i sel bits).streams = g.streams := rfl
@[simp] theorem Group.setPIn_interval (g : Group) (i : Nat) (sel bits : LaneMask) : (g.setPIn i sel bits).interval = g.interval := rfl
@[simp] theorem Group.setPIn_retired (g : Group) (i : Nat) (sel bits : LaneMask) : (g.setPIn i sel bits).retired = g.retired := rfl
@[simp] theorem Group.setA_gid (g : Group) (i : BitVec 5) (x : W128) : (g.setA i x).gid = g.gid := rfl
@[simp] theorem Group.setA_grid (g : Group) (i : BitVec 5) (x : W128) : (g.setA i x).grid = g.grid := rfl
@[simp] theorem Group.setA_tid (g : Group) (i : BitVec 5) (x : W128) : (g.setA i x).tid = g.tid := rfl
@[simp] theorem Group.setA_idx (g : Group) (i : BitVec 5) (x : W128) : (g.setA i x).idx = g.idx := rfl
@[simp] theorem Group.setA_core (g : Group) (i : BitVec 5) (x : W128) : (g.setA i x).core = g.core := rfl
@[simp] theorem Group.setA_resident (g : Group) (i : BitVec 5) (x : W128) : (g.setA i x).resident = g.resident := rfl
@[simp] theorem Group.setA_launched (g : Group) (i : BitVec 5) (x : W128) : (g.setA i x).launched = g.launched := rfl
@[simp] theorem Group.setA_live (g : Group) (i : BitVec 5) (x : W128) : (g.setA i x).live = g.live := rfl
@[simp] theorem Group.setA_v (g : Group) (i : BitVec 5) (x : W128) : (g.setA i x).v = g.v := rfl
@[simp] theorem Group.setA_s (g : Group) (i : BitVec 5) (x : W128) : (g.setA i x).s = g.s := rfl
@[simp] theorem Group.setA_p (g : Group) (i : BitVec 5) (x : W128) : (g.setA i x).p = g.p := rfl
@[simp] theorem Group.setA_wbase (g : Group) (i : BitVec 5) (x : W128) : (g.setA i x).wbase = g.wbase := rfl
@[simp] theorem Group.setA_depth (g : Group) (i : BitVec 5) (x : W128) : (g.setA i x).depth = g.depth := rfl
@[simp] theorem Group.setA_slot0 (g : Group) (i : BitVec 5) (x : W128) : (g.setA i x).slot0 = g.slot0 := rfl
@[simp] theorem Group.setA_slot1 (g : Group) (i : BitVec 5) (x : W128) : (g.setA i x).slot1 = g.slot1 := rfl
@[simp] theorem Group.setA_eddy (g : Group) (i : BitVec 5) (x : W128) : (g.setA i x).eddy = g.eddy := rfl
@[simp] theorem Group.setA_lineage (g : Group) (i : BitVec 5) (x : W128) : (g.setA i x).lineage = g.lineage := rfl
@[simp] theorem Group.setA_parent (g : Group) (i : BitVec 5) (x : W128) : (g.setA i x).parent = g.parent := rfl
@[simp] theorem Group.setA_pslot (g : Group) (i : BitVec 5) (x : W128) : (g.setA i x).pslot = g.pslot := rfl
@[simp] theorem Group.setA_tlane (g : Group) (i : BitVec 5) (x : W128) : (g.setA i x).tlane = g.tlane := rfl
@[simp] theorem Group.setA_flight (g : Group) (i : BitVec 5) (x : W128) : (g.setA i x).flight = g.flight := rfl
@[simp] theorem Group.setA_cntCopy (g : Group) (i : BitVec 5) (x : W128) : (g.setA i x).cntCopy = g.cntCopy := rfl
@[simp] theorem Group.setA_cntMx (g : Group) (i : BitVec 5) (x : W128) : (g.setA i x).cntMx = g.cntMx := rfl
@[simp] theorem Group.setA_cntStream (g : Group) (i : BitVec 5) (x : W128) : (g.setA i x).cntStream = g.cntStream := rfl
@[simp] theorem Group.setA_cntColl (g : Group) (i : BitVec 5) (x : W128) : (g.setA i x).cntColl = g.cntColl := rfl
@[simp] theorem Group.setA_seen (g : Group) (i : BitVec 5) (x : W128) : (g.setA i x).seen = g.seen := rfl
@[simp] theorem Group.setA_latch (g : Group) (i : BitVec 5) (x : W128) : (g.setA i x).latch = g.latch := rfl
@[simp] theorem Group.setA_tiles (g : Group) (i : BitVec 5) (x : W128) : (g.setA i x).tiles = g.tiles := rfl
@[simp] theorem Group.setA_mq (g : Group) (i : BitVec 5) (x : W128) : (g.setA i x).mq = g.mq := rfl
@[simp] theorem Group.setA_streams (g : Group) (i : BitVec 5) (x : W128) : (g.setA i x).streams = g.streams := rfl
@[simp] theorem Group.setA_interval (g : Group) (i : BitVec 5) (x : W128) : (g.setA i x).interval = g.interval := rfl
@[simp] theorem Group.setA_retired (g : Group) (i : BitVec 5) (x : W128) : (g.setA i x).retired = g.retired := rfl
@[simp] theorem Group.putFlight_gid (g : Group) (f : Flight) : (g.putFlight f).gid = g.gid := rfl
@[simp] theorem Group.putFlight_grid (g : Group) (f : Flight) : (g.putFlight f).grid = g.grid := rfl
@[simp] theorem Group.putFlight_tid (g : Group) (f : Flight) : (g.putFlight f).tid = g.tid := rfl
@[simp] theorem Group.putFlight_idx (g : Group) (f : Flight) : (g.putFlight f).idx = g.idx := rfl
@[simp] theorem Group.putFlight_core (g : Group) (f : Flight) : (g.putFlight f).core = g.core := rfl
@[simp] theorem Group.putFlight_resident (g : Group) (f : Flight) : (g.putFlight f).resident = g.resident := rfl
@[simp] theorem Group.putFlight_launched (g : Group) (f : Flight) : (g.putFlight f).launched = g.launched := rfl
@[simp] theorem Group.putFlight_live (g : Group) (f : Flight) : (g.putFlight f).live = g.live := rfl
@[simp] theorem Group.putFlight_v (g : Group) (f : Flight) : (g.putFlight f).v = g.v := rfl
@[simp] theorem Group.putFlight_s (g : Group) (f : Flight) : (g.putFlight f).s = g.s := rfl
@[simp] theorem Group.putFlight_p (g : Group) (f : Flight) : (g.putFlight f).p = g.p := rfl
@[simp] theorem Group.putFlight_a (g : Group) (f : Flight) : (g.putFlight f).a = g.a := rfl
@[simp] theorem Group.putFlight_wbase (g : Group) (f : Flight) : (g.putFlight f).wbase = g.wbase := rfl
@[simp] theorem Group.putFlight_depth (g : Group) (f : Flight) : (g.putFlight f).depth = g.depth := rfl
@[simp] theorem Group.putFlight_slot0 (g : Group) (f : Flight) : (g.putFlight f).slot0 = g.slot0 := rfl
@[simp] theorem Group.putFlight_slot1 (g : Group) (f : Flight) : (g.putFlight f).slot1 = g.slot1 := rfl
@[simp] theorem Group.putFlight_eddy (g : Group) (f : Flight) : (g.putFlight f).eddy = g.eddy := rfl
@[simp] theorem Group.putFlight_lineage (g : Group) (f : Flight) : (g.putFlight f).lineage = g.lineage := rfl
@[simp] theorem Group.putFlight_parent (g : Group) (f : Flight) : (g.putFlight f).parent = g.parent := rfl
@[simp] theorem Group.putFlight_pslot (g : Group) (f : Flight) : (g.putFlight f).pslot = g.pslot := rfl
@[simp] theorem Group.putFlight_tlane (g : Group) (f : Flight) : (g.putFlight f).tlane = g.tlane := rfl
@[simp] theorem Group.putFlight_cntCopy (g : Group) (f : Flight) : (g.putFlight f).cntCopy = g.cntCopy := rfl
@[simp] theorem Group.putFlight_cntMx (g : Group) (f : Flight) : (g.putFlight f).cntMx = g.cntMx := rfl
@[simp] theorem Group.putFlight_cntStream (g : Group) (f : Flight) : (g.putFlight f).cntStream = g.cntStream := rfl
@[simp] theorem Group.putFlight_cntColl (g : Group) (f : Flight) : (g.putFlight f).cntColl = g.cntColl := rfl
@[simp] theorem Group.putFlight_seen (g : Group) (f : Flight) : (g.putFlight f).seen = g.seen := rfl
@[simp] theorem Group.putFlight_latch (g : Group) (f : Flight) : (g.putFlight f).latch = g.latch := rfl
@[simp] theorem Group.putFlight_tiles (g : Group) (f : Flight) : (g.putFlight f).tiles = g.tiles := rfl
@[simp] theorem Group.putFlight_mq (g : Group) (f : Flight) : (g.putFlight f).mq = g.mq := rfl
@[simp] theorem Group.putFlight_streams (g : Group) (f : Flight) : (g.putFlight f).streams = g.streams := rfl
@[simp] theorem Group.putFlight_interval (g : Group) (f : Flight) : (g.putFlight f).interval = g.interval := rfl
@[simp] theorem Group.putFlight_retired (g : Group) (f : Flight) : (g.putFlight f).retired = g.retired := rfl
@[simp] theorem Group.dropFlight_gid (g : Group) (n : Nat) : (g.dropFlight n).gid = g.gid := rfl
@[simp] theorem Group.dropFlight_grid (g : Group) (n : Nat) : (g.dropFlight n).grid = g.grid := rfl
@[simp] theorem Group.dropFlight_tid (g : Group) (n : Nat) : (g.dropFlight n).tid = g.tid := rfl
@[simp] theorem Group.dropFlight_idx (g : Group) (n : Nat) : (g.dropFlight n).idx = g.idx := rfl
@[simp] theorem Group.dropFlight_core (g : Group) (n : Nat) : (g.dropFlight n).core = g.core := rfl
@[simp] theorem Group.dropFlight_resident (g : Group) (n : Nat) : (g.dropFlight n).resident = g.resident := rfl
@[simp] theorem Group.dropFlight_launched (g : Group) (n : Nat) : (g.dropFlight n).launched = g.launched := rfl
@[simp] theorem Group.dropFlight_live (g : Group) (n : Nat) : (g.dropFlight n).live = g.live := rfl
@[simp] theorem Group.dropFlight_v (g : Group) (n : Nat) : (g.dropFlight n).v = g.v := rfl
@[simp] theorem Group.dropFlight_s (g : Group) (n : Nat) : (g.dropFlight n).s = g.s := rfl
@[simp] theorem Group.dropFlight_p (g : Group) (n : Nat) : (g.dropFlight n).p = g.p := rfl
@[simp] theorem Group.dropFlight_a (g : Group) (n : Nat) : (g.dropFlight n).a = g.a := rfl
@[simp] theorem Group.dropFlight_wbase (g : Group) (n : Nat) : (g.dropFlight n).wbase = g.wbase := rfl
@[simp] theorem Group.dropFlight_depth (g : Group) (n : Nat) : (g.dropFlight n).depth = g.depth := rfl
@[simp] theorem Group.dropFlight_slot0 (g : Group) (n : Nat) : (g.dropFlight n).slot0 = g.slot0 := rfl
@[simp] theorem Group.dropFlight_slot1 (g : Group) (n : Nat) : (g.dropFlight n).slot1 = g.slot1 := rfl
@[simp] theorem Group.dropFlight_eddy (g : Group) (n : Nat) : (g.dropFlight n).eddy = g.eddy := rfl
@[simp] theorem Group.dropFlight_lineage (g : Group) (n : Nat) : (g.dropFlight n).lineage = g.lineage := rfl
@[simp] theorem Group.dropFlight_parent (g : Group) (n : Nat) : (g.dropFlight n).parent = g.parent := rfl
@[simp] theorem Group.dropFlight_pslot (g : Group) (n : Nat) : (g.dropFlight n).pslot = g.pslot := rfl
@[simp] theorem Group.dropFlight_tlane (g : Group) (n : Nat) : (g.dropFlight n).tlane = g.tlane := rfl
@[simp] theorem Group.dropFlight_cntCopy (g : Group) (n : Nat) : (g.dropFlight n).cntCopy = g.cntCopy := rfl
@[simp] theorem Group.dropFlight_cntMx (g : Group) (n : Nat) : (g.dropFlight n).cntMx = g.cntMx := rfl
@[simp] theorem Group.dropFlight_cntStream (g : Group) (n : Nat) : (g.dropFlight n).cntStream = g.cntStream := rfl
@[simp] theorem Group.dropFlight_cntColl (g : Group) (n : Nat) : (g.dropFlight n).cntColl = g.cntColl := rfl
@[simp] theorem Group.dropFlight_seen (g : Group) (n : Nat) : (g.dropFlight n).seen = g.seen := rfl
@[simp] theorem Group.dropFlight_latch (g : Group) (n : Nat) : (g.dropFlight n).latch = g.latch := rfl
@[simp] theorem Group.dropFlight_tiles (g : Group) (n : Nat) : (g.dropFlight n).tiles = g.tiles := rfl
@[simp] theorem Group.dropFlight_mq (g : Group) (n : Nat) : (g.dropFlight n).mq = g.mq := rfl
@[simp] theorem Group.dropFlight_streams (g : Group) (n : Nat) : (g.dropFlight n).streams = g.streams := rfl
@[simp] theorem Group.dropFlight_interval (g : Group) (n : Nat) : (g.dropFlight n).interval = g.interval := rfl
@[simp] theorem Group.dropFlight_retired (g : Group) (n : Nat) : (g.dropFlight n).retired = g.retired := rfl
@[simp] theorem Group.released_gid (g : Group)  : (g.released ).gid = g.gid := rfl
@[simp] theorem Group.released_grid (g : Group)  : (g.released ).grid = g.grid := rfl
@[simp] theorem Group.released_tid (g : Group)  : (g.released ).tid = g.tid := rfl
@[simp] theorem Group.released_idx (g : Group)  : (g.released ).idx = g.idx := rfl
@[simp] theorem Group.released_core (g : Group)  : (g.released ).core = g.core := rfl
@[simp] theorem Group.released_resident (g : Group)  : (g.released ).resident = g.resident := rfl
@[simp] theorem Group.released_launched (g : Group)  : (g.released ).launched = g.launched := rfl
@[simp] theorem Group.released_live (g : Group)  : (g.released ).live = g.live := rfl
@[simp] theorem Group.released_v (g : Group)  : (g.released ).v = g.v := rfl
@[simp] theorem Group.released_s (g : Group)  : (g.released ).s = g.s := rfl
@[simp] theorem Group.released_p (g : Group)  : (g.released ).p = g.p := rfl
@[simp] theorem Group.released_a (g : Group)  : (g.released ).a = g.a := rfl
@[simp] theorem Group.released_wbase (g : Group)  : (g.released ).wbase = g.wbase := rfl
@[simp] theorem Group.released_depth (g : Group)  : (g.released ).depth = g.depth := rfl
@[simp] theorem Group.released_slot0 (g : Group)  : (g.released ).slot0 = g.slot0 := rfl
@[simp] theorem Group.released_slot1 (g : Group)  : (g.released ).slot1 = g.slot1 := rfl
@[simp] theorem Group.released_eddy (g : Group)  : (g.released ).eddy = g.eddy := rfl
@[simp] theorem Group.released_lineage (g : Group)  : (g.released ).lineage = g.lineage := rfl
@[simp] theorem Group.released_parent (g : Group)  : (g.released ).parent = g.parent := rfl
@[simp] theorem Group.released_pslot (g : Group)  : (g.released ).pslot = g.pslot := rfl
@[simp] theorem Group.released_tlane (g : Group)  : (g.released ).tlane = g.tlane := rfl
@[simp] theorem Group.released_flight (g : Group)  : (g.released ).flight = g.flight := rfl
@[simp] theorem Group.released_cntCopy (g : Group)  : (g.released ).cntCopy = g.cntCopy := rfl
@[simp] theorem Group.released_cntMx (g : Group)  : (g.released ).cntMx = g.cntMx := rfl
@[simp] theorem Group.released_cntStream (g : Group)  : (g.released ).cntStream = g.cntStream := rfl
@[simp] theorem Group.released_cntColl (g : Group)  : (g.released ).cntColl = g.cntColl := rfl
@[simp] theorem Group.released_seen (g : Group)  : (g.released ).seen = g.seen := rfl
@[simp] theorem Group.released_latch (g : Group)  : (g.released ).latch = g.latch := rfl
@[simp] theorem Group.released_tiles (g : Group)  : (g.released ).tiles = g.tiles := rfl
@[simp] theorem Group.released_mq (g : Group)  : (g.released ).mq = g.mq := rfl
@[simp] theorem Group.released_streams (g : Group)  : (g.released ).streams = g.streams := rfl
@[simp] theorem Group.released_retired (g : Group)  : (g.released ).retired = g.retired := rfl
@[simp] theorem Group.claim_gid (g : Group) (k : Nat) (ws : List Reg) (old : List Nat) : (g.claim k ws old).gid = g.gid := rfl
@[simp] theorem Group.claim_grid (g : Group) (k : Nat) (ws : List Reg) (old : List Nat) : (g.claim k ws old).grid = g.grid := rfl
@[simp] theorem Group.claim_tid (g : Group) (k : Nat) (ws : List Reg) (old : List Nat) : (g.claim k ws old).tid = g.tid := rfl
@[simp] theorem Group.claim_idx (g : Group) (k : Nat) (ws : List Reg) (old : List Nat) : (g.claim k ws old).idx = g.idx := rfl
@[simp] theorem Group.claim_core (g : Group) (k : Nat) (ws : List Reg) (old : List Nat) : (g.claim k ws old).core = g.core := rfl
@[simp] theorem Group.claim_resident (g : Group) (k : Nat) (ws : List Reg) (old : List Nat) : (g.claim k ws old).resident = g.resident := rfl
@[simp] theorem Group.claim_launched (g : Group) (k : Nat) (ws : List Reg) (old : List Nat) : (g.claim k ws old).launched = g.launched := rfl
@[simp] theorem Group.claim_live (g : Group) (k : Nat) (ws : List Reg) (old : List Nat) : (g.claim k ws old).live = g.live := rfl
@[simp] theorem Group.claim_v (g : Group) (k : Nat) (ws : List Reg) (old : List Nat) : (g.claim k ws old).v = g.v := rfl
@[simp] theorem Group.claim_s (g : Group) (k : Nat) (ws : List Reg) (old : List Nat) : (g.claim k ws old).s = g.s := rfl
@[simp] theorem Group.claim_p (g : Group) (k : Nat) (ws : List Reg) (old : List Nat) : (g.claim k ws old).p = g.p := rfl
@[simp] theorem Group.claim_a (g : Group) (k : Nat) (ws : List Reg) (old : List Nat) : (g.claim k ws old).a = g.a := rfl
@[simp] theorem Group.claim_wbase (g : Group) (k : Nat) (ws : List Reg) (old : List Nat) : (g.claim k ws old).wbase = g.wbase := rfl
@[simp] theorem Group.claim_depth (g : Group) (k : Nat) (ws : List Reg) (old : List Nat) : (g.claim k ws old).depth = g.depth := rfl
@[simp] theorem Group.claim_slot0 (g : Group) (k : Nat) (ws : List Reg) (old : List Nat) : (g.claim k ws old).slot0 = g.slot0 := rfl
@[simp] theorem Group.claim_slot1 (g : Group) (k : Nat) (ws : List Reg) (old : List Nat) : (g.claim k ws old).slot1 = g.slot1 := rfl
@[simp] theorem Group.claim_eddy (g : Group) (k : Nat) (ws : List Reg) (old : List Nat) : (g.claim k ws old).eddy = g.eddy := rfl
@[simp] theorem Group.claim_lineage (g : Group) (k : Nat) (ws : List Reg) (old : List Nat) : (g.claim k ws old).lineage = g.lineage := rfl
@[simp] theorem Group.claim_parent (g : Group) (k : Nat) (ws : List Reg) (old : List Nat) : (g.claim k ws old).parent = g.parent := rfl
@[simp] theorem Group.claim_pslot (g : Group) (k : Nat) (ws : List Reg) (old : List Nat) : (g.claim k ws old).pslot = g.pslot := rfl
@[simp] theorem Group.claim_tlane (g : Group) (k : Nat) (ws : List Reg) (old : List Nat) : (g.claim k ws old).tlane = g.tlane := rfl
@[simp] theorem Group.claim_cntCopy (g : Group) (k : Nat) (ws : List Reg) (old : List Nat) : (g.claim k ws old).cntCopy = g.cntCopy := rfl
@[simp] theorem Group.claim_cntMx (g : Group) (k : Nat) (ws : List Reg) (old : List Nat) : (g.claim k ws old).cntMx = g.cntMx := rfl
@[simp] theorem Group.claim_cntStream (g : Group) (k : Nat) (ws : List Reg) (old : List Nat) : (g.claim k ws old).cntStream = g.cntStream := rfl
@[simp] theorem Group.claim_cntColl (g : Group) (k : Nat) (ws : List Reg) (old : List Nat) : (g.claim k ws old).cntColl = g.cntColl := rfl
@[simp] theorem Group.claim_seen (g : Group) (k : Nat) (ws : List Reg) (old : List Nat) : (g.claim k ws old).seen = g.seen := rfl
@[simp] theorem Group.claim_latch (g : Group) (k : Nat) (ws : List Reg) (old : List Nat) : (g.claim k ws old).latch = g.latch := rfl
@[simp] theorem Group.claim_tiles (g : Group) (k : Nat) (ws : List Reg) (old : List Nat) : (g.claim k ws old).tiles = g.tiles := rfl
@[simp] theorem Group.claim_mq (g : Group) (k : Nat) (ws : List Reg) (old : List Nat) : (g.claim k ws old).mq = g.mq := rfl
@[simp] theorem Group.claim_streams (g : Group) (k : Nat) (ws : List Reg) (old : List Nat) : (g.claim k ws old).streams = g.streams := rfl
@[simp] theorem Group.claim_interval (g : Group) (k : Nat) (ws : List Reg) (old : List Nat) : (g.claim k ws old).interval = g.interval := rfl
@[simp] theorem Group.claim_retired (g : Group) (k : Nat) (ws : List Reg) (old : List Nat) : (g.claim k ws old).retired = g.retired := rfl

theorem Group.setStrand_eq (g : Group) (k : Nat) (t : Option Strand) :
    g.setStrand k t = g.setSlot k { g.slot k with strand := t } := rfl
@[simp] theorem Group.slot_setSlot (g : Group) (k : Nat) (x : Slot) : (g.setSlot k x).slot k = x := by
  unfold Group.setSlot Group.slot; split <;> rfl
@[simp] theorem Group.setSlot_setSlot (g : Group) (k : Nat) (x y : Slot) : (g.setSlot k x).setSlot k y = g.setSlot k y := by
  unfold Group.setSlot; split <;> rfl

/-! ## Looking a group up -/

theorem find_map_same (gid : Nat) (f : Group → Group) (hf : ∀ h : Group, h.gid = gid → (f h).gid = gid) (gs : List Group) :
    (gs.map fun h => if h.gid = gid then f h else h).find? (fun h => h.gid == gid) =
      (gs.find? fun h => h.gid == gid).map f := by
  induction gs with
  | nil => rfl
  | cons x xs ih =>
    by_cases hx : x.gid = gid
    · simp [hx, hf x hx]
    · simp [hx, ih]

theorem find_map_other (gid j : Nat) (hj : j ≠ gid) (f : Group → Group) (hf : ∀ h : Group, h.gid = gid → (f h).gid = gid)
    (gs : List Group) :
    (gs.map fun h => if h.gid = gid then f h else h).find? (fun h => h.gid == j) = gs.find? fun h => h.gid == j := by
  induction gs with
  | nil => rfl
  | cons x xs ih =>
    by_cases hx : x.gid = gid
    · have h1 : (f x).gid ≠ j := by rw [hf x hx]; exact fun e => hj e.symm
      have h2 : x.gid ≠ j := by rw [hx]; exact fun e => hj e.symm
      simp [hx, h1, ih, hj.symm]
    · by_cases h2 : x.gid = j <;> simp [hx, h2, ih, hj]

/-- An update of a group that keeps its identity is seen by the lookup. -/
theorem State.group_updGroup (s : State) (gid : Nat) (f : Group → Group) (hf : ∀ h : Group, h.gid = gid → (f h).gid = gid) :
    (s.updGroup gid f).group? gid = (s.group? gid).map f := find_map_same gid f hf s.groups
/-- The other groups are found as they were. -/
theorem State.group_updGroup_other (s : State) (gid j : Nat) (hj : j ≠ gid) (f : Group → Group)
    (hf : ∀ h : Group, h.gid = gid → (f h).gid = gid) : (s.updGroup gid f).group? j = s.group? j :=
  find_map_other gid j hj f hf s.groups
theorem State.setGroup_eq (s : State) (g : Group) : s.setGroup g = s.updGroup g.gid fun _ => g := rfl
theorem State.group_setGroup (s : State) (g h : Group) (hh : s.group? g.gid = some h) :
    (s.setGroup g).group? g.gid = some g := by
  rw [State.setGroup_eq, State.group_updGroup _ _ _ (fun _ _ => rfl), hh]; rfl
theorem State.group_setGroup_other (s : State) (g : Group) (j : Nat) (hj : j ≠ g.gid) :
    (s.setGroup g).group? j = s.group? j := by
  rw [State.setGroup_eq, State.group_updGroup_other _ _ _ hj _ (fun _ _ => rfl)]
/-- A group that the lookup finds carries the identity that was looked for. -/
theorem State.group_gid (s : State) (gid : Nat) (g : Group) (h : s.group? gid = some g) : g.gid = gid := by
  have := List.find?_some h
  simpa using this

end Sys2Proof.Machine
end

