-- ==== Sys2Proof/Laws/Issue.lean ====
section
/-! SUPPORT. The frame of the instructions of programs: what `issue` answers for a strand that is ready, once for every answer of
the effect. -/

namespace Sys2Proof.Machine

/-- With no open window of the slot, closing windows does nothing. -/
theorem Group.closeWindows_quiet (g : Group) (k : Nat) (h : ∀ f ∈ g.flight, f.slot = k → f.window = 0) :
    g.closeWindows k = g := by
  have : g.flight.filter (fun f => f.slot == k && decide (0 < f.window)) = [] := by
    rw [List.filter_eq_nil_iff]
    intro f hf
    by_cases hk : f.slot = k
    · simp [hk, h f hf hk]
    · simp [hk]
  simp [Group.closeWindows, this]

/-- With no open window of the slot, no window ticks. -/
theorem Group.tick_quiet (g : Group) (k : Nat) (h : ∀ f ∈ g.flight, f.slot = k → f.window = 0) : g.tick k = g := by
  have : g.flight.filter (fun f => f.slot == k && decide (0 < f.window)) = [] := by
    rw [List.filter_eq_nil_iff]
    intro f hf
    by_cases hk : f.slot = k
    · simp [hk, h f hf hk]
    · simp [hk]
  simp [Group.tick, this]

/-- With no open window of the slot, an issue claims nothing of the results in flight. -/
theorem Group.claim_quiet (g : Group) (k : Nat) (ws : List Reg) (old : List Nat)
    (h : ∀ f ∈ g.flight, f.slot = k → f.window = 0) : g.claim k ws old = g := by
  have : g.flight.map (fun f => if f.slot = k ∧ 0 < f.window ∧ old.contains f.fid = true then
      { f with dests := f.dests.filter fun r => !ws.contains r } else f) = g.flight := by
    rw [List.map_congr_left (g := id)]
    · simp
    · intro f hf
      by_cases hk : f.slot = k
      · simp [h f hf hk]
      · simp [hk]
  unfold Group.claim
  rw [this]

/-- With no open window of the slot, a group advances by its slot alone. -/
theorem Group.advance_quiet (g : Group) (k : Nat) (pc : W64) (h : ∀ f ∈ g.flight, f.slot = k → f.window = 0) :
    g.advance k pc = g.stepTo k pc := by
  unfold Group.advance
  rw [Group.tick_quiet g k h]
  rfl

theorem Group.stepTo_gid (g : Group) (k : Nat) (pc : W64) : (g.stepTo k pc).gid = g.gid := by
  unfold Group.stepTo; simp

theorem Group.claim_gid' (g : Group) (k : Nat) (ws : List Reg) (old : List Nat) : (g.claim k ws old).gid = g.gid := rfl

theorem foldl_keeps_gid {α : Type} (f : Group → α → Group) (hf : ∀ g x, (f g x).gid = g.gid) (xs : List α) (g : Group) :
    (xs.foldl f g).gid = g.gid := by
  induction xs generalizing g with
  | nil => rfl
  | cons x xs ih => rw [List.foldl_cons, ih, hf]

@[simp] theorem Group.applyWrites_gid (g : Group) (k : Nat) (d : List Reg) (w : Writes) : (g.applyWrites k d w).gid = g.gid := by
  unfold Group.applyWrites
  have h : ∀ (g : Group) (ws : List (Nat × W32)), (g.writeS k ws).gid = g.gid := by
    intro g ws
    refine foldl_keeps_gid _ ?_ ws g
    intro g x
    unfold Group.setS
    split
    · split <;> simp [Group.setStrand]
    · split
      · rfl
      · split <;> rfl
  simp [h]

@[simp] theorem Group.setStream_gid (g : Group) (k : Nat) (t : Stream) : (g.setStream k t).gid = g.gid := rfl

@[simp] theorem Group.moveStreams_gid (g : Group) (f : Flight) : (g.moveStreams f).gid = g.gid := by
  unfold Group.moveStreams
  dsimp only
  split <;> rfl

@[simp] theorem Group.noted_gid (g : Group) (i : Instr) : (g.noted i).gid = g.gid := by
  unfold Group.noted Group.keepAcquired
  split <;> rfl

@[simp] theorem Flight.keep_slot (f : Flight) : f.keep.slot = f.slot := by unfold Flight.keep; split <;> rfl
@[simp] theorem Flight.keep_window (f : Flight) : f.keep.window = f.window := by unfold Flight.keep; split <;> rfl

/-- What stays of earlier reads opens no window. -/
theorem Group.noted_quiet (g : Group) (i : Instr) (k : Nat) (h : ∀ f ∈ g.flight, f.slot = k → f.window = 0) :
    ∀ f ∈ (g.noted i).flight, f.slot = k → f.window = 0 := by
  unfold Group.noted
  split
  · intro f hf
    obtain ⟨e, he, rfl⟩ := List.mem_map.mp hf
    split <;> simpa using h e he
  · exact h

/-- An instruction that performs nothing of its own at its issue leaves earlier reads as they are. -/
theorem Group.noted_other (g : Group) (i : Instr) (h : performsNow i = false) : g.noted i = g := by
  unfold Group.noted; rw [h]; rfl

@[simp] theorem Group.closeFlight_gid (g : Group) (f : Flight) : (g.closeFlight f).gid = g.gid := by
  unfold Group.closeFlight
  split
  · unfold Group.writeFlight; simp
  · show (if f.pend.partDone = Writes.none then g else g.applyWrites f.slot f.dests f.pend.partDone).gid = g.gid
    split <;> simp

@[simp] theorem Group.tick_gid (g : Group) (k : Nat) : (g.tick k).gid = g.gid := by
  refine foldl_keeps_gid _ ?_ _ g
  intro g x
  split <;> simp

@[simp] theorem Group.advance_gid (g : Group) (k : Nat) (pc : W64) : (g.advance k pc).gid = g.gid := by
  unfold Group.advance; simp

@[simp] theorem Group.settle_gid (g : Group) (k : Nat) : (g.settle k).gid = g.gid := by
  unfold Group.settle; simp

/-- Setting a group to what it already is changes nothing. -/
theorem State.setGroup_self (s : State) (g : Group) (h : ∀ x ∈ s.groups, x.gid = g.gid → x = g) : s.setGroup g = s := by
  have : s.groups.map (fun x => if x.gid = g.gid then g else x) = s.groups := by
    rw [List.map_congr_left (g := id)]
    · simp
    · intro x hx
      by_cases hk : x.gid = g.gid
      · simp [h x hx hk]
      · simp [hk]
  unfold State.setGroup
  rw [this]

/-- Of two updates of one group the later one counts. -/
theorem State.updGroup_setGroup (s : State) (g : Group) (f : Group → Group) :
    (s.setGroup g).updGroup g.gid f = s.updGroup g.gid fun _ => f g := by
  unfold State.setGroup State.updGroup
  simp only [List.map_map]
  congr 1
  refine List.map_congr_left fun x _ => ?_
  by_cases hk : x.gid = g.gid <;> simp [hk]

/-- The issue of a ready strand is the answer of its effect, in the frame. -/
theorem issue_ready {i : Instr} {s : State} {gid k : Nat} {g : Group} (hr : Ready s i gid k g)
    (body : Nat → Group → LaneMask → State → Res) :
    issue i s body = (body k g (g.picked k i) s).out gid k (g.after k i)
      fun h => (h.noted i).claim k (regsOf g i).2 (g.flight.map (·.fid)) := by
  obtain ⟨t, ht⟩ := Option.isSome_iff_exists.mp hr.strand
  have hg := s.group_gid gid g hr.present
  have hc : (if waitsForPending i = true then g.closeWindows k else g) = g := by
    split
    · exact g.closeWindows_quiet k hr.quiet
    · rfl
  have hs : s.setGroup g = s := s.setGroup_self g (by rw [hg]; exact hr.alone)
  have hpc : g.pc k = t.pc := by simp [Group.pc, Group.strand, ht]
  unfold issue
  simp only [hr.cur, hr.present, ht]
  simp only [hc, hr.free, hr.acts, hs, Group.picked, Group.after, hpc]
  simp

/-- An effect that ends in the group h and changes nothing else: the group moves on. -/
theorem issue_done {i : Instr} {s : State} {gid k : Nat} {g : Group} (hr : Ready s i gid k g)
    {body : Nat → Group → LaneMask → State → Res} {h : Group} (hid : h.gid = g.gid)
    (hq : ∀ x ∈ h.flight, x.slot = k → x.window = 0) (hb : body k g (g.picked k i) s = .done (s.setGroup h)) :
    issue i s body = .next (s.setGroup ((h.noted i).stepTo k (g.after k i))) := by
  have hg := s.group_gid gid g hr.present
  rw [issue_ready hr, hb]
  show Host.Outcome.next _ = _
  rw [← hg, ← hid, State.updGroup_setGroup]
  dsimp only
  rw [Group.claim_quiet _ _ _ _ (h.noted_quiet i k hq), Group.advance_quiet _ _ _ (h.noted_quiet i k hq)]
  congr 1
  rw [State.setGroup_eq, Group.stepTo_gid, Group.noted_gid]

/-- The same for an effect that goes to an address. -/
theorem issue_jump {i : Instr} {s : State} {gid k : Nat} {g : Group} (hr : Ready s i gid k g)
    {body : Nat → Group → LaneMask → State → Res} {h : Group} (pc : W64) (hid : h.gid = g.gid)
    (hq : ∀ x ∈ h.flight, x.slot = k → x.window = 0) (hb : body k g (g.picked k i) s = .jump (s.setGroup h) pc) :
    issue i s body = .next (s.setGroup ((h.noted i).stepTo k pc)) := by
  have hg := s.group_gid gid g hr.present
  rw [issue_ready hr, hb]
  show Host.Outcome.next _ = _
  rw [← hg, ← hid, State.updGroup_setGroup]
  dsimp only
  rw [Group.claim_quiet _ _ _ _ (h.noted_quiet i k hq), Group.advance_quiet _ _ _ (h.noted_quiet i k hq)]
  congr 1
  rw [State.setGroup_eq, Group.stepTo_gid, Group.noted_gid]

/-- An effect on the group alone: the group takes it and moves on. -/
theorem issue_onGroup {i : Instr} {s : State} {gid k : Nat} {g : Group} (hr : Ready s i gid k g)
    (f : Nat → LaneMask → Group → Group) (hid : (f k (g.picked k i) g).gid = g.gid)
    (hfl : (f k (g.picked k i) g).flight = g.flight) (hx : exec i s = issue i s (onGroup f)) :
    IssuesTo i s k (f k (g.picked k i) g) (g.after k i) :=
  hx.trans (issue_done hr hid (by rw [hfl]; exact hr.quiet) rfl)

/-- An entry of the slot with a window that closes or counts down at its own issue. -/
theorem Group.tick_new (g : Group) (k : Nat) (e : Flight) (hq : ∀ f ∈ g.flight, f.slot = k → f.window = 0)
    (hn : ∀ f ∈ g.flight, f.fid ≠ e.fid) (hs : e.slot = k) (hw : 0 < e.window) (hh : e.held = none)
    (hd : e.pend.partDone = Writes.none) (he : e.pend.dropDone = e.pend) :
    ({ g with flight := g.flight ++ [e] }).tick k = { g with flight := g.flight ++ [{ e with window := e.window - 1 }] } := by
  have hf : (g.flight ++ [e]).filter (fun f => f.slot == k && decide (0 < f.window)) = [e] := by
    rw [List.filter_append]
    have : g.flight.filter (fun f => f.slot == k && decide (0 < f.window)) = [] := by
      rw [List.filter_eq_nil_iff]
      intro f hf
      by_cases hk : f.slot = k
      · simp [hk, hq f hf hk]
      · simp [hk]
    simp [this, hs, hw]
  have hp : ∀ e' : Flight, e'.fid = e.fid → (g.flight ++ [e]).map (fun x => if x.fid = e'.fid then e' else x) = g.flight ++ [e'] := by
    intro e' he
    rw [List.map_append]
    congr 1
    · rw [List.map_congr_left (g := id)]
      · simp
      · intro x hx
        simp [he, hn x hx]
    · simp [he]
  unfold Group.tick
  simp only [hf, List.foldl_cons, List.foldl_nil]
  have hput : ∀ e' : Flight, e'.fid = e.fid →
      ({ g with flight := g.flight ++ [e] } : Group).putFlight e' = { g with flight := g.flight ++ [e'] } := by
    intro e' he
    unfold Group.putFlight
    rw [hp e' he]
  split
  · rename_i h1
    have : ({ g with flight := g.flight ++ [e] } : Group).closeFlight e =
        ({ g with flight := g.flight ++ [e] } : Group).putFlight { e with window := 0 } := by
      unfold Group.closeFlight
      split
      · simp_all
      · rw [if_pos hd, he]
    rw [this, hput { e with window := 0 } rfl, h1]
  · rw [hput { e with window := e.window - 1 } rfl]

/-- A result that the core computes goes in flight. -/
theorem issue_inCore {i : Instr} {s : State} {gid k : Nat} {g : Group} (hr : Ready s i gid k g) (la : BitVec 4)
    (f : Nat → LaneMask → Group → Writes) (hp : performsNow i = false) :
    issue i s (inCore la i f) = .next (s.took.setGroup
      (({ g with flight := g.flight ++ [g.owed s.run.nextId k la (regsOf g i).2 (g.picked k i) (f k (g.picked k i) g)] }).stepTo k
        (g.after k i))) := by
  have hg := s.group_gid gid g hr.present
  have hn : ∀ x ∈ g.flight, x.fid ≠ s.run.nextId := fun x hx => Nat.ne_of_lt (hr.older x hx)
  rw [issue_ready hr]
  let e : Flight := ⟨s.run.nextId, k, g.pc k, la.toNat + 1, (regsOf g i).2.filter pendable, g.picked k i, g.active k,
    .ready (f k (g.picked k i) g), none, none, false, none⟩
  show Host.Outcome.next ((s.took.setGroup { g with flight := g.flight ++ [e] }).updGroup gid fun h =>
    ((h.noted i).claim k (regsOf g i).2 (g.flight.map (·.fid))).advance k (g.after k i)) = _
  rw [← hg]
  rw [show g.gid = ({ g with flight := g.flight ++ [e] } : Group).gid from rfl, State.updGroup_setGroup]
  dsimp only
  have hc : ({ g with flight := g.flight ++ [e] } : Group).claim k (regsOf g i).2 (g.flight.map (·.fid)) =
      { g with flight := g.flight ++ [e] } := by
    unfold Group.claim
    simp only [List.map_append]
    congr 2
    · rw [List.map_congr_left (g := id)]
      · simp
      · intro x hx
        by_cases hk : x.slot = k
        · simp [hr.quiet x hx hk]
        · simp [hk]
    · have : (g.flight.map (·.fid)).contains e.fid = false := by
        simp only [List.contains_eq_mem, List.mem_map, decide_eq_false_iff_not, not_exists, not_and]
        intro x hx he
        exact hn x hx he
      simp only [List.map_cons, List.map_nil, this]
      simp
  rw [Group.noted_other _ i hp, hc]
  unfold Group.advance
  rw [Group.tick_new g k e hr.quiet hn rfl (Nat.succ_pos _) rfl rfl rfl]
  congr 1
  rw [State.setGroup_eq, Group.stepTo_gid]
  rfl

/-- A trap of the effect is taken by the group. -/
theorem issue_trap {i : Instr} {s : State} {gid k : Nat} {g : Group} (hr : Ready s i gid k g)
    {body : Nat → Group → LaneMask → State → Res} {s' : State} {t : Trap}
    (hb : body k g (g.picked k i) s = .trap s' t) : issue i s body = .next (s'.takeTrap gid t) := by
  rw [issue_ready hr, hb]; rfl

/-- A strand that may not issue yet carries what its release must carry first, if anything; it touches no page of its spill area. -/
theorem issue_held {i : Instr} {s : State} {gid k : Nat} {g : Group} (hr : Standing s gid k g) (hh : s.holds g k i = true)
    (ht : s.touchSpill g k i = none) (body : Nat → Group → LaneMask → State → Res) :
    issue i s body = .next ((s.carryScope g k i).elim s fun n => s.carryFor g n gid) := by
  obtain ⟨t, hs⟩ := Option.isSome_iff_exists.mp hr.strand
  have hg : g.gid = gid := by
    have := hr.present; unfold State.group? at this
    simpa using List.find?_some this
  have hc : (if waitsForPending i = true then g.closeWindows k else g) = g := by
    split
    · exact Group.closeWindows_quiet g k hr.quiet
    · rfl
  unfold issue
  simp only [hr.cur, hr.present, hs, hc, hh, ht, if_true]
  rw [State.setGroup_self s g (fun x hx h => hr.alone x hx (h.trans hg))]
  cases s.carryScope g k i <;> rfl

/-- A strand whose slot is parked, or whose registers are pending, stands still, unless it touches a page of its spill area or has
words to carry. -/
theorem issue_stalled {i : Instr} {s : State} {gid k : Nat} {g : Group} (hr : Standing s gid k g) (hh : s.holds g k i = true)
    (ht : s.touchSpill g k i = none) (hc : s.carryScope g k i = none) (body : Nat → Group → LaneMask → State → Res) :
    issue i s body = .next s := by
  rw [issue_held hr hh ht, hc]; rfl

/-- A release that has words to carry sends them home first. -/
theorem issue_carries {i : Instr} {s : State} {gid k : Nat} {g : Group} {n : Nat} (hr : Standing s gid k g)
    (hh : s.holds g k i = true) (ht : s.touchSpill g k i = none) (hc : s.carryScope g k i = some n)
    (body : Nat → Group → LaneMask → State → Res) : issue i s body = .next (s.carryFor g n gid) := by
  rw [issue_held hr hh ht, hc]; rfl

/-- An instruction that its guard keeps off only moves the program counter. -/
theorem issue_guarded {i : Instr} {s : State} {gid k : Nat} {g : Group} (hr : Standing s gid k g) (hh : s.holds g k i = false)
    (ha : g.acts k i = false)
    (body : Nat → Group → LaneMask → State → Res) : issue i s body = .next (s.setGroup (g.stepTo k (g.after k i))) := by
  obtain ⟨t, ht⟩ := Option.isSome_iff_exists.mp hr.strand
  have hg : g.gid = gid := by
    have := hr.present; unfold State.group? at this
    simpa using List.find?_some this
  have hc : (if waitsForPending i = true then g.closeWindows k else g) = g := by
    split
    · exact Group.closeWindows_quiet g k hr.quiet
    · rfl
  unfold issue
  simp only [hr.cur, hr.present, ht, hc, hh, ha, if_false, Bool.false_eq_true, Res.out, id]
  subst hg
  rw [State.updGroup_setGroup, Group.advance_quiet g k _ hr.quiet]
  have : nextPc t.pc i = g.after k i := by
    unfold Group.after Group.pc Group.strand; rw [ht]; rfl
  rw [this]
  congr 1
  unfold State.updGroup State.setGroup
  simp [Group.stepTo_gid]

end Sys2Proof.Machine
end

