-- ==== Sys2Proof/Laws/Maps.lean ====
section
/-! SUPPORT. The keyed stores: what a read sees after a write, and that every write keeps the canonical form. -/

namespace Sys2Proof.Machine

theorem SMap.get_erase {n : Nat} (m : SMap n) (k j : Nat) : SMap.get (SMap.erase m k) j = if j = k then 0#n else SMap.get m j := by
  induction m with
  | nil => simp [SMap.erase, SMap.get]
  | cons c rest ih =>
    obtain ⟨k', v⟩ := c
    by_cases h : k' = k
    · subst h
      have : SMap.erase ((k', v) :: rest) k' = SMap.erase rest k' := by simp [SMap.erase]
      rw [this, ih]
      by_cases hj : j = k'
      · simp [hj]
      · have : k' ≠ j := fun e => hj e.symm
        simp [hj, SMap.get, this]
    · have : SMap.erase ((k', v) :: rest) k = (k', v) :: SMap.erase rest k := by simp [SMap.erase, h]
      rw [this]
      by_cases hk : k' = j
      · subst hk
        simp [SMap.get, h]
      · simp only [SMap.get, hk, if_false, ih]

theorem SMap.get_insert {n : Nat} (m : SMap n) (k j : Nat) (v : BitVec n) :
    SMap.get (SMap.insert m k v) j = if j = k then v else SMap.get m j := by
  induction m with
  | nil =>
    by_cases h : j = k
    · simp [SMap.insert, SMap.get, h]
    · simp [SMap.insert, SMap.get, h, Ne.symm h]
  | cons c rest ih =>
    obtain ⟨k', v'⟩ := c
    unfold SMap.insert
    split
    · by_cases h : j = k
      · simp [SMap.get, h]
      · rw [SMap.get]
        simp [h, Ne.symm h]
    · split
      · rename_i h2
        subst h2
        by_cases h : j = k
        · simp [SMap.get, h]
        · simp [SMap.get, h, Ne.symm h]
      · rename_i h2
        by_cases hk : k' = j
        · subst hk
          simp [SMap.get, Ne.symm h2]
        · simp only [SMap.get, hk, if_false, ih]

/-- A read after a write: the written key reads the value, every other key reads as before. -/
theorem SMap.get_set {n : Nat} (m : SMap n) (k j : Nat) (v : BitVec n) :
    SMap.get (SMap.set m k v) j = if j = k then v else SMap.get m j := by
  unfold SMap.set
  split
  · rename_i h
    rw [SMap.get_erase, h]
  · exact SMap.get_insert m k j v

theorem SMap.get_set_self {n : Nat} (m : SMap n) (k : Nat) (v : BitVec n) : SMap.get (SMap.set m k v) k = v := by
  rw [SMap.get_set]; simp

theorem SMap.get_set_other {n : Nat} (m : SMap n) (k j : Nat) (v : BitVec n) (h : j ≠ k) :
    SMap.get (SMap.set m k v) j = SMap.get m j := by
  rw [SMap.get_set]; simp [h]

theorem SMap.wfFrom_insert {n : Nat} (m : SMap n) (lo : Option Nat) (k : Nat) (v : BitVec n) (hv : v ≠ 0#n)
    (hlo : ∀ b, lo = some b → b < k) (h : SMap.wfFrom lo m = true) : SMap.wfFrom lo (SMap.insert m k v) = true := by
  have hv' : (v != 0#n) = true := by simpa using hv
  induction m generalizing lo with
  | nil =>
    cases lo with
    | none => simp [SMap.insert, SMap.wfFrom, hv]
    | some b => simp [SMap.insert, SMap.wfFrom, hv, hlo b rfl]
  | cons c rest ih =>
    obtain ⟨k', v'⟩ := c
    simp only [SMap.wfFrom, Bool.and_eq_true] at h
    unfold SMap.insert
    split
    · rename_i hk
      cases lo with
      | none => simp [SMap.wfFrom, hv, hk, h]
      | some b => simp [SMap.wfFrom, hv, hk, hlo b rfl, h]
    · split
      · rename_i hk
        subst hk
        cases lo with
        | none => simp [SMap.wfFrom, hv, h]
        | some b => simp [SMap.wfFrom, hv, hlo b rfl, h]
      · rename_i h1 h2
        have hk : k' < k := by omega
        have := ih (some k') (by intro b hb; cases hb; exact hk) h.2
        simp only [SMap.wfFrom, Bool.and_eq_true]
        exact ⟨h.1, this⟩

theorem SMap.wfFrom_weaken {n : Nat} (m : SMap n) (lo : Option Nat) (b : Nat) (hlo : ∀ a, lo = some a → a < b)
    (h : SMap.wfFrom (some b) m = true) : SMap.wfFrom lo m = true := by
  cases m with
  | nil => rfl
  | cons c rest =>
    obtain ⟨k, v⟩ := c
    simp only [SMap.wfFrom, Bool.and_eq_true, decide_eq_true_eq] at h ⊢
    refine ⟨⟨?_, h.1.2⟩, h.2⟩
    cases lo with
    | none => rfl
    | some a => simpa using Nat.lt_trans (hlo a rfl) h.1.1

theorem SMap.wfFrom_erase {n : Nat} (m : SMap n) (lo : Option Nat) (k : Nat) (h : SMap.wfFrom lo m = true) :
    SMap.wfFrom lo (SMap.erase m k) = true := by
  induction m generalizing lo with
  | nil => rfl
  | cons c rest ih =>
    obtain ⟨k', v⟩ := c
    simp only [SMap.wfFrom, Bool.and_eq_true] at h
    by_cases hk : k' = k
    · have : SMap.erase ((k', v) :: rest) k = SMap.erase rest k := by simp [SMap.erase, hk]
      rw [this]
      refine SMap.wfFrom_weaken _ lo k' ?_ (ih (some k') h.2)
      intro a ha
      subst ha
      simpa using h.1.1
    · have : SMap.erase ((k', v) :: rest) k = (k', v) :: SMap.erase rest k := by simp [SMap.erase, hk]
      rw [this]
      simp only [SMap.wfFrom, Bool.and_eq_true]
      exact ⟨h.1, ih (some k') h.2⟩

/-- Every write keeps the canonical form. -/
theorem SMap.wf_set {n : Nat} (m : SMap n) (k : Nat) (v : BitVec n) (h : SMap.wf m = true) :
    SMap.wf (SMap.set m k v) = true := by
  unfold SMap.set
  split
  · exact SMap.wfFrom_erase m none k h
  · exact SMap.wfFrom_insert m none k v ‹_› (by intro b hb; cases hb) h

/-- Of several writes the last of a key counts. -/
theorem SMap.get_setAll {n : Nat} (kvs : List (Nat × BitVec n)) (m : SMap n) (j : Nat) :
    SMap.get (SMap.setAll m kvs) j = ((kvs.reverse.find? fun x => x.1 == j).map (·.2)).getD (SMap.get m j) := by
  induction kvs generalizing m with
  | nil => rfl
  | cons x xs ih =>
    show SMap.get (SMap.setAll (SMap.set m x.1 x.2) xs) j = _
    rw [ih, SMap.get_set, List.reverse_cons, List.find?_append]
    cases hx : xs.reverse.find? (fun x => x.1 == j) with
    | some y => simp
    | none =>
      by_cases h : j = x.1
      · simp [h]
      · have : (x.1 == j) = false := by simpa using Ne.symm h
        simp [h, this]

theorem SMap.get_setAll_none {n : Nat} (kvs : List (Nat × BitVec n)) (m : SMap n) (j : Nat) (h : ∀ x ∈ kvs, x.1 ≠ j) :
    SMap.get (SMap.setAll m kvs) j = SMap.get m j := by
  rw [SMap.get_setAll]
  have : kvs.reverse.find? (fun x => x.1 == j) = none := by
    rw [List.find?_eq_none]
    intro x hx
    simpa using h x (by simpa using hx)
  rw [this]; rfl

/-- A key that is written to one value reads that value. -/
theorem SMap.get_setAll_mem {n : Nat} (kvs : List (Nat × BitVec n)) (m : SMap n) (j : Nat) (v : BitVec n) (hm : (j, v) ∈ kvs)
    (h : ∀ x ∈ kvs, x.1 = j → x.2 = v) : SMap.get (SMap.setAll m kvs) j = v := by
  rw [SMap.get_setAll]
  cases hx : kvs.reverse.find? (fun x => x.1 == j) with
  | none =>
    rw [List.find?_eq_none] at hx
    have := hx (j, v) (by simpa using hm)
    simp at this
  | some y =>
    have h1 := List.find?_some hx
    have h2 := List.mem_of_find?_eq_some hx
    simpa using h y (by simpa using h2) (by simpa using h1)

theorem mem_lanesOf (m : LaneMask) (l : Nat) : l ∈ lanesOf m ↔ l < 96 ∧ m.getLsbD l = true := by
  simp [lanesOf, List.mem_filter]

theorem getLsbD_foldl_lane (ls : List Nat) (m : LaneMask) (l : Nat) (hl : l < 96) :
    (ls.foldl (fun m l => m ||| (1#96 <<< l)) m).getLsbD l = (m.getLsbD l || decide (l ∈ ls)) := by
  induction ls generalizing m with
  | nil => simp
  | cons x xs ih =>
    rw [List.foldl_cons, ih]
    have : (1#96 <<< x).getLsbD l = decide (l = x) := by
      rw [BitVec.getLsbD_shiftLeft]
      by_cases h : l = x
      · subst h
        simp [hl]
      · have : (l - x = 0 → l < x) := by omega
        by_cases h2 : l < x
        · simp [h, h2]
        · have h3 : l - x ≠ 0 := by omega
          simp [h, h2, BitVec.getLsbD_one, h3]
    simp only [BitVec.getLsbD_or, this, List.mem_cons]
    by_cases h1 : l = x <;> by_cases h2 : l ∈ xs <;> simp [h1, h2]

/-- The lanes of the mask of a list. -/
theorem getLsbD_maskOf (ls : List Nat) (l : Nat) (hl : l < 96) : (maskOf ls).getLsbD l = decide (l ∈ ls) := by
  unfold maskOf
  rw [getLsbD_foldl_lane _ _ _ hl]
  simp

end Sys2Proof.Machine
end

