-- ==== Sys2Proof/Laws/Lanes.lean ====
section
/-! SUPPORT. What the lane-wise results, the lane-wise tests and the writes of vector words do to a group, once for all
instructions. -/

namespace Sys2Proof.Machine

theorem vkey_inj {n m l j : Nat} (hl : l < 96) (hj : j < 96) (h : vkey n l = vkey m j) : n = m ∧ l = j := by
  unfold vkey at h
  omega

/-- The keys that the results of lanes write. -/
theorem mem_laneWords {d : Nat} {wide : Bool} {ls : List Nat} {f : Nat → Val} {x : Nat × W32} :
    x ∈ ((ls.map fun l => (l, f l)).flatMap fun r => vwords d wide r.1 r.2.1).map (fun w => (vkey w.1 w.2.1, w.2.2)) ↔
      ∃ l ∈ ls, x = (vkey d l, BitVec.ofNat 32 (f l).1) ∨
        (wide = true ∧ x = (vkey (d + 1) l, BitVec.ofNat 32 ((f l).1 / 2 ^ 32))) := by
  constructor
  · intro h
    simp only [List.mem_map, List.mem_flatMap] at h
    obtain ⟨w, ⟨r, ⟨l, hl, rfl⟩, hw⟩, rfl⟩ := h
    refine ⟨l, hl, ?_⟩
    cases wide <;> simp [vwords] at hw
    · left; simp [hw]
    · rcases hw with rfl | rfl
      · left; rfl
      · right; exact ⟨rfl, rfl⟩
  · rintro ⟨l, hl, h | ⟨hw, h⟩⟩
    · simp only [List.mem_map, List.mem_flatMap]
      refine ⟨(d, l, BitVec.ofNat 32 (f l).1), ⟨(l, f l), ⟨l, hl, rfl⟩, ?_⟩, h.symm⟩
      cases wide <;> simp [vwords]
    · simp only [List.mem_map, List.mem_flatMap]
      refine ⟨(d + 1, l, BitVec.ofNat 32 ((f l).1 / 2 ^ 32)), ⟨(l, f l), ⟨l, hl, rfl⟩, ?_⟩, h.symm⟩
      simp [vwords, hw]

theorem getLsbD_foldl_or {α : Type} (xs : List α) (f : α → W8) (a : W8) (i : Nat) :
    (xs.foldl (fun a x => a ||| f x) a).getLsbD i = true ↔ a.getLsbD i = true ∨ ∃ x ∈ xs, (f x).getLsbD i = true := by
  induction xs generalizing a with
  | nil => simp
  | cons x xs ih =>
    rw [List.foldl_cons, ih]
    simp only [BitVec.getLsbD_or, Bool.or_eq_true, List.mem_cons, exists_eq_or_imp, or_assoc]

theorem Group.orFlags_flag (g : Group) (fl : W8) (i : Nat) :
    (SMap.get (g.orFlags fl).s 3).getLsbD i = true ↔ (SMap.get g.s 3).getLsbD i = true ∨ fl.getLsbD i = true := by
  unfold Group.orFlags
  simp only [SMap.get_set_self, BitVec.getLsbD_or, Bool.or_eq_true, BitVec.getLsbD_setWidth]
  constructor
  · rintro (h | h)
    · exact .inl h
    · right; simp only [Bool.and_eq_true] at h; exact h.2
  · rintro (h | h)
    · exact .inl h
    · right
      have := BitVec.lt_of_getLsbD h
      simp [h]; omega

theorem Group.orFlags_get (g : Group) (fl : W8) (i : Nat) (h : i ≠ 3) : SMap.get (g.orFlags fl).s i = SMap.get g.s i :=
  SMap.get_set_other _ _ _ _ h

/-- Lane results set the lanes that are selected and nothing else. -/
theorem Group.putLanes_set (g : Group) (d : BitVec 11) (wide : Bool) (sel : LaneMask) (f : Nat → Val) :
    LanesSet g (g.putLanes d wide sel f) d wide sel f := by
  have hv : (g.putLanes d wide sel f).v = SMap.setAll g.v
      ((((lanesOf sel).map fun l => (l, f l)).flatMap fun r => vwords (g.absV d) wide r.1 r.2.1).map
        fun w => (vkey w.1 w.2.1, w.2.2)) := rfl
  have hat : ∀ l, l < 96 → sel.getLsbD l = true →
      (g.putLanes d wide sel f).vAt (g.absV d) l = BitVec.ofNat 32 (f l).1 := by
    intro l hl hs
    unfold Group.vAt
    rw [hv]
    refine SMap.get_setAll_mem _ _ _ _ (mem_laneWords.mpr ⟨l, (mem_lanesOf _ _).mpr ⟨hl, hs⟩, .inl rfl⟩) ?_
    intro x hx hk
    obtain ⟨j, hj, h | ⟨_, h⟩⟩ := mem_laneWords.mp hx
    · rw [h] at hk
      have := (vkey_inj ((mem_lanesOf _ _).mp hj).1 hl hk).2
      rw [h, this]
    · rw [h] at hk
      have := (vkey_inj ((mem_lanesOf _ _).mp hj).1 hl hk).1
      omega
  have hat2 : wide = true → ∀ l, l < 96 → sel.getLsbD l = true →
      (g.putLanes d wide sel f).vAt (g.absV d + 1) l = BitVec.ofNat 32 ((f l).1 / 2 ^ 32) := by
    intro hw l hl hs
    unfold Group.vAt
    rw [hv]
    refine SMap.get_setAll_mem _ _ _ _ (mem_laneWords.mpr ⟨l, (mem_lanesOf _ _).mpr ⟨hl, hs⟩, .inr ⟨hw, rfl⟩⟩) ?_
    intro x hx hk
    obtain ⟨j, hj, h | ⟨_, h⟩⟩ := mem_laneWords.mp hx
    · rw [h] at hk
      have := (vkey_inj ((mem_lanesOf _ _).mp hj).1 hl hk).1
      omega
    · rw [h] at hk
      have := (vkey_inj ((mem_lanesOf _ _).mp hj).1 hl hk).2
      rw [h, this]
  have habs : (g.putLanes d wide sel f).absV d = g.absV d := rfl
  refine ⟨?_, ?_, ?_, ?_, rfl⟩
  · intro l hl hs
    unfold Group.vnum bitsWide
    rw [habs, hat l hl hs]
    cases wide with
    | false => simp
    | true =>
      rw [hat2 rfl l hl hs]
      simp only [BitVec.toNat_ofNat, if_true]
      omega
  · intro n l hl hn
    unfold Group.vAt
    rw [hv]
    refine SMap.get_setAll_none _ _ _ ?_
    intro x hx hk
    obtain ⟨j, hj, h | ⟨hw, h⟩⟩ := mem_laneWords.mp hx
    · rw [h] at hk
      have hj' := (mem_lanesOf _ _).mp hj
      obtain ⟨h1, h2⟩ := vkey_inj hj'.1 hl hk
      exact hn ⟨h2 ▸ hj'.2, .inl h1.symm⟩
    · rw [h] at hk
      have hj' := (mem_lanesOf _ _).mp hj
      obtain ⟨h1, h2⟩ := vkey_inj hj'.1 hl hk
      exact hn ⟨h2 ▸ hj'.2, .inr ⟨hw, h1.symm⟩⟩
  · intro i
    unfold Group.putLanes
    rw [Group.orFlags_flag]
    have : valFlags (laneVals sel f) = (laneVals sel f).foldl (fun a r => a ||| r.2.2) 0#8 := rfl
    rw [this, getLsbD_foldl_or]
    have hs : (g.writeV ((laneVals sel f).flatMap fun r => vwords (g.absV d) wide r.1 r.2.1)).s = g.s := rfl
    rw [hs]
    constructor
    · rintro (h | h | ⟨x, hx, h⟩)
      · exact .inl h
      · simp at h
      · right
        simp only [laneVals, List.mem_map] at hx
        obtain ⟨l, hl, rfl⟩ := hx
        exact ⟨l, ((mem_lanesOf _ _).mp hl).1, ((mem_lanesOf _ _).mp hl).2, h⟩
    · rintro (h | ⟨l, h1, h2, h3⟩)
      · exact .inl h
      · right; right
        exact ⟨(l, f l), by simp only [laneVals, List.mem_map]; exact ⟨l, (mem_lanesOf _ _).mpr ⟨h1, h2⟩, rfl⟩, h3⟩
  · intro i hi
    unfold Group.putLanes
    rw [Group.orFlags_get _ _ _ hi]
    rfl

theorem Group.putLanes_gid (g : Group) (d : BitVec 11) (wide : Bool) (sel : LaneMask) (f : Nat → Val) :
    (g.putLanes d wide sel f).gid = g.gid := rfl
theorem Group.putLanes_flight (g : Group) (d : BitVec 11) (wide : Bool) (sel : LaneMask) (f : Nat → Val) :
    (g.putLanes d wide sel f).flight = g.flight := rfl

theorem Group.getP_setPIn (g : Group) (d : BitVec 6) (sel bits : LaneMask) (i : BitVec 6) :
    (g.setPIn d.toNat sel bits).getP i = if i = d then (g.getP d &&& ~~~sel) ||| (bits &&& sel) else g.getP i := by
  unfold Group.getP Group.setPIn Group.setP
  rw [SMap.get_set]
  by_cases h : i = d
  · simp [h]
  · have : i.toNat ≠ d.toNat := fun e => h (BitVec.eq_of_toNat_eq e)
    simp [h, this]

/-- A lane-wise test sets the lanes that are selected and nothing else. -/
theorem Group.putPred_set (g : Group) (d : BitVec 6) (sel : LaneMask) (f : Nat → Bool × W8) :
    PredSet g (g.putPred d sel f) d sel f := by
  have hp : ∀ i, (g.putPred d sel f).getP i = (g.setPIn d.toNat sel (maskOf ((lanesOf sel).filter fun l => (f l).1))).getP i :=
    fun _ => rfl
  refine ⟨?_, ?_, ?_, ?_, ?_, rfl⟩
  · intro l hl hs
    rw [hp, Group.getP_setPIn]
    simp only [if_true, BitVec.getLsbD_or, BitVec.getLsbD_and, BitVec.getLsbD_not, hs, getLsbD_maskOf _ _ hl, List.mem_filter,
      mem_lanesOf]
    cases (f l).1 <;> simp [hl]
  · intro l hs
    rw [hp, Group.getP_setPIn]
    simp only [if_true, BitVec.getLsbD_or, BitVec.getLsbD_and, BitVec.getLsbD_not, hs]
    by_cases hl : l < 96
    · simp [hl]
    · have : (g.getP d).getLsbD l = false := BitVec.getLsbD_of_ge _ _ (by omega)
      simp [this]
  · intro i hi
    rw [hp, Group.getP_setPIn]
    simp [hi]
  · intro i
    unfold Group.putPred
    rw [Group.orFlags_flag, getLsbD_foldl_or]
    constructor
    · rintro (h | h | ⟨l, hl, h⟩)
      · exact .inl h
      · simp at h
      · exact .inr ⟨l, ((mem_lanesOf _ _).mp hl).1, ((mem_lanesOf _ _).mp hl).2, h⟩
    · rintro (h | ⟨l, h1, h2, h3⟩)
      · exact .inl h
      · exact .inr (.inr ⟨l, (mem_lanesOf _ _).mpr ⟨h1, h2⟩, h3⟩)
  · intro i hi
    unfold Group.putPred
    rw [Group.orFlags_get _ _ _ hi]
    rfl

end Sys2Proof.Machine
end

