-- ==== Sys2Proof/Laws/Memory.lean ====
section
/-! SUPPORT. Home memory keeps its canonical form under every operation, a byte that is written is read back, and the operations of
the caches and the homes change nothing but the memory (DESIGN CHOICE, safe: log entry 4). -/

namespace Sys2Proof.Machine

/-! ## Sorted lists by key -/

theorem kvWf_weaken {α : Type} (m : List (Nat × α)) (lo : Option Nat) (b : Nat) (hb : ∀ a, lo = some a → a < b)
    (h : kvWf (some b) m = true) : kvWf lo m = true := by
  cases m with
  | nil => rfl
  | cons c rest =>
    simp only [kvWf, Bool.and_eq_true, decide_eq_true_eq] at h ⊢
    refine ⟨?_, h.2⟩
    cases lo with
    | none => rfl
    | some a => simpa using Nat.lt_trans (hb a rfl) h.1

theorem kvWf_filter {α : Type} (m : List (Nat × α)) (f : Nat × α → Bool) (lo : Option Nat) (h : kvWf lo m = true) :
    kvWf lo (m.filter f) = true := by
  induction m generalizing lo with
  | nil => rfl
  | cons c rest ih =>
    simp only [kvWf, Bool.and_eq_true] at h
    by_cases hf : f c = true
    · simp only [List.filter_cons, hf, if_true, kvWf, Bool.and_eq_true]
      exact ⟨h.1, ih _ h.2⟩
    · rw [List.filter_cons_of_neg hf]
      refine kvWf_weaken _ lo c.1 ?_ (ih _ h.2)
      rintro a rfl
      simpa using h.1

theorem above_lo (lo : Option Nat) (k : Nat) :
    (∀ a, lo = some a → a < k) → (match lo with | none => true | some b => decide (b < k)) = true := by
  intro hk
  cases lo with
  | none => rfl
  | some a => simpa using hk a rfl

theorem kvWf_set {α : Type} (m : List (Nat × α)) (k : Nat) (v : α) (lo : Option Nat) (hk : ∀ a, lo = some a → a < k)
    (h : kvWf lo m = true) : kvWf lo (kvSet m k v) = true := by
  have hlo := above_lo lo k hk
  induction m generalizing lo with
  | nil => simp only [kvSet, kvWf, Bool.and_true]; exact hlo
  | cons c rest ih =>
    obtain ⟨k', v'⟩ := c
    simp only [kvWf, Bool.and_eq_true] at h
    unfold kvSet
    split
    · rename_i hlt
      simp only [kvWf, Bool.and_eq_true]
      exact ⟨hlo, by simpa using hlt, h.2⟩
    · split
      · rename_i heq
        subst heq
        simp only [kvWf, Bool.and_eq_true]
        exact ⟨hlo, h.2⟩
      · have hlt : k' < k := by omega
        simp only [kvWf, Bool.and_eq_true]
        exact ⟨h.1, ih (some k') (by simpa using hlt) h.2 (above_lo (some k') k (by simpa using hlt))⟩

theorem kvGet_above {α : Type} (m : List (Nat × α)) (lo k : Nat) (h : kvWf (some lo) m = true) (hk : k ≤ lo) :
    kvGet m k = none := by
  induction m generalizing lo with
  | nil => rfl
  | cons c rest ih =>
    obtain ⟨k', v⟩ := c
    simp only [kvWf, Bool.and_eq_true, decide_eq_true_eq] at h
    have : k' ≠ k := by omega
    simp only [kvGet, this, if_false]
    exact ih k' h.2 (by omega)

theorem kvGet_set {α : Type} (m : List (Nat × α)) (k j : Nat) (v : α) :
    kvGet (kvSet m k v) j = if j = k then some v else kvGet m j := by
  induction m with
  | nil =>
    by_cases h : j = k
    · simp [kvSet, kvGet, h]
    · simp [kvSet, kvGet, h, Ne.symm h]
  | cons c rest ih =>
    obtain ⟨k', v'⟩ := c
    unfold kvSet
    split
    · by_cases h : j = k
      · simp [kvGet, h]
      · simp [kvGet, h, Ne.symm h]
    · split
      · rename_i h1 h2
        subst h2
        by_cases h : j = k
        · simp [kvGet, h]
        · simp [kvGet, h, Ne.symm h]
      · rename_i h1 h2
        by_cases h : j = k
        · subst h
          have : k' ≠ j := fun e => h2 e.symm
          simp [kvGet, this, ih]
        · simp only [kvGet, ih, h, if_false]

theorem kvGet_filter {α : Type} (m : List (Nat × α)) (f : Nat → Bool) (j : Nat) (h : f j = true) :
    kvGet (m.filter fun c => f c.1) j = kvGet m j := by
  induction m with
  | nil => rfl
  | cons c rest ih =>
    obtain ⟨k, v⟩ := c
    by_cases hf : f k = true
    · simp [hf, kvGet, ih]
    · have : k ≠ j := fun e => hf (e ▸ h)
      simp [hf, kvGet, this, ih]

theorem kvGet_filter_out {α : Type} (m : List (Nat × α)) (f : Nat → Bool) (j : Nat) (h : f j = false) :
    kvGet (m.filter fun c => f c.1) j = none := by
  induction m with
  | nil => rfl
  | cons c rest ih =>
    obtain ⟨k, v⟩ := c
    by_cases hf : f k = true
    · have : k ≠ j := fun e => by rw [e, h] at hf; exact Bool.noConfusion hf
      simp [hf, kvGet, this, ih]
    · simp [hf, ih]

/-! ## The form of memory -/

theorem Mem.wf_iff (m : Mem) : m.wf = true ↔
    (kvWf none m.home = true ∧ kvWf none m.keys = true) ∧ ∀ c ∈ m.home, m.idleCell c = false := by
  unfold Mem.wf; simp [List.all_eq_true]

/-- The form concerns the bytes, the keys of the lines and the ranges that read 0 alone. -/
theorem Mem.wf_of_eq {m n : Mem} (h : n.home = m.home) (k : n.keys = m.keys) (z : n.zeros = m.zeros) (hm : m.wf = true) :
    n.wf = true := by
  unfold Mem.wf Mem.idleCell Mem.zeroed at *; rw [h, k, z]; exact hm

theorem Mem.claimLine_zeroed (m : Mem) (key pa key' pb : Nat) (h : key' = key ∨ pb / 128 ≠ pa / 128) :
    (m.claimLine key pa).zeroed key' pb = m.zeroed key' pb := by
  unfold Mem.claimLine Mem.zeroed
  split
  · rw [Bool.eq_iff_iff]
    simp only [List.contains_iff_mem, List.mem_filter, Bool.or_eq_true, beq_iff_eq, bne_iff_ne, ne_eq]
    exact ⟨fun x => x.1, fun x => ⟨x, h⟩⟩
  · rfl

theorem Mem.wf_claimLine (m : Mem) (key pa : Nat) (h : m.wf = true) : (m.claimLine key pa).wf = true := by
  unfold Mem.claimLine
  split
  · rw [Mem.wf_iff] at *
    refine ⟨⟨kvWf_filter _ _ _ h.1.1, kvWf_set _ _ _ _ (by simp) h.1.2⟩, fun c hc => ?_⟩
    obtain ⟨hm, hl⟩ := List.mem_filter.mp hc
    have hl : c.1 / 128 ≠ pa / 128 := by simpa using hl
    have old := h.2 c hm
    have zs := fun k => m.claimLine_zeroed key pa k c.1 (Or.inr hl)
    unfold Mem.claimLine at zs
    rw [if_pos ‹_›] at zs
    unfold Mem.idleCell at *
    simpa only [kvGet_set, hl, if_false, zs] using old
  · exact h

/-- A byte that is written is listed unless it is a 0 where an unlisted one reads 0. -/
theorem Mem.setByte_home (m : Mem) (key pa : Nat) (b : W8) : (m.setByte key pa b).home =
    if devicePa pa && m.zeroed key pa && b == 0#8 then (m.claimLine key pa).home.filter fun c => c.1 != pa
    else kvSet (m.claimLine key pa).home (cellOf pa) b := by
  rw [← Mem.claimLine_zeroed m key pa key pa (Or.inl rfl)]; rfl

theorem Mem.setByte_keys (m : Mem) (key pa : Nat) (b : W8) : (m.setByte key pa b).keys = (m.claimLine key pa).keys := rfl
theorem Mem.setByte_zeroed (m : Mem) (key pa : Nat) (b : W8) : (m.setByte key pa b).zeroed = (m.claimLine key pa).zeroed := rfl

theorem mem_kvSet {α : Type} (m : List (Nat × α)) (k : Nat) (v : α) (c : Nat × α) (h : c ∈ kvSet m k v) : c = (k, v) ∨ c ∈ m := by
  induction m with
  | nil => exact Or.inl (by simpa [kvSet] using h)
  | cons x rest ih =>
    obtain ⟨k', v'⟩ := x
    unfold kvSet at h
    split at h
    · rcases List.mem_cons.mp h with e | e
      · exact Or.inl e
      · exact Or.inr e
    · split at h
      · rcases List.mem_cons.mp h with e | e
        · exact Or.inl e
        · exact Or.inr (List.mem_cons_of_mem _ e)
      · rcases List.mem_cons.mp h with e | e
        · exact Or.inr (e ▸ List.mem_cons_self)
        · exact (ih e).imp id (List.mem_cons_of_mem _)

theorem Mem.claimLine_key (m : Mem) (key pa : Nat) (hd : devicePa pa = true) :
    kvGet (m.claimLine key pa).keys (pa / 128) = some key := by
  unfold Mem.claimLine
  split
  · simp [kvGet_set]
  · rename_i h
    rw [not_and] at h
    exact Classical.not_not.mp (h hd)

theorem Mem.wf_setByte (m : Mem) (key pa : Nat) (b : W8) (h : m.wf = true) : (m.setByte key pa b).wf = true := by
  have hc := m.wf_claimLine key pa h
  rw [Mem.wf_iff] at hc ⊢
  have idle : ∀ c, (m.setByte key pa b).idleCell c = (m.claimLine key pa).idleCell c := by
    intro c; unfold Mem.idleCell; rw [Mem.setByte_keys, Mem.setByte_zeroed]
  rw [Mem.setByte_home, Mem.setByte_keys]
  refine ⟨⟨?_, hc.1.2⟩, fun c hm => ?_⟩
  · split
    · exact kvWf_filter _ _ _ hc.1.1
    · exact kvWf_set _ _ _ _ (by simp) hc.1.1
  · rw [idle]
    split at hm
    · exact hc.2 c (List.mem_filter.mp hm).1
    · rename_i hz
      rcases mem_kvSet _ _ _ _ hm with e | e
      · subst e
        by_cases hd : devicePa pa = true
        · have hp : cellOf pa = pa := by unfold cellOf; simp [hd]
          unfold Mem.idleCell
          simp only [hp, Mem.claimLine_key m key pa hd, Mem.claimLine_zeroed m key pa key pa (Or.inl rfl), Option.any_some]
          cases hz0 : m.zeroed key pa <;> simp_all
        · have : devicePa (cellOf pa) = false := by
            unfold cellOf; simp only [hd]; unfold devicePa; simp
          unfold Mem.idleCell; simp [this]
      · exact hc.2 c e

theorem foldl_keeps {α β : Type} (P : β → Prop) (f : β → α → β) (hf : ∀ b x, P b → P (f b x)) (xs : List α) (b : β) (h : P b) :
    P (xs.foldl f b) := by
  induction xs generalizing b with
  | nil => exact h
  | cons x xs ih => exact ih _ (hf b x h)

theorem Mem.wf_setBytes (m : Mem) (key pa : Nat) (bs : List W8) (h : m.wf = true) : (m.setBytes key pa bs).wf = true :=
  foldl_keeps (fun m : Mem => m.wf = true) _ (fun m x h => m.wf_setByte key _ x.1 h) _ m h

theorem Mem.wf_setWord (m : Mem) (key wa : Nat) (mask : BitVec 4) (v : W32) (h : m.wf = true) : (m.setWord key wa mask v).wf = true := by
  have : ∀ xs : List Nat, (xs.foldl (fun acc i =>
      if mask.getLsbD i then acc.setByte key (4 * wa + i) (v.extractLsb' (8 * i) 8) else acc) m).wf = true := fun xs =>
    foldl_keeps (fun m : Mem => m.wf = true) _ (fun m x h => by
      split
      · exact m.wf_setByte key _ _ h
      · exact h) xs m h
  unfold Mem.setWord
  dsimp only
  split
  · exact Mem.wf_of_eq rfl rfl rfl (this _)
  · exact this _

theorem Mem.wf_putWord (m : Mem) (key wa : Nat) (v : W32) (bad : Bool) (h : m.wf = true) : (m.putWord key wa v bad).wf = true := by
  have := m.wf_setWord key wa 15#4 v h
  unfold Mem.putWord
  dsimp only
  split
  · exact Mem.wf_of_eq rfl rfl rfl this
  · exact this

/-! ## A byte after a write of one byte -/

/-- A write of a byte leaves what the unwritten bytes read as, but for other keys in its line. -/
theorem Mem.blank_setByte (m : Mem) (key pa : Nat) (b : W8) (key' pb : Nat) (h : key' = key ∨ pb / 128 ≠ pa / 128) :
    (m.setByte key pa b).blank key' pb = m.blank key' pb := by
  unfold Mem.blank
  rw [Mem.setByte_zeroed, Mem.claimLine_zeroed m key pa key' pb h]
  have : (m.setByte key pa b).origins = m.origins := by unfold Mem.setByte Mem.claimLine; dsimp only; split <;> rfl
  rw [this]

/-- R5, R25: the byte that was written is the one that its key reads. -/
theorem Mem.byte_setByte (m : Mem) (key pa : Nat) (b : W8) : (m.setByte key pa b).byte key pa = b := by
  unfold Mem.byte
  rw [Mem.setByte_home, Mem.setByte_keys, Mem.blank_setByte _ _ _ _ _ _ (Or.inl rfl)]
  by_cases hd : devicePa pa = true
  · have hc : cellOf pa = pa := by unfold cellOf; simp [hd]
    by_cases hz : m.zeroed key pa = true ∧ b = 0#8
    · have hn := kvGet_filter_out (m.claimLine key pa).home (fun a => a != pa) pa (by simp)
      have hb : m.blank key pa = 0#8 := by unfold Mem.blank; rw [if_pos hz.1]
      simp [hd, hz.1, hz.2, Mem.claimLine_key m key pa hd, hn, hb]
    · have : (devicePa pa && m.zeroed key pa && b == 0#8) = false := by
        simp only [hd, Bool.true_and, Bool.and_eq_false_iff, beq_eq_false_iff_ne]
        by_cases h : m.zeroed key pa = true
        · exact Or.inr fun e => hz ⟨h, e⟩
        · exact Or.inl (by simpa using h)
      rw [this]
      simp [hd, Mem.claimLine_key m key pa hd, hc, kvGet_set]
  · simp [hd, kvGet_set]

/-- The listed byte of another cell stays where the line keeps its key. -/
theorem Mem.home_setByte (m : Mem) (key pa j : Nat) (b : W8) (hj : j ≠ cellOf pa) (hc : m.claimLine key pa = m) :
    kvGet (m.setByte key pa b).home j = kvGet m.home j := by
  rw [Mem.setByte_home, hc]
  split
  · rename_i hz
    have hp : cellOf pa = pa := by unfold cellOf; simp_all
    exact kvGet_filter m.home (fun a => a != pa) j (by simpa [hp] using hj)
  · simp [kvGet_set, hj]

/-- A byte of another cell in the same line, read under the writer's key, that was written under that key, stays. -/
theorem Mem.byte_setByte_line (m : Mem) (key pa pb : Nat) (b : W8) (hk : kvGet m.keys (pa / 128) = some key)
    (hn : cellOf pb ≠ cellOf pa) : (m.setByte key pa b).byte key pb = m.byte key pb := by
  have hc : m.claimLine key pa = m := by unfold Mem.claimLine; simp [hk]
  have hks : (m.setByte key pa b).keys = m.keys := by rw [Mem.setByte_keys, hc]
  unfold Mem.byte
  rw [hks, Mem.blank_setByte _ _ _ _ _ _ (Or.inl rfl)]
  split
  · rename_i hd
    have : cellOf pb = pb := by unfold cellOf; simp [hd]
    rw [Mem.home_setByte m key pa pb b (this ▸ hn) hc]
  · rw [Mem.home_setByte m key pa _ b hn hc]

/-- A byte of another line stays under every key. -/
theorem Mem.byte_setByte_other (m : Mem) (key key' pa pb : Nat) (b : W8) (hd : devicePa pa = true) (hn : pb / 128 ≠ pa / 128)
    (hb : devicePa pb = true) : (m.setByte key pa b).byte key' pb = m.byte key' pb := by
  have ca : cellOf pa = pa := by unfold cellOf; simp [hd]
  have ne : pb ≠ pa := fun e => hn (by rw [e])
  have hl : kvGet (m.claimLine key pa).home pb = kvGet m.home pb := by
    unfold Mem.claimLine
    split
    · exact kvGet_filter m.home (fun a => a / 128 != pa / 128) pb (by simpa using hn)
    · rfl
  have hh : kvGet (m.setByte key pa b).home pb = kvGet m.home pb := by
    rw [Mem.setByte_home, ca, ← hl]
    split
    · exact kvGet_filter _ (fun a => a != pa) pb (by simpa using ne)
    · simp [kvGet_set, ne]
  have hk : kvGet (m.setByte key pa b).keys (pb / 128) = kvGet m.keys (pb / 128) := by
    rw [Mem.setByte_keys]
    unfold Mem.claimLine
    split
    · simp [kvGet_set, hn]
    · rfl
  unfold Mem.byte
  simp [hb, hh, hk, Mem.blank_setByte m key pa b key' pb (Or.inr hn)]

/-- R105: a byte of a line that was zeroed under a key reads 0 under it. -/
theorem Mem.byte_zero (m : Mem) (key line n pb : Nat) (hd : devicePa pb = true) (h : line ≤ pb / 128 ∧ pb / 128 < line + n) :
    (m.zero key line n).byte key pb = 0#8 := by
  have hn : kvGet (m.zero key line n).home pb = none :=
    kvGet_filter_out m.home (fun a => !(decide (line ≤ a / 128) && decide (a / 128 < line + n))) pb (by simp [h.1, h.2])
  have hz : (m.zero key line n).blank key pb = 0#8 := by
    have : (key, pb / 128) ∈ (List.range n).map fun i => (key, line + i) :=
      List.mem_map.mpr ⟨pb / 128 - line, by simp only [List.mem_range]; omega, by simp only [Prod.mk.injEq, true_and]; omega⟩
    unfold Mem.blank Mem.zeroed Mem.zero
    rw [if_pos (List.contains_iff_mem.mpr (List.mem_append_left _ this))]
  unfold Mem.byte
  simp only [hd, if_true, hn, hz, Option.getD_none]
  split
  · split <;> rfl
  · rfl

theorem Mem.wf_zero (m : Mem) (key line n : Nat) (h : m.wf = true) : (m.zero key line n).wf = true := by
  rw [Mem.wf_iff] at *
  refine ⟨⟨kvWf_filter _ _ _ h.1.1, kvWf_filter _ _ _ h.1.2⟩, fun c hc => ?_⟩
  obtain ⟨hm, hout⟩ := List.mem_filter.mp hc
  have old := h.2 c hm
  have no : (!(decide (line ≤ c.1 / 128) && decide (c.1 / 128 < line + n))) = true := hout
  have out : ¬(line ≤ c.1 / 128 ∧ c.1 / 128 < line + n) := by
    simp only [Bool.not_eq_true', Bool.and_eq_false_iff, decide_eq_false_iff_not] at no; omega
  have zs : ∀ k, (m.zero key line n).zeroed k c.1 = m.zeroed k c.1 := by
    intro k
    unfold Mem.zeroed Mem.zero
    rw [Bool.eq_iff_iff]
    simp only [List.contains_iff_mem, List.mem_append, List.mem_map, List.mem_range, Prod.mk.injEq, List.mem_filter]
    constructor
    · rintro (⟨i, hi, _, e⟩ | x)
      · omega
      · exact x.1
    · exact fun x => Or.inr ⟨x, no⟩
  have hk : kvGet (m.zero key line n).keys (c.1 / 128) = kvGet m.keys (c.1 / 128) :=
    kvGet_filter m.keys (fun k => !(decide (line ≤ k) && decide (k < line + n))) _ no
  unfold Mem.idleCell at old ⊢
  rw [hk]; simpa only [zs] using old

/-! ## What an operation of the memory system can do -/

/-- The step from s to t changes nothing but the memory and the counters of the model, and keeps the form of memory. -/
structure MemStep (s t : State) : Prop where
  boot : t.boot = s.boot
  sys : t.sys = s.sys
  groups : t.groups = s.groups
  cycles : t.cycles = s.cycles
  idle : t.idle = s.idle
  placed : t.placed = s.placed
  agenda : t.run.agenda = s.run.agenda
  picks : t.run.picks = s.run.picks
  cur : t.run.cur = s.run.cur
  form : s.mem.wf = true → t.mem.wf = true

theorem MemStep.refl (s : State) : MemStep s s := ⟨rfl, rfl, rfl, rfl, rfl, rfl, rfl, rfl, rfl, id⟩

theorem MemStep.trans {s t u : State} (h : MemStep s t) (k : MemStep t u) : MemStep s u :=
  ⟨k.boot.trans h.boot, k.sys.trans h.sys, k.groups.trans h.groups, k.cycles.trans h.cycles, k.idle.trans h.idle, k.placed.trans h.placed, k.agenda.trans h.agenda,
    k.picks.trans h.picks, k.cur.trans h.cur, fun w => k.form (h.form w)⟩

/-- A new memory of the same bytes and keys. -/
theorem MemStep.mem (s : State) (m : Mem) (h : m.home = s.mem.home) (k : m.keys = s.mem.keys)
    (z : m.zeros = s.mem.zeros) : MemStep s { s with mem := m } :=
  ⟨rfl, rfl, rfl, rfl, rfl, rfl, rfl, rfl, rfl, Mem.wf_of_eq h k z⟩

theorem MemStep.l1 (s : State) (xs : List CWord) : MemStep s { s with mem := { s.mem with l1 := xs } } := MemStep.mem s _ rfl rfl rfl

theorem MemStep.basin (s : State) (xs : List CWord) : MemStep s { s with mem := { s.mem with basin := xs } } := MemStep.mem s _ rfl rfl rfl

theorem MemStep.word (s : State) (key wa : Nat) (mask : BitVec 4) (v : W32) :
    MemStep s { s with mem := s.mem.setWord key wa mask v } :=
  ⟨rfl, rfl, rfl, rfl, rfl, rfl, rfl, rfl, rfl, s.mem.wf_setWord key wa mask v⟩

theorem MemStep.put (s : State) (key wa : Nat) (v : W32) (bad : Bool) :
    MemStep s { s with mem := s.mem.putWord key wa v bad } :=
  ⟨rfl, rfl, rfl, rfl, rfl, rfl, rfl, rfl, rfl, s.mem.wf_putWord key wa v bad⟩

theorem MemStep.ite {s t u : State} {c : Prop} [Decidable c] (h : MemStep s t) (k : MemStep s u) : MemStep s (if c then t else u) := by
  split
  · exact h
  · exact k

theorem foldl_memStep {α : Type} (f : State → α → State) (hf : ∀ s x, MemStep s (f s x)) (xs : List α) (s : State) :
    MemStep s (xs.foldl f s) := by
  induction xs generalizing s with
  | nil => exact MemStep.refl s
  | cons x xs ih => exact (hf s x).trans (ih _)

theorem State.snoopOthers_step (s : State) (src : Option Nat) (wa : Nat) (gid : Option Nat) : MemStep s (s.snoopOthers src wa gid) := by
  refine foldl_memStep _ ?_ _ s
  intro s d
  dsimp only
  split
  · exact MemStep.mem s _ rfl rfl rfl
  · exact ⟨rfl, rfl, rfl, rfl, rfl, rfl, rfl, rfl, rfl, id⟩

theorem State.mergeSnoops_step (s : State) (k0 : Nat) : MemStep s (s.mergeSnoops k0) := by
  unfold State.mergeSnoops
  extract_lets new
  exact MemStep.ite (MemStep.refl s) (MemStep.mem s _ rfl rfl rfl)

theorem State.wake_step (s : State) (die wa : Nat) : MemStep s (s.wake die wa) :=
  MemStep.ite (MemStep.refl s) (MemStep.mem s _ rfl rfl rfl)

theorem wakeSrc_step (s : State) (src : Option Nat) (wa : Nat) : MemStep s (src.elim s fun d => s.wake d wa) := by
  cases src with
  | none => exact MemStep.refl s
  | some d => exact State.wake_step s d wa

theorem State.homeWrite_step (s : State) (src : Option Nat) (key wa : Nat) (mask : BitVec 4) (v : W32) (gid : Option Nat) :
    MemStep s (s.homeWrite src key wa mask v gid) :=
  MemStep.ite (MemStep.word s key wa mask v)
    (((MemStep.word s key wa mask v).trans (wakeSrc_step _ src wa)).trans (State.snoopOthers_step _ src wa gid))

theorem State.homePut_step (s : State) (src : Option Nat) (key wa : Nat) (v : W32) (bad : Bool) (gid : Option Nat) :
    MemStep s (s.homePut src key wa v bad gid) :=
  MemStep.ite (MemStep.put s key wa v bad)
    (((MemStep.put s key wa v bad).trans (wakeSrc_step _ src wa)).trans (State.snoopOthers_step _ src wa gid))

theorem State.hostFlush_step (s : State) (wa core : Nat) : MemStep s (s.hostFlush wa core) := by
  refine foldl_memStep _ ?_ _ s
  intro s c
  exact MemStep.ite ((MemStep.put s 0 wa c.val c.poison).trans (MemStep.mem _ _ rfl rfl rfl)) (MemStep.refl s)

theorem State.hostInvalidate_step (s : State) (wa core : Nat) : MemStep s (s.hostInvalidate wa core) := MemStep.mem s _ rfl rfl rfl

theorem State.hostTake_step (s : State) (wa : Nat) (write : Bool) : MemStep s (s.hostTake wa write) :=
  (State.hostFlush_step s _ _).trans (MemStep.ite (State.hostInvalidate_step _ _ _) (MemStep.refl _))

theorem State.basinFill_step (s : State) (c : CWord) : MemStep s (s.basinFill c) :=
  (State.wake_step s c.own c.wa).trans (MemStep.ite (MemStep.mem _ _ rfl rfl rfl) (MemStep.refl _))

theorem State.basinClean_step (s : State) (c : CWord) : MemStep s (s.basinClean c) :=
  (MemStep.basin s _).trans (State.basinFill_step _ _)

theorem State.basinMerge_step (s : State) (w : Who) (wa : Nat) (mask : BitVec 4) (v : W32) : MemStep s (s.basinMerge w wa mask v) :=
  (MemStep.basin s _).trans (MemStep.ite (MemStep.basin _ _) (MemStep.refl _))

theorem State.basinWord_step (s : State) (w : Who) (wa : Nat) (ro : Bool) : MemStep s (s.basinWord w wa ro).1 := by
  unfold State.basinWord
  split
  · exact MemStep.refl s
  · exact State.basinFill_step s _

theorem State.fillL1_step (s : State) (w : Who) (c : CWord) (ro : Bool) : MemStep s (s.fillL1 w c ro) := MemStep.mem s _ rfl rfl rfl

/-- R267: a read moves words into the caches, and for a HOST word takes the dirty copies home first. -/
theorem State.readWord_step (s : State) (w : Who) (t : ReqTy) (wa : Nat) : MemStep s (s.readWord w t wa).1 := by
  unfold State.readWord
  dsimp only
  split
  · exact State.hostTake_step s wa false
  · split
    · exact MemStep.refl s
    · split
      · exact (State.hostFlush_step s wa w.core).trans (State.fillL1_step _ w _ false)
      · split
        · exact (State.basinWord_step s w wa false).trans (State.fillL1_step _ w _ false)
        · split
          · exact State.fillL1_step s w _ false
          · exact (State.basinFill_step s _).trans (State.fillL1_step _ w _ false)
  · split
    · exact MemStep.refl s
    · split
      · exact (State.hostFlush_step s wa w.core).trans (State.fillL1_step _ w _ _)
      · exact (State.basinWord_step s w wa _).trans (State.fillL1_step _ w _ _)

theorem State.basinToHome_step (s : State) (key : Nat) (c : CWord) (keep : Bool) (gid : Option Nat) :
    MemStep s (s.basinToHome key c keep gid) := by
  unfold State.basinToHome
  extract_lets rest m0 u
  exact MemStep.trans (t := u) (MemStep.basin s _) (MemStep.ite (State.homePut_step _ _ _ _ _ _ _) (MemStep.refl _))

theorem State.mirrorRoom_step (s : State) (die ctx wa : Nat) (gid : Option Nat) : MemStep s (s.mirrorRoom die ctx wa gid) := by
  unfold State.mirrorRoom
  refine MemStep.ite (MemStep.refl s) (MemStep.ite (MemStep.refl s) ?_)
  split
  · exact MemStep.refl s
  · exact foldl_memStep _ (fun s c => State.basinToHome_step s _ c true gid) _ s

theorem State.basinTake_step (s : State) (w : Who) (scope wa : Nat) (v : W32) (poison : Bool) (gid : Option Nat) :
    MemStep s (s.basinTake w scope wa v poison gid) := by
  unfold State.basinTake
  extract_lets c through m others
  have hth : ∀ s, MemStep s (through s) := fun s =>
    (State.homePut_step s (some w.die) w.key wa v poison gid).trans (State.basinClean_step _ _)
  refine MemStep.ite (hth s) (MemStep.ite (MemStep.basin s _) ?_)
  split
  · exact (State.mirrorRoom_step s w.die w.ctx wa gid).trans (MemStep.ite (MemStep.basin _ _) (hth _))
  · exact hth s

/-- R267: a write changes words of the caches and, where the request goes there, the bytes at the home. -/
theorem State.writeWord_step (s : State) (w : Who) (t : ReqTy) (wa : Nat) (mask : BitVec 4) (v : W32) (gid : Option Nat) :
    MemStep s (s.writeWord w t wa mask v gid) := by
  have host : ∀ s : State, MemStep s ((s.hostFlush wa w.core).hostInvalidate wa w.core) := fun s =>
    (State.hostFlush_step s wa w.core).trans (State.hostInvalidate_step _ wa w.core)
  unfold State.writeWord
  dsimp only
  split
  · exact (State.hostTake_step s wa true).trans (State.homeWrite_step _ none w.key wa mask v gid)
  · rename_i sc
    split
    · exact ((host s).trans (State.homeWrite_step _ none w.key wa mask v gid)).trans (MemStep.mem _ _ rfl rfl rfl)
    · split
      · have hb : ∀ (x : State × W32 × Bool), MemStep s x.1 →
            MemStep s { (x.1.basinTake w sc wa (mergeWord mask v x.2.1) x.2.2 gid) with
              mem := { (x.1.basinTake w sc wa (mergeWord mask v x.2.1) x.2.2 gid).mem with
                l1 := cMerge (x.1.basinTake w sc wa (mergeWord mask v x.2.1) x.2.2 gid).mem.l1 w.core w.ctx wa mask v } } := fun x hx =>
          (hx.trans (State.basinTake_step _ w sc wa _ _ gid)).trans (MemStep.mem _ _ rfl rfl rfl)
        refine hb (if mask = 15#4 then (s, 0#32, false) else
          ((s.basinWord w wa false).1, (s.basinWord w wa false).2.val, (s.basinWord w wa false).2.poison)) ?_
        split
        · exact MemStep.refl s
        · exact State.basinWord_step s w wa false
      · exact ((State.homeWrite_step s (some w.die) w.key wa mask v gid).trans (State.basinMerge_step _ w wa mask v)).trans
          (MemStep.mem _ _ rfl rfl rfl)
  · have h0 : MemStep s (if hostWa wa = true then (s.hostFlush wa w.core).hostInvalidate wa w.core else s) :=
      MemStep.ite (host s) (MemStep.refl s)
    refine h0.trans ?_
    generalize (if hostWa wa = true then (s.hostFlush wa w.core).hostInvalidate wa w.core else s) = u
    refine MemStep.trans ?_ (MemStep.l1 _ _)
    by_cases hm : mask = 15#4
    · rw [if_pos hm]; exact MemStep.refl _
    · rw [if_neg hm]; exact State.readWord_step _ w .owned wa

theorem State.evictL1_step (s : State) (w : Who) (c : CWord) : MemStep s (s.evictL1 w c) :=
  (MemStep.mem s { s.mem with l1 := cDrop s.mem.l1 c.own c.ctx c.wa } rfl rfl rfl).trans
    (MemStep.ite (MemStep.refl _) (MemStep.ite (State.homePut_step _ _ _ _ _ _ _) (State.basinTake_step _ w 1 c.wa c.val c.poison none)))

/-- R26: zeroing the L1s of a die moves its dirty words outwards. -/
theorem State.clearL1_step (s : State) (d : Die) (sel : CWord → Bool) : MemStep s (s.clearL1 d sel) :=
  (foldl_memStep _ (fun s c => State.evictL1_step s _ c) _ s).trans (State.mergeSnoops_step _ _)

/-- R146, R268: the dirty words of a basin that go home move outwards. -/
theorem State.basinHome_step (s : State) (w : Who) (sel : Nat → Bool) (gid : Option Nat) : MemStep s (s.basinHome w sel gid) :=
  foldl_memStep _ (fun s c => State.basinToHome_step s w.key c true gid) _ s

/-- R146: a write-back moves dirty words outwards. -/
theorem State.writeBack_step (s : State) (w : Who) (ns : Nat) (sel : Nat → Bool) (gid : Option Nat) :
    MemStep s (s.writeBack w ns sel gid) := by
  unfold State.writeBack
  extract_lets u
  have h0 : MemStep s u := MemStep.ite (MemStep.refl s) (State.basinHome_step s w sel gid)
  refine h0.trans (MemStep.ite (MemStep.refl u) (foldl_memStep _ ?_ _ _))
  intro s c
  extract_lets m0 v
  exact MemStep.trans (t := v) (MemStep.l1 s _) (MemStep.ite (State.homePut_step _ _ _ _ _ _ _)
    (MemStep.ite (State.basinTake_step v w ns c.wa c.val c.poison gid)
      ((State.homePut_step v (some w.die) w.key c.wa c.val c.poison gid).trans (State.basinClean_step _ _))))

/-- R147, R268: a discard drops clean words of the caches. -/
theorem State.discardClean_step (s : State) (w : Who) (basinToo : Bool) (sel : Nat → Bool) :
    MemStep s (s.discardClean w basinToo sel) := MemStep.mem s _ rfl rfl rfl

/-- R172: what an acquire notes leaves memory as it is. -/
theorem State.sawAt_step (s : State) (gid scope : Nat) : MemStep s (s.sawAt gid scope) := MemStep.mem s _ rfl rfl rfl

/-- R172: what a release carries moves outwards. -/
theorem State.carry_step (s : State) (w : Who) (gid scope : Nat) (op : Option Nat) : MemStep s (s.carry w gid scope op) := by
  unfold State.carry
  extract_lets k0 t
  have h : MemStep s t := MemStep.ite (State.writeBack_step s w scope _ op) (State.basinHome_step s w _ op)
  refine MemStep.trans ?_ (State.mergeSnoops_step _ k0)
  exact h.trans (MemStep.mem t _ rfl rfl rfl)

theorem readPlan_step (w : Who) (ty : ReqTy) (xs : List (Nat × Nat)) (s : State) : MemStep s (readPlan w ty xs s).1 := by
  induction xs generalizing s with
  | nil => exact MemStep.refl s
  | cons x xs ih =>
    unfold readPlan
    exact (State.readWord_step s w ty (x.1 / 4)).trans (ih _)

theorem writePlan_step (w : Who) (ty : ReqTy) (gid : Option Nat) (xs : List (Nat × Nat)) (bs : List W8) (s : State) :
    MemStep s (writePlan w ty gid xs bs s) := by
  induction xs generalizing s bs with
  | nil => exact MemStep.refl s
  | cons x xs ih =>
    unfold writePlan
    exact (State.writeWord_step s w ty (x.1 / 4) _ _ gid).trans (ih _ _)

/-- A read through a port changes the caches alone, and for HOST words brings dirty copies home. -/
theorem Port.read_step (p : Port) (s : State) (a n : Nat) : MemStep s (p.read s a n).1 := by
  unfold Port.read
  dsimp only
  split
  · exact MemStep.refl s
  · split
    · exact MemStep.refl s
    · exact MemStep.refl s
    · exact readPlan_step p.who p.ty _ s

/-- A write through a port outside TARN changes the memory alone. -/
theorem Port.write_step (p : Port) (s : State) (a : Nat) (bs : List W8) (gid : Option Nat) (h : p.space ≠ spTarn) :
    MemStep s (p.write s a bs gid).1 := by
  unfold Port.write
  rw [if_neg h]
  split
  · exact MemStep.refl s
  · exact MemStep.refl s
  · exact writePlan_step p.who p.ty gid _ bs s

/-- A write through a TARN port changes the tarn of its team alone. -/
theorem Port.write_tarn (p : Port) (s : State) (a : Nat) (bs : List W8) (gid : Option Nat) (h : p.space = spTarn) :
    p.write s a bs gid =
      (s.updTeam p.tid fun t => { t with tarn := SMap.setAll t.tarn (bs.zipIdx.map fun b => (a + b.2, b.1)) }, .ok ()) := by
  unfold Port.write
  rw [if_pos h]

theorem foldl_memStep_fst {α β : Type} (f : State × β → α → State × β) (hf : ∀ a x, MemStep a.1 (f a x).1) (xs : List α)
    (a : State × β) : MemStep a.1 (xs.foldl f a).1 := by
  induction xs generalizing a with
  | nil => exact MemStep.refl _
  | cons x xs ih => exact (hf a x).trans (ih _)

/-- Writes of the control die at the homes change the memory alone. -/
theorem State.homeWriteBytes_step (s : State) (key pa : Nat) (bs : List W8) (src : Option Nat) (gid : Option Nat) :
    MemStep s (s.homeWriteBytes key pa bs src gid) := by
  refine MemStep.trans (foldl_memStep_fst _ ?_ _ (s, bs)) (State.mergeSnoops_step _ _)
  intro a x
  dsimp only
  refine MemStep.trans ?_ (State.homeWrite_step _ src key (x.1 / 4) _ _ gid)
  exact MemStep.ite (State.hostTake_step a.1 _ _) (MemStep.refl _)

/-- R61, R278: the writes of the control die that have waited change the memory alone, each when its turn comes. -/
theorem Later.perform_step (w : Later) (s : State) : MemStep s (w.perform s) := by
  unfold Later.perform
  split
  · exact State.homeWriteBytes_step s _ _ _ none none
  · exact MemStep.trans (MemStep.ite (State.hostTake_step s _ _) (MemStep.refl s)) (State.homeWriteBytes_step _ _ _ _ none none)

theorem State.runLater_step (ws : List Later) (s : State) : MemStep s (State.runLater ws s) := by
  induction ws generalizing s with
  | nil => exact MemStep.mem s _ rfl rfl rfl
  | cons w rest ih =>
    unfold State.runLater
    split
    · exact MemStep.mem s _ rfl rfl rfl
    · exact (Later.perform_step w s).trans (ih _)

theorem State.settleLater_step (s : State) : MemStep s s.settleLater := State.runLater_step _ s

theorem State.writeAfter_step (s : State) (k0 key pa : Nat) (bytes : Option (List W8)) : MemStep s (s.writeAfter k0 key pa bytes) := by
  unfold State.writeAfter
  extract_lets w
  exact MemStep.trans (MemStep.mem s { s.mem with later := s.mem.later ++ [w] } rfl rfl rfl) (State.settleLater_step _)

/-- A cleared shadow is no byte of memory. -/
theorem State.clearShadows_step (s : State) (ctx : Nat) (tarn : Option Nat) (addr n : Nat) : MemStep s (s.clearShadows ctx tarn addr n) :=
  MemStep.mem s _ rfl rfl rfl

/-- R157: frames that are freed take with them what the caches hold of them. -/
theorem State.dropRange_step (s : State) (pa n : Nat) : MemStep s (s.dropRange pa n) := MemStep.mem s _ rfl rfl rfl

/-- The step from s to t leaves the groups and the boot registers alone, and keeps the form of memory; it may change tables of the
contexts and the meres. -/
structure PartStep (s t : State) : Prop where
  boot : t.boot = s.boot
  groups : t.groups = s.groups
  cycles : t.cycles = s.cycles
  cur : t.run.cur = s.run.cur
  form : s.mem.wf = true → t.mem.wf = true

theorem MemStep.part {s t : State} (h : MemStep s t) : PartStep s t := ⟨h.boot, h.groups, h.cycles, h.cur, h.form⟩
theorem PartStep.trans {s t u : State} (h : PartStep s t) (k : PartStep t u) : PartStep s u :=
  ⟨k.boot.trans h.boot, k.groups.trans h.groups, k.cycles.trans h.cycles, k.cur.trans h.cur, fun w => k.form (h.form w)⟩
theorem PartStep.sys (s : State) (x : Sys) : PartStep s { s with sys := x } := ⟨rfl, rfl, rfl, rfl, id⟩

/-- R153: the frame shadow of one address of a page serves every other address of it: two addresses of one mapping that translate have
frames as far apart as they are. -/
theorem State.xlate_same_page (s : State) (c : Ctx) (dom space va va' pa pa' : Nat) (w : Bool) (m : Mapping)
    (hm : c.mapOf va = some m) (hm' : c.mapOf va' = some m) (h : s.xlate c dom space va w = .ok pa)
    (h' : s.xlate c dom space va' w = .ok pa') : pa + (va' - m.va) = pa' + (va - m.va) := by
  have key : ∀ a p, c.mapOf a = some m → s.xlate c dom space a w = .ok p → ∃ f : Nat, p = f + (a - m.va) ∧
      (if m.replicable then (if w ∧ 1 < (c.copiesOf m).length then none else ((c.copiesOf m).find? fun x => x.1 == dom).map (·.2))
        else some m.pa) = some f := by
    intro a p ha hp
    unfold State.xlate at hp
    rw [ha] at hp
    by_cases h1 : space ≠ spStack ∧ c.inStack a = true
    · rw [if_pos h1] at hp; cases hp
    rw [if_neg h1] at hp
    dsimp only at hp
    by_cases h2 : PageKind.space m.kind ≠ (if space = spStack then spGlobal else space)
    · rw [if_pos h2] at hp; cases hp
    rw [if_neg h2] at hp
    by_cases h3 : w = true ∧ (!m.write) = true
    · rw [if_pos h3] at hp; cases hp
    rw [if_neg h3] at hp
    generalize (if m.replicable = true then
      (if w = true ∧ 1 < (c.copiesOf m).length then none else ((c.copiesOf m).find? fun x => x.1 == dom).map (·.2))
      else some m.pa) = f? at hp
    cases f? with
    | none => cases hp
    | some f =>
      dsimp only at hp
      by_cases h4 : backed s.boot.expanders (f + (a - m.va)) = true
      · rw [if_pos h4] at hp; cases hp; exact ⟨f, rfl, rfl⟩
      · rw [if_neg h4] at hp; cases hp
  obtain ⟨f, rfl, hf⟩ := key va pa hm h
  obtain ⟨f', rfl, hf'⟩ := key va' pa' hm' h'
  rw [hf] at hf'
  cases hf'
  omega

theorem State.oneCopy_step (s : State) (c : Ctx) (m : Mapping) (pa : Nat) : PartStep s (s.oneCopy c m pa) := by
  unfold State.oneCopy
  split
  · exact (MemStep.refl s).part
  · exact (foldl_memStep _ (fun s x => State.dropRange_step s _ _) _ s).part.trans (PartStep.sys _ _)

theorem State.taintMeres_step (s : State) (ctx n : Nat) (vas : List Nat) : PartStep s (s.taintMeres ctx n vas) := PartStep.sys s _

/-- A write of the control die changes the memory, the copies of the page that it writes, and the meres that it taints. -/
theorem State.partPut_step (s : State) (c : Ctx) (va : Nat) (bs : List W8) (op : Option Nat) : PartStep s (s.partPut c va bs op).1 := by
  unfold State.partPut
  split
  · exact (MemStep.refl s).part
  · split
    · exact (MemStep.refl s).part
    · dsimp only
      split
      · exact (State.oneCopy_step s c _ _).trans
          ((State.homeWriteBytes_step _ _ _ bs none op).trans (State.clearShadows_step _ _ _ _ _)).part
      · exact (MemStep.refl s).part

theorem State.partWrite_step (s : State) (c : Ctx) (va : Nat) (bs : List W8) (op : Option Nat) :
    PartStep s (s.partWrite c va bs op).1 := by
  have h := State.partPut_step s c va bs op
  unfold State.partWrite
  split
  · rename_i t x heq
    rw [heq] at h
    exact PartStep.trans (t := t) h (State.taintMeres_step t c.id bs.length [va])
  · exact h

end Sys2Proof.Machine
end

