-- ==== Sys2Proof/Laws/Traps.lean ====
section
/-! SUPPORT. What the shared operations do to the form of memory: logging, saving, stopping grids, taking a trap, and the frame of an
issue; and what an effect on a record of State alone leaves as it was. -/

namespace Sys2Proof.Machine

/-- The form of the memory of a state. -/
abbrev State.formed (s : State) : Prop := s.mem.wf = true

/-- A step over the memory alone keeps the form. -/
theorem MemStep.formed {s t : State} (h : MemStep s t) (hs : s.formed) : t.formed := h.form hs

theorem State.putLog_step (s : State) (c : Ctx) (r : FaultRec) : MemStep s (s.putLog c r) :=
  ((State.homeWriteBytes_step s _ _ _ none none).trans (State.writeAfter_step _ _ _ _ _)).trans (State.writeAfter_step _ _ _ _ _)

theorem State.updCtx_formed (s : State) (id : Nat) (f : Ctx → Ctx) (h : s.formed) : (s.updCtx id f).formed := h

theorem State.putLog_formed (s : State) (c : Ctx) (r : FaultRec) (h : s.formed) : (s.putLog c r).formed := (State.putLog_step s c r).form h

theorem State.storeRecord_formed (s : State) (c : Ctx) (r : FaultRec) (h : s.formed) : (s.storeRecord c r).1.formed := by
  unfold State.storeRecord
  dsimp only
  exact State.putLog_formed _ c r (State.updCtx_formed s c.id _ h)

theorem State.writeAfter_formed (s : State) (k0 key pa : Nat) (bytes : Option (List W8)) (h : s.formed) :
    (s.writeAfter k0 key pa bytes).formed := (State.writeAfter_step s k0 key pa bytes).form h

theorem State.dropRecord_formed (s : State) (c : Ctx) (h : s.formed) : (s.dropRecord c).1.formed := by
  unfold State.dropRecord
  dsimp only
  exact State.writeAfter_formed _ _ _ _ _ (State.updCtx_formed s c.id _ h)

theorem State.logRecord_formed (s : State) (ctx : Nat) (r : FaultRec) (h : s.formed) : (s.logRecord ctx r).1.formed := by
  unfold State.logRecord
  split
  · exact h
  · dsimp only
    split
    · exact State.storeRecord_formed s _ _ h
    · split
      · exact State.storeRecord_formed s _ _ h
      · exact State.dropRecord_formed s _ h

theorem State.writeBackAll_step (s : State) (ctx : Nat) (cores : List Nat) (op : Nat) : MemStep s (s.writeBackAll ctx cores op) := by
  unfold State.writeBackAll
  split
  · exact MemStep.refl s
  · rename_i c hc
    exact (foldl_memStep _ (fun s core => State.writeBack_step s _ 3 _ (some op)) _ s).trans (State.mergeSnoops_step _ _)

theorem State.saveGrid_formed (s : State) (id : Nat) (h : s.formed) : (s.saveGrid id).formed := by
  unfold State.saveGrid
  split
  · exact h
  · rename_i x hx
    extract_lets here u
    exact (State.writeBackAll_step u x.ctx _ id).formed h

/-- R60: stopping grids touches no byte of memory. -/
theorem State.stopGrids_mem (s : State) (ids : List Nat) (cause : Nat) (pc : W64) :
    (s.stopGrids ids cause pc).mem.home = s.mem.home ∧ (s.stopGrids ids cause pc).mem.keys = s.mem.keys ∧
      (s.stopGrids ids cause pc).mem.l1 = s.mem.l1 ∧ (s.stopGrids ids cause pc).mem.basin = s.mem.basin := ⟨rfl, rfl, rfl, rfl⟩

theorem State.stopGrids_formed (s : State) (ids : List Nat) (cause : Nat) (pc : W64) (h : s.formed) :
    (s.stopGrids ids cause pc).formed := Mem.wf_of_eq rfl rfl rfl h

/-- R21: a context's lines leave the caches; only its dirty words of host memory go home. -/
theorem State.discardCtx_formed (s : State) (ctx : Nat) (h : s.formed) : (s.discardCtx ctx).formed := by
  unfold State.discardCtx
  extract_lets u
  have hu : u.formed := (foldl_memStep _ (fun s w => State.homePut_step s none 0 _ _ _ none) _ s).formed h
  exact Mem.wf_of_eq (m := u.mem) rfl rfl rfl hu

theorem State.endBySeals_formed (s : State) (ctx : Nat) (h : s.formed) : (s.endBySeals ctx).formed :=
  State.discardCtx_formed _ ctx (State.stopGrids_formed s _ cSeal 0 h)

theorem State.sealFailure_formed (s : State) (ctx : Nat) (h : s.formed) : (s.sealFailure ctx).formed := by
  unfold State.sealFailure
  dsimp only
  split
  · exact State.endBySeals_formed _ ctx h
  · exact h

theorem State.keepTrap_formed (s : State) (ctx gid : Nat) (t : Trap) (h : s.formed) : (s.keepTrap ctx gid t).formed := by
  unfold State.keepTrap
  split
  · exact h
  · rename_i g hg
    dsimp only
    have h1 := State.logRecord_formed s ctx (s.recordOf g 0 (((s.ctx? ctx).map (·.nextImage)).getD 0) t) h
    split
    · rename_i u seq heq; rw [heq] at h1; exact h1
    · rename_i u heq; rw [heq] at h1; exact h1

/-- Taking a trap keeps the form of memory. -/
theorem State.takeTrap_formed (s : State) (gid : Nat) (t : Trap) (h : s.formed) : (s.takeTrap gid t).formed := by
  unfold State.takeTrap
  split
  · exact h
  · split
    · exact h
    · rename_i g0 hg x hx
      extract_lets s1 s2 s3
      have h2 : s2.formed := foldl_keeps State.formed _ (fun s y hs => State.keepTrap_formed s x.ctx y.1 y.2 hs) _ s1
        (foldl_keeps State.formed State.saveGrid (fun s x hs => s.saveGrid_formed x hs) _ s h)
      have h3 : s3.formed := State.stopGrids_formed s2 _ t.cause t.pc h2
      show (if t.cause = cSeal then s3.sealFailure x.ctx else s3 : State).formed
      split
      · exact State.sealFailure_formed s3 x.ctx h3
      · exact h3

/-- The state that an answer of an effect carries. -/
def Res.state : Res → State
  | .done s | .jump s _ | .placed s | .stall s | .trap s _ => s

/-- Whatever an effect answers, the issue keeps the form if the effect's own state has it. -/
theorem Res.out_formed (r : Res) (gid k : Nat) (next : W64) (fin : Group → Group) (h : r.state.formed) (t : State)
    (ht : r.out gid k next fin = .next t) : t.formed := by
  cases r with
  | done s => cases ht; exact h
  | jump s pc => cases ht; exact h
  | placed s => cases ht; exact h
  | stall s => cases ht; exact h
  | trap s x => cases ht; exact State.takeTrap_formed s gid x h

/-- An instruction of programs keeps the form of memory if its effect does. -/
theorem issue_formed (i : Instr) (s : State) (body : Nat → Group → LaneMask → State → Res)
    (hb : ∀ k g sel (u : State), u.formed → (body k g sel u).state.formed) (h : s.formed) (t : State)
    (ht : issue i s body = .next t) : t.formed := by
  unfold issue at ht
  split at ht
  · cases ht
  · rename_i gid k _
    split at ht
    · cases ht
    · rename_i g0 _
      split at ht
      · cases ht
      · dsimp only at ht
        generalize (if waitsForPending i = true then g0.closeWindows k else g0) = g at ht
        by_cases hh : s.holds g k i = true
        · rw [if_pos hh] at ht
          split at ht
          · cases ht; exact h
          · split at ht
            · cases ht; exact (State.carry_step _ _ _ _ _).formed h
            · cases ht; exact h
        · rw [if_neg hh] at ht
          by_cases ha : g.acts k i = true
          · rw [if_pos ha] at ht
            exact Res.out_formed _ _ _ _ _ (hb k g _ (s.setGroup g) h) t ht
          · rw [if_neg ha] at ht; cases ht; exact h

/-- An effect on the group alone keeps it. -/
theorem onGroup_formed (f : Nat → LaneMask → Group → Group) (k : Nat) (g : Group) (sel : LaneMask) (u : State) (h : u.formed) :
    (onGroup f k g sel u).state.formed := h

theorem inCore_formed (la : BitVec 4) (i : Instr) (f : Nat → LaneMask → Group → Writes) (k : Nat) (g : Group) (sel : LaneMask)
    (u : State) (h : u.formed) : (inCore la i f k g sel u).state.formed := h

theorem State.acquire_step (s : State) (g : Group) (scope : Nat) : MemStep s (s.acquire g scope) := by
  unfold State.acquire
  extract_lets u
  have h : MemStep s u := State.sawAt_step s g.gid scope
  exact h.trans (MemStep.ite (MemStep.refl u) (State.discardClean_step u _ false _))

end Sys2Proof.Machine
end

