-- ==== Sys2Proof/Tests/Slice0.lean ====
section
/-! SUPPORT. Tests: instructions that are not well formed, words of the encoding, single steps, and witnesses of the hypotheses of the
statements. The expected results come from the spec. -/

namespace Sys2Proof.Tests

open Sys2Proof Sys2Proof.Machine

/-! ## Well-formed instructions (R71 to R77, and the entries of 12 to 14) -/

/-- R75, R76: a guard p48, and an assigned opcode under the constructor of the unassigned ones. -/
theorem test_wf_guard : Instr.wf (.nop (.pred 48 false)) = false ∧ Instr.wf (.nop (.pred 47 true)) = true ∧
    Instr.wf (.unassignedOpcode 0x27) = false ∧ Instr.wf (.br (.pred 63 false) 0) = false ∧ Instr.wf (.brv (.pred 48 true) ⟨0, 0⟩) = false ∧
    Instr.wf (.ret (.pred 50 false)) = false := by decide

/-- R72, R369: odd scalars of 64-bit operands, and a saturate bit where there is none. -/
theorem test_wf_scalar : Instr.wf (.sadd .always ⟨.i64, false, 41, .s 42, .s 44⟩) = false ∧
    Instr.wf (.sadd .always ⟨.i64, false, 40, .s 41, .s 44⟩) = false ∧
    Instr.wf (.sadd .always ⟨.u64, false, 40, .s 42, .s 45⟩) = false ∧
    Instr.wf (.sshl .always ⟨.u64, false, 40, .s 42, .s 45⟩) = true ∧ Instr.wf (.smulh .always ⟨.i32, true, 40, .s 42, .s 45⟩) = false ∧
    Instr.wf (.sdiv .always 3 ⟨.i32, true, 40, .s 42, .s 45⟩) = false ∧ Instr.wf (.scmp .always ⟨.i64, .lt, 41, .s 43, .s 44⟩) = false ∧
    Instr.wf (.smov .always ⟨.i64, 41, .s 42⟩) = false ∧ Instr.wf (.sclz .always ⟨.i64, 41, .s 43⟩) = false ∧
    Instr.wf (.sli .always ⟨.u32, 40, .long 0x100000000⟩) = false ∧ Instr.wf (.sli .always ⟨.u64, 41, .short 1⟩) = false ∧
    Instr.wf (.sbfx .always ⟨.i64, 40, .s 43, 50⟩) = false ∧ Instr.wf (.spopc .always ⟨.u32, 40, .p 48⟩) = false := by decide

/-- R315, R318, R353 to R356: the operands of branches and predicates. -/
theorem test_wf_control : Instr.wf (.brc .always ⟨.cmp .eq true (.s 41) (.imm 0), 2⟩) = false ∧
    Instr.wf (.brc .always ⟨.anyS false true 41, 2⟩) = false ∧ Instr.wf (.brc .always ⟨.anyP true 48, 2⟩) = false ∧
    Instr.wf (.callInd .always ⟨0, 41⟩) = false ∧ Instr.wf (.loop .always ⟨15, 0⟩) = false ∧
    Instr.wf (.plog .always ⟨8, 48, 1, 2⟩) = false ∧ Instr.wf (.plog .always ⟨8, 1, 48, 2⟩) = false ∧
    Instr.wf (.plog .always ⟨8, 1, 2, 48⟩) = false ∧ Instr.wf (.pmov .always (.pp 48 1)) = false ∧
    Instr.wf (.pmov .always (.ps 1 510)) = false ∧ Instr.wf (.pmov .always (.pi 48 true)) = false ∧
    Instr.wf (.pmov .always (.sp 510 1)) = false ∧ Instr.wf (.pred .always ⟨.any, 40, 48⟩) = false := by decide

/-- Table 5-7: the operands of the pointer instructions. -/
theorem test_wf_pointer : Instr.wf (.pder .always ⟨.quad 41, none, 1, 2⟩) = false ∧
    Instr.wf (.pder .always ⟨.tail (.imm 256), none, 1, 2⟩) = false ∧ Instr.wf (.pder .always ⟨.quad 40, some 0x13, 1, 2⟩) = false ∧
    Instr.wf (.pclass .always ⟨3, 1, 2⟩) = false ∧ Instr.wf (.widen .always ⟨2, some 3, 1, 2⟩) = false ∧
    Instr.wf (.pqry .always ⟨12, 40, 2⟩) = false ∧ Instr.wf (.alloc .always ⟨0x0A, 2, 2, .imm 1⟩) = false ∧
    Instr.wf (.alloc .always ⟨0x0A, 1, 2, .imm 256⟩) = false ∧ Instr.wf (.alloc .always ⟨0x13, 1, 2, .imm 1⟩) = false ∧
    Instr.wf (.narrow (.pred 48 false) ⟨0, 5, 4⟩) = false := by decide

/-- R71, Tables 14-2 and 12-9: odd names of 64-bit lanes, and types and bits that an entry does not accept. -/
theorem test_wf_vector : Instr.wf (.vadd .always ⟨.i64, false, 9, 8, .v 8⟩) = false ∧
    Instr.wf (.vadd .always ⟨.i64, false, 8, 9, .v 8⟩) = false ∧ Instr.wf (.vadd .always ⟨.i64, false, 8, 8, .v 9⟩) = false ∧
    Instr.wf (.vshl .always ⟨.i64, false, 8, 8, .v 9⟩) = true ∧ Instr.wf (.vand .always ⟨.i32, true, 8, 8, .v 9⟩) = false ∧
    Instr.wf (.vabs .always ⟨.u32, false, 8, 8⟩) = false ∧ Instr.wf (.vpopc .always ⟨.u32, true, 8, 8⟩) = false ∧
    Instr.wf (.vpopc .always ⟨.u64, false, 9, 9⟩) = false ∧ Instr.wf (.vcmp .always ⟨.i32, .eq, 48, 8, .v 9⟩) = false ∧
    Instr.wf (.vmov .always ⟨.flt .fp64, 9, 8⟩) = false ∧ Instr.wf (.vbcast .always ⟨.int .u64, 8, .s 41⟩) = false ∧
    Instr.wf (.vbfx .always ⟨.i64, 8, 9, .v 9⟩) = false ∧ Instr.wf (.fadd .always ⟨.fp64, .rne, false, 8, 8, .sc (.s 41)⟩) = false ∧
    Instr.wf (.fmin .always ⟨.fp64, 9, 8, .v 8⟩) = false ∧ Instr.wf (.fsgn .always ⟨.fp64, .neg, 8, 9, .v 8⟩) = false ∧
    Instr.wf (.fsqrt .always 0 ⟨.fp32, .rne, true, 8, 9⟩) = false ∧ Instr.wf (.fexp2 .always 0 ⟨.fp64, .rne, false, 8, 8⟩) = false ∧
    Instr.wf (.ftrig .always 0 ⟨.fp64, .rne, false, 8, 8⟩) = false ∧ Instr.wf (.fcmp .always ⟨.fp32, .un, 48, 8, .v 9⟩) = false ∧
    Instr.wf (.fclass .always ⟨.fp64, 8, 9⟩) = false := by decide

/-- R319, R320, R357, R397 to R404: conversions and cross-lane instructions. -/
theorem test_wf_cross : Instr.wf (.cvt .always ⟨.int .i64, .flt .fp32, .rne, false, 9, 8⟩) = false ∧
    Instr.wf (.cvt .always ⟨.int .i32, .flt .fp64, .rne, false, 9, 9⟩) = false ∧
    Instr.wf (.qnt .always ⟨.i8, .fp32, .rne, false, 0, 2045, .v 4⟩) = false ∧
    Instr.wf (.qnt .always ⟨.i8, .fp64, .rne, false, 0, 8, .v 4⟩) = false ∧ Instr.wf (.dqnt .always ⟨.i4, 2041, 8, .v 4⟩) = false ∧
    Instr.wf (.amax .always 0 (.lanes .fp64 40 9)) = false ∧ Instr.wf (.vperm .always 0 ⟨.int .u64, 8, 9, .v 9⟩) = false ∧
    Instr.wf (.vrot .always ⟨.int .u64, false, 9, 8, .imm 1⟩) = false ∧
    Instr.wf (.vscan .always 0 ⟨.flt .fp32, .xor, .rne, false, false, 8, 9⟩) = false ∧
    Instr.wf (.vrdc .always 0 ⟨.int .i32, .add, .rtz, false, 40, 9⟩) = false ∧
    Instr.wf (.vrdc .always 0 ⟨.int .i32, .min, .rne, true, 40, 9⟩) = false ∧ Instr.wf (.vconf .always ⟨false, 3, 9⟩) = false ∧
    Instr.wf (.velect .always ⟨true, 3, 9⟩) = false := by decide

/-- R82, R302, R376, R388, R405, R409: memory and engines. -/
theorem test_wf_memory : Instr.wf (.ld .always 0 ⟨.u64, 1, .v 9, .sc (.imm 0), none⟩) = false ∧
    Instr.wf (.ld .always 0 ⟨.ptr, 1, .v 8, .sc (.imm 0), none⟩) = false ∧ Instr.wf (.st .always ⟨.i32, 1, .a 3, .sc (.imm 0), none⟩) = false ∧
    Instr.wf (.st .always ⟨.i32, 1, .s 40, .vec 3, none⟩) = false ∧ Instr.wf (.st .always ⟨.i32, 1, .s 40, .stream 3, none⟩) = false ∧
    Instr.wf (.atom .always 0 ⟨.ptr, 1, .sc (.imm 0), 0, .add, false, 8⟩) = false ∧
    Instr.wf (.atom .always 0 ⟨.u64, 1, .sc (.imm 0), 0, .cas, true, 10⟩) = false ∧ Instr.wf (.sgen .always ⟨1, 5, .imm 256⟩) = false ∧
    Instr.wf (.xfer .always ⟨6, 2, 49⟩) = false ∧ Instr.wf (.xchain .always ⟨1, 41⟩) = false ∧ Instr.wf (.wait .always ⟨1, .imm 256⟩) = false ∧
    Instr.wf (.bari .always ⟨1, .imm 0⟩) = false ∧ Instr.wf (.syncw .always ⟨40, 1, .imm 256⟩) = false ∧
    Instr.wf (.bara (.pred 48 false) 3) = false ∧ Instr.wf (.barw (.pred 48 false) ⟨3, true⟩) = false := by decide

/-- R225, R229 to R239, R375, R424: the matrix instructions. -/
theorem test_wf_matrix : Instr.wf (.mma .always ⟨.bf16, false, false, none, 2033, 0, 3, 1⟩) = false ∧
    Instr.wf (.mma .always ⟨.fp64, false, false, none, 33, 0, 3, 1⟩) = false ∧
    Instr.wf (.mma .always ⟨.bf16, false, false, some 40, 32, 0, 3, 1⟩) = false ∧
    Instr.wf (.mmas .always ⟨.bf16, false, false, 41, 32, 0, 3, 1⟩) = false ∧ Instr.wf (.mmas .always ⟨.i8, false, false, 40, 32, 0, 3, 1⟩) = false ∧
    Instr.wf (.mmas .always ⟨.bf16, false, false, 40, 2017, 0, 3, 1⟩) = false ∧
    Instr.wf (.mmab .always ⟨.i8, 0, 1, false, false, .imm 1, 32, 0, 3, 1⟩) = false ∧
    Instr.wf (.mmab .always ⟨.bf16, 4, 1, false, false, .imm 1, 32, 0, 3, 1⟩) = false ∧
    Instr.wf (.mmab .always ⟨.bf16, 0, 1, false, false, .imm 256, 32, 0, 3, 1⟩) = false ∧
    Instr.wf (.scacc .always ⟨.g32, 3, false, false, 2045, 0, 3, 0, 1⟩) = false ∧
    Instr.wf (.zmovZ2v .always 0 ⟨0, none, 1, 1921⟩) = false ∧ Instr.wf (.zmovZ2v .always 0 ⟨1, none, 1, 1921⟩) = true ∧
    Instr.wf (.zmovV2z .always 0 ⟨1, none, 1, 1921⟩) = false ∧ Instr.wf (.xsect .always 0 ⟨1, 1, 32⟩) = false ∧
    Instr.wf (.xsect .always 0 ⟨1, 2, 2047⟩) = false ∧ Instr.wf (.xformFwd .always ⟨4, .imm 256, none⟩) = false ∧
    Instr.wf (.zmovZ2m (.pred 48 false) 0 ⟨none, 1, 2, 3⟩) = false ∧ Instr.wf (.spx (.pred 48 false) ⟨false, 1, 2, 3, 4, 5⟩) = false := by decide

/-- Table 9-1, R284, R364, R365, R363, R408: meetings, populations and specials. -/
theorem test_wf_rest : Instr.wf (.mjoin .always ⟨40, 2, .imm 64⟩) = false ∧ Instr.wf (.mwait .always ⟨8, 2, 41⟩) = false ∧
    Instr.wf (.mqry .always ⟨10, 40, 2⟩) = false ∧ Instr.wf (.rdcn .always ⟨.fp64, .sum, 0, 40, 64⟩) = false ∧
    Instr.wf (.rdcn .always ⟨.fp32, .sum, 15, 2033, 64⟩) = false ∧ Instr.wf (.rdget .always ⟨.fp32, .sum, 0, 40, 64, 66⟩) = false ∧
    Instr.wf (.rsamp ⟨50, 60, .imm 0⟩) = false ∧ Instr.wf (.rng .always 0 ⟨2045, 32, 36⟩) = false ∧
    Instr.wf (.rng .always 0 ⟨40, 33, 36⟩) = false ∧ Instr.wf (.rng .always 0 ⟨40, 32, 37⟩) = false ∧
    Instr.wf (.reord .always ⟨5, 8, 9⟩) = false ∧ Instr.wf (.reord .always ⟨0, 8, 9⟩) = false ∧ Instr.wf (.reord .always ⟨4, 2045, 9⟩) = false ∧
    Instr.wf (.lwait .always ⟨40, .imm 256⟩) = false ∧ Instr.wf (.rdsr .always ⟨2, .v 9⟩) = false ∧ Instr.wf (.rdsr .always ⟨5, .v 8⟩) = false ∧
    Instr.wf (.rdsr .always ⟨0x10, .s 41⟩) = false ∧ Instr.wf (.rdsr .always ⟨0x10, .v 40⟩) = false ∧ Instr.wf (.wrsr .always ⟨0x24, 40⟩) = false ∧
    Instr.wf (.wrsr .always ⟨0x20, 41⟩) = false ∧ Instr.wf (.yield (.pred 48 false) 40) = false ∧ Instr.wf (.trap (.pred 48 false) (.imm 7)) = false ∧
    Instr.wf (.svcLog (.pred 48 false) ⟨40, .imm 7⟩) = false ∧ Instr.wf (.launch (.pred 48 false) ⟨40, 1⟩) = false := by decide

/-! ## Decoding (Tables 3-1 to 3-4, and the field table of each entry): the words are put together from the fields of the spec -/

/-- Table 3-1: an unguarded word from its fields OP, L, LA, D, A, B and F. -/
def word (op l la d a b f : Nat) : BitVec 64 :=
  BitVec.ofNat 64 (op + 2 ^ 8 * l + 2 ^ 9 * la + 2 ^ 13 * 0x3F + 2 ^ 20 * d + 2 ^ 31 * a + 2 ^ 42 * b + 2 ^ 53 * f)

/-- Table 3-8: the arithmetic F field, from the type, the rounding, the broadcast bit, the saturate bit and the per-instruction code. -/
def arith (ty rnd bc sat pi : Nat) : Nat := ty + 16 * rnd + 64 * bc + 128 * sat + 256 * pi

/-- 13: OP 0x01 to 0x0E, with the types I32, U32, I64 and U64 of Table 3-8. -/
theorem test_decode_scalar :
    decode (word 0x00 0 0 0 0 0 0) 0 = .ok (.nop .always) ∧
    decode (word 0x01 0 0 40 41 0x605 (arith 0 0 0 1 0)) 0 = .ok (.sadd .always ⟨.i32, true, 40, .s 41, .imm 5⟩) ∧
    decode (word 0x02 0 0 40 42 44 (arith 2 0 0 0 0)) 0 = .ok (.ssub .always ⟨.i64, false, 40, .s 42, .s 44⟩) ∧
    decode (word 0x03 0 0 40 0x7FF 44 (arith 1 0 0 1 0)) 0 = .ok (.smul .always ⟨.u32, true, 40, .imm 511, .s 44⟩) ∧
    decode (word 0x04 0 0 40 42 44 (arith 3 0 0 0 0)) 0 = .ok (.smulh .always ⟨.u64, false, 40, .s 42, .s 44⟩) ∧
    decode (word 0x05 0 9 40 42 44 (arith 0 0 0 0 0)) 0 = .ok (.sdiv .always 9 ⟨.i32, false, 40, .s 42, .s 44⟩) ∧
    decode (word 0x06 0 15 40 42 44 (arith 1 0 0 0 0)) 0 = .ok (.srem .always 15 ⟨.u32, false, 40, .s 42, .s 44⟩) ∧
    decode (word 0x07 0 0 41 42 44 (arith 1 0 0 0 0)) 0 = .ok (.sand .always ⟨.u32, false, 41, .s 42, .s 44⟩) ∧
    decode (word 0x08 0 0 41 42 44 (arith 1 0 0 0 0)) 0 = .ok (.sor .always ⟨.u32, false, 41, .s 42, .s 44⟩) ∧
    decode (word 0x09 0 0 41 42 44 (arith 1 0 0 0 0)) 0 = .ok (.sxor .always ⟨.u32, false, 41, .s 42, .s 44⟩) ∧
    decode (word 0x0A 0 0 40 42 45 (arith 3 0 0 1 0)) 0 = .ok (.sshl .always ⟨.u64, true, 40, .s 42, .s 45⟩) ∧
    decode (word 0x0B 0 0 40 42 45 (arith 3 0 0 0 0)) 0 = .ok (.sshr .always ⟨.u64, false, 40, .s 42, .s 45⟩) ∧
    decode (word 0x0C 0 0 40 42 45 (arith 2 0 0 0 0)) 0 = .ok (.ssra .always ⟨.i64, false, 40, .s 42, .s 45⟩) ∧
    decode (word 0x0D 0 0 40 42 45 (arith 0 0 0 0 0)) 0 = .ok (.smin .always ⟨.i32, false, 40, .s 42, .s 45⟩) ∧
    decode (word 0x0E 0 0 40 42 45 (arith 1 0 0 0 0)) 0 = .ok (.smax .always ⟨.u32, false, 40, .s 42, .s 45⟩) := by decide

/-- 13: OP 0x0F to 0x16 (R371 to R374). -/
theorem test_decode_scalar_more :
    decode (word 0x0F 0 0 41 42 0x600 (arith 2 0 0 0 5)) 0 = .ok (.scmp .always ⟨.i64, .ge, 41, .s 42, .imm 0⟩) ∧
    decode (word 0x10 0 0 40 42 45 (arith 0 0 0 0 0)) 0 = .ok (.ssel .always ⟨.i32, false, 40, .s 42, .s 45⟩) ∧
    decode (word 0x11 0 0 40 42 0 1) 0 = .ok (.smov .always ⟨.u32, 40, .s 42⟩) ∧
    decode (word 0x12 0 0 40 0x123 0x456 0) 0 = .ok (.sli .always ⟨.i32, 40, .short (0x456#11 ++ 0x123#11)⟩) ∧
    decode (word 0x12 1 0 40 0 0 3) 0xFEDCBA9876543210 = .ok (.sli .always ⟨.u64, 40, .long 0xFEDCBA9876543210⟩) ∧
    decode (word 0x13 0 0 40 42 45 2) 0 = .ok (.sbfx .always ⟨.i64, 40, .s 42, 45⟩) ∧
    decode (word 0x14 0 0 41 42 45 1) 0 = .ok (.sbfi .always ⟨.u32, 41, .s 42, 45⟩) ∧
    decode (word 0x15 0 0 41 0x407 0 1) 0 = .ok (.spopc .always ⟨.u32, 41, .p 7⟩) ∧
    decode (word 0x16 0 0 41 0x7FF 0 0) 0 = .ok (.sclz .always ⟨.i32, 41, .imm 511⟩) := by decide

/-- 12, 13: OP 0x20 to 0x39. -/
theorem test_decode_control :
    decode (word 0x20 1 0 0 0 0 0) 0xFFFFFFFE = .ok (.br .always 0xFFFFFFFE) ∧
    decode (word 0x21 1 0 0 42 0x600 (5 + 8)) 4 = .ok (.brc .always ⟨.cmp .geu true (.s 42) (.imm 0), 4⟩) ∧
    decode (word 0x21 1 0 0 0x403 0 7) 4 = .ok (.brc .always ⟨.anyP true 3, 4⟩) ∧
    decode (word 0x22 1 0 0 0 0 0) 0x0000002000000008 = .ok (.brv .always ⟨8, 32⟩) ∧
    decode (word 0x23 0 0 0 0 0 0) 0 = .ok .join ∧
    decode (word 0x24 1 0 0 1 0x201 0) 0xF = .ok (.jtab .always ⟨1, 1, 15⟩) ∧
    decode (word 0x25 1 0 0 0 0 0x10) 0x40 = .ok (.call .always ⟨0x10, 0x40⟩) ∧
    decode (word 0x25 1 0 0 42 0 (0x10 + 256)) 0 = .ok (.callInd .always ⟨0x10, 42⟩) ∧
    decode (word 0x26 0 0 0 0 0 0) 0 = .ok (.ret .always) ∧
    decode (word 0x27 0 0 0 0 0 0) 0 = .ok (.exit .always) ∧
    decode (word 0x28 1 0 0 34 0 0) 0xFFFFFFF0 = .ok (.loop .always ⟨34, 0xFFFFFFF0⟩) ∧
    decode (word 0x30 0 0 0x403 0x401 0x402 8) 0 = .ok (.plog .always ⟨8, 3, 1, 2⟩) ∧
    decode (word 0x31 0 0 40 0x402 0 0) 0 = .ok (.pmov .always (.sp 40 2)) ∧
    decode (word 0x32 0 0 40 0x402 0 (256 * 4)) 0 = .ok (.pred .always ⟨.last, 40, 2⟩) ∧
    decode (word 0x34 0 0 0x206 0x205 40 (0x40 + 0x0A)) 0 = .ok (.pder .always ⟨.quad 40, some 0x0A, 6, 5⟩) ∧
    decode (word 0x34 0 0 0x206 0x205 0x604 0x80) 0 = .ok (.pder .always ⟨.tail (.imm 4), none, 6, 5⟩) ∧
    decode (word 0x35 0 0 0x206 0x205 0 2) 0 = .ok (.pclass .always ⟨2, 6, 5⟩) ∧
    decode (word 0x36 0 0 0x206 0x205 0 1) 0 = .ok (.narrow .always ⟨1, 6, 5⟩) ∧
    decode (word 0x37 0 0 0x206 0x205 0 (2 + 8 + 2 * 16)) 0 = .ok (.widen .always ⟨2, some 2, 6, 5⟩) ∧
    decode (word 0x38 0 0 40 0x205 0 11) 0 = .ok (.pqry .always ⟨11, 40, 5⟩) ∧
    decode (word 0x39 0 0 0x207 0x202 0x640 0x0A) 0 = .ok (.alloc .always ⟨0x0A, 7, 2, .imm 64⟩) := by decide

/-- 14: OP 0x40 to 0x4F, with the B operand a name, or broadcast from a scalar (F[6]). -/
theorem test_decode_vector :
    decode (word 0x40 0 0 9 8 8 (arith 0 0 0 0 0)) 0 = .ok (.vadd .always ⟨.i32, false, 9, 8, .v 8⟩) ∧
    decode (word 0x41 0 0 10 8 42 (arith 3 0 1 1 0)) 0 = .ok (.vsub .always ⟨.u64, true, 10, 8, .sc (.s 42)⟩) ∧
    decode (word 0x42 0 0 9 8 0x7FF (arith 0 0 1 0 0)) 0 = .ok (.vmul .always ⟨.i32, false, 9, 8, .sc (.imm 511)⟩) ∧
    decode (word 0x43 0 0 9 8 7 (arith 1 0 0 0 0)) 0 = .ok (.vmulh .always ⟨.u32, false, 9, 8, .v 7⟩) ∧
    decode (word 0x44 0 0 9 8 7 (arith 1 0 0 1 0)) 0 = .ok (.vmad .always ⟨.u32, true, 9, 8, .v 7⟩) ∧
    decode (word 0x45 0 4 9 8 7 (arith 1 0 0 0 0)) 0 = .ok (.vdiv .always 4 ⟨.u32, false, 9, 8, .v 7⟩) ∧
    decode (word 0x46 0 5 9 8 7 (arith 0 0 0 0 0)) 0 = .ok (.vrem .always 5 ⟨.i32, false, 9, 8, .v 7⟩) ∧
    decode (word 0x47 0 0 9 8 7 (arith 1 0 0 0 0)) 0 = .ok (.vand .always ⟨.u32, false, 9, 8, .v 7⟩) ∧
    decode (word 0x48 0 0 9 8 7 (arith 1 0 0 0 0)) 0 = .ok (.vor .always ⟨.u32, false, 9, 8, .v 7⟩) ∧
    decode (word 0x49 0 0 9 8 7 (arith 1 0 0 0 0)) 0 = .ok (.vxor .always ⟨.u32, false, 9, 8, .v 7⟩) ∧
    decode (word 0x4A 0 0 10 8 7 (arith 2 0 0 1 0)) 0 = .ok (.vshl .always ⟨.i64, true, 10, 8, .v 7⟩) ∧
    decode (word 0x4B 0 0 10 8 7 (arith 3 0 0 0 0)) 0 = .ok (.vshr .always ⟨.u64, false, 10, 8, .v 7⟩) ∧
    decode (word 0x4C 0 0 10 8 7 (arith 2 0 0 0 0)) 0 = .ok (.vsra .always ⟨.i64, false, 10, 8, .v 7⟩) ∧
    decode (word 0x4D 0 0 9 8 7 (arith 0 0 0 0 0)) 0 = .ok (.vmin .always ⟨.i32, false, 9, 8, .v 7⟩) ∧
    decode (word 0x4E 0 0 9 8 7 (arith 0 0 0 0 0)) 0 = .ok (.vmax .always ⟨.i32, false, 9, 8, .v 7⟩) ∧
    decode (word 0x4F 0 0 9 8 0 (arith 0 0 0 1 0)) 0 = .ok (.vabs .always ⟨.i32, true, 9, 8⟩) := by decide

/-- 14: OP 0x50 to 0x56. -/
theorem test_decode_vector_more :
    decode (word 0x50 0 0 0x401 8 16 (arith 3 0 0 0 0)) 0 = .ok (.vcmp .always ⟨.u64, .eq, 1, 8, .v 16⟩) ∧
    decode (word 0x51 0 0 9 8 7 (arith 1 0 0 0 0)) 0 = .ok (.vsel .always ⟨.u32, false, 9, 8, .v 7⟩) ∧
    decode (word 0x52 0 0 10 8 0 5) 0 = .ok (.vmov .always ⟨.flt .fp64, 10, 8⟩) ∧
    decode (word 0x53 0 0 12 32 0 1) 0 = .ok (.vbcast .always ⟨.int .u32, 12, .s 32⟩) ∧
    decode (word 0x54 0 0 12 8 41 (arith 0 0 1 0 0)) 0 = .ok (.vbfx .always ⟨.i32, 12, 8, .s 41⟩) ∧
    decode (word 0x55 0 0 13 8 0 3) 0 = .ok (.vpopc .always ⟨.u64, false, 13, 8⟩) ∧
    decode (word 0x56 0 0 13 9 0 0) 0 = .ok (.vclz .always ⟨.i32, false, 13, 9⟩) := by decide

/-- 12: OP 0x70 to 0x7F, with the types FP32, FP64, FP16 and BF16. -/
theorem test_decode_float :
    decode (word 0x70 0 0 10 11 12 (arith 4 1 0 0 0)) 0 = .ok (.fadd .always ⟨.fp32, .rtz, false, 10, 11, .v 12⟩) ∧
    decode (word 0x71 0 0 10 12 14 (arith 5 2 0 0 0)) 0 = .ok (.fsub .always ⟨.fp64, .rup, false, 10, 12, .v 14⟩) ∧
    decode (word 0x72 0 0 10 11 40 (arith 6 3 1 1 0)) 0 = .ok (.fmul .always ⟨.fp16, .rdn, true, 10, 11, .sc (.s 40)⟩) ∧
    decode (word 0x73 0 0 10 11 12 (arith 7 0 0 0 0)) 0 = .ok (.ffma .always ⟨.bf16, .rne, false, 10, 11, .v 12⟩) ∧
    decode (word 0x74 0 0 10 11 12 (arith 4 0 0 0 0)) 0 = .ok (.fmin .always ⟨.fp32, 10, 11, .v 12⟩) ∧
    decode (word 0x75 0 0 10 11 12 (arith 4 0 0 0 0)) 0 = .ok (.fmax .always ⟨.fp32, 10, 11, .v 12⟩) ∧
    decode (word 0x76 0 0 10 11 12 (arith 4 0 0 0 1)) 0 = .ok (.fsgn .always ⟨.fp32, .neg, 10, 11, .v 12⟩) ∧
    decode (word 0x77 0 6 10 11 12 (arith 4 0 0 1 0)) 0 = .ok (.fdiv .always 6 ⟨.fp32, .rne, true, 10, 11, .v 12⟩) ∧
    decode (word 0x78 0 6 10 12 0 (arith 5 1 0 0 0)) 0 = .ok (.fsqrt .always 6 ⟨.fp64, .rtz, false, 10, 12⟩) ∧
    decode (word 0x79 0 6 10 12 0 (arith 4 0 0 1 0)) 0 = .ok (.frcp .always 6 ⟨.fp32, .rne, true, 10, 12⟩) ∧
    decode (word 0x7A 0 6 10 12 0 (arith 4 0 0 0 0)) 0 = .ok (.frsq .always 6 ⟨.fp32, .rne, false, 10, 12⟩) ∧
    decode (word 0x7B 0 6 10 12 0 (arith 6 0 0 1 0)) 0 = .ok (.fexp2 .always 6 ⟨.fp16, .rne, true, 10, 12⟩) ∧
    decode (word 0x7C 0 6 10 12 0 (arith 7 0 0 0 0)) 0 = .ok (.flog2 .always 6 ⟨.bf16, .rne, false, 10, 12⟩) ∧
    decode (word 0x7D 0 6 10 12 0 (arith 4 0 0 0 1)) 0 = .ok (.ftrig .always 6 ⟨.fp32, .rne, true, 10, 12⟩) ∧
    decode (word 0x7E 0 0 0x402 12 14 (arith 4 0 0 0 7)) 0 = .ok (.fcmp .always ⟨.fp32, .ord, 2, 12, .v 14⟩) ∧
    decode (word 0x7F 0 0 13 12 0 5) 0 = .ok (.fclass .always ⟨.fp64, 13, 12⟩) := by decide

/-- 12 to 14: OP 0x90 to 0x99. -/
theorem test_decode_cross :
    decode (word 0x90 0 0 10 12 4 (arith 2 1 0 1 0)) 0 = .ok (.cvt .always ⟨.int .i64, .flt .fp32, .rtz, true, 10, 12⟩) ∧
    decode (word 0x91 0 0 30 20 0x640 (arith 4 0 1 1 2)) 0 = .ok (.qnt .always ⟨.i8, .fp32, .rne, true, 30, 20, .sc (.imm 64)⟩) ∧
    decode (word 0x92 0 0 30 20 21 (arith 4 0 0 0 5)) 0 = .ok (.dqnt .always ⟨.lns6, 30, 20, .v 21⟩) ∧
    decode (word 0x93 0 3 40 0x602 0 (4 + 256 * 2)) 0 = .ok (.amax .always 3 (.tile 40 2)) ∧
    decode (word 0x94 0 2 20 8 9 (arith 1 0 0 0 0)) 0 = .ok (.vperm .always 2 ⟨.int .u32, 20, 8, .v 9⟩) ∧
    decode (word 0x95 0 0 20 8 0x603 (arith 1 0 1 0 1)) 0 = .ok (.vrot .always ⟨.int .u32, true, 20, 8, .imm 3⟩) ∧
    decode (word 0x96 0 2 20 8 0 (arith 0 0 1 1 0)) 0 = .ok (.vscan .always 2 ⟨.int .i32, .add, .rne, true, true, 20, 8⟩) ∧
    decode (word 0x97 0 2 40 8 0 (arith 4 1 0 0 2)) 0 = .ok (.vrdc .always 2 ⟨.flt .fp32, .max, .rtz, false, 40, 8⟩) ∧
    decode (word 0x98 0 0 0x402 8 0 3) 0 = .ok (.vconf .always ⟨true, 2, 8⟩) ∧
    decode (word 0x99 0 0 21 9 0 1) 0 = .ok (.velect .always ⟨false, 21, 9⟩) := by decide

/-- 12 to 14: OP 0xA0 to 0xB6. -/
theorem test_decode_memory :
    decode (word 0xA0 1 3 8 4 0x400 (2 + 32 * 5)) 0xFFFFFFFFFFFF = .ok (.ld .always 3 ⟨.fp32, 2, .v 8, .vec 4, some 0xFFFFFFFFFFFF⟩) ∧
    decode (word 0xA1 0 0 38 36 0 (5 + 32 * 4 + 1024)) 0 = .ok (.st .always ⟨.u64, 5, .s 38, .sc (.s 36), none⟩) ∧
    decode (word 0xA0 0 3 8 0 1 (2 + 512)) 0 = .ok (.ld .always 3 ⟨.native, 2, .v 8, .stream 1, none⟩) ∧
    decode (word 0xA2 1 0 0x788 40 0 (4 + 32 * 4)) 0 = .ok (.atom .always 0 ⟨.u64, 4, .sc (.s 40), 0, .cas, true, 8⟩) ∧
    decode (word 0xA3 0 0 0 40 0 (5 + 32)) 0 = .ok (.sgen .always ⟨1, 5, .s 40⟩) ∧
    decode (word 0xB0 0 0 0x206 0x202 48 0) 0 = .ok (.xfer .always ⟨6, 2, 48⟩) ∧
    decode (word 0xB1 0 0 0 40 0 3) 0 = .ok (.xchain .always ⟨3, 40⟩) ∧
    decode (word 0xB2 0 0 0 0x600 0 2) 0 = .ok (.wait .always ⟨2, .imm 0⟩) ∧
    decode (word 0xB3 0 0 0 0x604 0 15) 0 = .ok (.bari .always ⟨15, .imm 4⟩) ∧
    decode (word 0xB4 0 0 0 0 0 7) 0 = .ok (.bara .always 7) ∧
    decode (word 0xB5 0 0 0 0 0 (7 + 16)) 0 = .ok (.barw .always ⟨7, true⟩) ∧
    decode (word 0xB6 0 0 40 0x201 0x610 0) 0 = .ok (.syncw .always ⟨40, 1, .imm 16⟩) := by decide

/-- 08, 13, 14: OP 0xC0 to 0xC8; the extension word holds the tile, ap at [12:8] and the offset register at [21:13]. -/
theorem test_decode_matrix :
    decode (word 0xC0 1 0 0 32 0 0x10) 0x50301 = .ok (.mma .always ⟨.bf16, true, false, none, 32, 40, 3, 1⟩) ∧
    decode (word 0xC1 1 0 0 32 42 (1 + 32)) 0x50301 = .ok (.mmas .always ⟨.fp16, false, true, 42, 32, 40, 3, 1⟩) ∧
    decode (word 0xC2 1 0 0 32 0x602 (2 + 64 * 1 + 256 * 3)) 0x50301 = .ok (.mmab .always ⟨.e4m3, 3, 1, false, false, .imm 2, 32, 40, 3, 1⟩) ∧
    decode (word 0xC3 1 0 0 32 0 (1 + 4 * 2 + 16)) 0x50321 = .ok (.scacc .always ⟨.g128, 1, false, true, 32, 40, 3, 2, 1⟩) ∧
    decode (word 0xC4 0 4 32 0 0 (0 + 4 * 3)) 0 = .ok (.zmovZ2v .always 4 ⟨0, none, 3, 32⟩) ∧
    decode (word 0xC4 0 4 0 32 0 (1 + 4 * 3)) 0 = .ok (.zmovV2z .always 4 ⟨0, none, 3, 32⟩) ∧
    decode (word 0xC4 1 0 0 0x204 0 (2 + 4 * 2)) 0x28 = .ok (.zmovZ2m .always 0 ⟨none, 2, 4, 40⟩) ∧
    decode (word 0xC4 1 0 0 0x204 40 (3 + 4 * 2 + 256)) 0x28 = .ok (.zmovM2z .always 0 ⟨some 40, 2, 4, 40⟩) ∧
    decode (word 0xC5 0 0 0 0 0 (5 + 16 * 3)) 0 = .ok (.zclr .always ⟨.freq, 5⟩) ∧
    decode (word 0xC6 0 2 32 0 0 (1 + 4 * 2)) 0 = .ok (.xsect .always 2 ⟨1, 2, 32⟩) ∧
    decode (word 0xC7 1 0 0 0 0 32) 0x0000000141052402 = .ok (.spx .always ⟨true, 40, 4, 41, 4, 2⟩) ∧
    decode (word 0xC8 0 0 0 0x204 41 0) 0 = .ok (.xformFwd .always ⟨4, .s 41, none⟩) ∧
    decode (word 0xC8 1 0 0 0x204 42 1) 7 = .ok (.xformInv .always ⟨4, .s 42, some 7⟩) := by decide

/-- 09, 11, 12, 13, 14: OP 0xD0 to 0xF4. -/
theorem test_decode_system :
    decode (word 0xD0 0 0 20 0x200 0x601 0) 0 = .ok (.mjoin .always ⟨20, 0, .imm 1⟩) ∧
    decode (word 0xD1 0 0 8 0x200 20 0) 0 = .ok (.meet .always ⟨8, 0, 20⟩) ∧
    decode (word 0xD2 0 0 8 0x200 20 0) 0 = .ok (.mwait .always ⟨8, 0, 20⟩) ∧
    decode (word 0xD3 0 0 40 0x200 0 9) 0 = .ok (.mqry .always ⟨9, 40, 0⟩) ∧
    decode (word 0xD4 0 0 40 64 0 (5 + 64)) 0 = .ok (.rdcn .always ⟨.fp64, .sum, 1, 40, 64⟩) ∧
    decode (word 0xD5 0 0 41 64 68 (4 + 16 * 2)) 0 = .ok (.rdget .always ⟨.fp32, .min, 0, 41, 64, 68⟩) ∧
    decode (word 0xE0 0 0 50 60 40 0) 0 = .ok (.rsamp ⟨50, 60, .s 40⟩) ∧
    decode (word 0xE1 0 2 40 32 36 0) 0 = .ok (.rng .always 2 ⟨40, 32, 36⟩) ∧
    decode (word 0xE2 0 0 50 60 0 4) 0 = .ok (.reord .always ⟨4, 50, 60⟩) ∧
    decode (word 0xE3 0 0 40 0x201 0 0) 0 = .ok (.launch .always ⟨40, 1⟩) ∧
    decode (word 0xE4 0 0 40 41 0 0) 0 = .ok (.lwait .always ⟨40, .s 41⟩) ∧
    decode (word 0xF0 0 0 0 0x607 0 0) 0 = .ok (.trap .always (.imm 7)) ∧
    decode (word 0xF1 0 0 40 0x600 0 0) 0 = .ok (.svcProbe .always ⟨40, .imm 0⟩) ∧
    decode (word 0xF1 0 0 40 0x603 0 1) 0 = .ok (.svcLock .always ⟨40, .imm 3⟩) ∧
    decode (word 0xF1 0 0 40 0x603 0 2) 0 = .ok (.svcUnlock .always ⟨40, .imm 3⟩) ∧
    decode (word 0xF1 0 0 40 0x603 0 3) 0 = .ok (.svcTrylock .always ⟨40, .imm 3⟩) ∧
    decode (word 0xF1 0 0 40 41 0 4) 0 = .ok (.svcLog .always ⟨40, .s 41⟩) ∧
    decode (word 0xF2 0 0 40 0 0 0x10) 0 = .ok (.rdsr .always ⟨0x10, .s 40⟩) ∧
    decode (word 0xF2 0 0 10 0 0 2) 0 = .ok (.rdsr .always ⟨2, .v 10⟩) ∧
    decode (word 0xF3 0 0 0 40 0 0x22) 0 = .ok (.wrsr .always ⟨0x22, 40⟩) ∧
    decode (word 0xF4 0 0 40 0 0 0) 0 = .ok (.yield .always 40) := by decide

/-- Table 3-5: the reasons 1 to 7. -/
theorem test_decode_reasons : decode (word 0x17 0 0 0 0 0 0) 0 = .ok (.unassignedOpcode (word 0x17 0 0 0 0 0 0)) ∧
    decode (word 0x20 0 0 0 0 0 0) 0 = .ill 2 ∧ decode (word 0x01 0 1 40 41 42 0) 0 = .ill 3 ∧
    decode (word 0xE0 0 0 50 60 40 0 - 0x3E000#64) 0 = .ill 4 ∧ decode (word 0x01 0 0 0x201 41 42 0) 0 = .ill 5 ∧
    decode (word 0x01 0 0 40 41 42 4) 0 = .ill 6 ∧ decode (word 0x20 1 0 0 0 0 0) 0x100000000 = .ill 7 := by decide

/-- The encoder writes the words of three worked encodings. -/
theorem test_encode : encode (.sadd .always ⟨.i32, false, 40, .s 41, .imm 5⟩) = [0x001814148287E001] ∧
    encode (.mma .always ⟨.bf16, true, false, none, 32, 40, 3, 1⟩) = [0x0200_0010_0007_E1C0, 0x0000_0000_0005_0301] ∧
    encode (.rdsr .always ⟨0x10, .s 40⟩) = [0x0200_0000_0287_E0F2] := by decide

/-! ## Small states: one group of four lanes in slot 0, at the address 0x10000 -/

def tg : Group := { loadedGroup with
  launched := 15#96, live := 15#96
  v := [(vkey 8 0, 5#32), (vkey 8 1, 7#32), (vkey 8 2, 0x80000000#32), (vkey 9 0, 2#32), (vkey 9 1, 0xFFFFFFFF#32), (vkey 9 2, 0xFFFFFFFF#32)]
  s := [(41, 7#32), (42, 0xFFFFFFFF#32), (43, 0x7FFFFFFF#32), (44, 2#32)]
  p := [(1, 1#96), (2, 5#96)]
  slot0 := { Slot.empty with strand := some ⟨0x10000, 15#96, 15#96, none⟩ } }

/-- The state in which the one group g issues from slot 0, with a page of the context at 0x10000. -/
def only (g : Group) : State := { State.reset with
  groups := [g]
  sys := { State.reset.sys with ctxs := [loadedCtx], grids := [loadedGrid], teams := [loadedTeam] }
  run := { State.reset.run with cur := some (3, 0), nextId := 10 } }

/-- What `Ready` asks of slot 0 of a group alone, with no window open. -/
def rdy (s : State) (g : Group) (i : Instr) : Bool :=
  g.gid == 3 && (g.flight.all fun f => f.window == 0 && decide (f.fid < s.run.nextId)) && (g.slot 0).strand.isSome && s.run.cur == some (3, 0) && !s.holds g 0 i && g.acts 0 i

theorem rdy_ready {s : State} {g : Group} {i : Instr} (hs : s.groups = [g]) (h : rdy s g i = true) : Ready s i 3 0 g := by
  simp only [rdy, Bool.and_eq_true, beq_iff_eq, List.all_eq_true, decide_eq_true_eq, Bool.not_eq_true'] at h
  obtain ⟨⟨⟨⟨⟨h1, h2⟩, h3⟩, h4⟩, h5⟩, h6⟩ := h
  exact ⟨h4, by simp [State.group?, hs, h1], by simp [hs], by decide, h3, fun f hf _ => (h2 f hf).1, fun f hf => (h2 f hf).2, h5, h6⟩

theorem standing_of {s : State} {g : Group} (hs : s.groups = [g]) (hc : s.run.cur = some (3, 0)) (h1 : g.gid = 3)
    (h2 : (g.slot 0).strand.isSome = true) (h3 : g.flight = []) : Standing s 3 0 g :=
  ⟨hc, by simp [State.group?, hs, h1], by simp [hs], by decide, h2, by simp [h3]⟩

/-- The word that a register holds after one instruction of tg. -/
def sAfter (g : Group) (i : Instr) (n : Nat) : Option W32 :=
  match exec i (only g) with
  | .next t => (t.group? 3).map fun h => SMap.get h.s n
  | _ => none
def vAfter (g : Group) (i : Instr) (n l : Nat) : Option W32 :=
  match exec i (only g) with
  | .next t => (t.group? 3).map fun h => h.vAt n l
  | _ => none
def pcAfter (g : Group) (i : Instr) : Option W64 :=
  match exec i (only g) with
  | .next t => (t.group? 3).map fun h => h.pc 0
  | _ => none

/-! ## Single steps -/

/-- R370: 7 - 1 wraps below zero; with the saturate bit an I32 sum stops at 2^31 - 1 and raises IOV (R205, R207). -/
theorem test_sadd : sAfter tg (.sadd .always ⟨.i32, false, 40, .s 43, .imm 1⟩) 40 = some 0x80000000#32 ∧
    sAfter tg (.sadd .always ⟨.i32, true, 40, .s 43, .imm 1⟩) 40 = some 0x7FFFFFFF#32 ∧
    sAfter tg (.sadd .always ⟨.i32, true, 40, .s 43, .imm 1⟩) 3 = some 2#32 := by decide
/-- R370: an unsigned difference clamps at 0. -/
theorem test_ssub : sAfter tg (.ssub .always ⟨.u32, true, 41, .s 44, .s 41⟩) 41 = some 0#32 := by decide
/-- R73: an immediate is sign-extended to the width of its type. -/
theorem test_immediate : sAfter tg (.sadd .always ⟨.i64, false, 40, .imm 511, .imm 1⟩) 41 = some 0#32 ∧
    sAfter tg (.smov .always ⟨.i64, 40, .imm 511⟩) 41 = some 0xFFFFFFFF#32 := by decide
/-- R370: the source that is also the destination is read before it is written. -/
theorem test_smul : sAfter tg (.smul .always ⟨.u64, false, 42, .s 42, .s 42⟩) 42 = some 1#32 := by decide
/-- R74: a write of s4 to s15 is discarded. -/
theorem test_fixed_scalar : sAfter tg (.smov .always ⟨.u32, 9, .imm 5⟩) 9 = some 0#32 := by decide
/-- R393: lanes 0 to 2 add; the last is a sign change; lane 5, outside the strand, keeps its word. -/
theorem test_vadd : vAfter tg (.vadd .always ⟨.i32, false, 9, 8, .v 9⟩) 9 0 = some 7#32 ∧
    vAfter tg (.vadd .always ⟨.i32, false, 9, 8, .v 9⟩) 9 2 = some 0x7FFFFFFF#32 ∧
    vAfter tg (.vadd .always ⟨.i32, false, 9, 8, .sc (.imm 3)⟩) 9 5 = some 0#32 := by decide
/-- R75: only the lanes of the guard are written. -/
theorem test_guard : vAfter tg (.vmov (.pred 1 false) ⟨.int .i32, 10, 8⟩) 10 0 = some 5#32 ∧
    vAfter tg (.vmov (.pred 1 false) ⟨.int .i32, 10, 8⟩) 10 1 = some 0#32 := by decide
/-- R353: the truth table 8 is the conjunction. -/
theorem test_plog : (match exec (.plog .always ⟨8, 3, 1, 2⟩) (only tg) with
    | .next t => (t.group? 3).map fun h => h.getP 3
    | _ => none) = some 1#96 := by decide
/-- R313, R314: the offset counts 8-byte units from the branch itself; R69: an instruction with an extension word is 16 bytes. -/
theorem test_branch : pcAfter tg (.br .always 0xFFFFFFFE#32) = some 0xFFF0#64 ∧
    pcAfter tg (.brc .always ⟨.cmp .eq false (.s 41) (.imm 8), 4⟩) = some 0x10010#64 ∧
    pcAfter tg (.brc .always ⟨.cmp .ltu false (.s 41) (.imm 8), 4⟩) = some 0x10020#64 := by decide
/-- R340: LOOP on 1 falls through with 0 written. -/
theorem test_loop : pcAfter { tg with s := [(34, 1#32)] } (.loop .always ⟨34, 0xFFFFFFF0⟩) = some 0x10010#64 ∧
    sAfter { tg with s := [(34, 1#32)] } (.loop .always ⟨34, 0xFFFFFFF0⟩) 34 = some 0#32 := by decide
/-- R322: 1.0 + 2^-24 rounds to even in FP32, and raises FIN. -/
theorem test_fadd : vAfter { tg with v := [(vkey 8 0, 0x3F800000#32), (vkey 9 0, 0x33800000#32)] }
      (.fadd .always ⟨.fp32, .rne, false, 10, 8, .v 9⟩) 10 0 = some 0x3F800000#32 ∧
    vAfter { tg with v := [(vkey 8 0, 0x3F800000#32), (vkey 9 0, 0x33800000#32)] }
      (.fadd .always ⟨.fp32, .rup, false, 10, 8, .v 9⟩) 10 0 = some 0x3F800001#32 := by decide
/-- R357, the worked example of QNT.i8: 3.0, -0.25, 0.004 and 1.0 times 64 give the codes 127, 0xF0, 0x00 and 0x40. -/
theorem test_qnt : vAfter { tg with v := [(vkey 20 0, 0x40400000#32), (vkey 21 0, 0xBE800000#32), (vkey 22 0, 0x3B83126F#32),
      (vkey 23 0, 0x3F800000#32)] } (.qnt .always ⟨.i8, .fp32, .rne, true, 30, 20, .sc (.imm 64)⟩) 30 0 = some 0x4000F07F#32 := by decide
/-- R127, the worked pointer: base 0x40_0000, count 64, format BF16, ceiling 3, domain 0x25; its seal aside. -/
theorem test_pointer : Ptr.ofBits 0x00004AC0090000000400000000400000#128 = ⟨0, 0x25, 3, 0, 0, 0, 9, 64, 0x400000⟩ := by decide
/-- R445, withFetchWord: an unguarded NOP at the first address runs, and the program counter moves by 8. -/
theorem test_withFetchWord : (match step (State.reset.withFetchWord 64 0x7E000) with
    | .next t => (t.group? 3).map fun h => h.pc 0
    | _ => none) = some 0x10008#64 := by decide +kernel
/-- Table 5-9: decodeTableWord reads the same bits. -/
theorem test_decodeTableWord : decodeTableWord 64 0x001814148287E001 = some (.sadd .always ⟨.i32, false, 40, .s 41, .imm 5⟩) := by decide

/-! ## Every instruction of programs can be ready -/

/-- One instruction of each constructor, at tg: the hypotheses of the statements about an issue are met. -/
def samples1 : List Instr := [
  .nop (.pred 1 false), .unassignedOpcode 0x17, .sadd .always ⟨.i32, true, 40, .s 41, .imm 5⟩, .ssub .always ⟨.i32, true, 40, .s 41, .imm 5⟩,
  .smul .always ⟨.i32, true, 40, .s 41, .imm 5⟩, .smulh .always ⟨.i32, false, 40, .s 41, .imm 5⟩,
  .sdiv .always 3 ⟨.i32, false, 40, .s 41, .s 42⟩, .srem .always 3 ⟨.i32, false, 40, .s 41, .s 42⟩, .sand .always ⟨.i32, false, 40, .s 41, .imm 5⟩,
  .sor .always ⟨.i32, false, 40, .s 41, .imm 5⟩, .sxor .always ⟨.i32, false, 40, .s 41, .imm 5⟩, .sshl .always ⟨.i32, true, 40, .s 41, .imm 5⟩,
  .sshr .always ⟨.i32, false, 40, .s 41, .imm 5⟩, .ssra .always ⟨.i32, false, 40, .s 41, .imm 5⟩, .smin .always ⟨.i32, false, 40, .s 41, .imm 5⟩,
  .smax .always ⟨.i32, false, 40, .s 41, .imm 5⟩, .scmp .always ⟨.i32, .lt, 40, .s 41, .imm 5⟩, .ssel .always ⟨.i32, false, 40, .s 41, .imm 5⟩,
  .smov .always ⟨.i32, 40, .s 41⟩, .sli .always ⟨.u64, 40, .long 5⟩, .sbfx .always ⟨.i32, 40, .s 41, 42⟩, .sbfi .always ⟨.i32, 40, .s 41, 42⟩,
  .spopc .always ⟨.u32, 40, .p 1⟩, .sclz .always ⟨.u32, 40, .s 41⟩, .br .always 4, .brc .always ⟨.anyP false 1, 4⟩, .brv (.pred 1 false) ⟨4, 8⟩, .join,
  .jtab .always ⟨8, 1, 4⟩, .call .always ⟨1, 4⟩, .callInd .always ⟨1, 42⟩, .ret .always, .exit (.pred 1 false), .loop .always ⟨41, 4⟩,
  .plog .always ⟨8, 3, 1, 2⟩, .pmov .always (.pp 3 1), .pmov .always (.ps 3 41), .pmov .always (.pi 3 true), .pmov .always (.sp 40 1),
  .pred .always ⟨.first, 40, 1⟩, .pder .always ⟨.tail (.imm 4), none, 6, 5⟩, .pclass .always ⟨2, 6, 5⟩, .narrow .always ⟨0, 6, 5⟩,
  .widen .always ⟨3, none, 6, 5⟩, .pqry .always ⟨0, 40, 5⟩, .alloc .always ⟨0x0A, 7, 2, .imm 64⟩]
def samples2 : List Instr := [
  .vadd .always ⟨.i32, true, 9, 8, .v 9⟩, .vsub .always ⟨.i32, true, 9, 8, .v 9⟩, .vmul .always ⟨.i32, true, 9, 8, .v 9⟩,
  .vmulh .always ⟨.i32, false, 9, 8, .v 9⟩, .vmad .always ⟨.i32, true, 9, 8, .v 9⟩, .vdiv .always 3 ⟨.i32, false, 9, 8, .v 9⟩,
  .vrem .always 3 ⟨.i32, false, 9, 8, .v 9⟩, .vand .always ⟨.i32, false, 9, 8, .v 9⟩, .vor .always ⟨.i32, false, 9, 8, .v 9⟩,
  .vxor .always ⟨.i32, false, 9, 8, .v 9⟩, .vshl .always ⟨.i32, true, 9, 8, .v 9⟩, .vshr .always ⟨.i32, false, 9, 8, .v 9⟩,
  .vsra .always ⟨.i32, false, 9, 8, .v 9⟩, .vmin .always ⟨.i32, false, 9, 8, .v 9⟩, .vmax .always ⟨.i32, false, 9, 8, .v 9⟩,
  .vabs .always ⟨.i32, true, 9, 8⟩, .vcmp (.pred 1 false) ⟨.i32, .lt, 3, 8, .v 9⟩, .vsel .always ⟨.i32, false, 9, 8, .v 9⟩,
  .vmov .always ⟨.int .i32, 9, 8⟩, .vbcast .always ⟨.int .i32, 9, .s 41⟩, .vbfx .always ⟨.i32, 9, 8, .s 41⟩, .vpopc .always ⟨.i32, false, 9, 8⟩,
  .vclz .always ⟨.i32, false, 9, 8⟩, .fadd .always ⟨.fp32, .rne, false, 9, 8, .v 9⟩, .fsub .always ⟨.fp32, .rne, false, 9, 8, .v 9⟩,
  .fmul .always ⟨.fp32, .rne, false, 9, 8, .v 9⟩, .ffma .always ⟨.fp32, .rne, false, 9, 8, .v 9⟩, .fmin .always ⟨.fp32, 9, 8, .v 9⟩,
  .fmax .always ⟨.fp32, 9, 8, .v 9⟩, .fsgn .always ⟨.fp32, .xor, 9, 8, .v 9⟩, .fdiv .always 3 ⟨.fp32, .rne, false, 9, 8, .v 9⟩,
  .fsqrt .always 3 ⟨.fp32, .rne, false, 9, 8⟩, .frcp .always 3 ⟨.fp32, .rne, false, 9, 8⟩, .frsq .always 3 ⟨.fp32, .rne, false, 9, 8⟩,
  .fexp2 .always 3 ⟨.fp32, .rne, false, 9, 8⟩, .flog2 .always 3 ⟨.fp32, .rne, false, 9, 8⟩, .ftrig .always 3 ⟨.fp32, .rne, true, 9, 8⟩,
  .fcmp .always ⟨.fp32, .un, 3, 8, .v 9⟩, .fclass .always ⟨.fp32, 9, 8⟩, .cvt .always ⟨.int .i32, .flt .fp32, .rne, true, 9, 8⟩,
  .qnt .always ⟨.i8, .fp32, .rne, true, 30, 20, .v 9⟩, .dqnt .always ⟨.i8, 30, 20, .v 9⟩, .amax .always 3 (.lanes .fp32 40 8),
  .amax .always 3 (.row 9 1), .amax .always 3 (.tile 40 1), .vperm .always 3 ⟨.int .i32, 9, 8, .v 9⟩, .vrot .always ⟨.int .i32, true, 9, 8, .imm 1⟩,
  .vscan .always 3 ⟨.int .i32, .add, .rne, true, true, 9, 8⟩, .vrdc .always 3 ⟨.int .i32, .add, .rne, true, 40, 8⟩,
  .vconf .always ⟨false, 4, 8⟩, .velect .always ⟨false, 9, 8⟩]
def samples3 : List Instr := [
  .ld .always 3 ⟨.native, 1, .v 10, .vec 8, none⟩, .ld .always 3 ⟨.ptr, 1, .a 6, .sc (.imm 0), none⟩, .st .always ⟨.native, 1, .s 41, .sc (.imm 0), none⟩,
  .atom .always 3 ⟨.native, 1, .vec 8, 0, .add, false, 10⟩, .sgen .always ⟨1, 5, .imm 0⟩, .xfer .always ⟨6, 2, 48⟩, .xchain .always ⟨1, 40⟩,
  .wait .always ⟨0, .imm 0⟩, .bari .always ⟨3, .imm 4⟩, .bara .always 3, .barw .always ⟨3, true⟩, .syncw .always ⟨40, 1, .imm 0⟩,
  .mma .always ⟨.bf16, true, false, none, 32, 40, 3, 1⟩, .mmas .always ⟨.bf16, false, true, 42, 32, 40, 3, 1⟩,
  .mmab .always ⟨.bf16, 3, 1, false, false, .imm 2, 32, 40, 3, 1⟩, .scacc .always ⟨.g128, 1, false, true, 32, 40, 3, 2, 1⟩,
  .zmovZ2v .always 3 ⟨0, none, 1, 32⟩, .zmovV2z .always 3 ⟨0, none, 1, 32⟩, .zmovZ2m .always 3 ⟨none, 1, 4, 40⟩, .zmovM2z .always 3 ⟨none, 1, 4, 40⟩,
  .zclr .always ⟨.fp32, 1⟩, .xsect .always 3 ⟨1, 2, 32⟩, .spx .always ⟨true, 40, 4, 41, 4, 2⟩, .xformFwd .always ⟨4, .s 41, none⟩,
  .xformInv .always ⟨4, .s 41, none⟩, .mjoin .always ⟨20, 1, .imm 1⟩, .meet .always ⟨8, 1, 20⟩, .mwait .always ⟨8, 1, 20⟩, .mqry .always ⟨9, 40, 1⟩,
  .rdcn .always ⟨.fp32, .sum, 0, 40, 64⟩, .rdget .always ⟨.fp32, .sum, 0, 40, 64, 68⟩, .rsamp ⟨9, 8, .s 41⟩, .rng .always 3 ⟨40, 32, 36⟩,
  .reord (.pred 1 false) ⟨1, 8, 9⟩, .launch .always ⟨40, 1⟩, .lwait .always ⟨40, .s 41⟩, .trap .always (.imm 7), .svcProbe .always ⟨40, .imm 0⟩,
  .svcLock .always ⟨40, .imm 3⟩, .svcUnlock .always ⟨40, .imm 3⟩, .svcTrylock .always ⟨40, .imm 3⟩, .svcLog .always ⟨40, .s 41⟩,
  .rdsr .always ⟨2, .v 10⟩, .rdsr .always ⟨0x12, .s 40⟩, .rdsr .always ⟨0x18, .s 40⟩, .wrsr .always ⟨0x22, 40⟩, .yield .always 40]

theorem witness_ready1 : ∀ i ∈ samples1, Ready (only tg) i 3 0 tg := fun i h => rdy_ready rfl (by revert i h; decide)
theorem witness_ready2 : ∀ i ∈ samples2, Ready (only tg) i 3 0 tg := fun i h => rdy_ready rfl (by revert i h; decide)
theorem witness_ready3 : ∀ i ∈ samples3, Ready (only tg) i 3 0 tg := fun i h => rdy_ready rfl (by revert i h; decide)
/-- They are instructions of programs, none of them a step of the part. -/
theorem test_samples : (samples1.all fun i => !i.isStep) = true ∧ (samples2.all fun i => !i.isStep) = true ∧
    (samples3.all fun i => !i.isStep) = true := ⟨by decide, by decide, by decide⟩

/-- R193, R200, R201: a format; the values from which its largest value overflows, and is exact; one below its normals; and finite
operands of a quotient and a root. -/
theorem witness_Rounding : fp16 ∈ floatFormats ∧ 0 < 65520 ∧ finish fp16 .rne false (.fin false 65520 0, 0#8) = (0x7C00, fFIN ||| fFOF) ∧
    finish fp16 .rne false (.fin false 65504 0, 0#8) = (0x7BFF, 0#8) ∧ finish fp16 .rtz false (.fin true 65536 0, 0#8) = (0xFBFF, fFIN ||| fFOF) ∧
    finish fp16 .rtz false (.fin true 65535 0, 0#8) = (0xFBFF, fFIN) ∧
    finish fp16 .rup false (.fin false 1 (-30), 0#8) = (1, fFIN ||| fFUF) ∧
    FVal.decode fp32 0x3F800000 = .fin false 0x800000 (-23) ∧ FVal.decode fp64 1 = .fin false 1 (-1074) := by decide

/-! ## Witnesses of the clauses: the state is `only` a group, or that state with a piece of memory -/

/-- Slot 0 of g is ready for i in s, and c holds. -/
def Met (s : State) (g : Group) (i : Instr) (c : Prop) : Prop := Ready s i 3 0 g ∧ c

theorem met {s : State} {g : Group} {i : Instr} {c : Prop} (hs : s.groups = [g]) (h : rdy s g i = true) (hc : c) : Met s g i c :=
  ⟨rdy_ready hs h, hc⟩

/-- Bytes at the physical addresses from 0, under the key 0, which the context's page shows at 0x10000. -/
def withBytes (s : State) (bs : List W8) : State :=
  { s with mem := { s.mem with home := bs.zipIdx.map (fun b => (b.2, b.1)), keys := (List.range ((bs.length + 127) / 128)).map fun i => (i, 0) } }

def withSys (s : State) (f : Sys → Sys) : State := { s with sys := f s.sys }
def withMem (s : State) (f : Mem → Mem) : State := { s with mem := f s.mem }
def withBoot (s : State) (f : Boot → Boot) : State := { s with boot := f s.boot }
/-- No page of the STACK region is mapped. -/
def noStack (s : State) : State := withSys s fun y => { y with ctxs := [{ loadedCtx with maps := loadedCtx.maps.take 1 }] }

def tg1 : Group := { tg with slot1 := { Slot.empty with strand := some ⟨0x20000, 0x30#96, 0x30#96, none⟩ } }
def withA (i : Nat) (p : Ptr) : Group := { tg with a := [(i, p.bits)] }
/-- FP32 elements of the GLOBAL space at package scope. -/
def pG : Ptr := ⟨0, 0, 7, 3, 0, 0, 0x0A, 16, 0x10000⟩

/-- Whether the frame of a call can be stored. -/
def framePut (s : State) (g : Group) : Bool := match s.partPut loadedCtx (s.frameAddr g g.depth) (frameBytes 0x10010 8) none with
  | (_, .ok _) => true
  | _ => false
def deep (n w : Nat) : Group := { tg with depth := n, wbase := w }
/-- Call frame 0 of the group, with a slide of 8 names. -/
def sRet (n w : Nat) : State := withMem (only (deep n w)) fun m => m.setBytes 0 0x2C20000 (frameBytes 0x20000 8)
def frameIs (s : State) (g : Group) (bs : List W8) : Bool := match s.homeRead loadedCtx (s.frameAddr g (g.depth - 1)) 16 with
  | .ok x => x == bs
  | _ => false
theorem witness_Calls :
    Met (only (deep 0 28680)) (deep 0 28680) (.call .always ⟨255, 4⟩) (28680 + 8 * 255 = 30720 ∧ framePut (only (deep 0 28680)) (deep 0 28680) = true ∧
      (only (deep 0 28680)).spillMiss (deep 0 28680) ((only (deep 0 28680)).slidNames (deep 0 28680) 28680 2040) = none) ∧
    Met (noStack (only tg)) tg (.call .always ⟨1, 4⟩) ((noStack (only tg)).spillMiss tg ((noStack (only tg)).slidNames tg 0 8) = some 0x2020000) ∧
    Met (only tg1) tg1 (.call .always ⟨1, 4⟩) ((tg1.slot 1).strand ≠ none) ∧
    Met (only (deep 0 28681)) (deep 0 28681) (.call .always ⟨255, 4⟩) (30720 < 28681 + 8 * 255) ∧
    Met (only (deep 253952 0)) (deep 253952 0) (.call .always ⟨1, 4⟩) ((deep 253952 0).depth = 253952) ∧
    Met (only { tg with s := [(42, 0x10008#32)] }) { tg with s := [(42, 0x10008#32)] } (.callInd .always ⟨1, 42⟩)
      (({ tg with s := [(42, 0x10008#32)] } : Group).snum 0 42 true % 8 = 0) ∧
    Met (only tg) tg (.callInd .always ⟨1, 42⟩) (tg.snum 0 42 true % 8 ≠ 0) ∧
    Met (sRet 1 8) (deep 1 8) (.ret .always) (frameIs (sRet 1 8) (deep 1 8) (frameBytes 0x20000 8) = true ∧ (8 : Nat) ≤ (deep 1 8).wbase ∧
      (sRet 1 8).spillMiss (deep 1 8) ((sRet 1 8).slidNames (deep 1 8) 0 8) = none) ∧
    Met (noStack (only (deep 1 8))) (deep 1 8) (.ret .always)
      ((noStack (only (deep 1 8))).homeRead { loadedCtx with maps := loadedCtx.maps.take 1 } 0x2C20000 16 = .miss 0x2C20000 false) ∧
    Met (only tg) tg (.ret .always) (tg.depth = 0) ∧ Met (only tg1) tg1 (.ret .always) ((tg1.slot 1).strand ≠ none) :=
  ⟨met rfl (by decide) (by decide +kernel), met rfl (by decide) (by decide +kernel), met rfl (by decide) (by decide), met rfl (by decide) (by decide),
    met rfl (by decide) (by decide), met rfl (by decide) (by decide), met rfl (by decide) (by decide), met rfl (by decide) (by decide +kernel),
    met rfl (by decide) rfl, met rfl (by decide) (by decide), met rfl (by decide) (by decide)⟩

/-- CALL through s42. -/
def gI (n w : Nat) : Group := { deep n w with s := [(42, 0x10008#32)] }
def ci (n : Nat) : Instr := .callInd .always ⟨BitVec.ofNat 8 n, 42⟩
theorem witness_IndirectCalls :
    Met (only (gI 0 28680)) (gI 0 28680) (ci 255) (28680 + 8 * 255 = 30720 ∧ framePut (only (gI 0 28680)) (gI 0 28680) = true ∧
      (only (gI 0 28680)).spillMiss (gI 0 28680) ((only (gI 0 28680)).slidNames (gI 0 28680) 28680 2040) = none) ∧
    Met (noStack (only (gI 0 0))) (gI 0 0) (ci 1) ((noStack (only (gI 0 0))).spillMiss (gI 0 0)
      ((noStack (only (gI 0 0))).slidNames (gI 0 0) 0 8) = some 0x2020000) ∧
    Met (only (gI 0 28681)) (gI 0 28681) (ci 255) ((gI 0 28681).snum 0 42 true % 8 = 0 ∧ 30720 < 28681 + 8 * 255) ∧
    Met (only (gI 253952 0)) (gI 253952 0) (ci 1) ((gI 253952 0).depth = 253952) ∧
    Met (only { gI 0 0 with slot1 := tg1.slot1 }) { gI 0 0 with slot1 := tg1.slot1 } (ci 1) ((tg1.slot 1).strand ≠ none) :=
  ⟨met rfl (by decide) (by decide +kernel), met rfl (by decide) (by decide +kernel), met rfl (by decide) (by decide),
    met rfl (by decide) (by decide), met rfl (by decide) (by decide)⟩

def tg15 : Group := { tg with eddy := List.replicate 15 (.join 0x30000 none 15#96 0#96) }
def tg16 : Group := { tg with eddy := List.replicate 16 (.join 0x30000 none 15#96 0#96) }
theorem witness_Splits :
    Met (only tg) tg (.brv .always ⟨4, 8⟩) (tg.picked 0 (.brv .always ⟨4, 8⟩) = (tg.strand 0).members) ∧
    Met (only tg15) tg15 (.brv (.pred 1 false) ⟨4, 8⟩)
      (tg15.picked 0 (.brv (.pred 1 false) ⟨4, 8⟩) ≠ (tg15.strand 0).members ∧ tg15.eddy.length + 1 ≤ (only tg15).depthLimit tg15) ∧
    Met (only tg1) tg1 (.brv (.pred 1 false) ⟨4, 8⟩)
      (tg1.picked 0 (.brv (.pred 1 false) ⟨4, 8⟩) ≠ (tg1.strand 0).members ∧ tg1.eddy.length + 2 ≤ (only tg1).depthLimit tg1) ∧
    Met (only tg16) tg16 (.brv (.pred 1 false) ⟨4, 8⟩)
      (tg16.picked 0 (.brv (.pred 1 false) ⟨4, 8⟩) ≠ (tg16.strand 0).members ∧ (only tg16).depthLimit tg16 < tg16.eddy.length + 1) :=
  ⟨met rfl (by decide) (by decide), met rfl (by decide) (by decide), met rfl (by decide) (by decide), met rfl (by decide) (by decide)⟩

/-- At the join address: the record completes, or the members park and the slot empties, or takes the latest strand entry. -/
def tj (pending : LaneMask) (more : List Eddy) : Group := { tg with
  slot0 := { Slot.empty with strand := some ⟨0x10000, 15#96, 15#96, some 0x10000⟩ }
  eddy := more ++ [.join 0x10000 none pending 0#96] }
theorem witness_Joins :
    Met (only tg) tg .join ((tg.strand 0).join ≠ some (tg.strand 0).pc) ∧
    Met (only (tj 15#96 [])) (tj 15#96 []) .join (((tj 15#96 []).strand 0).join = some ((tj 15#96 []).strand 0).pc ∧
      (tj 15#96 []).eddy = [] ++ Eddy.join 0x10000 none 15#96 0#96 :: [] ∧ 0#96 ||| ((tj 15#96 []).strand 0).members = 15#96 ∧ 15#96 ≠ 0#96) ∧
    Met (only (tj 31#96 [])) (tj 31#96 []) .join ((tj 31#96 []).eddy = [] ++ Eddy.join 0x10000 none 31#96 0#96 :: [] ∧
      0#96 ||| ((tj 31#96 []).strand 0).members ≠ 31#96 ∧ ((tj 31#96 []).strand 0).members &&& 31#96 = 15#96) ∧
    Met (only (tj 31#96 [.strand 0x20000 none 16#96 true])) (tj 31#96 [.strand 0x20000 none 16#96 true]) .join
      ((tj 31#96 [.strand 0x20000 none 16#96 true]).eddy = [.strand 0x20000 none 16#96 true] ++ Eddy.join 0x10000 none 31#96 0#96 :: [] ∧
      0#96 ||| ((tj 31#96 []).strand 0).members ≠ 31#96) :=
  ⟨met rfl (by decide) (by decide), met rfl (by decide) (by decide), met rfl (by decide) (by decide), met rfl (by decide) (by decide)⟩

/-- A jump table of two targets, 16 and 32 bytes past the JTAB. -/
def pJ : Ptr := ⟨0, 0, 7, 3, 0, 0, 5, 2, 0x10000⟩
def gJ (x : W32) (eddy : List Eddy) : Group := { tg with a := [(1, pJ.bits)], v := [(vkey 8 1, x)], eddy := eddy }
def sJ (x : W32) (eddy : List Eddy) : State := withBytes (only (gJ x eddy)) [16, 0, 0, 0, 32, 0, 0, 0]
def readsJ (x : W32) (eddy : List Eddy) : List (Nat × List W8) × List LaneAddr :=
  let r := loadLanes ((sJ x eddy).port (gJ x eddy) pJ) 4 ((sJ x eddy).sortLanes (gJ x eddy) pJ 1 4 4
    ((List.range 4).map fun l => (l, some (Int.ofNat ((gJ x eddy).getV 8 l).toNat)))).ok (sJ x eddy)
  (r.2.1, if r.2.2 = ([], []) then [] else [(0, 0)])
theorem witness_JumpTable :
    Met (only (withA 1 { pJ with scope := 0, domain := 5 })) (withA 1 { pJ with scope := 0, domain := 5 }) (.jtab .always ⟨8, 1, 9⟩)
      ((only (withA 1 { pJ with scope := 0, domain := 5 })).domainBad (withA 1 { pJ with scope := 0, domain := 5 }) { pJ with scope := 0, domain := 5 } = true) ∧
    Met (only (withA 1 pG)) (withA 1 pG) (.jtab .always ⟨8, 1, 9⟩) (pG.fmt ≠ 5) ∧
    Met (sJ 2 []) (gJ 2 []) (.jtab .always ⟨8, 1, 9⟩)
      (((List.range 4).filter fun l => decide (pJ.count ≤ ((gJ 2 []).getV 8 l).toNat)) = [1]) ∧
    Met (sJ 0 []) (gJ 0 []) (.jtab .always ⟨8, 1, 9⟩) ((sJ 0 []).readWaits (gJ 0 []) pJ 4 [0x10000, 0x10004] = false ∧ (readsJ 0 []).2 = [] ∧ (readsJ 0 []).1.length = 4 ∧
      jtabTargets ((readsJ 0 []).1.map fun y => (y.1, 0, 0x10000#64 + BitVec.ofInt 64 (signExt (leNat y.2) 32))) = [(0x10010#64, 15#96)]) ∧
    Met (sJ 1 []) (gJ 1 []) (.jtab .always ⟨8, 1, 9⟩) ((readsJ 1 []).2 = [] ∧
      jtabTargets ((readsJ 1 []).1.map fun y => (y.1, ((gJ 1 []).getV 8 y.1).toNat, 0x10000#64 + BitVec.ofInt 64 (signExt (leNat y.2) 32))) =
        [(0x10010#64, 13#96), (0x10020#64, 2#96)] ∧ (gJ 1 []).eddy.length + 1 ≤ (sJ 1 []).depthLimit (gJ 1 [])) ∧
    Met (sJ 1 tg16.eddy) (gJ 1 tg16.eddy) (.jtab .always ⟨8, 1, 9⟩) ((readsJ 1 tg16.eddy).2 = [] ∧
      (sJ 1 tg16.eddy).depthLimit (gJ 1 tg16.eddy) < (gJ 1 tg16.eddy).eddy.length + 1) :=
  ⟨met rfl (by decide) (by decide), met rfl (by decide) (by decide), met rfl (by decide) (by decide), met rfl (by decide) (by decide +kernel),
    met rfl (by decide) (by decide +kernel), met rfl (by decide) (by decide +kernel)⟩

/-- A target that is no multiple of 8, and a load of the table that is owed. -/
def sOdd : State := withBytes (only (gJ 1 [])) [16, 0, 0, 0, 4, 0, 0, 0]
def owedJ : Group := { gJ 1 [] with flight := [⟨7, 1, 0x10000, 0, [.v 10], 1#96, 1#96, .load pJ.bits .native (.v 10) [(0, 0x10000)] [(0, 0x10000)]
  Writes.none, none, some 5, false, none⟩] }
theorem witness_JumpTraps :
    Met sOdd (gJ 1 []) (.jtab .always ⟨8, 1, 9⟩) (sOdd.readWaits (gJ 1 []) pJ 4 [0x10000, 0x10004] = false ∧
      (((loadLanes (sOdd.port (gJ 1 []) pJ) 4 [(0, 0x10000), (1, 0x10004)] sOdd).2.1.map fun y =>
        0x10000#64 + BitVec.ofInt 64 (signExt (leNat y.2) 32)).filter fun y => y.toNat % 8 ≠ 0) = [0x10004#64]) ∧
    Met (only owedJ) owedJ (.jtab .always ⟨8, 1, 9⟩) ((only owedJ).readWaits owedJ pJ 4 [0x10000, 0x10004] = true) :=
  ⟨met rfl (by decide) (by decide +kernel), met rfl (by decide) (by decide)⟩

theorem witness_Exits :
    Met (only tg) tg (.exit (.pred 1 false)) (tg.live &&& ~~~tg.picked 0 (.exit (.pred 1 false)) ≠ 0#96) ∧
    Met (only tg) tg (.exit .always) (tg.live &&& ~~~tg.picked 0 (.exit .always) = 0#96) :=
  ⟨met rfl (by decide) (by decide), met rfl (by decide) (by decide)⟩

/-- A byte pointer of 4096 bytes from 0x10001, and the classes and scopes of the other clauses. -/
def pB : Ptr := ⟨0, 0, 7, 3, 0, 0, 0x3F, 4096, 0x10001⟩
/-- 2 ^ 33 elements of 16 bytes: the count in bytes does not fit the field. -/
def pWide : Ptr := { pG with fmt := 0x10, count := 2 ^ 33, base := 0 }
theorem witness_Pointers :
    Met (only (withA 5 pG)) (withA 5 pG) (.pder .always ⟨.tail (.imm 16), none, 6, 5⟩)
      (16 ≤ pG.count ∧ ({ pG with base := pG.base + 64, count := 0 } : Ptr).valid = true) ∧
    Met (only (withA 5 pG)) (withA 5 pG) (.pder .always ⟨.tail (.imm 17), none, 6, 5⟩) (pG.count < 17) ∧
    Met (only (withA 5 pB)) (withA 5 pB) (.pder .always ⟨.tail (.imm 4), some 0x0B, 6, 5⟩)
      (4 ≤ pB.count ∧ (pB.base + 4) % alignOf 0x0B ≠ 0 ∧ pB.base + 4 + (4096 - 4) / 8 * 8 ≤ pB.base + 4096) ∧
    Met (only (withA 5 pWide)) (withA 5 pWide) (.pder .always ⟨.tail (.imm 0), some 0, 6, 5⟩)
      (pWide.base % alignOf 0 = 0 ∧ ({ pWide with count := 2 ^ 33 * 16, fmt := 0 } : Ptr).valid = false) ∧
    Met (only (withA 5 pG)) (withA 5 pG) (.pclass .always ⟨1, 6, 5⟩) (pG.cls = 0 ∧ ({ pG with cls := 1 } : Ptr).valid = true) ∧
    Met (only (withA 5 { pG with cls := 2 })) (withA 5 { pG with cls := 2 }) (.pclass .always ⟨0, 6, 5⟩)
      (¬(2 = 0 ∨ ((2 : Nat) = 0 ∧ ((0 : Nat) = 2 ∨ (0 : Nat) = 1)) ∨ (2 = 2 ∧ (0 : Nat) = 1))) ∧
    Met (only (withA 5 pG)) (withA 5 pG) (.narrow .always ⟨0, 6, 5⟩)
      (0 ≤ pG.scope ∧ ({ pG with scope := 0, domain := (only (withA 5 pG)).domainAt (withA 5 pG) 0 0 } : Ptr).valid = true) ∧
    Met (only (withA 5 pG)) (withA 5 pG) (.narrow .always ⟨4, 6, 5⟩) (pG.scope < 4) ∧
    Met (only (withA 5 pG)) (withA 5 pG) (.widen .always ⟨7, none, 6, 5⟩)
      (pG.scope ≤ 7 ∧ 7 ≤ pG.ceiling ∧ ({ pG with scope := 7 } : Ptr).valid = true) ∧
    Met (only (withA 5 pG)) (withA 5 pG) (.widen .always ⟨2, none, 6, 5⟩) (2 < pG.scope) ∧
    Met (only (withA 5 { pG with ceiling := 3 })) (withA 5 { pG with ceiling := 3 }) (.widen .always ⟨4, none, 6, 5⟩) (3 < 4) ∧
    Met (only (withA 5 { pG with cls := 1 })) (withA 5 { pG with cls := 1 }) (.widen .always ⟨3, some 0, 6, 5⟩) ((1 : Nat) ≠ 0) ∧
    Met (only (withA 2 pB)) (withA 2 pB) (.alloc .always ⟨0x0A, 7, 2, .imm 64⟩) (0x10010 + 64 * Machine.sizeOf 0x0A ≤ pB.base + pB.count) ∧
    Met (only (withA 2 { pB with count := 256 })) (withA 2 { pB with count := 256 }) (.alloc .always ⟨0x0A, 7, 2, .imm 64⟩)
      (0x10001 + 256 < 0x10010 + 64 * Machine.sizeOf 0x0A) ∧
    Met (only (withA 2 pG)) (withA 2 pG) (.alloc .always ⟨0x0A, 7, 2, .imm 64⟩) (pG.fmt ≠ 0x3F) :=
  ⟨met rfl (by decide) (by decide), met rfl (by decide) (by decide), met rfl (by decide) (by decide), met rfl (by decide) (by decide),
    met rfl (by decide) (by decide),
    met rfl (by decide) (by decide), met rfl (by decide) (by decide), met rfl (by decide) (by decide), met rfl (by decide) (by decide),
    met rfl (by decide) (by decide), met rfl (by decide) (by decide), met rfl (by decide) (by decide), met rfl (by decide) (by decide),
    met rfl (by decide) (by decide), met rfl (by decide) (by decide)⟩

/-- POINTER_FORMAT of a result: its class, or its scope, has no meaning (Table 5-2); and a WIDEN beside an access that is owed. -/
def pStk : Ptr := { pG with space := 5, scope := 0, ceiling := 0 }
def pHost : Ptr := { pG with space := 3 }
def owedG : Group := { withA 5 pG with flight := [⟨7, 1, 0x10000, 0, [.v 10], 1#96, 1#96, .load pG.bits .native (.v 10) [(0, 0x10000)]
  [(0, 0x10000)] Writes.none, none, some 5, false, none⟩] }
theorem witness_PointerFormats :
    Met (only (withA 5 pStk)) (withA 5 pStk) (.pclass .always ⟨1, 6, 5⟩) (pStk.cls = 0 ∧ ({ pStk with cls := 1 } : Ptr).valid = false) ∧
    Met (only (withA 5 pHost)) (withA 5 pHost) (.narrow .always ⟨0, 6, 5⟩) (0 ≤ pHost.scope ∧ ({ pHost with scope := 0 } : Ptr).valid = false) ∧
    Met (only (withA 5 pStk)) (withA 5 pStk) (.widen .always ⟨0, some 1, 6, 5⟩)
      (pStk.scope ≤ 0 ∧ 0 ≤ pStk.ceiling ∧ pStk.cls = 0 ∧ ({ pStk with cls := 1 } : Ptr).valid = false) ∧
    Met (only owedG) owedG (.widen .always ⟨7, none, 6, 5⟩) ((only owedG).owedInRange owedG pG = true ∧ ({ pG with scope := 7 } : Ptr).valid = true) :=
  ⟨met rfl (by decide) (by decide), met rfl (by decide) (by decide), met rfl (by decide) (by decide), met rfl (by decide) (by decide)⟩

/-! Memory accesses. -/

theorem witness_ElementAddresses : 0 < 4 ∧ (only tg).sortLanes tg pG 1 4 4 [(0, some 15), (1, some 16), (2, some (-1)), (3, none)] =
    ⟨[(0, 0x1003C)], [(1, 0x10040), (2, 0xFFFC), (3, 0)], [], [], []⟩ ∧
    ((only tg).sortLanes tg { pG with base := 0x10002 } 1 4 4 [(0, some 0)]).mis = [(0, 0x10002)] := ⟨by decide, rfl, rfl⟩

def pX : Ptr := { pG with scope := 0, domain := 5 }
def pRead : Ptr := { pG with cls := 1 }
def ldOp : MemOp := ⟨.native, 1, .v 10, .sc (.imm 0), none⟩
theorem witness_AccessChecks :
    Met (only (withA 1 pX)) (withA 1 pX) (.ld .always 0 ldOp) (PairFits ldOp pX ∧
      LowestIndex (only (withA 1 pX)) (withA 1 pX) 0 ldOp.off ldOp.ext 0 0 ∧ (only (withA 1 pX)).domainBad (withA 1 pX) pX = true) ∧
    Met (only (withA 1 pRead)) (withA 1 pRead) (.st .always ldOp) (PairFits ldOp pRead ∧
      LowestIndex (only (withA 1 pRead)) (withA 1 pRead) 0 ldOp.off ldOp.ext 0 0 ∧ pRead.cls = 1) ∧
    Met (only (withA 1 pRead)) (withA 1 pRead) (.atom .always 0 ⟨.native, 1, .sc (.imm 0), 0, .add, false, 10⟩)
      (10 % (atomBytes .native false pRead.fmt / 4) = 0 ∧ pRead.cls = 1) ∧
    (Standing (only tg) 3 0 tg ∧ tg.acts 0 (.st (.pred 3 false) ldOp) = false ∧ (only tg).holds tg 0 (.st (.pred 3 false) ldOp) = false) :=
  ⟨met rfl (by decide) ⟨fun h => absurd h (by decide),
      (rfl : (0 : Int) = laneOffset (withA 1 pX) 0 ldOp.off 0 + extAdd ldOp.ext), by decide⟩,
    met rfl (by decide) ⟨fun h => absurd h (by decide),
      (rfl : (0 : Int) = laneOffset (withA 1 pRead) 0 ldOp.off 0 + extAdd ldOp.ext), by decide⟩, met rfl (by decide) (by decide),
    standing_of rfl rfl rfl rfl rfl, by decide, by decide⟩

theorem witness_Loads :
    Met (only (withA 1 pG)) (withA 1 pG) (.ld .always 0 ldOp) ((only (withA 1 pG)).memChecks (withA 1 pG) 0 false 15#96 ldOp = none ∧
      ∃ s1 h1 x, Accesses (only (withA 1 pG)) (withA 1 pG) pG (widthOf pG.fmt .native)
        (reachOf ldOp (only (withA 1 pG)) (withA 1 pG) 0 15#96) s1 h1 x) :=
  met rfl (by decide) ⟨by decide, _, _, _, rfl, by decide, by decide, by decide, by decide, by decide, by decide⟩

/-- An LD in flight, of two lanes, whose bytes stand in memory; one of a scalar; and one of a pointer. -/
def inFlight (p : Ptr) (r : Rsf) (dst : Dst) (lanes : List LaneAddr) (w : Nat) : Flight :=
  ⟨7, 0, 0x10000, w, [.v 10, .s 40, .a 6], 3#96, 15#96, .load p.bits r dst lanes lanes Writes.none, none, none, false, none⟩
def flying (f : Flight) (bs : List W8) : State := withBytes (only { tg with flight := [f] }) bs
def arrives (f : Flight) (p : Ptr) (n : Nat) (lanes : List LaneAddr) (bs : List W8) : Bool :=
  let s := flying f bs
  s.inTurn { tg with flight := [f] } f &&
  let r := loadLanes (s.port { tg with flight := [f] } p) n lanes s
  r.2.2 = ([], []) && r.2.1.length == lanes.length
theorem witness_LoadArrives :
    arrives (inFlight pG .native (.v 10) [(0, 0x10000), (1, 0x10004)] 0) pG 4 [(0, 0x10000), (1, 0x10004)] [1, 2, 3, 4, 5, 6, 7, 8] = true ∧
    arrives (inFlight pG .native (.s 40) [(0, 0x10000)] 2) pG 4 [(0, 0x10000)] [1, 2, 3, 4] = true ∧
    arrives (inFlight { pG with fmt := 0x10 } .ptr (.a 6) [(0, 0x10000)] 0) { pG with fmt := 0x10 } 16 [(0, 0x10000)]
      (leBytes 16 (pG.sealed 0).toNat) = true ∧ sealOk 0 (pG.sealed 0) = true ∧ (Ptr.ofBits (pG.sealed 0)).valid = true ∧
    sealOk 0 (pG.sealed 0 ^^^ 1#128) = false ∧
    sealOk 0 (({ pG with scope := 7, ceiling := 3 } : Ptr).sealed 0) = true ∧
      (Ptr.ofBits (({ pG with scope := 7, ceiling := 3 } : Ptr).sealed 0)).valid = false ∧
    (flying (inFlight pG .native (.s 40) [(0, 0x10000)] 2) []).group? 3 = some { tg with flight := [inFlight pG .native (.s 40) [(0, 0x10000)] 2] } := by
  refine ⟨by decide, by decide, by decide, by decide, by decide, by decide, by decide, by decide, rfl⟩

def gS : Group := { tg with a := [(1, pG.bits)], v := [(vkey 10 0, 5#32), (vkey 8 1, 1#32), (vkey 8 2, 2#32), (vkey 8 3, 3#32)] }
def stOp : MemOp := ⟨.native, 1, .v 10, .vec 8, none⟩
def sS : State := withBytes (only gS) (List.replicate 16 0)
/-- The ST in flight before it is performed, behind an entry that owes its first word when late says so. -/
def stLanes : List (Nat × Nat × List W8) := [0, 1, 2, 3].map fun i => (i, 0x10000 + 4 * i, leBytes 4 5)
def stEntry : Flight := ⟨10, 0, 0x10000, 0, [], 15#96, 15#96, .store pG.bits false stLanes, none, none, false, none⟩
def gOwing : Group := { gS with flight := [⟨7, 1, 0x10000, 0, [], 1#96, 1#96, .store pG.bits false [(0, 0x10000, leBytes 4 9)], none, some 5, false, none⟩] }
theorem witness_Stores :
    Met sS gS (.st .always stOp) (sS.memChecks gS 0 true 15#96 stOp = none ∧ sS.owesWord gS pG 4 [0x10000, 0x10004, 0x10008, 0x1000C] = false ∧
      (∃ s1 h1 x, Accesses sS gS pG (widthOf pG.fmt .native) (reachOf stOp sS gS 0 15#96) s1 h1 x ∧ x.ok = [0, 1, 2, 3].map fun i => (i, 0x10000 + 4 * i)) ∧
      (∃ t, exec (.st .always stOp) sS = .next t ∧ ∃ h, t.group? 3 = some h ∧ h.retired = false) ∧
      (sS.took.setGroup { gS with flight := [stEntry] }).inTurn { gS with flight := [stEntry] } stEntry = true ∧
      (storeLanes (sS.port gS pG) 3 stLanes sS).2 = ([], [])) ∧
    (sS.setGroup { gOwing with flight := gOwing.flight ++ [stEntry] }).inTurn { gOwing with flight := gOwing.flight ++ [stEntry] } stEntry = false ∧
    (∀ c ∈ sS.mem.basin, c.wa / 32 = 0x4000 / 32 → c.mirror = false) :=
  ⟨met rfl (by decide) ⟨by decide, by decide, ⟨_, _, _, ⟨rfl, by decide, by decide, by decide, by decide, by decide, by decide⟩, by decide⟩,
    ⟨_, rfl, _, rfl, by decide⟩, by decide, by decide⟩, by decide, by decide⟩

def atOp : AtomOp := ⟨.native, 1, .vec 8, 0, .add, false, 10⟩
def pI : Ptr := { pG with fmt := 5 }
def gAt : Group := { gS with a := [(1, pI.bits)] }
def sAt : State := withBytes (only gAt) (List.replicate 16 0)
def atLanes : List (Nat × Nat × Nat × Nat) := [0, 1, 2, 3].map fun i => (i, 0x10000 + 4 * i, 5, 0)
def atEntry : Flight :=
  ⟨10, 0, 0x10000, 4, [.v 10], 15#96, 15#96, .atom pI.bits .add 4 .native 10 atLanes Writes.none, none, none, false, none⟩
theorem witness_AtomicIssues :
    Met sAt gAt (.atom .always 3 atOp) (sAt.atomChecks gAt 0 15#96 atOp = none ∧ sAt.owesWord gAt pI 4 [0x10000, 0x10004, 0x10008, 0x1000C] = false ∧
      (∃ s1 h1 x, Accesses sAt gAt pI 4 (reachOfAtom atOp sAt gAt 0 15#96) s1 h1 x) ∧
      (sAt.took.setGroup { gAt with flight := [atEntry] }).inTurn { gAt with flight := [atEntry] } atEntry = true ∧
      (atomLanes (sAt.portAt gAt gAt.core pI.space pI.atomTy (sAt.tarnTeam gAt pI)) 3 .add 5 4 .native 10 atLanes sAt).2.2 = ([], [])) ∧
    ((5 : Nat) ≠ 0x0A ∧ (5 : Nat) ≠ 0x0B ∧ (7 : Nat) < 2 ^ (8 * 4)) ∧ ((only tg).team? 4).isSome = true :=
  ⟨met rfl (by decide) ⟨by decide, by decide, ⟨_, _, _, rfl, by decide, by decide, by decide, by decide, by decide, by decide⟩, by decide, by decide⟩,
    by decide, by decide⟩

/-! Streams, copies, barriers and counters. -/

def pS : Ptr := ⟨0, 0, 7, 3, 0, 0, 0x3F, 128, 0x10000⟩
def gSt (p : Ptr) (off : W32) (t : Stream) (n : Nat) : Group :=
  { tg with a := [(5, p.bits)], s := [(40, off)], streams := [Stream.fresh, t, Stream.fresh, Stream.fresh], cntStream := n }
def sg : Instr := .sgen .always ⟨1, 5, .s 40⟩
def asked : Stream := ⟨none, some ⟨pS.bits, 0x10000, 0, 0x10000, 15#96⟩, true, 0⟩
theorem witness_StreamSetup :
    Met (only (gSt pG 0 .fresh 0)) (gSt pG 0 .fresh 0) sg (pG.fmt ≠ 0x3F) ∧
    Met (only (gSt { pS with scope := 0, domain := 5 } 0 .fresh 0)) (gSt { pS with scope := 0, domain := 5 } 0 .fresh 0) sg
      ((only (gSt pS 0 .fresh 0)).domainBad (gSt pS 0 .fresh 0) { pS with scope := 0, domain := 5 } = true) ∧
    Met (only (gSt pS 63 .fresh 0)) (gSt pS 63 .fresh 0) sg ((63 : Nat) % 64 ≠ 0) ∧
    Met (only (gSt { pS with count := 127 } 64 .fresh 0)) (gSt { pS with count := 127 } 64 .fresh 0) sg (¬64 + 64 ≤ 127) ∧
    Met (only (gSt pS 64 asked 0)) (gSt pS 64 asked 0) sg ((gSt pS 64 asked 0).streamFree 1 = false ∧ 64 + 64 ≤ pS.count) ∧
    Met (only (gSt pS 64 .fresh 255)) (gSt pS 64 .fresh 255) sg ((gSt pS 64 .fresh 255).cntStream = 255) ∧
    Met (only (gSt pS 64 .fresh 254)) (gSt pS 64 .fresh 254) sg ((gSt pS 64 .fresh 254).streamFree 1 = true ∧
      (only (gSt pS 64 .fresh 254)).domainBad (gSt pS 64 .fresh 254) pS = false ∧
      (only (gSt pS 64 .fresh 254)).outside (gSt pS 64 .fresh 254) pS (pS.base + 64) 64 = false) :=
  ⟨met rfl (by decide) (by decide), met rfl (by decide) (by decide), met rfl (by decide) (by decide), met rfl (by decide) (by decide),
    met rfl (by decide) (by decide), met rfl (by decide) (by decide), met rfl (by decide) (by decide)⟩

/-- An access through a stream whose record is not read, and one lane of an ATOM. -/
def gSw : Group := { gSt pS 64 asked 0 with a := [(1, pI.bits)] }
def thru : MemOp := ⟨.native, 1, .v 10, .stream 1, none⟩
def portI : Port := sAt.portAt gAt gAt.core pI.space pI.atomTy (sAt.tarnTeam gAt pI)
theorem witness_StreamWaits :
    Met (only gSw) gSw (.ld .always 0 thru) ((only gSw).streamWaits gSw thru.off (accessLanes false 15#96) = true) ∧
    Met (only gSw) gSw (.st .always thru) ((only gSw).streamWaits gSw thru.off (accessLanes false 15#96) = true) ∧
    Met (only gSw) gSw (.atom .always 0 ⟨.native, 1, .stream 1, 0, .add, false, 10⟩) ((only gSw).streamWaits gSw (.stream 1) (lanesOf 15#96) = true) ∧
    (portI.space ≠ 4 ∧ (match Port.plan sAt portI true (if portI.space = 1 then [] else pieces 4 0x10000 4) with | .ok _ => true | _ => false) = true ∧
      (match portI.read sAt 0x10000 4 with | (_, .ok bs) => bs.length == 4 | _ => false) = true) :=
  ⟨met rfl (by decide) (by decide), met rfl (by decide) (by decide), met rfl (by decide) (by decide), by decide⟩

/-- XFER of the 16 FP32 elements of pG to 0x10100: W, the word at 0x2C (H = 1), the strides, 0, and no control bit. -/
def gC (w h : W32) (n : Nat) : Group :=
  { tg with a := [(2, pG.bits), (6, ({ pG with base := 0x10100 } : Ptr).bits)], s := [(40, 64#32), (48, w), (49, h)], cntCopy := n }
def recC (w h : W32) : CopyRec := xferRec ((gC w h 0).getA 2) ((gC w h 0).getA 6) fun i => ((gC w h 0).getS 0 (48 + i)).toNat
def xf : Instr := .xfer .always ⟨6, 2, 48⟩
def xc (a : BitVec 9) : Instr := .xchain .always ⟨1, a⟩
def busy (ch : Nat) : CopyOp := ⟨9, 3, 1, 4, 0, ch, true, 0, 0x10000, 15#96, 64, none, 0, false, 0, none, none, none, none⟩
def sC (g : Group) : State :=
  { only g with sys := { (only g).sys with copies := [busy 0, busy 1, busy 2, busy 3] } }
theorem witness_Copies :
    Met (only (gC 16 1 254)) (gC 16 1 254) xf ((only (gC 16 1 254)).freeChannel 0 = some 0 ∧
      (only (gC 16 1 254)).copyFails (gC 16 1 254) false (recC 16 1) = none) ∧
    Met (only (gC 17 1 0)) (gC 17 1 0) xf ((only (gC 17 1 0)).copyFails (gC 17 1 0) false (recC 17 1) = some (4, 0, 1)) ∧
    Met (only (gC 16 1 255)) (gC 16 1 255) xf ((gC 16 1 255).cntCopy = 255) ∧
    Met (sC (gC 16 1 0)) (gC 16 1 0) xf ((sC (gC 16 1 0)).freeChannel 0 = none) ∧
    Met (only (gC 16 1 254)) (gC 16 1 254) (xc 40) ((gC 16 1 254).snum 0 40 true = 64 ∧ (only (gC 16 1 254)).channelBusy 0 1 = false) ∧
    Met (only tg) tg (xc 50) (tg.snum 0 50 true = 0) ∧ Met (only tg) tg (xc 44) (tg.snum 0 44 true % 64 ≠ 0) ∧
    Met (sC (gC 16 1 0)) (gC 16 1 0) (xc 40) ((sC (gC 16 1 0)).channelBusy 0 1 = true) ∧
    ((recC 16 1).geo = 0 ∧ (recC 16 1).limits = true ∧ 15 < (recC 16 1).count) ∧
    (({ recC 2 2 with geo := 1 } : CopyRec).w = 2 ∧ 1 < ({ recC 2 2 with geo := 2 } : CopyRec).w ∧
      ({ recC 2 2 with geo := 3 } : CopyRec).limits = true ∧ 3 < ({ recC 2 2 with geo := 3 } : CopyRec).count) :=
  ⟨met rfl (by decide) (by decide), met rfl (by decide) (by decide), met rfl (by decide) (by decide), met rfl (by decide) (by decide),
    met rfl (by decide) (by decide), met rfl (by decide) (by decide), met rfl (by decide) (by decide), met rfl (by decide) (by decide),
    by decide, by decide⟩

/-- The team's barrier 3. -/
def withBar (g : Group) (b : Barrier) : State :=
  { only g with sys := { (only g).sys with teams := [{ loadedTeam with bars := setAt loadedTeam.bars 3 b }] } }
def bw (a : Bool) : Instr := .barw .always ⟨3, a⟩
def waited (n : Nat) : Group := { tg with slot0 := { tg.slot0 with barWait := some n } }
theorem witness_Barriers :
    Met (only tg) tg (.bari .always ⟨3, .imm 4⟩) (((only tg).barOf 4 3).count = 0 ∧ (only tg).gangBar 4 3 = false) ∧
    Met (withBar tg ⟨true, 4, 1, 0, [], [], 0⟩) tg (.bari .always ⟨3, .imm 4⟩) (((withBar tg ⟨true, 4, 1, 0, [], [], 0⟩).barOf 4 3).count ≠ 0) ∧
    Met (withBar tg ⟨true, 4, 3, 0, [], [], 0⟩) tg (.bara .always 3) (((withBar tg ⟨true, 4, 3, 0, [], [], 0⟩).barOf 4 3).init = true) ∧
    Met (only tg) tg (.bara .always 3) (((only tg).barOf 4 3).init = false) ∧ Met (only tg) tg (bw true) (((only tg).barOf 4 3).init = false) ∧
    Met (withBar tg ⟨true, 2, 1, 0, [], [], 0⟩) tg (bw true) ((((withBar tg ⟨true, 2, 1, 0, [], [], 0⟩).arriveBar 4 3 (some 3)).barOf 4 3).latest.find?
      (fun y => y.1 == 3) = some (3, 0) ∧ (((withBar tg ⟨true, 2, 1, 0, [], [], 0⟩).arriveBar 4 3 (some 3)).barOf 4 3).phase = 1) ∧
    Met (withBar tg ⟨true, 2, 1, 5, [(3, 4)], [], 0⟩) tg (bw false) ((4 : W16) ≠ 5) ∧
    Met (withBar tg ⟨true, 2, 1, 5, [(3, 5)], [], 0⟩) tg (bw false)
      (((withBar tg ⟨true, 2, 1, 5, [(3, 5)], [], 0⟩).barOf 4 3).latest.find? (fun y => y.1 == 3) = some (3, 5)) ∧
    Met (withBar (waited 0) ⟨true, 2, 1, 5, [], [], 1⟩) (waited 0) (bw false) (((waited 0).slot 0).barWait = some 0 ∧ (1 : Nat) ≠ 0) ∧
    Met (withBar (waited 1) ⟨true, 2, 1, 5, [], [], 1⟩) (waited 1) (bw false) (((waited 1).slot 0).barWait = some 1) ∧
    Met (withBar tg ⟨true, 2, 0, 0, [], [], 0⟩) tg (bw true) ((((withBar tg ⟨true, 2, 0, 0, [], [], 0⟩).arriveBar 4 3 (some 3)).barOf 4 3).latest.find?
      (fun y => y.1 == 3) = some (3, 0) ∧ (((withBar tg ⟨true, 2, 0, 0, [], [], 0⟩).arriveBar 4 3 (some 3)).barOf 4 3).phase = 0 ∧
      (tg.slot 0).arrived = false) ∧
    Met (withBar tg ⟨true, 2, 1, 5, [], [], 1⟩) tg (bw false) ((tg.slot 0).barWait = none) ∧
    (0 < (⟨true, 2, 1, 0, [], [], 0⟩ : Barrier).expect ∧ (⟨true, 2, 1, 0, [], [], 0⟩ : Barrier).expect ≤ 1 + 1 ∧ (0 : Nat) + 1 < 2) :=
  ⟨met rfl (by decide) (by decide), met rfl (by decide) (by decide), met rfl (by decide) (by decide), met rfl (by decide) (by decide),
    met rfl (by decide) (by decide), met rfl (by decide) (by decide), met rfl (by decide) (by decide), met rfl (by decide) (by decide),
    met rfl (by decide) (by decide), met rfl (by decide) (by decide), met rfl (by decide) (by decide), met rfl (by decide) (by decide), by decide⟩

/-- A sync word at TARN offset 16 of a team with 64 bytes; its phase is 7. -/
def pT : Ptr := ⟨0, 0, 3, 3, 2, 1, 0x3F, 64, 0⟩
def gY (p : Ptr) (off phase : W32) : Group := { tg with a := [(1, p.bits)], s := [(40, phase), (41, off)] }
def sY (g : Group) : State := { only g with sys := { (only g).sys with
  grids := [{ loadedGrid with launch := { loadedLaunch with tarn := 64 } }], teams := [{ loadedTeam with tarn := [(24, 7)] }] } }
def sw : Instr := .syncw .always ⟨40, 1, .s 41⟩
/-- A store to the phase of the sync word is owed. -/
def owedY : Group := { gY pT 16 6 with flight := [⟨7, 1, 0x10000, 0, [], 1#96, 1#96,
  .store ({ pT with fmt := 5, cls := 0 } : Ptr).bits false [(0, 24, [8, 0, 0, 0])], none, some 5, false, none⟩] }
theorem witness_CounterWaits :
    Met (only { tg with cntMx := 3 }) { tg with cntMx := 3 } (.wait .always ⟨1, .imm 3⟩) (3 ≤ tg.sop 0 (.imm 3) false) ∧
    Met (only { tg with cntMx := 3 }) { tg with cntMx := 3 } (.wait .always ⟨1, .imm 2⟩) (tg.sop 0 (.imm 2) false < 3) ∧
    Met (sY (gY pS 16 0)) (gY pS 16 0) sw (pS.space ≠ 1) ∧
    Met (sY (gY { pT with domain := 1 } 16 0)) (gY { pT with domain := 1 } 16 0) sw
      ((sY (gY pT 16 0)).domainBad (gY pT 16 0) { pT with domain := 1 } = true) ∧
    Met (sY (gY pT 15 0)) (gY pT 15 0) sw ((15 : Nat) % 16 ≠ 0) ∧ Met (sY (gY pT 64 0)) (gY pT 64 0) sw (¬64 + 16 ≤ pT.count) ∧
    Met (sY (gY pT 16 7)) (gY pT 16 7) sw ((sY (gY pT 16 7)).domainBad (gY pT 16 7) pT = false ∧
      (sY (gY pT 16 7)).outside (gY pT 16 7) pT 16 16 = false ∧ ((sY (gY pT 16 7)).team? ((sY (gY pT 16 7)).tarnTeam (gY pT 16 7) pT)).isSome = true ∧
      leNat ((List.range 4).map fun i => SMap.get ([(24, 7)] : SMap 8) (0 + 16 + 8 + i)) = ((gY pT 16 7).getS 0 40).toNat) ∧
    Met (sY (gY pT 16 6)) (gY pT 16 6) sw (leNat ((List.range 4).map fun i => SMap.get ([(24, 7)] : SMap 8) (0 + 16 + 8 + i)) ≠
      ((gY pT 16 6).getS 0 40).toNat) ∧
    Met (sY owedY) owedY sw ((sY owedY).readWaits owedY pT 4 [0 + 16 + 8] = true) ∧ (sY (gY pT 16 6)).readWaits (gY pT 16 6) pT 4 [0 + 16 + 8] = false :=
  ⟨met rfl (by decide) (by decide), met rfl (by decide) (by decide), met rfl (by decide) (by decide), met rfl (by decide) (by decide),
    met rfl (by decide) (by decide), met rfl (by decide) (by decide), met rfl (by decide) (by decide), met rfl (by decide) (by decide),
    met rfl (by decide) (by decide), by decide⟩

/-! Matrix instructions: two tiles, and a B operand in RESERVOIR or TARN. -/

def pR : Ptr := ⟨0, 0, 7, 3, 1, 2, 0x3F, 65536, 0⟩
def pM : Ptr := { pT with count := 60000, cls := 0 }
def gM (ptr : Ptr) (tiles : List Tile) (mq : List MxOp) : Group :=
  { tg with a := [(3, ptr.bits), (4, ptr.bits)], s := [(43, 0#32)], tiles := tiles, mq := mq }
def sM (g : Group) : State := { only g with sys := { (only g).sys with
  grids := [{ loadedGrid with launch := { loadedLaunch with tarn := 65536, tiles := 3 } }] } }
def two : List Tile := [Tile.fresh, Tile.fresh]
def opQ (i : Instr) : MxOp := ⟨8, 0, 0x10000, 15#96, i, [], [], [], 0, false, 0, none⟩
def full : List MxOp := List.replicate 32 (opQ (.zclr .always ⟨.fp32, 0⟩))
def mm (f : MFmt) (clr : Bool) (z : BitVec 4) : Instr := .mma .always ⟨f, false, clr, none, 32, 40, 3, z⟩
/-- The kind of tile 1 is not known behind an M2Z. -/
def unknown : List MxOp := [opQ (.zmovM2z .always 0 ⟨none, 1, 4, 40⟩)]
theorem witness_MultiplyIssues :
    Met (sM (gM pR two full)) (gM pR two full) (mm .bf16 true 1) ((gM pR two full).mq.length = 32) ∧
    Met (sM (gM pR two [])) (gM pR two []) (mm .bf16 true 2) ((gM pR two []).tiles.length ≤ 2) ∧
    Met (sM (gM pG two [])) (gM pG two []) (mm .bf16 true 1) (((sM (gM pG two [])).mxPointer (gM pG two []) 0 bSpace pG 0 64).isSome = true) ∧
    Met (sM (gM pR two unknown)) (gM pR two unknown) (mm .bf16 false 1) (((gM pR two unknown).tileAfter 1).1 = none) ∧
    Met (sM (gM pR two [])) (gM pR two []) (mm .i8 false 1) (((gM pR two []).tileAfter 1).1 = some .fp32 ∧ TileKind.fp32 ≠ MFmt.kind .i8) ∧
    Met (sM (gM pR two [])) (gM pR two []) (mm .bf16 false 1) ((sM (gM pR two [])).mxPointer (gM pR two []) 0 bSpace pR 0
      (MFmt.bytes .bf16 (MFmt.k .bf16) (MFmt.cols .bf16)) = none ∧ (gM pR two []).latch = none) ∧
    Met (sM { gM pR two [] with latch := some ⟨33, .bf16, 16, []⟩ }) { gM pR two [] with latch := some ⟨33, .bf16, 16, []⟩ } (mm .bf16 true 1)
      (({ gM pR two [] with latch := some ⟨33, .bf16, 16, []⟩ } : Group).takeA 32 .bf16 16 false 0 = none) ∧
    Met (sM (gM pR two [])) (gM pR two []) (.mmas .always ⟨.bf16, false, true, 42, 32, 40, 3, 1⟩) (((gM pR two []).getS 0 43).toNat < 2 ^ 31) ∧
    Met (sM (gM pR two [])) (gM pR two []) (.mmab .always ⟨.bf16, 3, 1, false, true, .imm 2, 32, 40, 3, 1⟩)
      ((gM pR two []).streamReady 1 = true ∧ (sM (gM pR two [])).streamDomainBad (gM pR two []) Stream.fresh = false) ∧
    Met (sM { gSt pS 0 asked 0 with tiles := two }) { gSt pS 0 asked 0 with tiles := two } (.mmab .always ⟨.bf16, 3, 1, false, true, .imm 2, 32, 40, 3, 1⟩)
      ((gSt pS 0 asked 0).streamReady 1 = false) ∧
    ((⟨33, .bf16, 16, []⟩ : Latch).a ≠ 32 ∧ (⟨32, .bf16, 16, []⟩ : Latch).a = (32 : BitVec 11).toNat ∧ 16 ≤ (⟨32, .bf16, 16, []⟩ : Latch).regs) :=
  ⟨met rfl (by decide) (by decide), met rfl (by decide) (by decide), met rfl (by decide) (by decide), met rfl (by decide) (by decide),
    met rfl (by decide) (by decide), met rfl (by decide) ⟨by decide, rfl⟩, met rfl (by decide) (by decide), met rfl (by decide) (by decide),
    met rfl (by decide) (by decide), met rfl (by decide) (by decide), by decide⟩

def sc : ScaccOp := ⟨.g32, 1, true, false, 32, 40, 3, 1, 0⟩
def three : List Tile := [Tile.fresh, ⟨.fp32, 1, []⟩, ⟨.int32, 1, []⟩]
theorem witness_MatrixIssues :
    Met (sM (gM pR [Tile.fresh, ⟨.fp32, Grain.g32.num, []⟩, ⟨.int32, Grain.g32.num, []⟩] [])) (gM pR [Tile.fresh, ⟨.fp32, Grain.g32.num, []⟩, ⟨.int32, Grain.g32.num, []⟩] []) (.scacc .always sc)
      ((sM (gM pR three [])).mxPointer (gM pR three []) 0 bSpace pR 0 1024 = none ∧ ([1, 2].all fun z =>
        z != 0 && ((gM pR [Tile.fresh, ⟨.fp32, Grain.g32.num, []⟩, ⟨.int32, Grain.g32.num, []⟩] []).tileAfter z).2 == Grain.g32.num) = true) ∧
    Met (sM (gM pR three full)) (gM pR three full) (.scacc .always sc) ((gM pR three full).mxFull true = true) ∧
    Met (sM (gM pR two [])) (gM pR two []) (.scacc .always sc) ((gM pR two []).tiles.length ≤ 2) ∧
    Met (sM (gM pM two [])) (gM pM two []) (.spx .always ⟨true, 40, 4, 41, 4, 1⟩)
      ((sM (gM pM two [])).mxPointer (gM pM two []) 0 (fun p => p.space == 1) pM 0 49216 = none) ∧
    Met (sM (gM pM two [])) (gM pM two []) (.spx .always ⟨true, 40, 4, 41, 4, 2⟩) ((gM pM two []).tiles.length ≤ 2) ∧
    Met (sM (gM pM two full)) (gM pM two full) (.xformFwd .always ⟨4, .s 41, none⟩) ((gM pM two full).mxFull true = true) ∧
    Met (sM (gM pR two [])) (gM pR two []) (.xformFwd .always ⟨4, .s 41, none⟩) (pR.space ≠ 1) ∧
    Met (sM (gM { pM with cls := 1 } two [])) (gM { pM with cls := 1 } two []) (.xformInv .always ⟨4, .s 41, none⟩) (({ pM with cls := 1 } : Ptr).cls = 1) ∧
    Met (sM (gM { pM with domain := 1 } two [])) (gM { pM with domain := 1 } two []) (.xformInv .always ⟨4, .s 41, none⟩)
      ((sM (gM pM two [])).domainBad (gM pM two []) { pM with domain := 1 } = true) ∧
    Met (sM (gM { pM with count := 63 } two [])) (gM { pM with count := 63 } two []) (.xformFwd .always ⟨4, .s 41, none⟩) (¬0 + 64 ≤ 63) ∧
    Met (sM (gM pM two [])) (gM pM two []) (.xformFwd .always ⟨4, .s 41, none⟩) (0 + 64 ≤ pM.count ∧ (sM (gM pM two [])).outside (gM pM two []) pM 0 64 = false) ∧
    Met (sM (gM pM two [])) (gM pM two []) (.zclr .always ⟨.fp32, 2⟩) ((gM pM two []).tiles.length ≤ 2) ∧
    Met (sM (gM pM two full)) (gM pM two full) (.zclr .always ⟨.fp32, 1⟩) (32 ≤ (gM pM two full).mq.length) ∧
    Met (sM (gM pM two [])) (gM pM two []) (.zclr .always ⟨.fp32, 1⟩) (1 < (gM pM two []).tiles.length) :=
  ⟨met rfl (by decide) (by decide), met rfl (by decide) (by decide), met rfl (by decide) (by decide), met rfl (by decide) (by decide),
    met rfl (by decide) (by decide), met rfl (by decide) (by decide), met rfl (by decide) (by decide), met rfl (by decide) (by decide),
    met rfl (by decide) (by decide), met rfl (by decide) (by decide), met rfl (by decide) (by decide), met rfl (by decide) (by decide),
    met rfl (by decide) (by decide), met rfl (by decide) (by decide)⟩

def zm : ZmovMOp := ⟨none, 1, 4, 43⟩
theorem witness_TileMoves :
    Met (sM (gM pM two [])) (gM pM two []) (.zmovZ2v .always 3 ⟨0, none, 1, 1920⟩) (((gM pM two []).tileAfter 1).1 = some .fp32 ∧ 1920 + 128 ≤ 2048) ∧
    Met (sM (gM pM two [])) (gM pM two []) (.zmovZ2v .always 3 ⟨1, none, 1, 1984⟩) (((gM pM two []).tileAfter 1).1 = some .fp32 ∧ 2048 < 1984 + 128) ∧
    Met (sM (gM pM two unknown)) (gM pM two unknown) (.zmovZ2v .always 3 ⟨0, none, 1, 32⟩) (((gM pM two unknown).tileAfter 1).1 = none) ∧
    Met (sM (gM pM two [])) (gM pM two []) (.zmovZ2v .always 3 ⟨0, none, 2, 32⟩) ((gM pM two []).tiles.length ≤ 2) ∧
    Met (sM (gM pM two [])) (gM pM two []) (.zmovV2z .always 3 ⟨0, none, 1, 32⟩) (((gM pM two []).tileAfter 1).1 ≠ none) ∧
    Met (sM (gM pM two [])) (gM pM two []) (.zmovV2z .always 3 ⟨0, none, 2, 32⟩) ((gM pM two []).tiles.length ≤ 2) ∧
    Met (sM (gM pM two [])) (gM pM two []) (.zmovZ2m .always 3 zm) ((sM (gM pM two [])).zmovChecks (gM pM two []) 0 true zm = none ∧
      ((gM pM two []).tileAfter 1).1 ≠ none ∧ (gM pM two []).mxFull true = false) ∧
    Met (sM (gM pM [] [])) (gM pM [] []) (.zmovZ2m .always 3 zm) (((sM (gM pM [] [])).zmovChecks (gM pM [] []) 0 true zm).isSome = true) ∧
    Met (sM (gM pM two [])) (gM pM two []) (.zmovM2z .always 3 zm) ((sM (gM pM two [])).zmovChecks (gM pM two []) 0 false zm = none) ∧
    Met (sM (gM pM [] [])) (gM pM [] []) (.zmovM2z .always 3 zm) (((sM (gM pM [] [])).zmovChecks (gM pM [] []) 0 false zm).isSome = true) ∧
    Met (sM (gM pM two [])) (gM pM two []) (.xsect .always 3 ⟨1, 2, 32⟩) ((gM pM two []).streamIdle 1 = true ∧ (gM pM two []).streamIdle 2 = true ∧
      (sM (gM pM two [])).streamDomainBad (gM pM two []) Stream.fresh = false) ∧
    Met (only (gSt pS 0 asked 0)) (gSt pS 0 asked 0) (.xsect .always 3 ⟨1, 2, 32⟩) ((gSt pS 0 asked 0).streamIdle 1 = false) :=
  ⟨met rfl (by decide) (by decide), met rfl (by decide) (by decide), met rfl (by decide) (by decide), met rfl (by decide) (by decide),
    met rfl (by decide) (by decide), met rfl (by decide) (by decide), met rfl (by decide) (by decide), met rfl (by decide) (by decide),
    met rfl (by decide) (by decide), met rfl (by decide) (by decide), met rfl (by decide) (by decide), met rfl (by decide) (by decide)⟩

/-- Stream 1 takes its entries from a Q of a core that is not the group's; the header of MMAS names a reserved pattern. -/
def far : StreamRec := { e0 := 0, counts := [1, 1, 1, 1], strides := [0, 0, 0, 0], ind := true, scale := 1, q := ({ pX with fmt := 5 } : Ptr).bits }
def gFar : Group := { gM pR two [] with streams := [Stream.fresh, ⟨some far, none, true, 0⟩, Stream.fresh, Stream.fresh] }
def gPat : Group := { gM pR two [] with s := [(43, 0x80000000#32)] }
theorem witness_MatrixTraps :
    Met (sM gPat) gPat (.mmas .always ⟨.bf16, false, true, 42, 32, 40, 3, 1⟩) (2 ^ 31 ≤ (gPat.getS 0 43).toNat ∧ gPat.kindKnown 1 true = true ∧
      (sM gPat).mxPointer gPat 0 bSpace pR 0 (masBytes .bf16 ((gPat.getS 0 43).toNat / 2 ^ 30 == 1)) = none) ∧
    Met (sM gFar) gFar (.mmab .always ⟨.bf16, 0, 1, false, true, .imm 2, 32, 40, 3, 1⟩) (gFar.streamReady 1 = true ∧ gFar.kindKnown 1 true = true ∧
      (sM gFar).mxPointer gFar 0 bSpace pR 0 (MFmt.bs .bf16 * MFmt.bs .bf16 * MFmt.bits .bf16 / 8) = none ∧ far.ind = true ∧
      (sM gFar).domainBad gFar (Ptr.ofBits far.q) = true) ∧
    Met (sM gFar) gFar (.xsect .always 3 ⟨1, 2, 32⟩) (gFar.streamIdle 1 = true ∧ gFar.streamIdle 2 = true ∧
      (gFar.queue? 1).any (fun q => (sM gFar).domainBad gFar q) = true) ∧
    Met (sM gFar) gFar (.xsect .always 3 ⟨2, 1, 32⟩) ((sM gFar).streamDomainBad gFar Stream.fresh = false) ∧
    Met (sM (gM { pM with domain := 1 } two [])) (gM { pM with domain := 1 } two []) (.spx .always ⟨true, 40, 4, 41, 4, 1⟩)
      ((sM (gM pM two [])).domainBad (gM pM two []) { pM with domain := 1 } = true) :=
  ⟨met rfl (by decide) (by decide), met rfl (by decide) (by decide), met rfl (by decide) (by decide), met rfl (by decide) (by decide),
    met rfl (by decide) (by decide)⟩

/-! Meetings: a mere of two members at 0x10100, of one register and of tag 5, whose round 4 has closed. -/

def pE : Ptr := ⟨0, 0, 7, 3, 2, 0, 0x3F, 256, 0x10100⟩
def mere (tag : W16) (joined : List (Nat × Nat)) : Mere :=
  ⟨1, 0x10100, none, 2, 2, 0, 0, false, 1, 0x18000, [], joined, [], tag, 0, 0, 0, [], [], [⟨4, [], 3#64, 2, 0, 0⟩], false⟩
def gE (x : W32) (p : Ptr) (n : Nat) : Group := { tg with a := [(1, p.bits)], s := [(20, x)], cntColl := n }
def sE (g : Group) (m : Mere) : State := { only g with sys := { (only g).sys with meres := [m] } }
theorem witness_Meetings :
    Met (sE (gE 0 pE 0) (mere 5 [])) (gE 0 pE 0) (.mjoin .always ⟨20, 1, .imm 1⟩) ((sE (gE 0 pE 0) (mere 5 [])).merePointer (gE 0 pE 0) 0 pE = none ∧
      (match (sE (gE 0 pE 0) (mere 5 [])).bindMere (gE 0 pE 0) 0 pE with | .ok _ m => 1 < m.n ∧ m.joined = [] | _ => False)) ∧
    Met (sE (gE 0 pE 0) (mere 5 [])) (gE 0 pE 0) (.mjoin .always ⟨20, 1, .imm 2⟩) ((mere 5 []).n ≤ 2) ∧
    Met (sE (gE 0x400000 pE 0) (mere 5 [])) (gE 0x400000 pE 0) (.meet .always ⟨8, 1, 20⟩) (2 ^ 22 ≤ (0x400000#32).toNat) ∧
    Met (sE (gE 0x10005 pE 0) (mere 5 [])) (gE 0x10005 pE 0) (.meet .always ⟨8, 1, 20⟩)
      ((sE (gE 0x10005 pE 0) (mere 5 [])).mere? 1 pE.base = some (mere 5 []) ∧ ((mere 5 []).joined.any fun j => j.1 == 1) = false) ∧
    Met (sE (gE 0x10009 pE 0) (mere 5 [(1, 2)])) (gE 0x10009 pE 0) (.meet .always ⟨8, 1, 20⟩)
      (((mere 5 [(1, 2)]).joined.any fun j => j.1 == 1) = true ∧ runBad 8 false 1 = false ∧ 4 ≤ (9 - (mere 5 []).tag).toNat) ∧
    Met (sE (gE 0x10008 pE 254) (mere 5 [(1, 2)])) (gE 0x10008 pE 254) (.meet .always ⟨8, 1, 20⟩) ((8 - (mere 5 []).tag).toNat < 4) ∧
    Met (sE (gE 5 pE 0) (mere 5 [])) (gE 5 pE 0) (.mwait .always ⟨8, 1, 20⟩) ((sE (gE 5 pE 0) (mere 5 [])).merePointer (gE 5 pE 0) 0 pE = none ∧
      (5 - (mere 5 []).tag).toNat < 2 ^ 15) ∧
    Met (sE (gE 3 pE 0) (mere 5 [])) (gE 3 pE 0) (.mwait .always ⟨8, 1, 20⟩) (2 ^ 15 ≤ (3 - (mere 5 []).tag).toNat ∧
      ((mere 5 []).closed.any fun c => c.tag == 3) = false) ∧
    Met (sE (gE 4 pE 0) (mere 5 [])) (gE 4 pE 0) (.mwait .always ⟨8, 1, 20⟩) (2 ^ 15 ≤ (4 - (mere 5 []).tag).toNat ∧
      ((mere 5 []).closed.find? fun c => c.tag == 4).isSome = true) ∧
    Met (sE (gE 4 pE 0) (mere 5 [])) (gE 4 pE 0) (.mqry .always ⟨9, 40, 1⟩) ((sE (gE 4 pE 0) (mere 5 [])).merePointer (gE 4 pE 0) 0 pE = none) ∧
    Met (only (gE 4 pG 0)) (gE 4 pG 0) (.mqry .always ⟨9, 40, 1⟩) (((only (gE 4 pG 0)).merePointer (gE 4 pG 0) 0 pG).isSome = true) :=
  ⟨met rfl (by decide) ⟨by decide, by decide, rfl⟩, met rfl (by decide) (by decide), met rfl (by decide) (by decide),
    met rfl (by decide) (by decide), met rfl (by decide) (by decide), met rfl (by decide) (by decide), met rfl (by decide) (by decide),
    met rfl (by decide) (by decide), met rfl (by decide) (by decide), met rfl (by decide) (by decide), met rfl (by decide) (by decide)⟩

/-- A quad of tree 1, leaf 0, tag 7 and participants 0 and 1, and a reduction with or without an outcome. -/
def gQ (q : W32) (n : Nat) : Group := { tg with s := [(64, q), (66, 3#32)], cntColl := n }
def rdn (m : W64) (res : Option (List W64 × W8)) (out : Bool) : Reduct := ⟨6, 1, 1, none, 7, m, .fp32, .sum, 1, [(0, [])], res, out, 0, []⟩
def withFlags (s : State) (n : Nat) : State := { s with sys := { s.sys with
  grids := [{ loadedGrid with launch := { loadedLaunch with flags := n } }] } }
def sQ (n : Nat) (rs : List Reduct) (flags : Nat) : State :=
  let s := withFlags (only (gQ 0x400007 n)) flags
  { s with sys := { s.sys with reducts := rs } }
def rn : Instr := .rdcn .always ⟨.fp32, .sum, 0, 40, 64⟩
def rt : Instr := .rdget .always ⟨.fp32, .sum, 0, 40, 64, 68⟩
theorem witness_Reductions :
    let q := (gQ 0x400007 0).quad 0 64
    Met (only (gQ 0x2000007 0)) (gQ 0x2000007 0) rn (((gQ 0x2000007 0).quad 0 64).ok = false) ∧
    Met (sQ 255 [] 0) (gQ 0x400007 255) rn (q.ok = true ∧ (gQ 0x400007 255).cntColl = 255) ∧
    Met (sQ 0 [] 0) (gQ 0x400007 0) rn (q.ok = true ∧ (sQ 0 [] 0).mayOpen 1 q.tree none q.tag = true) ∧
    Met (sQ 0 [rdn 3 none false] 0) (gQ 0x400007 0) rt ((sQ 0 [rdn 3 none false] 0).mayOpen 1 q.tree none q.tag = true ∧
      (sQ 0 [rdn 3 none false] 0).reduct? 1 q.tree none q.tag = some (rdn 3 none false)) ∧
    Met (sQ 0 [rdn 7 none true] 0) (gQ 0x400007 0) rt ((rdn 7 none true).timedOut = true ∧ (rdn 7 none true).pmask ≠ q.mask) ∧
    Met (sQ 0 [rdn 3 (some ([1], 0)) false] 0) (gQ 0x400007 0) rt ((rdn 3 (some ([1], 0)) false).pmask = q.mask) ∧
    Met (sQ 0 [rdn 3 none true] 0) (gQ 0x400007 0) rt (((sQ 0 [rdn 3 none true] 0).grid? 2).any (fun x => x.launch.redtrap) = false) ∧
    Met (sQ 0 [rdn 3 none true] 4) (gQ 0x400007 0) rt (((sQ 0 [rdn 3 none true] 4).grid? 2).any (fun x => x.launch.redtrap) = true) :=
  ⟨met rfl (by decide) (by decide), met rfl (by decide) (by decide), met rfl (by decide) (by decide), met rfl (by decide) (by decide),
    met rfl (by decide) (by decide), met rfl (by decide) (by decide), met rfl (by decide) (by decide), met rfl (by decide) (by decide)⟩

def withReorder (s : State) : State := { s with sys := { s.sys with
  grids := [{ loadedGrid with launch := { loadedLaunch with reorder := 0x40000 } }] } }
def gK (x : W32) : Group := { tg with s := [(39, x)] }
theorem witness_Populations :
    Met (only tg) tg (.reord .always ⟨2, 9, 8⟩) (((only tg).grid? 2).any (fun x => x.launch.reorder == 0) = true) ∧
    Met (withReorder (only tg)) tg (.reord (.pred 1 false) ⟨7, 9, 8⟩) (((withReorder (only tg)).grid? 2).any (fun x => x.launch.reorder == 0) = false ∧
      tg.live &&& ~~~(tg.picked 0 (.reord (.pred 1 false) ⟨7, 9, 8⟩)) ≠ 0#96) ∧
    Met (withReorder (only tg)) tg (.reord .always ⟨7, 9, 8⟩) (tg.live &&& ~~~(tg.picked 0 (.reord .always ⟨7, 9, 8⟩)) = 0#96) ∧
    Met (only tg) tg (.rsamp ⟨9, 8, .s 41⟩) (((only tg).grid? 2).any (fun x => !x.launch.popn) = true) ∧
    Met (withFlags (only tg) 2) tg (.rsamp ⟨9, 8, .s 41⟩) (((withFlags (only tg) 2).grid? 2).any (fun x => !x.launch.popn) = false ∧
      (tg.strand 0).active = (tg.strand 0).members ∧ tg.wbase = 0 ∧ ∀ e ∈ tg.eddy, isStrandEntry e = false) ∧
    Met (only (gK 1)) (gK 1) (.rng .always 3 ⟨40, 32, 36⟩) (((gK 1).getS 0 39).toNat ≠ 0) ∧
    Met (only (gK 0)) (gK 0) (.rng .always 3 ⟨40, 32, 36⟩) (((gK 0).getS 0 39).toNat = 0) :=
  ⟨met rfl (by decide) (by decide), met rfl (by decide) (by decide), met rfl (by decide) (by decide), met rfl (by decide) (by decide),
    met rfl (by decide) (by decide), met rfl (by decide) (by decide), met rfl (by decide) (by decide)⟩

/-- A grid that may have two children. -/
def pL (count base : Nat) : Ptr := ⟨0, 0, 7, 3, 0, 0, 0x3F, count, base⟩
def gL (p : Ptr) (s : SMap 32) : Group := { tg with a := [(1, p.bits)], s := s }
def sL (g : Group) (depth live : Nat) (kids : List Kid) : State :=
  let s := only g
  withBytes { s with sys := { s.sys with
    grids := [{ loadedGrid with depth := depth, kidsLive := live, launch := { loadedLaunch with childLimit := 2 } }]
    teams := [{ loadedTeam with kids := kids }] } } []
def lc : Instr := .launch .always ⟨40, 1⟩
def lw : Instr := .lwait .always ⟨40, .s 41⟩
theorem witness_Launches :
    Met (sL (gL (pL 512 0x10000) []) 0 0 []) { gL (pL 512 0x10000) [] with flight := [] } lc ((sL (gL (pL 512 0x10000) []) 0 0 []).full = false) ∧
    Met (sL (gL { pL 512 0x10000 with fmt := 0x0A } []) 0 0 []) (gL { pL 512 0x10000 with fmt := 0x0A } []) lc (({ pL 512 0x10000 with fmt := 0x0A } : Ptr).fmt ≠ 0x3F) ∧
    Met (sL (gL (pL 512 0x10000) []) 10 0 []) (gL (pL 512 0x10000) []) lc (tg.idx = 0 ∧ (pL 512 0x10000).space = 0 ∧ (pL 512 0x10000).fmt = 0x3F) ∧
    Met (sL (gL (pL 512 0x10000) []) 9 2 []) (gL (pL 512 0x10000) []) lc (9 ≠ 10 ∧ 2 ≤ 2) ∧
    Met (sL (gL (pL 511 0x10000) []) 9 1 []) (gL (pL 511 0x10000) []) lc (1 < 2 ∧ (pL 511 0x10000).count < 512) ∧
    Met (sL (gL (pL 512 0x10020) []) 9 1 []) (gL (pL 512 0x10020) []) lc ((pL 512 0x10020).base % 64 ≠ 0) ∧
    Met (sL (gL (pL 512 0x10000) []) 0 0 [⟨20, none⟩]) (gL (pL 512 0x10000) []) lw (([⟨20, none⟩] : List Kid)[tg.sop 0 (.imm 0) false]? = some ⟨20, none⟩) ∧
    Met (sL (gL (pL 512 0x10000) [(41, 1)]) 0 0 [⟨20, none⟩, ⟨21, some 0x17⟩]) (gL (pL 512 0x10000) [(41, 1)]) lw
      (([⟨20, none⟩, ⟨21, some 0x17⟩] : List Kid)[(gL (pL 512 0x10000) [(41, 1)]).sop 0 (.s 41) false]? = some ⟨21, some 0x17⟩) ∧
    Met (sL (gL (pL 512 0x10000) [(41, 1)]) 0 0 [⟨20, none⟩]) (gL (pL 512 0x10000) [(41, 1)]) lw
      (([⟨20, none⟩] : List Kid).length ≤ (gL (pL 512 0x10000) [(41, 1)]).sop 0 (.s 41) false) :=
  ⟨met rfl (by decide) (by decide), met rfl (by decide) (by decide), met rfl (by decide) (by decide), met rfl (by decide) (by decide),
    met rfl (by decide) (by decide), met rfl (by decide) (by decide), met rfl (by decide) (by decide), met rfl (by decide) (by decide),
    met rfl (by decide) (by decide)⟩

/-- The record of zeros stands in the core's L1. -/
def sRec : State :=
  let s := sL (gL (pL 512 0x10000) []) 9 1 []
  { s with mem := { s.mem with l1 := (List.range 128).map fun i => ⟨0, 1, i, 0, true, false, false, false⟩ } }
theorem witness_LaunchRecord : Met sRec (gL (pL 512 0x10000) []) lc
    ((match (sRec.port (gL (pL 512 0x10000) []) (pL 512 0x10000)).read sRec 0x10000 512 with
      | (_, .ok bs) => launchArgBad 0 (parseLaunch bs) == none
      | _ => false) = true) :=
  met rfl (by decide) (by decide +kernel)

/-- A store to the record is owed; the part holds 4,096 grids. -/
def owedL : Group := { gL (pL 512 0x10000) [] with flight := [⟨7, 1, 0x10000, 0, [], 1#96, 1#96,
  .store pG.bits false [(0, 0x10000, leBytes 4 9)], none, some 5, false, none⟩] }
def sFull : State := withSys (sL (gL (pL 512 0x10000) []) 9 1 []) fun y => { y with grids := y.grids ++ List.replicate 4095 loadedGrid }
theorem witness_LaunchWaits :
    Met (sL owedL 9 1 []) owedL lc ((sL owedL 9 1 []).readWaits owedL (pL 512 0x10000) 512 [0x10000] = true ∧
      sRec.readWaits (gL (pL 512 0x10000) []) (pL 512 0x10000) 512 [0x10000] = false) ∧ sFull.full = true ∧
    Ready sFull lc 3 0 (gL (pL 512 0x10000) []) :=
  ⟨met rfl (by decide) (by decide +kernel), by decide +kernel, rdy_ready rfl (by decide +kernel)⟩

/-- The context's lock 3 with a holder and a queue. -/
def withLock (holder : Option Holder) (queue : List Holder) : State :=
  let s := only tg
  { s with sys := { s.sys with ctxs := [{ loadedCtx with locks := [⟨3, holder, queue⟩] }] } }
def sv (n : Nat) : SvcOp := ⟨40, .imm (BitVec.ofNat 9 n)⟩
def me : Holder := .group 2 0 0
def other : Holder := .group 9 0 0
def asking : Group := { tg with slot0 := { tg.slot0 with lockWait := some (.imm 3, 3) } }
theorem witness_Services :
    Met (only tg) tg (.svcLock .always (sv 256)) (256 ≤ tg.sop 0 (.imm 256) false) ∧
    Met (withLock (some me) []) tg (.svcLock .always (sv 3)) ((withLock (some me) []).holderOf tg = me ∧ (loadedCtx.lock 3).holder ≠ some me) ∧
    Met (withLock none [other]) tg (.svcLock .always (sv 3)) ((withLock none [other]).grants ⟨3, none, [other]⟩ me = true) ∧
    Met (withLock none [.host 0, me]) tg (.svcTrylock .always (sv 3)) ((withLock none [.host 0, me]).grants ⟨3, none, [.host 0, me]⟩ me = false) ∧
    Met (withLock (some other) []) tg (.svcLock .always (sv 3)) ((withLock (some other) []).grants ⟨3, some other, []⟩ me = false) ∧
    Met { withLock none [me, .host 0] with groups := [asking] } asking (.svcTrylock .always (sv 3))
      (({ withLock none [me, .host 0] with groups := [asking] } : State).grants ⟨3, none, [me, .host 0]⟩ me = true) ∧
    Met (withLock none [me, .host 0]) tg (.svcTrylock .always (sv 3)) ((withLock none [me, .host 0]).grants ⟨3, none, [me, .host 0]⟩ me = false) ∧
    Met { withLock (some other) [me] with groups := [asking] } asking (.svcLock .always (sv 3)) (asking.asks 3 = true ∧ me ∈ ([me] : List Holder)) ∧
    Met (only tg) tg (.svcTrylock .always (sv 256)) (256 ≤ tg.sop 0 (.imm 256) false) ∧
    Met (withLock (some me) []) tg (.svcUnlock .always (sv 3)) ((⟨3, some me, []⟩ : Lock).holder = some me) ∧
    Met (withLock (some other) []) tg (.svcUnlock .always (sv 3)) ((⟨3, some other, []⟩ : Lock).holder ≠ some me) :=
  ⟨met rfl (by decide) (by decide), met rfl (by decide) (by decide), met rfl (by decide) (by decide), met rfl (by decide) (by decide),
    met rfl (by decide) (by decide), met rfl (by decide) (by decide), met rfl (by decide) (by decide), met rfl (by decide) (by decide),
    met rfl (by decide) (by decide), met rfl (by decide) (by decide), met rfl (by decide) (by decide)⟩

def gW (t : Stream) : Group := { tg with streams := [Stream.fresh, Stream.fresh, t, Stream.fresh] }
def grp2 (cls : Nat) : Grid := { loadedGrid with launch := { loadedLaunch with cls := cls } }
/-- A second grid, of priority 3, whose one unit waits for the core. -/
def rival : Grid := { loadedGrid with id := 30, prio := 3, nextUnit := 0, st := .admitted }
def sYd (cls : Nat) (gs : List Grid) : State := let s := only tg; { s with boot := { s.boot with held := false }, sys := { s.sys with grids := grp2 cls :: gs, dies := s.sys.dies.map fun d => { d with inReset := false } } }
/-- A load that stream 2 gave its addresses to is in flight. -/
def streamed2 : Group := { gW { asked with req := none } with flight := [{ inFlight pG .native (.v 10) [(0, 0x10000)] 0 with stream := some 2 }] }
theorem witness_Specials :
    Met (only (gW .fresh)) (gW .fresh) (.wrsr .always ⟨0x22, 40⟩) (((gW .fresh).streams.getD 2 Stream.fresh).everSet = false) ∧
    Met (only (gW asked)) (gW asked) (.wrsr .always ⟨0x22, 40⟩) ((gW asked).streamIdle 2 = false ∧ asked.everSet = true) ∧
    Met (only streamed2) streamed2 (.wrsr .always ⟨0x22, 41⟩) (streamed2.streamIdle 2 = false ∧ streamed2.streamReady 2 = true) ∧
    Met (only (gW { asked with req := none })) (gW { asked with req := none }) (.wrsr .always ⟨0x22, 40⟩) ((gW { asked with req := none }).streamIdle 2 = true) ∧
    Met (sYd 0 []) tg (.yield .always 40) (((sYd 0 []).dieOfCore tg.core).any (fun d => ((sYd 0 []).headUnit d).isNone) = true) ∧
    Met (sYd 0 [rival]) tg (.yield .always 40) (((sYd 0 [rival]).dieOfCore tg.core).any (fun d => ((sYd 0 [rival]).headUnit d).isSome) = true ∧
      ((sYd 0 [rival]).requestUnit 2 ((grp2 0).haltUnit 0) 2 (some (3, 0, 40))).group? 3 ≠ none) ∧
    (0x18 ≤ (0x1B : W8).toNat ∧ (0x1B : W8).toNat ≤ 0x1B ∧ ¬(0x18 ≤ (0x17 : W8).toNat) ∧ ¬((0x1C : W8).toNat ≤ 0x1B)) :=
  ⟨met rfl (by decide) (by decide), met rfl (by decide) (by decide), met rfl (by decide) (by decide), met rfl (by decide) (by decide),
    met rfl (by decide) (by decide), met rfl (by decide) (by decide), by decide⟩

/-! ## Witnesses about the frame of an issue, the traps and the steps of the part -/

/-- Slot 0 is parked on the fault 5; a guard that selects no lane. -/
def parked : Group := { tg with slot0 := { tg.slot0 with park := some 5 } }
theorem witness_GuardedOff :
    (Standing (only tg) 3 0 tg ∧ tg.acts 0 (.nop (.pred 3 false)) = false ∧ (only tg).holds tg 0 (.nop (.pred 3 false)) = false) ∧
    (Standing (only parked) 3 0 parked ∧ (only parked).holds parked 0 (.nop .always) = true ∧ (Instr.nop .always).isStep = false ∧
      (only parked).touchSpill parked 0 (.nop .always) = none) ∧
    (Standing (noStack (only tg)) 3 0 tg ∧ (noStack (only tg)).holds tg 0 (.vmov .always ⟨.int .i32, 30, 8⟩) = true ∧
      (noStack (only tg)).touchSpill tg 0 (.vmov .always ⟨.int .i32, 30, 8⟩) = some 0x2022D00 ∧ 0x2022D00 = 0x2000000 + 0x20000 + 384 * 30) :=
  ⟨⟨standing_of rfl rfl rfl rfl rfl, by decide, by decide⟩, ⟨standing_of rfl rfl rfl rfl rfl, by decide⟩,
    standing_of rfl rfl rfl rfl rfl, by decide⟩

def logged (wr rd : Nat) (recs : List FaultRec) : State := withSys (only tg) fun y =>
  { y with ctxs := [{ loadedCtx with logWr := BitVec.ofNat 32 wr, logRd := BitVec.ofNat 32 rd, logRecs := recs }] }
def aTrap : Trap := ⟨0x04, 0, 15#96, 0x10040, 0, 0, 0x10000⟩
def evRec : FaultRec := { plainRec 1 0x16 0 0 0 with seq := 9 }
/-- Two groups wait for a reduction that has timed out. -/
def late2 : State :=
  let s := withSys (only tg) fun y => { y with reducts := [{ rdn 3 none true with waiters := [(3, 0), (5, 0)] }] }
  { s with groups := [tg, { tg with gid := 5, idx := 1 }] }
theorem witness_TrapTaken :
    ((logged 4094 0 []).group? 3 = some tg ∧ (logged 4094 0 []).grid? 2 = some loadedGrid ∧ loadedGrid.st ≠ .reported ∧
      ((logged 4094 0 []).ctx? 1).any (fun c => decide ((c.logWr - c.logRd).toNat < 4095)) = true ∧ (logged 4094 0 []).alsoTimedOut 3 aTrap = []) ∧
    ((late2.alsoTimedOut 3 { aTrap with cause := 0x12 }).map (·.1) = [5] ∧
      (late2.ctx? 1).any (fun c => decide ((c.logWr - c.logRd).toNat + 1 < 4095)) = true ∧ late2.group? 3 = some tg) ∧
    ((logged 4095 0 [evRec]).ctx? 1).any (fun c => decide (4095 ≤ (c.logWr - c.logRd).toNat) && c.logRecs.any fun y => y.kind == 1) = true ∧
    (plainRec 0 4 0 0 0).kind ≠ 1 ∧ (plainRec 0 4 0 0 0).kind ≠ 2 ∧
    ((logged 3 (2 ^ 32 - 4092) []).ctx? 1).any (fun c => decide (4095 ≤ (c.logWr - c.logRd).toNat) && c.logRecs.all fun y => y.kind == 0) = true :=
  ⟨⟨rfl, rfl, by decide, by decide, by decide⟩, by decide, by decide, by decide, by decide, by decide⟩

/-- A child grid; and the first event of a full log. -/
def aChild : Grid := { loadedGrid with id := 20, parent := some (2, 4, 0) }
theorem witness_TrapChildren :
    (∃ y ∈ (withSys (logged 0 0 []) fun z => { z with grids := [loadedGrid, aChild] }).sys.grids, y.parent.map (·.1) = some loadedGrid.id ∧ y.st ≠ .reported) ∧
    (([plainRec 0 4 0 0 0, evRec] : List FaultRec).find? fun y => y.kind == 1 || y.kind == 2) = some evRec :=
  ⟨⟨aChild, by decide, by decide⟩, by decide⟩

theorem witness_ScalarRegisters : (0 : Nat) < 2 ∧ (tg.slot 0).strand = some ⟨0x10000, 15#96, 15#96, none⟩ ∧ (2 < 3 ∧ 4 ≤ 15 ∧ 15 < 16 ∧ 16 ≤ 16) :=
  ⟨by decide, rfl, by decide⟩

/-- An entry of the in-flight list that a core has computed; a load parked on the fault 5; and the fault of its page. -/
def fl (w : Nat) (parked : Option Nat) : Flight :=
  ⟨7, 0, 0x10000, w, [.v 10], 15#96, 15#96, .ready ⟨[(10, 0, 6#32)], [], [], 1#8⟩, none, parked, false, none⟩
def faulty (g : Group) (va : Nat) (o : PfOwner) (demand : List DemandRange) (maps : List Mapping) : State :=
  withMem (withSys (only g) fun y => { y with ctxs := [{ loadedCtx with demand := demand, maps := maps }] }) fun m =>
    { m with faults := [⟨5, 1, va, false, 0, o, false⟩] }
def aRange : DemandRange := ⟨0x40000, 0x20000, .device, true, false, false⟩
def aMap : Mapping := ⟨0x40000, 0x30000, 0x10000, .device, true, false, false⟩
def waitsFor (n : Nat) : Group := { tg with slot0 := { tg.slot0 with waits := n } }
/-- The entry acquires, and the parked one is behind nothing. -/
theorem witness_ResultsArrive :
    ((only { tg with flight := [fl 0 none] }).group? 3 = some { tg with flight := [fl 0 none] } ∧
      ({ tg with flight := [fl 0 none] } : Group).flightOf 7 = some (fl 0 none) ∧
      ∀ n ∈ (only { tg with flight := [{ fl 0 none with acquire := true }] }).mem.snoops, n.gid ≠ some 3) ∧
    ((only { tg with flight := [fl 3 none] }).group? 3 = some { tg with flight := [fl 3 none] } ∧ (fl 3 none).window ≠ 0) ∧
    (({ tg with flight := [fl 0 (some 5)] } : Group).flightOf 7 = some (fl 0 (some 5)) ∧
      (only { tg with flight := [fl 0 (some 5)] }).inTurn { tg with flight := [fl 0 (some 5)] } (fl 0 (some 5)) = true ∧
      (∀ x ∈ (only { tg with flight := [fl 0 (some 5)] }).mem.faults, x.k ≠ 5)) ∧
    (5 ≠ 6 ∧ ∃ x ∈ (faulty tg 0x40000 .part [] []).mem.faults, x.k = 5) ∧
    ((waitsFor 1023).slot 0).waits < 1024 ∧ (1024 ≤ ((waitsFor 1024).slot 0).waits ∧ waitsFor 1024 ∈ (only (waitsFor 1024)).groups) ∧
    (({ loadedCtx with demand := [aRange], maps := [] } : Ctx).demandPage 0x5FFFF = some aRange ∧
      ({ loadedCtx with demand := [aRange], maps := [] } : Ctx).mapOf 0x5FFFF = none ∧
      (faulty tg 0x5FFFF .part [aRange] []).demandFrame aRange 0x30000 = true) ∧
    ((({ loadedCtx with maps := [] } : Ctx).demandPage 0x3FFFFFF).isSome = true ∧ (loadedCtx.demandPage 0x4000000).isNone = true) ∧
    ((({ loadedCtx with maps := [aMap] } : Ctx).mapOf 0x4FFFF) = some aMap ∧ aMap.replicable = false) ∧
    (({ loadedCtx with demand := [aRange], maps := [] } : Ctx).demandPage 0x60000 = none ∧
      ({ loadedCtx with demand := [aRange], maps := [] } : Ctx).mapOf 0x60000 = none ∧
      ((faulty tg 0x60000 (.slot 3 0 15#96) [aRange] []).mem.faults.find? fun f => f.k == 5 && !f.done).any (fun f => f.owner == .slot 3 0 15#96) = true) :=
  ⟨⟨rfl, rfl, by decide⟩, ⟨rfl, by decide⟩, ⟨rfl, by decide, by decide⟩, ⟨by decide, by decide⟩, by decide, ⟨by decide, List.mem_singleton.mpr rfl⟩,
    ⟨by decide, by decide, by decide⟩, by decide, ⟨by decide, by decide⟩, by decide, by decide, by decide⟩

/-! A rival of priority 3 on the bench cores of the die, one of which the group holds; a unit that is saved; a suspended context. -/

def rivalB : Grid := { rival with launch := { loadedLaunch with cls := 2, groups := 8, window := 4096 } }
def onBench : Group := { tg with core := 7 }
def pre (f : Sys → Sys) : State := withSys { sYd 0 [rivalB] with groups := [onBench] } fun y => f { y with
  ctxs := [{ loadedCtx with bench := 8 }], teams := [{ loadedTeam with cores := [7] }] }
def preDie : Die := ((pre id).die? 0).getD ⟨0, 0, false, false, 0, none⟩
def unitSaved (saved : Bool) : SavedUnit := ⟨40, 2, 0, 1, none, saved⟩
def away : Group := { tg with resident := false }
def sBack (cls : Nat) : State := { withSys (sYd cls []) fun y => { y with saved := [unitSaved true] } with groups := [away] }
def sBackHeads (cls : Nat) : List Die :=
  (sBack cls).sys.dies.filter fun d => (sBack cls).eligible d (grp2 cls) && (sBack cls).headUnit d == some ⟨2, 0, some 40⟩
def canReturn (cls : Nat) : Bool :=
  ((sBack cls).placeBack (grp2 cls) 0 (sBackHeads cls) (sBack cls).usage none).isSome &&
  (match (sBack cls).getEddies loadedCtx [away] with
   | .inl _ => true
   | _ => false)
def suspended : State := withSys (sYd 0 []) fun y => { y with ctxs := [{ loadedCtx with suspended := true }] }
theorem witness_PreEmption :
    ((pre id).grid? 2 = some (grp2 0) ∧ (pre id).causeHolds (grp2 0) ((grp2 0).haltUnit 0) 1 = true ∧
      (pre id).inUnit (grp2 0) ((grp2 0).haltUnit 0) onBench = true ∧ (pre id).sys.saved = []) ∧
    (suspended.causeHolds (grp2 0) ((grp2 0).haltUnit 0) 3 = true ∧ (only tg).grid? 2 = some loadedGrid ∧
      (only tg).causeHolds loadedGrid (loadedGrid.haltUnit 0) 1 = false) ∧
    ((only tg).team? tg.tid = some loadedTeam ∧ loadedTeam.t = 0) ∧
    ((pre id).die? 0 = some preDie ∧ (pre id).headUnit preDie = some ⟨30, 0, none⟩ ∧ (pre id).grid? 30 = some rivalB ∧ 2 ≤ rivalB.prio ∧
      (pre id).headFits preDie [] = false ∧ (pre id).headFits preDie [3] = true ∧ (pre id).victims preDie rivalB = [(2, 0, 0)]) ∧
    ({ rivalB with prio := 1 }.prio < 2) ∧
    ((pre fun y => { y with saved := [unitSaved false] }).tarnCopies (grp2 0) ((grp2 0).haltUnit 0) = false ∧ tg.mq = [] ∧
      (pre fun y => { y with saved := [unitSaved false] }).mem.snoops = [] ∧ (pre fun y => { y with saved := [unitSaved false] }).evicting [7] = false ∧
      { (pre fun y => { y with saved := [unitSaved false] }) with mem := { (pre id).mem with
        snoops := [⟨70, 0, some 0, [5], 0, true, false, none, none⟩] } }.evicting [7] = true ∧ (loadedCtx.eddyMiss [tg]).isNone = true) ∧
    (((sBack 0).sys.saved.find? fun v => v.id == 40 && v.saved) = some (unitSaved true) ∧ (sBack 0).grid? 2 = some (grp2 0) ∧
      owesAtom away = false ∧ (sBack 0).mem.snoops = [] ∧ (sBack 0).team? 4 = some loadedTeam ∧ State.teamInUnit (grp2 0) 0 loadedTeam = true ∧
      canReturn 0 = true ∧ canReturn 1 = true) ∧
    ((only tg).ctxAt? 0 = some loadedCtx ∧ ((only tg).die? 0).any (fun d => d.ctx != some 1) = true) :=
  ⟨⟨rfl, by decide +kernel, by decide, rfl⟩, ⟨by decide, rfl, by decide⟩, ⟨rfl, rfl⟩,
    ⟨by decide, by decide, rfl, by decide, by decide +kernel, by decide +kernel, by decide +kernel⟩, by decide,
    ⟨by decide, rfl, rfl, by decide, by decide, by decide⟩, ⟨rfl, rfl, by decide, rfl, rfl, by decide, by decide +kernel, by decide +kernel⟩, ⟨rfl, by decide⟩⟩

/-! An inlet whose ring stands at 0x10000, with the entry 0x10040, and a record there. -/

def anInlet (tail head : W32) : Inlet := ⟨4, 1, 0x10000, 2, 3, 15#4, tail, head, true, false, false⟩
def ringed (i : Inlet) (entry : Nat) (rec1 : List W8) : State :=
  withBoot (withSys (withBytes (only tg) (leBytes 64 entry ++ rec1)) fun y => { y with inlets := [i] }) fun b => { b with st := .ready }
/-- The event array of slot 0 stands at 0x10000. -/
def evented : State := withSys (ringed (anInlet 0 0) 0 []) fun y => { y with ctxs := [{ loadedCtx with eventVa := 0x10000 }] }
theorem witness_RegisterWrites :
    ((ringed (anInlet 0 0) 0 []).inlet? 4 = some (anInlet 0 0) ∧ ((2 : W32) - (anInlet 0 0).head).toNat ≤ (anInlet 0 0).size ∧
      (ringed (anInlet 0 0) 0 []).boot.accepted = true ∧ (only tg).boot.accepted = false) ∧
    (∀ i ∈ (ringed (anInlet 0 0) 0 []).sys.inlets, i.n = 4 → i.size < ((3 : W32) - i.head).toNat) ∧
    (evented.ctxAt? 0 = some { loadedCtx with eventVa := 0x10000 } ∧ evented.boot.accepted = true ∧
      ({ loadedCtx with eventVa := 0x10000 } : Ctx).mapOf (0x10000 + 4 * 4095) = some ⟨0x10000, 0, 0x10000, .device, true, true, false⟩ ∧
      ∀ x ∈ evented.sys.grids, x.st ≠ .waiting) ∧
    ((evented.ctxAt? 255).isNone = true ∧ ((only tg).ctxAt? 0).all (fun c => (c.mapOf (c.eventVa + 4 * 4095)).isNone) = true) ∧
    ((0x14 : Nat) % 0x1000 ≠ 0x10 ∧ (0x100000 : Nat) ≤ 0x500000) :=
  ⟨⟨rfl, by decide, rfl, rfl⟩, by decide, ⟨rfl, rfl, by decide, by decide⟩, by decide, by decide⟩

/-- Reading the record of zeros is possible: the bytes at the entry and at the record are backed and not poisoned. -/
def readOk (s : State) (va n : Nat) : Bool := match s.homeRead loadedCtx va n with | .ok _ => true | _ => false
def entryIs (s : State) (i : Inlet) (e : Nat) : Bool := match s.homeRead loadedCtx (i.base + 8 * (i.head.toNat % i.size)) 8 with
  | .ok b => leNat b == e
  | _ => false
def waitsOn (e : Nat) : Grid := { loadedGrid with id := 50, st := .waiting, inlet := some 4, launch := { loadedLaunch with dep := 0x10000, depVal := e } }
def unread (s : State) (va n : Nat) (reason : Option Nat) : Bool := match s.homeRead loadedCtx va n with
  | .bad _ r => reason == some r
  | .miss a _ => reason == none && (loadedCtx.inDemand a).isNone
  | _ => false
/-- The words at the entry, or at the record, hold poison. -/
def poisonedAt (w : Nat) : State := withMem (ringed (anInlet 1 0) 0x10040 []) fun m => { m with poison := [w] }
def sWaits (full : Bool) : State := withSys (ringed (anInlet 1 0) 7 []) fun y => { y with
  grids := waitsOn 7 :: if full then List.replicate 4096 loadedGrid else [loadedGrid] }
theorem witness_RecordsTaken :
    ((ringed (anInlet 1 0) 0x10040 []).inlet? 4 = some (anInlet 1 0) ∧ (ringed (anInlet 1 0) 0x10040 []).ctx? 1 = some loadedCtx ∧
      (ringed (anInlet 1 0) 0x10040 []).mayTake (anInlet 1 0) = true ∧ entryIs (ringed (anInlet 1 0) 0x10040 []) (anInlet 1 0) 0x10040 = true ∧
      readOk (ringed (anInlet 1 0) 0x10040 []) 0x10040 512 = true ∧ (ringed (anInlet 1 0) 0x10040 []).grid? 10 = none ∧
      (parseLaunch (List.replicate 512 0)).done = 0 ∧ (parseLaunch (List.replicate 512 0)).dep = 0) ∧
    (entryIs (ringed (anInlet 1 0) 0x10041 []) (anInlet 1 0) 0x10041 = true ∧ 0x10041 % 64 ≠ 0 ∧
      (ringed (anInlet 1 0) 0x10041 []).mayTake (anInlet 1 0) = true) ∧
    (unread (poisonedAt 1) 0x10000 8 (some 6) = true ∧ unread (poisonedAt 143) 0x10040 512 (some 6) = true ∧
      unread (only tg) 0x90000 8 none = true ∧ unread (only tg) 0x1FFC0 512 none = true) ∧
    ((sWaits false).sys.grids.filter (fun x => x.st == .waiting) = [waitsOn 7] ∧ (sWaits false).grid? 50 = some (waitsOn 7) ∧
      (waitsOn 7).checked = true ∧ (sWaits false).eventSettled 1 0x10000 = true ∧
      (match (sWaits false).homeRead loadedCtx 0x10000 4 with | .ok b => decide (7 ≤ leNat b) && decide (leNat b < 8) | _ => false) = true ∧
      (sWaits false).full = false ∧ (sWaits true).full = true) :=
  ⟨⟨rfl, rfl, by decide +kernel, by decide +kernel, by decide +kernel, rfl, by decide +kernel, by decide +kernel⟩,
    ⟨by decide +kernel, by decide, by decide +kernel⟩, ⟨by decide +kernel, by decide +kernel, by decide +kernel, by decide +kernel⟩,
    ⟨by decide, rfl, by decide, by decide, by decide +kernel, by decide +kernel, by decide +kernel⟩⟩

/-! A unit that can be placed, and a run of the sluice. -/

def roomy (s : State) : State := withSys s fun y => { y with ctxs := y.ctxs.map fun c => { c with stackGroups := 4 } }
def aDie (s : State) : Die := (s.die? 0).getD ⟨0, 0, false, false, 0, none⟩
def aDeposit : Deposit := ⟨5, 1, 7#64, 0#64, 2#32, [8#32]⟩
def sRun : State :=
  let s := roomy (withReorder (only { tg with retired := true }))
  withSys s fun y => { y with teams := [{ loadedTeam with runs := [[aDeposit]] }] }
theorem witness_UnitsStart :
    (let s := roomy (sYd 0 [rival])
     s.die? 0 = some (aDie s) ∧ s.headUnit (aDie s) = some ⟨30, 0, none⟩ ∧ s.grid? 30 = some rival ∧ s.reservoirBusy rival = false ∧
      s.stackRoom rival (sumOf ((rival.unitTeams 0).map (·.2))) = true ∧
      (s.placeUnit (aDie s) rival ⟨30, 0, none⟩ (s.freshKeys (rival.unitTeams 0)) []).isSome = true ∧ 0 < rival.unitCount ∧ rival.seeds = []) ∧
    ((only tg).headUnit (aDie (only tg)) = none) ∧
    ((sRun.team? 4).any (fun t => t.runs == [[aDeposit]] && t.resident && !t.done && t.cores.contains 0) = true ∧
      (sRun.groups.filter fun g => g.tid == 4 && !g.retired).length < loadedLaunch.groups ∧
      sRun.usage.fits { loadedLaunch with reorder := 0x40000 } 0 0 4 = true ∧ (sRun.grid? 2).any (fun x => sRun.stackRoom x 1) = true) :=
  ⟨⟨by decide, by decide, rfl, by decide, by decide, by decide, by decide, rfl⟩, by decide, by decide, by decide, by decide, by decide⟩

/-- The four lanes have arrived, with the weight w and the target 4. -/
def arrived (w : W32) : Grid := { loadedGrid with
  launch := { loadedLaunch with flags := 2, lastLanes := 4 }, arrivals := [0, 1, 2, 3].map fun i => ⟨3, 0, i, i, w, 4, 0x10008, 9⟩ }
def overGrid : Grid := { loadedGrid with st := .ended, teamsLeft := 0, cause := some (4, 0x10000), launch := { loadedLaunch with done := 0x10010 } }
def withGrid (x : Grid) : State := withSys (only tg) fun y => { y with grids := [x] }
theorem witness_GridsEnd :
    ((withGrid overGrid).grid? 2 = some overGrid ∧ (withGrid overGrid).gridOver overGrid = true ∧ overGrid.launch.done % 16 = 0 ∧ loadedCtx.mapOf 0x10010 =
      some ⟨0x10000, 0, 0x10000, .device, true, true, false⟩ ∧ backed (withGrid overGrid).boot.expanders 0x10 = true) ∧
    ((only tg).gridOver loadedGrid = false) ∧
    ((withGrid (arrived 0x3F800000)).grid? 2 = some (arrived 0x3F800000) ∧ (withGrid (arrived 0x3F800000)).allArrived (arrived 0x3F800000) = true ∧
      (arrived 0x3F800000).resampleBad (sortBy (·.pslot) (arrived 0x3F800000).arrivals) (((arrived 0x3F800000).prefixes.getLast?).getD (.fin false 0 0)) = none) ∧
    (((arrived 0x7FC00000).resampleBad (sortBy (·.pslot) (arrived 0x7FC00000).arrivals) (.fin false 0 0)).map (·.2.2.length)) = some 4 :=
  ⟨⟨rfl, by decide, by decide, by decide, by decide⟩, by decide, ⟨rfl, by decide, by decide +kernel⟩, by decide +kernel⟩

/-- Another die's basin holds the word of the count; the child's parent holds its handle. -/
def shared : State := withMem (withSys (withGrid overGrid) fun y => { y with dies := y.dies.map fun d => { d with inReset := false } }) fun m =>
  { m with basin := [⟨1, 1, 4, 0, true, false, false, false⟩] }
def laterOf (s : State) : Option Nat := match exec (.completionEvent 2) s with
  | .next t => some t.mem.later.length
  | _ => none
def overChild : Grid := { overGrid with id := 20, parent := some (2, 4, 0) }
def sKid : State := withSys (only tg) fun y => { y with grids := [loadedGrid, overChild], teams := [{ loadedTeam with kids := [⟨20, none⟩] }] }
/-- The grid's one unit is saved, its lanes resume at four addresses, and its STACK page is not mapped. -/
def arrived4 : Grid := { arrived 0x3F800000 with arrivals := [0, 1, 2, 3].map fun i =>
  ⟨3, 0, i, i, 0x3F800000, 4, BitVec.ofNat 64 (0x10008 + 16 * i), 9⟩ }
def imageGone : State :=
  let s := noStack (withGrid arrived4)
  { withSys s fun y => { y with saved := [unitSaved true] } with groups := [away] }
def missingPage (s : State) (x : Grid) : Option (Nat × Nat) :=
  let u := s.resample x (sortBy (·.pslot) x.arrivals) x.prefixes ((x.prefixes.getLast?).getD (.fin false 0 0)) 4
  ((u.ctx? x.ctx).bind fun c => c.eddyMiss ((u.imaged x).flatMap (·.2))).map fun y => (y.1.gid, y.2)
theorem witness_EventsAcknowledged :
    (laterOf shared = some 1 ∧ laterOf (withGrid overGrid) = some 0 ∧ shared.mem.later = [] ∧ (∀ n ∈ shared.mem.snoops, n.k < shared.run.nextId)) ∧
    (sKid.grid? 20 = some overChild ∧ sKid.gridOver overChild = true ∧ sKid.team? 4 = some { loadedTeam with kids := [⟨20, none⟩] } ∧
      sKid.grid? 2 = some loadedGrid) ∧
    (missingPage imageGone arrived4 = some (3, 0x2000000) ∧
      missingPage (withGrid (arrived 0x3F800000)) (arrived 0x3F800000) = none) ∧
    (∀ x ∈ [(0, 0x10008#64), (95, 0x10010#64)], x.1 < 96) ∧ (⟨[(0, 0, 0, 0)], 8, [], [], [], 0x10008⟩ : Seed).lanes.length ≤ 96 :=
  ⟨⟨by decide +kernel, by decide +kernel, rfl, by decide⟩, ⟨rfl, by decide, rfl, rfl⟩, ⟨by decide +kernel, by decide +kernel⟩, by decide, by decide⟩

/-! A copy of two FP32 elements from 0x10040 to 0x10080, and its record at 0x10000. -/

def pF (b : Nat) : Ptr := { pG with base := b, count := 2 }
def copied : CopyRec := copyRec (pF 0x10040).bits (pF 0x10080).bits 0 0 2 1 0 0 0 false
def recordBytes (link : Nat) : List W8 :=
  leBytes 16 ((pF 0x10040).sealed 0).toNat ++ leBytes 16 ((pF 0x10080).sealed 0).toNat ++ leBytes 8 link ++ leBytes 4 2 ++ leBytes 4 1 ++ List.replicate 16 0
def aCopy (chain : Bool) (body : Option CopyRec) : CopyOp := ⟨9, 3, 1, 4, 0, 0, chain, 0, 0x10000, 15#96, 0x10000, body, 0, false, 0, none, none, none, none⟩
def copying (c : CopyOp) (bs : List W8) : State := withSys (withBytes (only tg) bs) fun y => { y with copies := [c] }
def engineOk (s : State) (c : CopyOp) (p : List W8 → Bool) : Bool := match s.engineRead c.gid (s.recordPort c) c.addr 64 with
  | (_, .ok bs) => p bs
  | _ => false
/-- What the copy of the record r moves, from zeros. -/
def moved (c : CopyOp) (n m : Nat) : Bool := match (copying c (List.replicate 256 0)).copySpan c copied n with
  | (_, j, .ok _) => j == m
  | _ => false
def done (c : CopyOp) (j : Nat) : CopyOp := { c with body := some copied, moved := j }
/-- Whether n bytes can be written at offset o of the record of a copy. -/
def putOk (c : CopyOp) (o n : Nat) : Bool := match (copying c []).engineWrite 3 ((copying c []).recordPort c) (0x10000 + o) (leBytes n 8) (some 9) with
  | (_, .ok _) => true
  | _ => false
/-- A write of the copy has not been acknowledged. -/
def unacked (c : CopyOp) : State := withMem (copying c []) fun m => { m with snoops := [⟨70, 0, none, [5], 0, true, false, some 9, none⟩] }
def streamed (bs : List W8) : State := withBytes (only (gSt pS 0 asked 1)) bs
def streamOk (bs : List W8) (p : List W8 → Bool) : Bool :=
  match (streamed bs).engineRead 3 ((streamed bs).port (gSt pS 0 asked 1) pS) 0x10000 64 with
  | (_, .ok b) => p b
  | _ => false
/-- The record, its source pointer with a seal that fails; and its destination pointer too small. -/
def unsealed : List W8 := leBytes 16 (((pF 0x10040).sealed 0) ^^^ 1#128).toNat ++ (recordBytes 1).drop 16
def tooSmall : List W8 := (recordBytes 1).take 16 ++ leBytes 16 (({ pF 0x10080 with count := 1 } : Ptr).sealed 0).toNat ++ (recordBytes 1).drop 32
def failsAs (bs : List W8) (p : Nat × Nat × Nat → Bool) : Bool :=
  engineOk (copying (aCopy true none) bs) (aCopy true none) fun b => (chainRec b).own &&
    ((copying (aCopy true none) bs).copyFails { tg with core := 0 } true (chainRec b)).any p
theorem witness_CopySteps :
    ((copying (aCopy true none) (recordBytes 0)).copy? 9 = some (aCopy true none) ∧
      (copying (aCopy true none) (recordBytes 0)).copyHeld (aCopy true none) = false ∧ (aCopy true none).ending = false) ∧
    engineOk (copying (aCopy true none) (recordBytes 0)) (aCopy true none) (fun b => !(chainRec b).own) = true ∧
    engineOk (copying (aCopy true none) (recordBytes 1)) (aCopy true none) (fun b => (chainRec b).own &&
      (copying (aCopy true none) (recordBytes 1)).copyFails { tg with core := 0 } true (chainRec b) == none) = true ∧
    (failsAs (recordBytes 25) (fun x => x.1 == 1) = true ∧ failsAs unsealed (fun x => x == (3, 0, 1)) = true ∧
      failsAs tooSmall (fun x => x.1 != 1 && x.1 != 3 && x.1 != 8) = true ∧ sealOk 0 (((pF 0x10040).sealed 0) ^^^ 1#128) = false) :=
  ⟨⟨rfl, by decide, rfl⟩, by decide +kernel, by decide +kernel, by decide +kernel⟩
theorem witness_CopyMoves :
    ((copying (done (aCopy true none) 8) []).copy? 9 = some (done (aCopy true none) 8) ∧ (done (aCopy true none) 8).closed = none ∧
      (done (aCopy true none) 8).halted = none ∧ (done (aCopy true none) 8).told.getD 0 ≠ 8 ∧ copied.bytes ≤ 8 + 1024 ∧
      8 + 1024 < { copied with w := 259 }.bytes) ∧
    moved (done (aCopy true none) 0) 1024 8 = true ∧
    moved (done (aCopy true none) 0) 4 4 = true ∧
    (match (withMem (copying (done (aCopy true none) 0) []) fun m => { m with poison := [17] }).copySpan (done (aCopy true none) 0) copied 8 with
      | (_, j, .fail _ _ a) => j == 4 && a == 0x10044 | _ => false) = true ∧
    ((unacked (aCopy true none)).copyAcked (aCopy true none) = false ∧ (copying (aCopy true none) []).copyAcked (aCopy true none) = true) ∧
    (putOk (done (aCopy true none) 8) 0x3C 4 = true ∧ putOk (done (aCopy true none) 8) 0x20 4 = true ∧
      putOk (done (aCopy true none) 8) 0x38 4 = true ∧
      engineOk (copying (aCopy true none) (recordBytes 1)) { aCopy true none with addr := 0x10020 } (fun b => leNat (b.take 8) == 1) = true) ∧
    (1 % 2 ^ 52 / 64 * 64 = 0 ∧ 65 % 2 ^ 52 / 64 * 64 ≠ 0) ∧ (0 < copied.elem ∧ copied.limits = true ∧ 7 < copied.bytes) ∧
    (streamOk (List.replicate 64 0) (fun b => streamBad 0 b == none) = true ∧
      streamOk (List.replicate 40 0 ++ List.replicate 24 2) (fun b => (streamBad 0 b).any fun x => x.1 == 1 && x.2.2.isNone) = true ∧
      streamOk (List.replicate 40 0 ++ leBytes 8 1 ++ leBytes 16 (((pF 0x10040).sealed 0) ^^^ 1#128).toNat) (fun b => (streamBad 0 b).any fun x => x.1 == 3) = true ∧
      (streamed []).zmovCovers (gSt pS 0 asked 1) pS 64 [0x10000] = false ∧ (gSt pS 0 asked 1).flight = [] ∧
      (gSt pS 0 asked 1).resident = true) :=
  ⟨⟨rfl, by decide⟩, by decide +kernel, by decide +kernel, by decide +kernel, by decide, by decide +kernel, by decide, by decide,
    ⟨by decide +kernel, by decide +kernel, by decide +kernel, by decide +kernel, rfl, rfl⟩⟩

/-! A queue of one ZCLR, and an XFORM whose header stands in the tarn. -/

def zc : MxOp := opQ (.zclr .always ⟨.fp32, 1⟩)
def run1 : MxOp := { zc with started := true }
def withMq (mq : List MxOp) : Group := { gM pM two mq with cntMx := 1 }
def xfo : MxOp := { opQ (.xformFwd .always ⟨4, .s 41, none⟩) with ptrs := [({ pT with cls := 0, count := 60000 } : Ptr).bits], scal := [0, 0] }
def sXf (rows : W8) : State := { sM (withMq [xfo]) with sys := { (sM (withMq [xfo])).sys with
  teams := [{ loadedTeam with tarn := [(4, rows), (6, 128)] }] } }
def hdrIs (rows : W8) (v : Option (Nat × Nat)) : Bool := match (sXf rows).mxRead (withMq [xfo]) (xfo.p 0) (xfo.s 0 + xfo.s 1) 64 with
  | (_, .ok b) => xformHdrBad true (xfo.p 0) (xfo.s 0 + xfo.s 1) (tileHdr b) == v
  | _ => false
theorem witness_MatrixSteps :
    (nextOp ((sM (withMq [zc])).mxReady (withMq [zc])) [zc] [] = some zc ∧ (sM (withMq [zc])).missingB (withMq [zc]) zc = none ∧ withMq [zc] ∈ (sM (withMq [zc])).groups ∧ (withMq [zc]).resident = true ∧
      ∀ h ∈ (sM (withMq [zc])).groups, ∀ p ∈ h.mq, p.started = false) ∧
    ((sM (withMq [run1])).group? 3 = some (withMq [run1]) ∧ ((withMq [run1]).mq.find? fun o => o.id == 8 && o.started) = some run1 ∧
      (sM (withMq [run1])).mxHeld (withMq [run1]) run1 = false ∧
      (match (sM (withMq [run1])).runOp (withMq [run1]) run1 with | (_, .ok d) => d.tiles.length == 1 | _ => false) = true) ∧
    ((withMq [xfo]).mq.find? (fun o => isXform o.op) = some xfo ∧ xfo.started = false ∧ xfo.status = 0 ∧ hdrIs 96 none = true ∧
      hdrIs 95 (some (0x10, 4)) = true) :=
  ⟨⟨by decide, by decide, List.mem_singleton.mpr rfl, rfl, by decide⟩, ⟨rfl, by decide, by decide, by decide⟩, by decide, by decide, by decide, by decide, by decide⟩

/-! Contributions to the mere and to the reduction. -/

def toMere (tag : W16) : Sent := ⟨60, 1, 3, 0, 0, 0x10000, 15#96, .meet 0x10100 1 tag [1#64]⟩
def toRed (m : W64) : Sent := ⟨60, 1, 3, 0, 0, 0x10000, 15#96, .reduce 1 none 7 1 m .fp32 .sum 1 [1#64]⟩
def mere2 (rule : Nat) (rounds : List Round) : Mere :=
  { mere 5 [(1, 2)] with rule := rule, lags := List.replicate 64 4, rounds := rounds, closed := [] }
def sMe (e : Sent) (m : Mere) : State := withSys (only tg) fun y => { y with sent := [e], meres := [m] }
def lagOf (tag : W16) (m : Mere) : Nat := 2 ^ 16 - (tag - m.tag).toNat
theorem witness_MereSteps :
    ((sMe (toMere 5) (mere2 0 [])).sys.sent = [] ++ toMere 5 :: [] ∧ (sMe (toMere 5) (mere2 0 [])).mere? 1 0x10100 = some (mere2 0 [])) ∧
    (4 ≤ (9 - (mere2 0 []).tag).toNat ∧ (9 - (mere2 0 []).tag).toNat < 2 ^ 15) ∧
    ((8 - (mere2 0 []).tag).toNat < 4 ∧ 1 ∉ (mere2 0 []).onTime 8) ∧
    (lagOf 1 (mere2 2 []) ≤ (mere2 2 []).lags.getD 1 0 ∧ (mere2 2 []).rule = 2) ∧ (lagOf 4 (mere2 1 []) ≤ 4 ∧ (mere2 1 []).rule ≠ 2) ∧
    (1 ∈ (mere2 0 [⟨5, [(1, [1#64])]⟩]).onTime 5) ∧ (mere2 0 []).lags.getD 1 0 < lagOf 0 (mere2 0 []) ∧
    ((∀ f ∈ (mere2 0 []).folds, f.member ≠ 1) ∧ (mere2 0 []).rule ≠ 1) ∧
    ((sMe (toMere 5) (mere 5 [])).sys.meres[0]? = some (mere 5 []) ∧ (sMe (toMere 5) (mere 5 [])).mereIdle (mere 5 []) = true ∧
      (sMe (toMere 5) (mere2 0 [])).mereIdle (mere2 0 []) = false) ∧
    (0 < (mere2 0 [⟨8, []⟩]).k ∧ ∀ r ∈ (mere2 0 [⟨8, []⟩]).rounds, (r.tag - (mere2 0 [⟨8, []⟩]).tag).toNat < 4) :=
  ⟨⟨rfl, rfl⟩, by decide, by decide, by decide, by decide, by decide, by decide, by decide, ⟨rfl, by decide, by decide⟩, by decide⟩

/-- Another contribution of the group goes to a router of the same mere first. -/
def sTwo : State := withSys (sMe (toMere 5) (mere2 0 [])) fun y => { y with sent := [{ toMere 5 with id := 59 }, toMere 5] }
theorem witness_MeetOrder : sTwo.sys.sent = [{ toMere 5 with id := 59 }] ++ toMere 5 :: [] ∧
    sTwo.meetRouter { toMere 5 with id := 59 } = some (mere2 0 []).die ∧ sTwo.mere? 1 0x10100 = some (mere2 0 []) := ⟨rfl, by decide, rfl⟩

def sRd (e : Sent) (rs : List Reduct) : State := withSys (only tg) fun y => { y with sent := [e], reducts := rs }
theorem witness_RouterSteps :
    (((sRd (toRed 3) [rdn 3 none false]).sys.sent.find? fun e => e.id == 60) = some (toRed 3) ∧
      (sRd (toRed 3) [rdn 3 none false]).reduct? 1 1 none 7 = some (rdn 3 none false) ∧ (rdn 3 none false).agrees 3 .fp32 .sum 1 = true ∧
      ∀ x ∈ (rdn 3 none false).got, x.1 ≠ 1) ∧
    ((rdn 7 none false).agrees 3 .fp32 .sum 1 = false) ∧ (rdn 3 none true).timedOut = true ∧
    ((sRd (toRed 3) []).reduct? 1 1 none 7 = none ∧ ((sRd (toRed 3) []).sys.reducts.filter fun r => r.ctx == 1).length < 16) ∧
    ((rdn 3 (some ([1], 0)) false).result.isSome = true ∧ (rdn 3 none false).result = none) :=
  ⟨⟨by decide, by decide, by decide, by decide⟩, by decide, rfl, by decide, rfl, rfl⟩

/-! A chunk of 128 FP32 elements at 0x10000, in a collective of two ranks. -/

def bound : Grid := { loadedGrid with chunksLeft := 1, launch := { loadedLaunch with
  flags := 1, coll := 0x10000, chunk := 1, args := [({ pG with count := 128 } : Ptr).bits] } }
def chunkAt (st : ChunkSt) (bad : Nat) : Chunk := ⟨2, 0, st, [], [], [], if bad = 0 then [] else [(2 ^ 32, bad)]⟩
def sCh (k : Chunk) : State := withSys (only tg) fun y => { y with grids := [bound], chunks := [k], comms := [⟨1, 1, 2, 0, 1⟩] }
/-- A store of the group is not performed yet; and the chunk is on a page that no memory backs. -/
def owing (k : Chunk) : State := { sCh k with groups := [{ tg with flight := [stEntry] }] }
def unbacked : Ctx := { loadedCtx with maps := [⟨0x10000, 0x20000000000, 0x10000, .device, true, false, false⟩] }
def startRead (s : State) (c : Ctx) : Acc (List W8) := (s.flushVa c (bound.chunkAddr 0) (bound.chunkLen * 4) 2).homeRead c (bound.chunkAddr 0) (128 * 4)
def readsAs (r : Acc (List W8)) (reason : Option Nat) : Bool := match r, reason with
  | .ok _, none => true
  | .bad _ n, some m => n == m
  | _, _ => false
/-- The path of the bench: the threshold is 511 bytes, and the context has bench cores. -/
def slicing : Grid := { bound with launch := { bound.launch with thresh := 511 } }
def sSlice : State := withSys (sCh (chunkAt .started 0)) fun y => { y with ctxs := [{ loadedCtx with bench := 8 }] }
def numbered : State := withSys (sCh (chunkAt .started 0)) fun y => { y with grids := [{ bound with bound := some 0 }] }
def rawBlock : List W8 := wireEncode 0x0A (List.replicate 128 1)
theorem witness_CollectiveSteps :
    ((sCh (chunkAt .fired 0)).grid? 2 = some bound ∧ (sCh (chunkAt .fired 0)).chunk? 2 0 = some (chunkAt .fired 0) ∧
      (sCh (chunkAt .fired 0)).ctx? 1 = some loadedCtx ∧ (owing (chunkAt .fired 0)).chunkOwed bound 0 = true ∧
      (sCh (chunkAt .fired 0)).chunkOwed bound 0 = false ∧ readsAs (startRead (sCh (chunkAt .fired 0)) loadedCtx) none = true ∧
      readsAs (startRead (withMem (sCh (chunkAt .fired 0)) fun m => { m with poison := [127] }) loadedCtx) (some 6) = true ∧
      readsAs (startRead (sCh (chunkAt .fired 0)) unbacked) (some 1) = true) ∧
    (numbered.boundGrid ⟨0, 1, 0⟩ = some { bound with bound := some 0 } ∧ numbered.chunk? 2 0 = some (chunkAt .started 0) ∧
      1 < numbered.ranks bound ∧ numbered.awaited bound 0 1 = true ∧ numbered.awaited bound 0 0 = false ∧ 128 * 0 < bound.chunkLen ∧
      ∀ y ∈ (chunkAt .started 0).got, y.1 ≠ 2 ^ 32 * 1 + 0) ∧
    wireDecode 0x0A (List.replicate 6 1) = none ∧
    ((kvGet (chunkAt .started 6).bad (2 ^ 32)).getD 0 < 7 ∧ 7 ≤ (kvGet (chunkAt .started 7).bad (2 ^ 32)).getD 0) ∧
    (numbered.sliced bound = false ∧ sSlice.sliced slicing = true ∧ sliceOf 2 2 0 = 0 ∧ sliceOf 2 2 1 = 1 ∧
      sliceOf (sSlice.ranks slicing) (slicing.chunkLen / 128) 0 = sSlice.rankOf slicing) ∧
    (3 ∈ ({ chunkAt .started 0 with poison := [3] } : Chunk).poison) ∧
    (numbered.chunkFull bound { chunkAt .started 0 with got := [(2 ^ 32, [])] } = true ∧
      (match State.partWriteAll loadedCtx 2 (bound.chunkAddr 0) 4 [[1, 2, 3, 4]] numbered with | (_, .ok _) => true | _ => false) = true ∧
      (match State.partWriteAll unbacked 2 (bound.chunkAddr 0) 4 [[1, 2, 3, 4]] numbered with | (_, .bad _ _) => true | _ => false) = true) ∧
    (chunkAt .started 0).st ≠ .fired ∧ bound.st = .admitted :=
  ⟨⟨rfl, rfl, rfl, by decide +kernel, by decide +kernel, by decide +kernel, by decide +kernel, by decide +kernel⟩,
    ⟨by decide +kernel, rfl, by decide +kernel⟩, by decide +kernel, by decide, by decide +kernel, by decide,
    ⟨by decide +kernel, by decide +kernel, by decide +kernel⟩, by decide, rfl⟩
/-- A grid alone in its collective, and a started chunk of two ranks with a block of poison. -/
def alone1 : State := withSys (sCh (chunkAt .fired 0)) fun y => { y with comms := [⟨1, 1, 1, 0, 1⟩] }
theorem witness_ChunkFails :
    (alone1.ranks bound = 1 ∧ alone1.chunkOwed bound 0 = false ∧ alone1.chunk? 2 0 = some (chunkAt .fired 0)) ∧
    ((sCh (chunkAt .fired 0)).ranks bound ≠ 1 ∧ (sCh { chunkAt .started 0 with poison := [3] }).chunk? 2 0 = some { chunkAt .started 0 with poison := [3] } ∧
      numbered.rankOf { bound with bound := some 0 } ≠ 1 ∧ (chunkAt .doneOk 0).st ≠ .fired) :=
  ⟨by decide +kernel, by decide +kernel⟩

set_option maxRecDepth 100000 in
theorem witness_WireBlock : (wireDecode 0x0A rawBlock).isSome = true ∧ (List.replicate 128 1).length = 128 ∧
    ∀ x ∈ List.replicate 128 1, x < 2 ^ (8 * Machine.sizeOf 0x0A) := ⟨by decide +kernel, List.length_replicate, by decide⟩

/-! Snoops, dies, errors, the boot block and the host. -/

def running (d : Die) : Die := { d with inReset := false }
def aSnoop (tries : Nat) : Snoop := ⟨70, 0, none, [5], tries, true, false, none, none⟩
def sSn (tries : Nat) : State := withMem (withBoot (withSys (only tg) fun y => { y with dies := y.dies.map running }) fun b =>
  { b with memReset := false }) fun m =>
  { m with snoops := [aSnoop tries], l1 := [⟨0, 1, 32, 9, true, false, false, false⟩], basin := [⟨0, 1, 64, 9, true, false, false, false⟩] }
theorem witness_CoherenceSteps :
    ((1 : Nat) < 4 ∧ aSnoop 0 ∈ (sSn 0).mem.snoops ∧ (aSnoop 0).die = 0 ∧ ∀ n ∈ (sSn 0).mem.snoops, n.die = 0 → ∀ wa ∈ n.words,
      memDieOf wa ≠ (memDieOf 5 + 1) % 4) ∧
    (0x100 + ([1, 2] : List W8).length ≤ 2 ^ 51 ∧ backed (sSn 0).boot.expanders 0x101 = true ∧
      (∀ d ∈ (sSn 0).sys.dies, ∀ e ∈ (sSn 0).sys.dies, e.num = d.num → e = d) ∧
      (∃ c ∈ (sSn 0).mem.basin, c.own = 0 ∧ c.wa / 32 = 0x100 / 128) ∧
      ((sSn 0).die? 0).any (fun d => d.alive && !d.inReset && some d.num != none) = true) ∧
    (2 ^ 51 ≤ 2 ^ 51 + 5 ∧ 0 < ([7] : List W8).length ∧ ((withMem (sSn 0) fun m => m.setByte 0 (2 ^ 51) 5).hostRead (2 ^ 51) 1 true).2 = [5]) ∧
    (((sSn 0).mem.snoops.find? fun n => n.k == 70) = some (aSnoop 0) ∧ (aSnoop 0).tries = 0 ∧ 1 ≤ (aSnoop 1).tries) ∧
    (((sSn 0).mem.l1.filter fun c => c.own == 0 && c.wa / 32 == 1) = [⟨0, 1, 32, 9, true, false, false, false⟩] ∧ hostWa 32 = false ∧
      (sSn 0).basinRoom ((sSn 0).dieNum 0) 1 32 false = true) ∧
    (((sSn 0).mem.basin.filter fun c => c.own == 0 && c.wa / 32 == 2 && !c.mirror) = [⟨0, 1, 64, 9, true, false, false, false⟩] ∧ hostWa 64 = false) ∧
    ((2 : Nat) ^ 51 ≤ 2 ^ 51 ∧ 2 ^ 51 - 1 < (2 : Nat) ^ 51) :=
  ⟨by decide, by decide +kernel, ⟨by decide, by decide, by decide +kernel⟩, by decide, by decide +kernel, by decide, by decide⟩

/-- A memory die in reset, and a write of the control die behind snoop 70. -/
def waitingLater (waits : List Nat) : State := withMem (sSn 0) fun m => { m with later := [⟨waits, 0, 0x100, none⟩] }
theorem witness_Later : (withBoot (sSn 0) fun b => { b with memReset := true }).boot.memReset = true ∧ (sSn 0).boot.memReset = false ∧
    (∃ n ∈ (waitingLater [70]).mem.snoops, n.k ∈ [70]) ∧ (∀ n ∈ (waitingLater [71]).mem.snoops, n.k ∉ [71]) := by decide

/-- The times of the last heartbeats: of die 0, of the others, and the clock. -/
def beats (one others now : Nat) : State :=
  withBoot (withSys (sSn 0) fun y => { y with dies := y.dies.map fun d => { d with lastBeat := if d.num = 0 then one else others } })
    fun b => { b with now := now }
def lateDies (s : State) (die : Nat) : Nat :=
  (s.die? die).elim 0 fun d => (s.sys.dies.filter fun e =>
    e.alive && !e.inReset && e.num != die && decide (e.lastBeat + 50 ≤ max s.boot.now (d.lastBeat + 2))).length
theorem witness_FailureSteps :
    (((sSn 0).die? 0).any (fun d => d.alive && !d.inReset && ((sSn 0).lostTeams d).length == 1) = true ∧ loadedGrid.cause = none ∧
      loadedGrid.st = .admitted) ∧
    (lateDies (beats 0 0 49) 0 = 0 ∧ max (beats 0 0 49).boot.now (0 + 2) < 0 + 50) ∧ (0 < lateDies (beats 48 0 49) 0 ∧ max 49 (48 + 2) < 48 + 50) ∧
    (0 + 50 ≤ max (beats 0 0 50).boot.now (0 + 2)) ∧
    (∀ f ∈ (withSys (only tg) fun y => { y with dies := y.dies.map fun d => if d.num = 0 then running d else d }).sys.dies, f.num ≠ 0 →
      f.alive = false ∨ f.inReset = true) ∧
    ((only tg).die? 0).any (fun d => d.inReset) = true ∧ ((only tg).ownerAt .memory 0x40 = some 1 ∧ (only tg).ownerAt .link 0xFFFF = some 1 ∧
      (only tg).ownerAt .memory 0x10000 = none ∧ (only tg).ownerAt .core 3 = some 1 ∧ ErrSite.memory ≠ .router) ∧
    ((only tg).group? 3 = some tg ∧ tg.resident = true ∧ tg.retired = false) ∧ ((0x40 : Nat) < 2 ^ 51 ∧ (15 : Nat) < 16 ∧ (16 : Nat) ≤ 16) ∧
    (1200 < (withBoot (only tg) fun b => { b with mhz := 1201 }).boot.mhz ∧ (withBoot (only tg) fun b => { b with mhz := 1200 }).boot.mhz ≤ 1200) ∧
    (withBoot (only tg) fun b => { b with held := true }).boot.held = true :=
  ⟨⟨by decide +kernel, rfl, rfl⟩, by decide +kernel, by decide +kernel, by decide, by decide, by decide,
    ⟨by decide, by decide, by decide, by decide, nofun⟩, ⟨rfl, rfl, rfl⟩, by decide, by decide, rfl⟩

def inSt (st : BootSt) (a : W64) (n : W32) (ctl : W32) : Boot := { State.reset.boot with st := st, imgAddr := a, imgLen := n, ctl := ctl }
def booting (b : Boot) : State := { State.reset with boot := b }
/-- The header of an image without payload, of 64 + 2692 bytes. -/
def imgHead (secver : Nat) : List W8 :=
  leBytes 4 0x46524E4C ++ leBytes 4 1 ++ leBytes 4 secver ++ leBytes 4 0 ++ leBytes 8 0 ++ leBytes 8 64 ++ List.replicate 32 0
def fieldAt (b : List W8) (o n : Nat) : Nat := leNat ((b.drop o).take n)
def attested : Attest := ⟨3, 0, 0, []⟩
theorem witness_BootSteps :
    ((1#32).getLsbD 0 = true ∧ (booting (inSt .rejected 0x1000 2756 0)).boot.st = .rejected ∧ (0x1000#64).toNat % 4096 = 0 ∧
      64 + 2692 ≤ (2756#32).toNat ∧ (2756#32).toNat ≤ 2 ^ 24 ∧ ¬(64 + 2692 ≤ (2755#32).toNat)) ∧
    ((0#32).getLsbD 0 = false ∧ (inSt .ready 0 0 0).st ≠ .waitImage ∧ (inSt .ready 0 0 0).st ≠ .rejected) ∧
    ((inSt .fetch 0 2756 0).st = .fetch ∧ (imgHead 3 ++ List.replicate 2692 0).length = (2756#32).toNat) ∧
    ((inSt .verify 0 0 0).st = .verify ∧ fieldAt (imgHead 3) 0 4 = 0x46524E4C ∧ fieldAt (imgHead 3) 4 4 = 1 ∧ fieldAt (imgHead 3) 0x0C 4 = 0 ∧
      fieldAt (imgHead 3) 0x20 32 = 0 ∧ 64 + fieldAt (imgHead 3) 0x10 8 = fieldAt (imgHead 3) 0x18 8 ∧
      fieldAt (imgHead 3) 0x18 8 + 2692 = (2756#32).toNat ∧ fieldAt (imgHead 3) 8 4 < (4#32).toNat ∧ (3#32).toNat ≤ fieldAt (imgHead 3) 8 4) ∧
    ((inSt .firmware 0 0 2).ctl.getLsbD 1 = true ∧ (inSt .firmware 0 0 0).ctl.getLsbD 1 = false ∧ (inSt .firmware 0 0 0).leaf < 16384 ∧
      (booting (inSt .firmware 0 0 0)).blocksOk (List.range 8).reverse = true ∧ (booting (inSt .firmware 0 0 0)).blocksOk (List.replicate 8 0) = false ∧
      (⟨0, [0, 0, 0, 0], 0, [], (List.range 8).reverse⟩ : FirmwareReport).blocks = (List.range 8).reverse ∧ (6 : Nat) ≤ 6 ∧ (5 : Nat) < 6) ∧
    ((inSt .ready 0 0 0).attest = none ∧ { inSt .ready 0 0 0 with attest := some attested }.attest = some attested) :=
  ⟨by decide, by decide, ⟨rfl, by decide +kernel⟩, by decide +kernel, by decide, ⟨rfl, rfl⟩⟩

def aSpec : CtxSpec := ⟨9, none, [4], [1024], [⟨7, 0x1000, 16, 3, 15#4⟩], 0x2000000, 1, 0x100000, 0x100000, 0x200000, 0x200000⟩
def host (c : Ctx) : State := withBoot (withSys (only tg) fun y => { y with ctxs := [c], inlets := [anInlet 0 0] }) fun b => { b with st := .ready }
def anImage : Image := ⟨1, 0, tg, none⟩
def aPage : Mapping := ⟨0x80000, 0x90000, 0x10000, .device, true, false, false⟩
def packed : CopyRec := chainRec (leBytes 16 (pG.bits).toNat ++ leBytes 16 (({ pG with base := 0x10100 } : Ptr).bits).toNat ++ leBytes 8 0 ++ leBytes 4 2 ++
  leBytes 4 1 ++ List.replicate 16 0)
theorem witness_HostRequests :
    ((host loadedCtx).ctxOk aSpec = true ∧ (host loadedCtx).ctxOk { aSpec with bench := some 9 } = false ∧ (host loadedCtx).boot.accepted = true ∧
      (only tg).boot.accepted = false) ∧
    ((host loadedCtx).ctxAt? 0 = some loadedCtx ∧
      (host loadedCtx).mapOk loadedCtx aPage = true ∧ (host loadedCtx).mapOk loadedCtx { aPage with sz := 0x8000 } = false ∧
      (∃ x ∈ loadedCtx.maps, x.va = 0x10000) ∧ (host loadedCtx).inlet? 4 = some (anInlet 0 0) ∧
      (∀ m ∈ (host loadedCtx).sys.comms, m.ctx = loadedCtx.id → m.index ≠ 3)) ∧
    ((2 - (1 : W32)).toNat ≤ (3 - (1 : W32)).toNat ∧ (3 - (1 : W32)).toNat < (4 - (1 : W32)).toNat) ∧
    ((({ loadedCtx with images := [anImage] } : Ctx).images.find? fun i => i.index == 1) = some anImage) ∧
    ((loadedCtx.lock 3).holder ≠ some (.host 1) ∧ (host loadedCtx).grants (loadedCtx.lock 3) (.host 1) = true ∧
      (host loadedCtx).grants ⟨3, some me, []⟩ (.host 1) = false ∧ (host loadedCtx).grants ⟨3, some (.host 0), []⟩ (.host 1) = false ∧
      Holder.host 1 ∉ ([.host 0] : List Holder) ∧ Holder.host 0 ∈ ([.host 0] : List Holder)) ∧
    (((host loadedCtx).ownerOf 0x40).isSome = true ∧ (host loadedCtx).ownerOf 0x10000 = none) ∧
    ((host loadedCtx).hostCopyFails 1 packed = 0 ∧ (host loadedCtx).hostCopyFails 1 { packed with resv := true } ≠ 0) :=
  ⟨⟨by decide +kernel, by decide +kernel, rfl, rfl⟩, ⟨rfl, by decide +kernel, by decide, ⟨_, List.mem_cons_self .., rfl⟩, by decide, by decide⟩,
    by decide, rfl, by decide, ⟨by decide, rfl⟩, by decide +kernel⟩
theorem witness_PackMove : (match State.packMove loadedCtx.id 10 packed packed.bytes 0 (withBytes (host loadedCtx) (List.replicate 512 0)) with
    | (_, j, .ok _) => j == 8
    | _ => false) = true ∧
    ((host loadedCtx).acknowledged 10 = true ∧
      (withMem (host loadedCtx) fun m => { m with snoops := [{ aSnoop 0 with gid := some 10 }] }).acknowledged 10 = false) :=
  ⟨by decide +kernel, by decide⟩

/-! The encoding, the step, and reset. -/

theorem witness_DecodeEncode : ((samples1 ++ samples2 ++ samples3).all fun i => i.wf && !i.isStep) = true ∧ decode 0x000000000007E000 0 = .ok (.nop .always) :=
  ⟨by decide +kernel, by decide⟩

/-- Two NOPs stand at the program counter of slot 0, which has waited n issues. -/
def nops : List W8 := leBytes 8 0x7E000 ++ leBytes 8 0x7E000
def ready0 (n : Nat) (picks : List (Nat × Nat)) : State :=
  let s := withBytes (only { tg with slot0 := { tg.slot0 with waits := n } }) nops
  { s with run := { State.reset.run with nextId := 10, picks := picks } }
/-- A slot that waits at a barrier of two groups (BARW with arrival, as its word reads), and one whose page is missing. -/
def atBar : State := { withBytes (withBar tg ⟨true, 2, 0, 0, [], [], 0⟩) (leBytes 8 (word 0xB5 0 0 0 0 0 (3 + 16)).toNat ++ leBytes 8 0) with
  run := { State.reset.run with nextId := 10 } }
def away2 : Group := { tg with slot0 := { tg.slot0 with strand := some ⟨0x20000, 15#96, 15#96, none⟩ } }
/-- The cycle of the core has taken a LD of another group; then two instructions. -/
def taken (n : Nat) : State := { ready0 0 [] with placed := [(0, List.replicate n (9, 0, 2))] }
theorem witness_StepRuns :
    ((ready0 0 []).run.agenda = [] ∧ (ready0 0 [(3, 0)]).run.picks = (3, 0) :: [] ∧ (3, 0) ∈ (ready0 0 [(3, 0)]).slots ∧
      (ready0 0 []).nextEvent.isNone = true ∧ (ready0 0 []).ready 3 0 = true ∧ (ready0 0 []).nextTrial.isNone = true ∧
      (ready0 0 []).nextCore = some 0) ∧
    (atBar.nextEvent.isNone = true ∧ atBar.ready 3 0 = false ∧ atBar.nextTrial = some (3, 0)) ∧
    ((ready0 0 []).choice 0 [(3, 0)] = some (3, 0) ∧ (taken 1).choice 0 [(3, 0)] = some (3, 0) ∧ (taken 2).choice 0 [(3, 0)] = none ∧
      ((taken 2).endCycle 0 [(3, 0)]).choice 0 [(3, 0)] = some (3, 0) ∧ (taken 2).choice 0 [] = none ∧
      ((taken 2).endCycle 0 []).choice 0 [] = none) ∧
    ((ready0 1024 []).choice 0 [(3, 0)] = some (3, 0) ∧ (∃ y ∈ (ready0 1024 []).mayIssue 0 [(3, 0)], 1024 ≤ y.2.2.waits) ∧
      (∀ y ∈ (ready0 1023 []).mayIssue 0 [(3, 0)], y.2.2.waits < 1024)) ∧
    ((ready0 0 []).group? 3).any (fun g => (g.slot 0).park.isNone &&
      (match (ready0 0 []).fetch g (g.pc 0) with
        | .words w e => decode w e == .ok (.nop .always)
        | _ => false)) = true ∧
    ((ready0 0 []).fetch tg 0x20000#64 = .miss 0x20000 ∧ (only away2).nextTrial = some (3, 0)) ∧ (3, 1) ∉ (ready0 0 [(3, 1)]).slots ∧
    (State.reset.run.agenda = [] ∧ State.reset.run.picks = [] ∧ State.reset.nextEvent.isNone = true ∧ State.reset.slots = []) ∧
    (loadedCtx.mapOf 0x10000 = loadedCtx.mapOf 0x10008 ∧ loadedCtx.inStack 0x10000 = false) :=
  ⟨⟨rfl, rfl, by decide, by decide +kernel, by decide +kernel, by decide +kernel, by decide +kernel⟩, ⟨by decide +kernel, by decide +kernel, by decide +kernel⟩,
    by decide +kernel, ⟨by decide +kernel, by decide +kernel, by decide +kernel⟩, by decide +kernel,
    ⟨by decide, by decide +kernel⟩, by decide, by decide +kernel, by decide⟩

theorem next_of {x : Out} (h : (match x with | .next _ => true | _ => false) = true) : ∃ t, x = .next t := by
  cases x with
  | next t => exact ⟨t, rfl⟩
  | _ => cases h
theorem witness_StepKeepsForm : State.reset.mem.wf = true ∧ ∃ t, step State.reset = .next t := ⟨by decide, next_of (by decide +kernel)⟩

/-! Forms with a boundary of their own. -/

theorem witness_Conversions :
    Met (sM (gM pM two [])) (gM pM two []) (.amax .always 3 (.tile 40 1)) (1 < (gM pM two []).tiles.length ∧ (gM pM two []).mq = []) ∧
    Met (sM (gM pM two [])) (gM pM two []) (.amax .always 3 (.row 9 2)) ((gM pM two []).tiles.length ≤ 2) ∧
    Met (sM (gM pM two full)) (gM pM two full) (.amax .always 3 (.tile 40 1)) ((gM pM two full).mq ≠ []) :=
  ⟨met rfl (by decide) (by decide), met rfl (by decide) (by decide), met rfl (by decide) (by decide)⟩

/-! Words that are still owed, words that a release carries, and records through the tarn. -/

/-- A queued MMAB has four entries of an indirect stream to read, from 0x10000. -/
def pQ : Ptr := { pG with fmt := 4 }
def owingQ : MxOp := opQ (.mmab .always ⟨.bf16, 3, 0, false, true, .imm 2, 32, 40, 3, 1⟩)
def gQueue : Group := { gS with
  mq := [owingQ], streams := [⟨some ⟨0, [4, 1, 1, 1], [1, 0, 0, 0], true, 1, pQ.bits⟩, none, true, 0⟩, .fresh, .fresh, .fresh] }
def gQueueI : Group := { gQueue with a := [(1, pI.bits)] }
theorem witness_OwedWords :
    Met (withBytes (only gQueue) []) gQueue (.st .always stOp) ((withBytes (only gQueue) []).memChecks gQueue 0 true 15#96 stOp = none ∧
      (withBytes (only gQueue) []).streamWaits gQueue stOp.off [0, 1, 2, 3] = false ∧
      (withBytes (only gQueue) []).owesWord gQueue pG 4 [0x10000, 0x10004, 0x10008, 0x1000C] = true ∧
      (withBytes (only gQueue) []).owesWord gQueue pG 4 [0x10010] = false) ∧
    (gQueue.queue? 0 = some pQ ∧ (gQueue.streams.getD 0 .fresh).entryAddr 3 = some 0x1000C ∧
      (only gQueue).wordKeys gQueue pQ 4 [0x1000C] = (only gQueue).wordKeys gQueue pG 4 [0x1000C]) ∧
    Met (only gQueueI) gQueueI (.atom .always 3 atOp) ((only gQueueI).atomChecks gQueueI 0 15#96 atOp = none ∧
      (only gQueueI).owesWord gQueueI pI 4 [0x10000, 0x10004, 0x10008, 0x1000C] = true) :=
  ⟨met rfl (by decide) (by decide), by decide, met rfl (by decide) (by decide)⟩

/-- The group has acquired at scope 2, and its die's basin holds a dirty word. -/
def dirtyWord : CWord := ⟨0, 1, 5, 9#32, true, false, false, false⟩
def seen : State := withMem (only (withA 1 pG)) fun m => { m with basin := [dirtyWord], acquired := [(3, 2)] }
def widen3 : Instr := .widen .always ⟨3, none, 5, 1⟩
def endingGrid : Grid := { loadedGrid with teamsLeft := 0 }
def carrying : State := withSys seen fun y => { y with grids := [endingGrid] }
theorem witness_Carries :
    (Standing seen 3 0 (withA 1 pG) ∧ seen.holds (withA 1 pG) 0 widen3 = true ∧ seen.touchSpill (withA 1 pG) 0 widen3 = none ∧
      seen.carryScope (withA 1 pG) 0 widen3 = some 3 ∧ widen3.isStep = false) ∧
    (kvGet seen.mem.acquired 3 ≠ some 0 ∧ hostWa dirtyWord.wa = false ∧
      (seen.mem.basin.filter fun c => c.leaves (seen.whoOf loadedCtx 0).die (seen.whoOf loadedCtx 0).ctx) = [dirtyWord]) ∧
    ((seen.carryFor (withA 1 pG) 3 3).mem.acquired = [] ∧ (seen.carryFor (withA 1 pG) 3 3).mem.word 0 5 = 9#32 ∧
      (seen.carryFor (withA 1 pG) 3 3).carryScope (withA 1 pG) 0 widen3 = none) ∧
    (carrying.grid? 2 = some endingGrid ∧ carrying.gridCarries endingGrid = true) ∧
    ((only tg).gridOver loadedGrid = false ∧ (only tg).gridCarries loadedGrid = false) :=
  ⟨⟨standing_of rfl rfl rfl rfl rfl, by decide⟩, by decide, by decide +kernel, ⟨rfl, by decide⟩, by decide⟩

/-- A record from memory to the tarn. -/
def pTarn : Ptr := { pT with fmt := 0x0A, cls := 0, count := 16 }
def tarnRecord (own : Nat) : List W8 :=
  leBytes 16 ((pF 0x10040).sealed 0).toNat ++ leBytes 16 (pTarn.sealed 0).toNat ++ leBytes 8 own ++ leBytes 4 2 ++ leBytes 4 1 ++ List.replicate 16 0
def tarnState (saved : List SavedUnit) (c : CopyOp) (bs : List W8) : State := withSys (copying c bs) fun y =>
  { y with saved := saved, grids := [{ loadedGrid with launch := { loadedLaunch with tarn := 64 } }] }
def tarnPasses (saved : List SavedUnit) : Bool :=
  let s := tarnState saved (aCopy true none) (tarnRecord 1)
  engineOk s (aCopy true none) fun b => (chainRec b).own && (Ptr.ofBits (chainRec b).dst).space == 1 &&
    s.copyFails { tg with core := 0 } true (chainRec b) == none
def toTarn : CopyOp := aCopy false (some (copyRec (pF 0x10040).bits pTarn.bits 0 0 2 1 0 0 0 false))
theorem witness_TarnRecords :
    (tarnPasses [unitSaved true] = true ∧ (tarnState [unitSaved true] (aCopy true none) []).tarnSaved tg = true ∧
      (tarnState [unitSaved false] (aCopy true none) []).tarnSaved tg = false) ∧
    (aCopy true none).addr ≠ 0 ∧
    (engineOk (copying (aCopy true none) (recordBytes 65)) (aCopy true none) (fun b => (chainRec b).own && !(chainRec b).tarn &&
      nextRecord (chainRec b).link == 64) = true) ∧
    ((tarnState [unitSaved false] toTarn []).copyHeld toTarn = false ∧ (tarnState [unitSaved false] toTarn []).group? 3 = some tg ∧
      toTarn.body.any (fun r => (Ptr.ofBits r.dst).space == 1) = true) ∧
    ((tarnState [unitSaved false] (aCopy true none) (tarnRecord 1)).tarnDue (aCopy true none) = true ∧
      (tarnState [unitSaved false] (aCopy true none) (tarnRecord 0)).tarnDue (aCopy true none) = false) :=
  ⟨by decide +kernel, by decide, by decide +kernel, by decide, by decide +kernel⟩

/-- A mere that is not bound, whose descriptor has been written; and a counted and an uncounted move whose flight stands. -/
def unbound (ns : List Snoop) : State := withMem (withBytes (only (gE 4 pE 0)) (List.replicate 512 0)) fun m => { m with snoops := ns }
def mover (i : Instr) : MxOp := { opQ i with fid := some 7 }
theorem witness_Unbound :
    Met (unbound [⟨70, 0, none, [68], 0, true, false, none, none⟩]) (gE 4 pE 0) (.mqry .always ⟨9, 40, 1⟩)
      ((unbound []).merePointer (gE 4 pE 0) 0 pE = none ∧ (unbound []).mere? 1 pE.base = none ∧
       (unbound [⟨70, 0, none, [68], 0, true, false, none, none⟩]).wordsUnacked (gE 4 pE 0) pE 256 [pE.base] = true) ∧
    Met (unbound []) (gE 4 pE 0) (.mqry .always ⟨9, 40, 1⟩) ((unbound []).wordsUnacked (gE 4 pE 0) pE 256 [pE.base] = false ∧
      (match ((unbound []).port (gE 4 pE 0) pE).read (unbound []) (pE.base + 0x22) 2 with | (_, .ok bs) => bs == [0, 0] | _ => false) = true) ∧
    ((mover (.zmovM2z .always 0 ⟨some 40, 2, 4, 40⟩)).fid.bind { tg with flight := [inFlight pG .native (.v 10) [] 0] }.flightOf ≠ none ∧
      countsMx (.zmovM2z .always 0 ⟨some 40, 2, 4, 40⟩) = true ∧ countsMx (.zmovZ2v .always 0 ⟨0, some 40, 8, 1⟩) = false) :=
  ⟨met rfl (by decide +kernel) (by decide +kernel), met rfl (by decide +kernel) (by decide +kernel), by decide⟩

end Sys2Proof.Tests
end

/-! PROOFS. The statements of 04_scheduling.md about pre-emption (O41) and about the records that the distributor takes (O43). -/

namespace Sys2Proof.Scheduling

open Sys2Proof Sys2Proof.Machine

/-! ## An L1 word that is marked as a mirror copy

The caches drop a word by its owner, its context and its address, and pass over mirror copies (CWord.isAt). The statement on pre-emption
speaks of every state, so also of one whose L1 holds a word that is marked as a mirror copy, and that word stays when the die is switched. -/

/-- A clean word in the L1 of core 0, marked as a mirror copy. -/
def strayWord : CWord := ⟨0, 0, 0, 0#32, false, false, true, false⟩

/-- A live context in slot 0. -/
def strayCtx : Ctx := { emptyCtx with ended := false }

/-- The state after reset, with the context, and with the stray word as the one word of the L1s. -/
def strayState : State :=
  { State.reset with
    sys := { State.reset.sys with ctxs := [strayCtx] }
    mem := { State.reset.mem with l1 := [strayWord] } }

theorem mem_cDrop_of_mirror {cs : List CWord} {w : CWord} (own ctx wa : Nat) (hw : w ∈ cs) (hm : w.mirror = true) :
    w ∈ cDrop cs own ctx wa :=
  List.mem_filter.mpr ⟨hw, by simp [CWord.isAt, hm]⟩

/-- The eviction of a clean word leaves the mirror copies in the L1s. -/
theorem mem_evictL1_of_mirror {s : State} {w c : CWord} (a : Who) (hc : c.dirty = false) (hw : w ∈ s.mem.l1)
    (hm : w.mirror = true) : w ∈ (s.evictL1 a c).mem.l1 := by
  have hdrop := mem_cDrop_of_mirror c.own c.ctx c.wa hw hm
  simpa [State.evictL1, hc] using hdrop

/-- The switch of die 0 to the context evicts the stray word alone, and leaves it where it is. -/
theorem strayWord_mem_of_contextSwitch {u : State} (h : exec (.contextSwitch 0 0) strayState = .next u) :
    strayWord ∈ u.mem.l1 := by
  cases h
  exact mem_evictL1_of_mirror (s := strayState) (c := strayWord) (strayState.cacheWho 0 0 0) rfl List.mem_cons_self rfl

/-- Refutes O41: its last clause asks that a switch leaves no word in the L1s of the die, whatever the state; a word that is marked as a
mirror copy stays there. -/
theorem not_preEmption : ¬ Obligations.PreEmption := by
  rintro ⟨_, _, _, _, _, _, _, hswitch⟩
  have hdie : strayState.die? 0 = some ⟨0, 0, true, true, 0, none⟩ := rfl
  obtain ⟨u, _, _, hu, _, _, _, _, hclear⟩ := hswitch strayState 0 0 strayCtx _ rfl hdie (by decide)
  exact hclear strayWord (strayWord_mem_of_contextSwitch hu) rfl

/-! ## Looking up what a keyed update has changed -/

/-- The entry that a key names is found after an update of the entries with that key, which keeps the key. -/
theorem find?_map_update {α : Type} (key : α → Nat) (k : Nat) (f : α → α) (hf : ∀ x, key x = k → key (f x) = k) (xs : List α) :
    (xs.map fun x => if key x = k then f x else x).find? (fun x => key x == k) = (xs.find? fun x => key x == k).map f := by
  induction xs with
  | nil => rfl
  | cons x xs ih =>
    by_cases hx : key x = k
    · simp [hx, hf x hx]
    · simp [hx, ih]

theorem grid?_updGrid (s : State) (id : Nat) (f : Grid → Grid) (hf : ∀ x, x.id = id → (f x).id = id) :
    (s.updGrid id f).grid? id = (s.grid? id).map f := find?_map_update Grid.id id f hf s.sys.grids

theorem inlet?_updInlet (s : State) (n : Nat) (f : Inlet → Inlet) (hf : ∀ i, i.n = n → (f i).n = n) :
    (s.updInlet n f).inlet? n = (s.inlet? n).map f := find?_map_update Inlet.n n f hf s.sys.inlets

theorem ctx?_id {s : State} {id : Nat} {c : Ctx} (h : s.ctx? id = some c) : c.id = id := by
  simpa using List.find?_some h

/-- R108: an update of grids that keeps where they stand leaves the room of the distributor as it is. -/
theorem full_updGrid (s : State) (id : Nat) (f : Grid → Grid) (hf : ∀ x, (f x).st = x.st) : (s.updGrid id f).full = s.full := by
  have same : (fun x : Grid => x.st == .admitted) ∘ (fun x => if x.id = id then f x else x) = fun x => x.st == .admitted := by
    funext x
    by_cases hx : x.id = id <;> simp [hx, hf]
  simp only [State.full, State.updGrid, List.filter_map, List.length_map, same]

/-! ## Admission and rejection (R60, R61, R104 to R108) -/

/-- R104: an inlet whose head moves on. -/
def headPassed (i : Inlet) : Inlet := { i with head := i.head + 1, blocked := false }

/-- R105: an inlet whose record waits for its dependence. -/
def headBlocked (i : Inlet) : Inlet := { i with blocked := true }

theorem passInlet_eq (s : State) {x : Grid} {n : Nat} (h : x.inlet = some n) : s.passInlet x = s.updInlet n headPassed := by
  unfold State.passInlet
  rw [h]
  rfl

/-- R61: a grid whose record is rejected. -/
def rejectedGrid (x : Grid) (detail : Nat) : Grid :=
  { x with st := .ended, cause := some (0x100, BitVec.ofNat 64 detail), teamsLeft := 0 }

/-- A grid whose whole record has been validated. -/
def validatedGrid (x : Grid) : Grid := { x with checked := true }

section
variable {s : State} {x : Grid} {id n : Nat} {i : Inlet}
variable (hx : s.grid? id = some x) (hn : x.inlet = some n) (hi : s.inlet? n = some i)

include hx hn in
theorem reject_eq (detail : Nat) :
    s.reject id detail = (s.updGrid id fun x => rejectedGrid x detail).updInlet n headPassed := by
  unfold State.reject
  rw [hx]
  exact passInlet_eq _ hn

include hx hn in
theorem grid?_reject (detail : Nat) : (s.reject id detail).grid? id = some (rejectedGrid x detail) := by
  rw [reject_eq hx hn]
  exact (grid?_updGrid s id (rejectedGrid · detail) fun _ h => h).trans (congrArg _ hx)

include hx hn hi in
theorem inlet?_reject (detail : Nat) : (s.reject id detail).inlet? n = some (headPassed i) := by
  rw [reject_eq hx hn]
  exact (inlet?_updInlet _ n headPassed fun _ h => h).trans (congrArg _ hi)

/-- R105 to R108: what an admission makes of a grid; the chunks and the number of a bound collective are left open. -/
def isAdmitted (s : State) (x y : Grid) : Prop :=
  ∃ chunks bound, y = { x with st := .admitted, order := s.sys.admitted, serial := s.boot.lineage.toNat, chunksLeft := chunks, bound := bound }

include hx hn in
theorem admitGrid_eq : ∃ (f : Grid → Grid) (comms : List Comm), (∀ y, isAdmitted s y (f y)) ∧
    s.admitGrid id = State.updInlet { s.updGrid id f with
      sys := { (s.updGrid id f).sys with admitted := s.sys.admitted + 1, comms := comms }
      boot := { s.boot with lineage := s.boot.lineage + BitVec.ofNat 48 x.launch.popZero } } n headPassed := by
  unfold State.admitGrid
  rw [hx]
  dsimp only
  rw [passInlet_eq _ hn]
  exact ⟨_, _, fun _ => ⟨_, _, rfl⟩, rfl⟩

include hx hn in
theorem grid?_admitGrid : ∃ y, (s.admitGrid id).grid? id = some y ∧ isAdmitted s x y := by
  obtain ⟨f, comms, hf, heq⟩ := admitGrid_eq hx hn
  have keeps : ∀ y : Grid, y.id = id → (f y).id = id := fun y hy => by
    obtain ⟨_, _, e⟩ := hf y
    rw [e]
    exact hy
  rw [heq]
  exact ⟨f x, (grid?_updGrid s id f keeps).trans (congrArg _ hx), hf x⟩

include hx hn hi in
theorem inlet?_admitGrid : (s.admitGrid id).inlet? n = some (headPassed i) := by
  obtain ⟨f, comms, -, heq⟩ := admitGrid_eq hx hn
  rw [heq]
  exact (inlet?_updInlet _ n headPassed fun _ h => h).trans (congrArg _ hi)

include hx hn in
theorem admitGrid_admitted : (s.admitGrid id).sys.admitted = s.sys.admitted + 1 := by
  obtain ⟨f, comms, -, heq⟩ := admitGrid_eq hx hn
  rw [heq]
  rfl

include hx hn in
theorem admitGrid_lineage : (s.admitGrid id).boot.lineage = s.boot.lineage + BitVec.ofNat 48 x.launch.popZero := by
  obtain ⟨f, comms, -, heq⟩ := admitGrid_eq hx hn
  rw [heq]
  rfl

end

/-! ## The verdict on a record (R56, R61, R62) -/

theorem depMet_of_no_dep {s : State} {x : Grid} (hd : x.launch.dep = 0) : s.depMet x = some true := by
  simp [State.depMet, hd]

/-- R62: a dependence whose word can be read is met once the word has reached the value and every basin has answered for it. -/
theorem depMet_of_read {s : State} {x : Grid} {c : Ctx} {bs : List W8} (hd : x.launch.dep ≠ 0) (hc : s.ctx? x.ctx = some c)
    (hr : s.homeRead c x.launch.dep 4 = .ok bs) :
    s.depMet x = some (decide (x.launch.depVal ≤ leNat bs) && s.eventSettled x.ctx x.launch.dep) := by
  simp [State.depMet, hd, hc, hr]

theorem decideDep_of_full {s : State} {x : Grid} (hm : s.depMet x = some true) (hf : s.full = true) : s.decideDep x = s := by
  simp [State.decideDep, hm, hf]

theorem decideDep_of_room {s : State} {x : Grid} (hm : s.depMet x = some true) (hf : s.full = false) :
    s.decideDep x = s.admitGrid x.id := by
  simp [State.decideDep, hm, hf]

/-- R104, R105: an inlet whose record waits for its dependence is blocked. -/
theorem decideDep_of_unmet {s : State} {x : Grid} {n : Nat} (hm : s.depMet x = some false) (hn : x.inlet = some n) :
    s.decideDep x = s.updInlet n headBlocked := by
  unfold State.decideDep
  rw [hm]
  dsimp only
  rw [hn]
  rfl

section
variable {s : State} {x : Grid} {id : Nat} (hx : s.grid? id = some x) (hw : x.st = .waiting)

include hx hw in
theorem decideGrid_of_checked (hc : x.checked = true) : s.decideGrid id = s.decideDep x := by
  simp [State.decideGrid, hx, hw, hc]

section
variable (hc : x.checked = false) (hdone : x.launch.done = 0) (hdep : x.launch.dep = 0)
include hx hw hc hdone hdep

/-- R61: the lowest offset that fails is the detail of the rejection. -/
theorem decideGrid_of_bad {o : Nat} {rest : List Nat} (hb : x.bad = o :: rest) :
    s.decideGrid id = s.reject id (rest.foldl min o) := by
  simp [State.decideGrid, hx, hw, hc, hdone, hdep, hb]

/-- R48: a team that does not fit an empty die fails at the field of its groups. -/
theorem decideGrid_of_no_fit (hb : x.bad = [])
    (hf : fitsEmptyDie x.launch (((s.ctx? x.ctx).map (·.bench)).getD 0) = false) : s.decideGrid id = s.reject id 0x014 := by
  simp [State.decideGrid, hx, hw, hc, hdone, hdep, hb, hf]

/-- R106: with every field valid it is admitted. -/
theorem decideGrid_of_valid (hb : x.bad = []) (hf : fitsEmptyDie x.launch (((s.ctx? x.ctx).map (·.bench)).getD 0) = true)
    (hroom : s.full = false) : s.decideGrid id = (s.updGrid id validatedGrid).admitGrid x.id := by
  have room : (s.updGrid id validatedGrid).full = false := (full_updGrid s id validatedGrid fun _ => rfl).trans hroom
  have hadmit : (s.updGrid id fun x => { x with checked := true }).decideDep x = (s.updGrid id validatedGrid).admitGrid x.id :=
    decideDep_of_room (depMet_of_no_dep hdep) room
  simp [State.decideGrid, hx, hw, hc, hdone, hdep, hb, hf, hadmit]

end
end

/-- R61, R106: the verdict on a record without event words: it is rejected with the lowest offset that fails, rejected because a team does
not fit an empty die, or admitted. s is the state before, t the state after, x the grid as it was read; fits says whether a team fits. -/
inductive Verdict (s t : State) (fits : Bool) (x : Grid) : Grid → Prop
  | fails (p : Nat) (hp : p ∈ x.bad) (hmin : ∀ o ∈ x.bad, p ≤ o) : Verdict s t fits x (rejectedGrid x p)
  | noFit (hb : x.bad = []) (hf : fits = false) : Verdict s t fits x (rejectedGrid x 0x014)
  | admitted (y : Grid) (hb : x.bad = []) (hf : fits = true) (hy : isAdmitted s (validatedGrid x) y)
      (ha : t.sys.admitted = s.sys.admitted + 1)
      (hl : t.boot.lineage = s.boot.lineage + BitVec.ofNat 48 x.launch.popZero) : Verdict s t fits x y

/-- What a verdict leaves of a grid as it was read. -/
structure SameRecord (x y : Grid) : Prop where
  ctx : y.ctx = x.ctx
  launch : y.launch = x.launch
  parent : y.parent = x.parent
  bad : y.bad = x.bad
  prio : y.prio = x.prio
  affinity : y.affinity = x.affinity
  popSize : y.popSize = x.popSize

section
variable {s t : State} {fits : Bool} {x y : Grid} (h : Verdict s t fits x y)
include h

theorem Verdict.sameRecord : SameRecord x y := by
  cases h with
  | fails p _ _ => exact ⟨rfl, rfl, rfl, rfl, rfl, rfl, rfl⟩
  | noFit _ _ => exact ⟨rfl, rfl, rfl, rfl, rfl, rfl, rfl⟩
  | admitted y _ _ hy _ _ =>
    obtain ⟨_, _, rfl⟩ := hy
    exact ⟨rfl, rfl, rfl, rfl, rfl, rfl, rfl⟩

theorem Verdict.of_valid (hb : x.bad = []) (hf : fits = true) : isAdmitted s (validatedGrid x) y ∧
    t.sys.admitted = s.sys.admitted + 1 ∧ t.boot.lineage = s.boot.lineage + BitVec.ofNat 48 x.launch.popZero := by
  cases h with
  | fails p hp _ => simp [hb] at hp
  | noFit _ hno => simp [hf] at hno
  | admitted y _ _ hy ha hl => exact ⟨hy, ha, hl⟩

theorem Verdict.of_no_fit (hb : x.bad = []) (hf : fits = false) : y = rejectedGrid x 0x014 := by
  cases h with
  | fails p hp _ => simp [hb] at hp
  | noFit _ _ => rfl
  | admitted y _ hyes _ _ _ => simp [hf] at hyes

theorem Verdict.of_bad {o : Nat} (ho : o ∈ x.bad) : ∃ p ∈ x.bad, p ≤ o ∧ y = rejectedGrid x p := by
  cases h with
  | fails p hp hmin => exact ⟨p, hp, hmin o ho, rfl⟩
  | noFit hb _ => simp [hb] at ho
  | admitted y hb _ _ _ _ => simp [hb] at ho

end

theorem SameRecord.gridBad {x y : Grid} (h : SameRecord x y) (s : State) (bs : List W8) : s.gridBad y bs = s.gridBad x bs := by
  simp only [State.gridBad, h.ctx, h.launch, h.parent, h.affinity]

/-- The least element of a list that is not empty, as the rejection takes it. -/
theorem foldl_min_least (o : Nat) (rest : List Nat) :
    rest.foldl min o ∈ o :: rest ∧ ∀ p ∈ o :: rest, rest.foldl min o ≤ p :=
  List.min?_eq_some_iff.mp List.min?_cons'

section
variable {s : State} {x : Grid} {n : Nat} {i : Inlet} (hx : s.grid? x.id = some x) (hw : x.st = .waiting) (hc : x.checked = false)
variable (hdone : x.launch.done = 0) (hdep : x.launch.dep = 0) (hn : x.inlet = some n) (hi : s.inlet? n = some i)
include hx hw hc hdone hdep hn hi

/-- R61, R104, R106: a record without event words gets its verdict at once where there is room, and its inlet goes on. -/
theorem decideGrid_verdict (hroom : s.full = false) :
    ∃ y, (s.decideGrid x.id).grid? x.id = some y ∧ (s.decideGrid x.id).inlet? n = some (headPassed i) ∧
      Verdict s (s.decideGrid x.id) (fitsEmptyDie x.launch (((s.ctx? x.ctx).map (·.bench)).getD 0)) x y := by
  cases hb : x.bad with
  | cons o rest =>
    obtain ⟨hmem, hmin⟩ := foldl_min_least o rest
    rw [decideGrid_of_bad hx hw hc hdone hdep hb]
    exact ⟨_, grid?_reject hx hn _, inlet?_reject hx hn hi _, .fails _ (hb ▸ hmem) (hb ▸ hmin)⟩
  | nil =>
    cases hf : fitsEmptyDie x.launch (((s.ctx? x.ctx).map (·.bench)).getD 0) with
    | false =>
      rw [decideGrid_of_no_fit hx hw hc hdone hdep hb hf]
      exact ⟨_, grid?_reject hx hn _, inlet?_reject hx hn hi _, .noFit hb rfl⟩
    | true =>
      rw [decideGrid_of_valid hx hw hc hdone hdep hb hf hroom]
      have hx' : (s.updGrid x.id validatedGrid).grid? x.id = some (validatedGrid x) :=
        (grid?_updGrid s x.id validatedGrid fun _ h => h).trans (congrArg _ hx)
      obtain ⟨y, hy, hform⟩ := grid?_admitGrid hx' hn
      exact ⟨y, hy, inlet?_admitGrid hx' hn hi,
        .admitted y hb rfl hform (admitGrid_admitted hx' hn) (admitGrid_lineage (x := validatedGrid x) hx' hn)⟩

end

/-- A record that the distributor has read joins the grids. -/
def withRecord (s : State) (x : Grid) (bs : List W8) : State :=
  { s with sys := { s.sys with grids := s.sys.grids ++ [{ x with bad := s.gridBad x bs }] } }

theorem grid?_withRecord {s : State} {x : Grid} (hnew : s.grid? x.id = none) (bs : List W8) :
    (withRecord s x bs).grid? x.id = some { x with bad := s.gridBad x bs } := by
  have none_of : s.sys.grids.find? (fun y => y.id == x.id) = none := hnew
  simp [State.grid?, withRecord, List.find?_append, none_of]

theorem full_withRecord {s : State} {x : Grid} (hw : x.st = .waiting) (bs : List W8) : (withRecord s x bs).full = s.full := by
  simp [State.full, withRecord, List.filter_append, hw]

/-! ## Reads of the distributor, and inlets (R102 to R105) -/

theorem distRead_of_ok {s : State} {c : Ctx} {va n : Nat} {bs : List W8} (h : s.homeRead c va n = .ok bs) :
    s.distRead c va n = (s, some (some bs)) := by
  simp [State.distRead, h]

/-- R103: the distributor cannot read: an address that is not backed or is poisoned, or a page that the firmware has no range for. -/
def unreadable (s : State) (c : Ctx) (va n : Nat) : Prop :=
  (∃ a r, s.homeRead c va n = .bad a r) ∨ ∃ a w, s.homeRead c va n = .miss a w ∧ c.inDemand a = none

theorem distRead_of_unreadable {s : State} {c : Ctx} {va n : Nat} (h : unreadable s c va n) :
    s.distRead c va n = (s, some none) := by
  obtain ⟨a, r, h⟩ | ⟨a, w, h, hd⟩ := h
  · simp [State.distRead, h]
  · simp [State.distRead, h, hd]

/-- R104: an inlet from which an entry may be taken finds room. -/
theorem not_full_of_mayTake {s : State} {i : Inlet} (h : s.mayTake i = true) : s.full = false := by
  simp only [State.mayTake, Bool.and_eq_true, Bool.not_eq_true'] at h
  obtain ⟨⟨⟨_, hfull⟩, _⟩, _⟩ := h
  exact hfull

/-- The grid of a record that the distributor reads from an inlet. -/
def inletGrid (s : State) (c : Ctx) (n : Nat) (i : Inlet) (bs : List W8) : Grid :=
  newGrid s.run.nextId c.id (parseLaunch bs) 0 none (some n) (min (parseLaunch bs).prio i.prio)
    ((parseLaunch bs).affinity % 16 &&& i.affinity.toNat)

/-- The same with the fields at fault, as it joins the grids. -/
def recordGrid (s : State) (c : Ctx) (n : Nat) (i : Inlet) (bs : List W8) : Grid :=
  { inletGrid s c n i bs with bad := s.gridBad (inletGrid s c n i bs) bs }

/-- The state in which the record of an entry gets its verdict. -/
def recordRead (s : State) (c : Ctx) (n : Nat) (i : Inlet) (bs : List W8) : State :=
  withRecord s.fresh.2 (inletGrid s c n i bs) bs

section
variable {s : State} {n : Nat} {i : Inlet} {c : Ctx}
variable (hi : s.inlet? n = some i) (hc : s.ctx? i.ctx = some c) (hmay : s.mayTake i = true)
include hi hc hmay

theorem execInletEntryTake_of_record {e bs : List W8} (he : s.homeRead c (i.base + 8 * (i.head.toNat % i.size)) 8 = .ok e)
    (ha : leNat e % 64 = 0) (hr : s.homeRead c (leNat e) 512 = .ok bs) :
    execInletEntryTake n s = .next ((recordRead s c n i bs).decideGrid s.run.nextId) := by
  simp [execInletEntryTake, hi, hc, hmay, distRead_of_ok he, ha, distRead_of_ok hr, State.submit, State.fresh, recordRead, withRecord,
    inletGrid, newGrid]

theorem execInletEntryTake_of_entry_unreadable (he : unreadable s c (i.base + 8 * (i.head.toNat % i.size)) 8) :
    execInletEntryTake n s = .next (s.stopInlet n) := by
  simp [execInletEntryTake, hi, hc, hmay, distRead_of_unreadable he]

theorem execInletEntryTake_of_misaligned {e : List W8} (he : s.homeRead c (i.base + 8 * (i.head.toNat % i.size)) 8 = .ok e)
    (ha : leNat e % 64 ≠ 0) : execInletEntryTake n s = .next (s.stopInlet n) := by
  simp [execInletEntryTake, hi, hc, hmay, distRead_of_ok he, ha]

theorem execInletEntryTake_of_record_unreadable {e : List W8} (he : s.homeRead c (i.base + 8 * (i.head.toNat % i.size)) 8 = .ok e)
    (hr : unreadable s c (leNat e) 512) : execInletEntryTake n s = .next (s.stopInlet n) := by
  by_cases ha : leNat e % 64 = 0
  · simp [execInletEntryTake, hi, hc, hmay, distRead_of_ok he, ha, distRead_of_unreadable hr]
  · exact execInletEntryTake_of_misaligned hi hc hmay he ha

end

/-- R62, R105: where one record alone waits, it alone is looked at again. -/
theorem dependenceRecheck_of_one {s : State} {x : Grid} (hone : (s.sys.grids.filter fun x => x.st == .waiting) = [x])
    (hx : s.grid? x.id = some x) (hc : x.checked = true) : exec .dependenceRecheck s = .next (s.decideDep x) := by
  have hmem : x ∈ s.sys.grids.filter fun x => x.st == .waiting := by simp [hone]
  have hw : x.st = .waiting := by simpa using (List.mem_filter.mp hmem).2
  have hre : s.recheck = s.decideGrid x.id := by simp [State.recheck, hone]
  exact congrArg _ (hre.trans (decideGrid_of_checked hx hw hc))

/-! ## The obligation -/

/-- R60, R61, R102 to R107: an entry whose record has no event words is taken, and the record gets its verdict. -/
theorem inletEntryTake_verdict {s : State} {n : Nat} {i : Inlet} {c : Ctx} {e bs : List W8} (hi : s.inlet? n = some i)
    (hc : s.ctx? i.ctx = some c) (hmay : s.mayTake i = true) (he : s.homeRead c (i.base + 8 * (i.head.toNat % i.size)) 8 = .ok e)
    (ha : leNat e % 64 = 0) (hr : s.homeRead c (leNat e) 512 = .ok bs) (hnew : s.grid? s.run.nextId = none)
    (hdone : (parseLaunch bs).done = 0) (hdep : (parseLaunch bs).dep = 0) :
    ∃ t y, exec (.inletEntryTake n) s = .next t ∧ t.grid? s.run.nextId = some y ∧ t.inlet? n = some (headPassed i) ∧
      Verdict (recordRead s c n i bs) t (fitsEmptyDie (parseLaunch bs) c.bench) (recordGrid s c n i bs) y := by
  have hfull : (recordRead s c n i bs).full = false :=
    (full_withRecord (s := s.fresh.2) rfl bs).trans (not_full_of_mayTake hmay)
  have hx : (recordRead s c n i bs).grid? s.run.nextId = some (recordGrid s c n i bs) :=
    grid?_withRecord (s := s.fresh.2) (x := inletGrid s c n i bs) hnew bs
  have hi' : (recordRead s c n i bs).inlet? n = some i := hi
  have hbench : (((recordRead s c n i bs).ctx? c.id).map (·.bench)).getD 0 = c.bench := by
    show ((s.ctx? c.id).map (·.bench)).getD 0 = c.bench
    rw [ctx?_id hc, hc]
    rfl
  obtain ⟨y, hy, hpass, hv⟩ := decideGrid_verdict (x := recordGrid s c n i bs) hx rfl rfl hdone hdep rfl hi' hfull
  rw [show (recordGrid s c n i bs).ctx = c.id from rfl, hbench] at hv
  exact ⟨_, y, execInletEntryTake_of_record hi hc hmay he ha hr, hy, hpass, hv⟩

/-- Settles O43 by the verdict on the record that an entry names, the reads that stop an inlet, and the one record that waits. -/
theorem recordsTaken : Obligations.RecordsTaken := by
  refine ⟨?taken, ?stopped, ?waiting⟩
  case taken =>
    intro s n i c e bs hi hc hmay he ha hr hnew l hdone hdep
    obtain ⟨t, y, hexec, hy, hpass, hv⟩ := inletEntryTake_verdict hi hc hmay he ha hr hnew hdone hdep
    have same := hv.sameRecord
    refine ⟨t, y, hexec, hy, same.ctx, same.launch, same.parent, same.bad.trans (same.gridBad s bs).symm, same.prio, same.affinity,
      same.popSize, ?valid, ?noFit, ?bad, hpass⟩
    case valid =>
      intro hb hf
      obtain ⟨⟨_, _, rfl⟩, hadm, hlin⟩ := hv.of_valid (same.bad.symm.trans hb) hf
      exact ⟨rfl, rfl, hadm, rfl, hlin⟩
    case noFit =>
      intro hb hf
      obtain rfl := hv.of_no_fit (same.bad.symm.trans hb) hf
      exact ⟨rfl, rfl⟩
    case bad =>
      intro o ho
      obtain ⟨p, hp, hle, rfl⟩ := hv.of_bad (same.bad ▸ ho)
      exact ⟨rfl, p, hp, hle, rfl⟩
  case stopped =>
    rintro s n i c hi hc hmay (⟨a, r, h⟩ | ⟨a, w, h⟩ | ⟨e, he, ha | hr⟩)
    · exact execInletEntryTake_of_entry_unreadable hi hc hmay (.inl ⟨a, r, h⟩)
    · exact execInletEntryTake_of_entry_unreadable hi hc hmay (.inr ⟨a, w, h⟩)
    · exact execInletEntryTake_of_misaligned hi hc hmay he ha
    · exact execInletEntryTake_of_record_unreadable hi hc hmay he hr
  case waiting =>
    intro s x c bs n i hone hx hck hd hc hr hn hi met
    have hdep := depMet_of_read hd hc hr
    rw [dependenceRecheck_of_one hone hx hck]
    refine ⟨?full, ?room, ?unmet⟩
    case full =>
      rintro ⟨hle, hsettled⟩ hfull
      rw [decideDep_of_full (hdep.trans (by simp [hle, hsettled])) hfull]
    case room =>
      rintro ⟨hle, hsettled⟩ hroom
      rw [decideDep_of_room (hdep.trans (by simp [hle, hsettled])) hroom]
      obtain ⟨y, hy, _, _, rfl⟩ := grid?_admitGrid hx hn
      exact ⟨_, _, rfl, hy, rfl, rfl, admitGrid_admitted hx hn, inlet?_admitGrid hx hn hi⟩
    case unmet =>
      intro hunmet
      have hnot : (decide (x.launch.depVal ≤ leNat bs) && s.eventSettled x.ctx x.launch.dep) = false := by
        simpa [met] using hunmet
      rw [decideDep_of_unmet (hdep.trans (congrArg some hnot)) hn]
      exact ⟨_, rfl, rfl, (inlet?_updInlet s n headBlocked fun _ h => h).trans (congrArg _ hi)⟩


end Sys2Proof.Scheduling

/-! PROOFS. The statements of 07_numbers.md about integer arithmetic: scalar (O1), vector (O4) and division (O6). -/

namespace Sys2Proof.Integers

open Sys2Proof Sys2Proof.Machine

/-! ## The values of the integer types (R195, R207)

A signed type reads a pattern as its balanced remainder mod 2^w, an unsigned one as its remainder. The pattern of an exact integer that is
a value of the type therefore reads as that integer. -/

theorem bits_ne_zero (t : IntTy) : t.bits ≠ 0 := by
  unfold IntTy.bits
  split <;> decide

theorem two_pow_eq_double {n : Nat} (hn : n ≠ 0) : 2 ^ n = 2 * 2 ^ (n - 1) := by
  obtain ⟨m, rfl⟩ := Nat.exists_eq_succ_of_ne_zero hn
  exact Nat.pow_succ'

theorem two_pow_bits (t : IntTy) : (2 : Int) ^ t.bits = 2 * 2 ^ (t.bits - 1) := by
  exact_mod_cast two_pow_eq_double (bits_ne_zero t)

theorem two_pow_pos (n : Nat) : 0 < (2 : Int) ^ n := Int.pow_pos (by decide)

theorem cast_modPow (x : Int) (n : Nat) : (modPow x n : Int) = x % 2 ^ n :=
  Int.toNat_of_nonneg (Int.emod_nonneg x (Int.ne_of_gt (two_pow_pos n)))

theorem modPow_lt (x : Int) (n : Nat) : modPow x n < 2 ^ n := by
  have hlt : x % 2 ^ n < 2 ^ n := Int.emod_lt_of_pos x (two_pow_pos n)
  rw [← cast_modPow] at hlt
  exact_mod_cast hlt

theorem signExt_eq_bmod (x : Nat) {n : Nat} (hn : n ≠ 0) : signExt x n = (x : Int).bmod (2 ^ n) := by
  have half := two_pow_eq_double hn
  have hcond : ((x % 2 ^ n : Nat) : Int) < ((2 ^ n : Nat) + 1) / 2 ↔ x % 2 ^ n < 2 ^ (n - 1) := by omega
  rw [Int.bmod_def, ← Int.natCast_emod]
  simp only [signExt, hcond, Int.ofNat_eq_natCast]
  push_cast
  rfl

theorem val_signed {t : IntTy} (ht : t.signed = true) (x : Nat) : t.val x = (x : Int).bmod (2 ^ t.bits) := by
  simp [IntTy.val, toInt, ht, signExt_eq_bmod x (bits_ne_zero t)]

theorem val_unsigned {t : IntTy} (ht : t.signed = false) (x : Nat) : t.val x = (x : Int) % 2 ^ t.bits := by
  simp [IntTy.val, toInt, ht]

/-- An exact integer that is a value of the type. -/
def Fits (t : IntTy) (x : Int) : Prop := IntTy.low t ≤ x ∧ x ≤ IntTy.high t

theorem fits_signed {t : IntTy} (ht : t.signed = true) (x : Int) :
    Fits t x ↔ -2 ^ (t.bits - 1) ≤ x ∧ x < 2 ^ (t.bits - 1) := by
  simp only [Fits, IntTy.low, IntTy.high, ht, if_true, Int.le_sub_one_iff]

theorem fits_unsigned {t : IntTy} (ht : t.signed = false) (x : Int) : Fits t x ↔ 0 ≤ x ∧ x < 2 ^ t.bits := by
  simp only [Fits, IntTy.low, IntTy.high, ht, Bool.false_eq_true, if_false, Int.le_sub_one_iff]

theorem val_fits (t : IntTy) (x : Nat) : Fits t (t.val x) := by
  cases ht : t.signed with
  | false =>
    rw [fits_unsigned ht, val_unsigned ht]
    exact ⟨Int.emod_nonneg _ (Int.ne_of_gt (two_pow_pos _)), Int.emod_lt_of_pos _ (two_pow_pos _)⟩
  | true =>
    have half := two_pow_bits t
    have hlow := Int.le_bmod (x := x) (m := 2 ^ t.bits) (Nat.two_pow_pos _)
    have hhigh := Int.bmod_lt (x := x) (m := 2 ^ t.bits) (Nat.two_pow_pos _)
    rw [fits_signed ht, val_signed ht]
    push_cast at hlow hhigh
    omega

theorem val_modPow {t : IntTy} {x : Int} (hx : Fits t x) : t.val (modPow x t.bits) = x := by
  cases ht : t.signed with
  | false =>
    rw [fits_unsigned ht] at hx
    rw [val_unsigned ht, cast_modPow, Int.emod_emod, Int.emod_eq_of_lt hx.1 hx.2]
  | true =>
    have half := two_pow_bits t
    rw [fits_signed ht] at hx
    have hmod : (modPow x t.bits : Int) = x % (2 ^ t.bits : Nat) := by
      rw [cast_modPow]
      push_cast
      rfl
    rw [val_signed ht, hmod, Int.emod_bmod]
    apply Int.bmod_eq_of_le <;> push_cast <;> omega

theorem val_mod (t : IntTy) (x : Nat) : t.val (x % 2 ^ t.bits) = t.val x := by
  simp [IntTy.val, toInt, signExt]

theorem fits_zero (t : IntTy) : Fits t 0 := by
  cases ht : t.signed with
  | false => exact (fits_unsigned ht 0).mpr ⟨Int.le_refl 0, two_pow_pos _⟩
  | true =>
    have hpos := two_pow_pos (t.bits - 1)
    rw [fits_signed ht]
    omega

theorem signed_of_val_neg {t : IntTy} {x : Nat} (hx : t.val x < 0) : t.signed = true := by
  cases ht : t.signed with
  | true => rfl
  | false =>
    have hfit := (fits_unsigned ht _).mp (val_fits t x)
    omega

theorem low_le_high (t : IntTy) : IntTy.low t ≤ IntTy.high t := Int.le_trans (fits_zero t).1 (fits_zero t).2

theorem low_fits (t : IntTy) : Fits t (IntTy.low t) := ⟨Int.le_refl _, low_le_high t⟩
theorem high_fits (t : IntTy) : Fits t (IntTy.high t) := ⟨low_le_high t, Int.le_refl _⟩

/-! ## Exact results (R207) -/

theorem satInt_eq (t : IntTy) (x : Int) : satInt t.signed t.bits x = max (IntTy.low t) (min (IntTy.high t) x) := rfl

theorem satInt_fits (t : IntTy) (x : Int) : Fits t (satInt t.signed t.bits x) := by
  have := low_le_high t
  rw [satInt_eq]
  constructor <;> omega

/-- R207: a result is its exact value, reduced or clamped. -/
theorem intResult_exactly (t : IntTy) (sat : Bool) (x : Int) : Exactly t sat x (intResult t sat x) := by
  cases sat with
  | false => exact ⟨modPow_lt x t.bits, fun _ => ⟨cast_modPow x t.bits, rfl⟩, nofun⟩
  | true =>
    have hval : t.val (intResult t true x).1 = satInt t.signed t.bits x := val_modPow (satInt_fits t x)
    have hflag : (intResult t true x).2 = if satInt t.signed t.bits x = x then 0#8 else fIOV := rfl
    have hle := low_le_high t
    refine ⟨modPow_lt _ t.bits, nofun, fun _ => ?_⟩
    rw [hval, hflag, satInt_eq]
    refine ⟨fun hlow hhigh => ?inside, fun hlow => ?below, fun hhigh => ?above⟩
    case inside =>
      have hmid : max (IntTy.low t) (min (IntTy.high t) x) = x := by omega
      simp [hmid]
    case below =>
      have hlo : max (IntTy.low t) (min (IntTy.high t) x) = IntTy.low t := by omega
      simp [hlo, Int.ne_of_gt hlow]
    case above =>
      have hhi : max (IntTy.low t) (min (IntTy.high t) x) = IntTy.high t := by omega
      simp [hhi, Int.ne_of_lt hhigh]

/-! ## Quotients and remainders (R208, Table 7-8) -/

/-- R208: the one quotient that is no value of its type. -/
def QuotientOverflows (t : IntTy) (x y : Nat) : Prop := t.val y = -1 ∧ t.val x = IntTy.low t

theorem quotientOverflows_iff (t : IntTy) (x y : Nat) :
    (t.signed = true ∧ t.val x = minInt true t.bits ∧ t.val y = -1) ↔ QuotientOverflows t x y := by
  constructor
  · rintro ⟨ht, hx, hy⟩
    exact ⟨hy, by simpa [IntTy.low, minInt, ht] using hx⟩
  · rintro ⟨hy, hx⟩
    have ht : t.signed = true := signed_of_val_neg (x := y) (by omega)
    exact ⟨ht, by simpa [IntTy.low, minInt, ht] using hx, hy⟩

section
variable {t : IntTy} {x y : Nat}

theorem intDiv_of_zero (hy : t.val y = 0) :
    intDiv t x y = (modPow (if t.val x < 0 then IntTy.low t else IntTy.high t) t.bits, fIDZ) := by
  cases ht : t.signed with
  | true => simp [intDiv, hy, ht, minInt, maxInt, IntTy.low, IntTy.high]
  | false =>
    have hx : ¬ t.val x < 0 := fun hneg => by simp [signed_of_val_neg hneg] at ht
    simp [intDiv, hy, ht, hx, maxInt, IntTy.high]

theorem intDiv_of_overflow (h : QuotientOverflows t x y) : intDiv t x y = (modPow (IntTy.low t) t.bits, fIOV) := by
  have hy : t.val y ≠ 0 := by
    rw [h.1]
    decide
  unfold intDiv
  dsimp only
  rw [if_neg hy, if_pos ((quotientOverflows_iff t x y).mpr h), h.2]

theorem intDiv_of_regular (hy : t.val y ≠ 0) (h : ¬ QuotientOverflows t x y) :
    intDiv t x y = (modPow (Int.tdiv (t.val x) (t.val y)) t.bits, 0#8) := by
  simp only [intDiv, hy, if_false, mt (quotientOverflows_iff t x y).mp h]

theorem intRem_of_zero (hy : t.val y = 0) : intRem t x y = (x % 2 ^ t.bits, fIDZ) := by
  simp [intRem, hy]

theorem intRem_of_overflow (h : QuotientOverflows t x y) : intRem t x y = (0, fIOV) := by
  have hy : t.val y ≠ 0 := by
    rw [h.1]
    decide
  unfold intRem
  dsimp only
  rw [if_neg hy, if_pos ((quotientOverflows_iff t x y).mpr h)]

theorem intRem_of_regular (hy : t.val y ≠ 0) (h : ¬ QuotientOverflows t x y) :
    intRem t x y = (modPow (Int.tmod (t.val x) (t.val y)) t.bits, 0#8) := by
  simp only [intRem, hy, if_false, mt (quotientOverflows_iff t x y).mp h]

/-- Every quotient but the one that overflows is a value of the type: a divisor of magnitude 2 or more at least halves the dividend. -/
theorem tdiv_fits (hy : t.val y ≠ 0) (h : ¬ QuotientOverflows t x y) : Fits t (Int.tdiv (t.val x) (t.val y)) := by
  have hx := val_fits t x
  cases ht : t.signed with
  | false =>
    rw [fits_unsigned ht] at hx ⊢
    have hy := (fits_unsigned ht _).mp (val_fits t y)
    exact ⟨Int.tdiv_nonneg hx.1 hy.1, Int.lt_of_le_of_lt (Int.tdiv_le_self _ hx.1) hx.2⟩
  | true =>
    have hlow : IntTy.low t = -2 ^ (t.bits - 1) := by simp [IntTy.low, ht]
    unfold QuotientOverflows at h
    rw [hlow] at h
    rw [fits_signed ht] at hx ⊢
    have hq : (Int.tdiv (t.val x) (t.val y)).natAbs = (t.val x).natAbs / (t.val y).natAbs := Int.natAbs_tdiv _ _
    obtain hone | hneg | hbig : t.val y = 1 ∨ t.val y = -1 ∨ 2 ≤ (t.val y).natAbs := by omega
    · rw [hone, Int.tdiv_one]
      exact hx
    · rw [hneg, Int.tdiv_neg, Int.tdiv_one]
      omega
    · have hhalf : (t.val x).natAbs / (t.val y).natAbs ≤ (t.val x).natAbs / 2 := Nat.div_le_div_left hbig (by decide)
      omega

/-- A remainder stands between 0 and the dividend. -/
theorem tmod_fits : Fits t (Int.tmod (t.val x) (t.val y)) := by
  obtain ⟨hlow, hhigh⟩ := val_fits t x
  obtain ⟨hlow0, hhigh0⟩ := fits_zero t
  have hle : (Int.tmod (t.val x) (t.val y)).natAbs ≤ (t.val x).natAbs := by
    rw [Int.natAbs_tmod]
    exact Nat.mod_le _ _
  have hneg : t.val x ≤ 0 → Int.tmod (t.val x) (t.val y) ≤ 0 := fun hx => by
    have := Int.tmod_nonneg (t.val y) (Int.neg_nonneg_of_nonpos hx)
    rw [Int.neg_tmod] at this
    omega
  have hpos : 0 ≤ t.val x → 0 ≤ Int.tmod (t.val x) (t.val y) := Int.tmod_nonneg _
  constructor <;> omega

end

theorem intDiv_divides (t : IntTy) (x y : Nat) : Divides t x y (intDiv t x y) := by
  by_cases hy : t.val y = 0
  · rw [intDiv_of_zero hy]
    have hfit : Fits t (if t.val x < 0 then IntTy.low t else IntTy.high t) := by
      split
      · exact low_fits t
      · exact high_fits t
    refine ⟨modPow_lt _ _, fun _ => ⟨val_modPow hfit, rfl⟩, fun hneg => ?_, fun hne => absurd hy hne⟩
    omega
  · by_cases h : QuotientOverflows t x y
    · rw [intDiv_of_overflow h]
      exact ⟨modPow_lt _ _, fun h0 => absurd h0 hy, fun _ _ => ⟨val_modPow (low_fits t), rfl⟩, fun _ hno => absurd h hno⟩
    · rw [intDiv_of_regular hy h]
      exact ⟨modPow_lt _ _, fun h0 => absurd h0 hy, fun hneg hlow => absurd ⟨hneg, hlow⟩ h,
        fun _ _ => ⟨val_modPow (tdiv_fits hy h), rfl⟩⟩

theorem intRem_remains (t : IntTy) (x y : Nat) : Remains t x y (intRem t x y) := by
  by_cases hy : t.val y = 0
  · rw [intRem_of_zero hy]
    refine ⟨Nat.mod_lt _ (Nat.two_pow_pos _), fun _ => ⟨val_mod t x, rfl⟩, fun hneg => ?_, fun hne => absurd hy hne⟩
    omega
  · by_cases h : QuotientOverflows t x y
    · rw [intRem_of_overflow h]
      exact ⟨Nat.two_pow_pos _, fun h0 => absurd h0 hy, fun _ _ => ⟨rfl, rfl⟩, fun _ hno => absurd h hno⟩
    · rw [intRem_of_regular hy h]
      exact ⟨modPow_lt _ _, fun h0 => absurd h0 hy, fun hneg hlow => absurd ⟨hneg, hlow⟩ h,
        fun _ _ => ⟨val_modPow tmod_fits, rfl⟩⟩

/-! ## The shapes of the instructions (R74, R83, R92, R206) -/

@[simp] theorem setS_gid (g : Group) (k i : Nat) (x : W32) : (g.setS k i x).gid = g.gid := by
  unfold Group.setS
  split
  · split
    · exact Group.setSlot_gid g k _
    · rfl
  · split
    · rfl
    · split <;> rfl

@[simp] theorem setS_flight (g : Group) (k i : Nat) (x : W32) : (g.setS k i x).flight = g.flight := by
  unfold Group.setS
  split
  · split
    · exact Group.setSlot_flight g k _
    · rfl
  · split
    · rfl
    · split <;> rfl

@[simp] theorem writeS_gid (g : Group) (k : Nat) (ws : List (Nat × W32)) : (g.writeS k ws).gid = g.gid :=
  foldl_keeps (fun h : Group => h.gid = g.gid) _ (fun h w hh => (setS_gid h k w.1 w.2).trans hh) ws g rfl

@[simp] theorem writeS_flight (g : Group) (k : Nat) (ws : List (Nat × W32)) : (g.writeS k ws).flight = g.flight :=
  foldl_keeps (fun h : Group => h.flight = g.flight) _ (fun h w hh => (setS_flight h k w.1 w.2).trans hh) ws g rfl

section
variable {i : Guard → SBin → Instr} {b32 : Bool} {f : SBin → Nat → Nat → Val} {R : SBin → Nat → Nat → Val → Prop}

/-- An instruction of two scalar operands that runs f sets sD to what f gives, at once. -/
theorem scalarPair_of_exec (hx : ∀ gd o s, exec (i gd o) s = issue (i gd o) s (onGroup (runSBin o b32 (f o))))
    (hR : ∀ o a b, R o a b (f o a b)) : ScalarPair i b32 R := by
  intro gd o s gid k g hr
  have hissue : IssuesTo (i gd o) s k (runSBin o b32 (f o) k (g.picked k (i gd o)) g) (g.after k (i gd o)) :=
    issue_onGroup hr (runSBin o b32 (f o)) (writeS_gid g k _) (writeS_flight g k _) (hx gd o s)
  exact ⟨_, _, hR o _ _, rfl, hissue⟩

end

section
variable {i : Guard → VBin → Instr} {b32 : Bool} {f : VBin → Nat → Nat → Nat → Val} {R : VBin → Nat → Nat → Nat → Val → Prop}

/-- An instruction of two vector operands that runs f sets the selected lanes of vD to what f gives, at once. -/
theorem lanePair_of_exec (hx : ∀ gd o s, exec (i gd o) s = issue (i gd o) s (onGroup (runVBin o b32 (f o))))
    (hR : ∀ o d a b, R o d a b (f o d a b)) : LanePair i b32 R := by
  intro gd o s gid k g hr
  have hissue : IssuesTo (i gd o) s k (runVBin o b32 (f o) k (g.picked k (i gd o)) g) (g.after k (i gd o)) :=
    issue_onGroup hr (runVBin o b32 (f o)) (Group.putLanes_gid ..) (Group.putLanes_flight ..) (hx gd o s)
  exact ⟨vbinLane o b32 (f o) k g, _, fun l => hR o _ _ _, g.putLanes_set .., hissue⟩

end

theorem vbinLane_full (o : VBin) (f : Nat → Nat → Nat → Val) (k : Nat) (g : Group) (l : Nat) :
    vbinLane o false f k g l = f (g.vnum o.d o.ty.wide l) (g.vnum o.a o.ty.wide l) (g.vbInt k o.b o.ty.wide l) := by
  simp [vbinLane]

/-- A result that the core computes is owed to the destinations, and the program counter moves on. -/
theorem issuesLater_of_inCore {i : Instr} {s : State} {gid k : Nat} {g : Group} {la : BitVec 4} {f : Nat → LaneMask → Group → Writes}
    (hr : Ready s i gid k g) (hx : exec i s = issue i s (inCore la i f)) (hp : performsNow i = false) :
    IssuesLater i s k g la (regsOf g i).2 (f k (g.picked k i) g) :=
  hx.trans (issue_inCore hr la f hp)

/-! ## The obligations -/

/-- Settles O1: each instruction runs the exact result through intResult. -/
theorem scalarArithmetic : Obligations.ScalarArithmetic := by
  refine ⟨?add, ?sub, ?mul, ?mulh⟩
  case add => exact scalarPair_of_exec (fun _ _ _ => rfl) fun o _ _ => intResult_exactly o.ty o.sat _
  case sub => exact scalarPair_of_exec (fun _ _ _ => rfl) fun o _ _ => intResult_exactly o.ty o.sat _
  case mul => exact scalarPair_of_exec (fun _ _ _ => rfl) fun o _ _ => intResult_exactly o.ty o.sat _
  case mulh => exact scalarPair_of_exec (fun _ _ _ => rfl) fun o _ _ => intResult_exactly o.ty false _

/-- Settles O4: each instruction runs the exact result of a lane through intResult. -/
theorem vectorArithmetic : Obligations.VectorArithmetic := by
  refine ⟨?add, ?sub, ?mul, ?mulh, ?mad, ?abs⟩
  case add => exact lanePair_of_exec (fun _ _ _ => rfl) fun o _ _ _ => intResult_exactly o.ty o.sat _
  case sub => exact lanePair_of_exec (fun _ _ _ => rfl) fun o _ _ _ => intResult_exactly o.ty o.sat _
  case mul => exact lanePair_of_exec (fun _ _ _ => rfl) fun o _ _ _ => intResult_exactly o.ty o.sat _
  case mulh => exact lanePair_of_exec (fun _ _ _ => rfl) fun o _ _ _ => intResult_exactly o.ty false _
  case mad => exact lanePair_of_exec (fun _ _ _ => rfl) fun o _ _ _ => intResult_exactly o.ty o.sat _
  case abs =>
    intro gd o s gid k g hr
    exact ⟨fun l => intAbs o.ty o.sat (g.vnum o.a o.ty.wide l), _, fun l => intResult_exactly o.ty o.sat _, g.putLanes_set ..,
      issue_onGroup hr _ (Group.putLanes_gid ..) (Group.putLanes_flight ..) rfl⟩

/-- Settles O6: each instruction owes what intDiv or intRem gives, and these meet Table 7-8. -/
theorem division : Obligations.Division := by
  refine ⟨?sdiv, ?srem, ?vdiv, ?vrem⟩
  case sdiv =>
    intro gd la o s gid k g hr
    exact ⟨_, intDiv_divides o.ty _ _, issuesLater_of_inCore (f := laterSBin o (intDiv o.ty)) hr rfl rfl⟩
  case srem =>
    intro gd la o s gid k g hr
    exact ⟨_, intRem_remains o.ty _ _, issuesLater_of_inCore (f := laterSBin o (intRem o.ty)) hr rfl rfl⟩
  case vdiv =>
    intro gd la o s gid k g hr
    refine ⟨vbinLane o false (fun _ => intDiv o.ty) k g, fun l => ?_,
      issuesLater_of_inCore (f := laterVBin o fun _ => intDiv o.ty) hr rfl rfl⟩
    rw [vbinLane_full]
    exact intDiv_divides o.ty _ _
  case vrem =>
    intro gd la o s gid k g hr
    refine ⟨vbinLane o false (fun _ => intRem o.ty) k g, fun l => ?_,
      issuesLater_of_inCore (f := laterVBin o fun _ => intRem o.ty) hr rfl rfl⟩
    rw [vbinLane_full]
    exact intRem_remains o.ty _ _

end Sys2Proof.Integers
